-- ==== Sys2Proof/Word.lean ====
section
/-! DEFINITION. The words of the TL20: bytes, addresses, chain numbers, and little-endian numbers (00 section 0.6). -/

namespace Sys2Proof

/-- One byte of memory. -/
abbrev Byte := BitVec 8

/-- A physical address: 40 bits (00 section 0.6.3). -/
abbrev PhysAddr := BitVec 40

/-- A 64-bit address field as memory holds it: a link, an effective address (00 section 0.6.3). -/
abbrev Addr64 := BitVec 64

/-- The number of a chain, 0 to 3 (00 Table 0-3). -/
abbrev ChainId := Fin 4

/-- The number of a flag, F0 to F31 (00 Table 0-3). -/
abbrev FlagId := Fin 32

/-- The number of a mapping entry, M0 to M31 (00 Table 0-3). -/
abbrev EntryId := Fin 32

/-- The four chains in order of their numbers. -/
def allChains : List ChainId := [0, 1, 2, 3]

end Sys2Proof
end

