-- ==== Sys2Proof/Syntax.lean ====
section
/-! DEFINITION. The commands of the TL20: one constructor of `Instr` for each row of spec/opcode_table.json. The table
gives the rows no operands; the operands are those the rules name (log 23). -/

namespace Sys2Proof

/-- How the memory system answers a read of the part (09 R158). -/
inductive ReadAnswer where
  /-- At least one piece was answered with an error response; its data are unusable. -/
  | error
  /-- Every piece was acknowledged, with these bytes in order of the access's ranges. -/
  | data (bytes : List Byte)
  deriving DecidableEq, Repr

/-- How the memory system answers a write of the part (09 R158). `landed` lists the physical addresses whose bytes have
changed memory: "the pieces that were acknowledged have changed memory and the pieces that failed may not have" (log 4). -/
inductive WriteAnswer where
  /-- Every piece was acknowledged. -/
  | acknowledged
  /-- At least one piece was answered with an error response. -/
  | error (landed : List Nat)
  /-- Only in a soft reset: every piece issued before it began was answered, and the rest is never issued (04 R87
  step 3, 09 R169; log 13). -/
  | cut (landed : List Nat)
  deriving DecidableEq, Repr

/-- The commands: register writes of the host, the answers of the memory system, and the events of the blocks. -/
inductive Instr where
  /-- RESET_N low and then rising (10 R182). -/
  | powerOnReset
  /-- A CONTROL write with SOFT_RESET at 1; `ten` is its TEN field (10 R172, R179). -/
  | softReset (ten : Bool)
  /-- The end of the drain of a soft reset (10 R180). -/
  | softResetEnd
  /-- A CONTROL write with SOFT_RESET at 0 (10 R172). -/
  | tenWrite (ten : Bool)
  /-- A write to EXCHANGE_BASE (10 R173). -/
  | exchangeBaseWrite (value : BitVec 32)
  /-- CHAIN_COMMAND with START (01 R20). -/
  | start (chain : ChainId)
  /-- CHAIN_COMMAND with PAUSE (01 R21). -/
  | pause (chain : ChainId)
  /-- CHAIN_COMMAND with RESUME (01 R25). -/
  | resume (chain : ChainId)
  /-- CHAIN_COMMAND with ABORT (01 R26). -/
  | abort (chain : ChainId)
  /-- A write to FLAG_SET (02 R32). -/
  | flagSet (mask : BitVec 32)
  /-- A write to FLAG_CLEAR (02 R32). -/
  | flagClear (mask : BitVec 32)
  /-- A write to ATTENTION_MASK (10 R177). -/
  | attentionMaskWrite (value : BitVec 32)
  /-- A write to ERROR; bit 0 is the clear bit (09 R168, 10 R178). -/
  | errorClear (value : BitVec 32)
  /-- A write that the Control Port ignores (10 R170). -/
  | ignoredRegisterWrite (offset : BitVec 12) (value : BitVec 32) (strobes : BitVec 4)
  /-- The directory read of a START is answered (01 R3). -/
  | directoryRead (chain : ChainId) (answer : ReadAnswer)
  /-- The first part of a record read is answered (01 R5). -/
  | recordHeaderRead (chain : ChainId) (answer : ReadAnswer)
  /-- The second part of a record read is answered (01 R6). -/
  | recordSecondPartRead (chain : ChainId) (answer : ReadAnswer)
  /-- The link re-read of a retire is answered (01 R12). -/
  | linkReRead (chain : ChainId) (answer : ReadAnswer)
  /-- The re-read of an anchor's link, or of the directory head, is answered (01 R17). -/
  | anchorLinkReRead (chain : ChainId) (answer : ReadAnswer)
  /-- The outcome write is answered (01 R13). -/
  | outcomeWrite (chain : ChainId) (answer : WriteAnswer)
  /-- The release write is answered (01 R18). -/
  | releaseWrite (chain : ChainId) (answer : WriteAnswer)
  /-- A status write is answered (01 R14): the `nth` of the chain's outstanding status writes, in order of issue,
  counted from 0 (break tails run beside the chain's own, 09 R164). -/
  | statusWrite (chain : ChainId) (nth : Nat) (answer : WriteAnswer)
  /-- The line arbiter makes a fetch grant decision (04 R70). -/
  | fetchGrantDecision
  /-- Every read of the fetch into this input buffer is answered (04 R74). -/
  | fetchComplete (buffer : Fin 2) (answer : ReadAnswer)
  /-- A conversion starts (04 R76). -/
  | conversionStart
  /-- The running conversion completes (04 R77). -/
  | conversionComplete
  /-- Every write of the store from this output buffer is answered (04 R79). -/
  | storeAnswered (buffer : Fin 2) (answer : WriteAnswer)
  /-- A table read covering source bytes `offset` to `offset + length - 1` of the TABLE job is answered (06 R116). -/
  | tableReadAnswered (offset length : Nat) (answer : ReadAnswer)
  /-- The arrival of an admitted SURFACE job at the Surface Table (03 R51). -/
  | surfaceWork (chain : ChainId)
  /-- The arrival of an admitted COEFF job at the Transform Unit (06 R122). -/
  | coeffWork (chain : ChainId)
  /-- The arrival of an admitted MAP job at the Translation Unit (08 R149). -/
  | mapWork (chain : ChainId)
  deriving DecidableEq, Repr

end Sys2Proof
end

