-- ==== Sys2Proof/WellFormed.lean ====
section
/-! DEFINITION. Which commands can be sent: the operands that do not name an event of the part are refused here. -/

namespace Sys2Proof

/-- The bytes of the answer, where it has bytes, number `n`. -/
def ReadAnswer.hasLength (n : Nat) : ReadAnswer → Bool
  | .error => true
  | .data bytes => bytes.length == n

/-- The number of bytes of the answer lies in the range. -/
def ReadAnswer.hasLengthIn (least most : Nat) : ReadAnswer → Bool
  | .error => true
  | .data bytes => decide (least ≤ bytes.length) && decide (bytes.length ≤ most)

/-- The second part of a record: a body of 0, 32 or 64 bytes, a guard and actions of 8 bytes each (11 section 11.2). -/
def ReadAnswer.isSecondPart : ReadAnswer → Bool
  | .error => true
  | .data bytes => bytes.length % 8 == 0 && decide (8 ≤ bytes.length) && decide (bytes.length ≤ 104)

/-- Landed addresses are physical (00 section 0.6.3). -/
def WriteAnswer.isPhysical : WriteAnswer → Bool
  | .acknowledged => true
  | .error landed => landed.all (· < 2 ^ 40)
  | .cut landed => landed.all (· < 2 ^ 40)

/-- 10 R170: the writes that the Control Port ignores: IDENT (0x00), COMMAND_STATUS (0x10), an unused offset, or byte
strobes not all set. An offset that is not a multiple of 4 counts as unused (log 11). -/
def ignoredWrite (offset : BitVec 12) (strobes : BitVec 4) : Bool :=
  strobes != 0xF#4 || offset == 0x00#12 || offset == 0x10#12 || decide (0x24 ≤ offset.toNat) || offset.toNat % 4 != 0

/-- A command that can be sent: read answers have the length their access can have, landed addresses are physical, a
table read lies within a table source, and an ignored write is one the port ignores. -/
def Instr.wellFormed : Instr → Bool
  | .powerOnReset => true
  | .softReset _ => true
  | .softResetEnd => true
  | .tenWrite _ => true
  | .exchangeBaseWrite _ => true
  | .start _ => true
  | .pause _ => true
  | .resume _ => true
  | .abort _ => true
  | .flagSet _ => true
  | .flagClear _ => true
  | .attentionMaskWrite _ => true
  | .errorClear _ => true
  | .ignoredRegisterWrite offset _ strobes => ignoredWrite offset strobes
  | .directoryRead _ answer => answer.hasLength 32
  | .recordHeaderRead _ answer => answer.hasLength 32
  | .recordSecondPartRead _ answer => answer.isSecondPart
  | .linkReRead _ answer => answer.hasLength 8
  | .anchorLinkReRead _ answer => answer.hasLength 8
  | .outcomeWrite _ answer => answer.isPhysical
  | .releaseWrite _ answer => answer.isPhysical
  | .statusWrite _ _ answer => answer.isPhysical
  | .fetchGrantDecision => true
  | .fetchComplete _ answer => answer.hasLengthIn 1 16388
  | .conversionStart => true
  | .conversionComplete => true
  | .storeAnswered _ answer => answer.isPhysical
  | .tableReadAnswered offset length answer =>
    decide (1 ≤ length) && decide (offset + length ≤ 2048) && answer.hasLength length
  | .surfaceWork _ => true
  | .coeffWork _ => true
  | .mapWork _ => true

end Sys2Proof
end

