-- ==== Sys2Proof/Decode.lean ====
section
/-! DEFINITION. Reading commands from words. The opcode table gives no row any bits, so no word spells a command
(log 15). The APB write layouts of 10 Table 10-2 are read here too. -/

namespace Sys2Proof

/-- spec/opcode_table.json gives no row any bits, so no word is a command. -/
def decodeTableWord (_nbits _w : Nat) : Option Instr := none

/-- The chain command of a CHAIN_COMMAND write: chain in bits 1-0, command in bits 5-4, other bits ignored
(10 Table 10-2, R174). -/
def Instr.ofChainCommand (value : BitVec 32) : Instr :=
  let chain : ChainId := Fin.ofNat 4 value.toNat
  match (value.extractLsb' 4 2).toNat with
  | 0 => .start chain
  | 1 => .pause chain
  | 2 => .resume chain
  | _ => .abort chain

/-- The command that an APB write is: the register window of 10 Table 10-1 and the layouts of Table 10-2. -/
def Instr.ofApbWrite (offset : BitVec 12) (value : BitVec 32) (strobes : BitVec 4) : Instr :=
  if ignoredWrite offset strobes then .ignoredRegisterWrite offset value strobes
  else match offset.toNat with
    | 0x04 => if value.getLsbD 1 then .softReset (value.getLsbD 0) else .tenWrite (value.getLsbD 0)
    | 0x08 => .exchangeBaseWrite value
    | 0x0C => .ofChainCommand value
    | 0x14 => .flagSet value
    | 0x18 => .flagClear value
    | 0x1C => .attentionMaskWrite value
    | 0x20 => .errorClear value
    | _ => .ignoredRegisterWrite offset value strobes

end Sys2Proof
end

