-- ==== Sys2Proof/Config.lean ====
section
/-! DEFINITION. The values the manual leaves free. Each is an opaque constant: no proof can see what it is. -/

namespace Sys2Proof

/-- Which of several things that one arrival sets going is taken first (06 section 6.7, 08 R135: "Arrivals that come
together may be taken in either order"). Applied to `State.choices`, the count of choices made so far. Log 5. -/
opaque Config.takenFirst : Nat → Nat

/-- The 40-bit address at which the part reads a byte of a record whose exact address is at or past 2^40: the manual does
not say (log 7). Applied to the exact address. -/
opaque Config.pastTop : Nat → PhysAddr

/-- Which of the pieces of one store that cover one physical byte is the last to write it (04 R78: "writes of one store may
be issued and answered in any order among themselves"; 09 R158). Applied to `State.choices` and the byte's address. Log 26. -/
opaque Config.lastPiece : Nat → Nat → Nat

end Sys2Proof
end

