-- ==== Sys2Proof/Machine/State.lean ====
section
/-! DEFINITION. The state of the TL20 as plain data, block by block (00 Table 0-1), and the state after power-on reset. -/

namespace Sys2Proof.Machine

/-! ## Chain Unit (01) -/

/-- 01 Table 1-2. -/
inductive ChainState where
  | idle | reading | waiting | active | parked | paused | halted | broken | aborting
  deriving DecidableEq, Repr

/-- 01 Table 1-1: the privilege of a chain. -/
inductive Privilege where
  | config | data
  deriving DecidableEq, Repr

/-- 01 Table 1-3: where a PAUSED chain goes on. -/
inductive ResumePoint where
  | readNext | guard | run | park
  deriving DecidableEq, Repr

/-- 01 Table 1-3: why a chain broke. -/
inductive BreakReason where
  | none | directoryRead | recordRead | badLink | outcomeWrite | releaseWrite
  deriving DecidableEq, Repr

/-- 01 Table 1-8: how a job ended. -/
inductive Code where
  | ok | skipped | aborted | badRecord | notPermitted | noSurface | badSurface | range | shape | badEntry | address
  | miss | readDenied | writeDenied | busRead | busWrite | checkFail
  deriving DecidableEq, Repr

/-- 01 section 1.7: the source of the link a parked or halted chain re-reads. -/
inductive Anchor where
  | directory
  | record (address : PhysAddr)
  deriving DecidableEq, Repr

/-- The parameters latched from the directory entry at START (01 R1, R3). -/
structure Latched where
  priority : Fin 4
  context : Fin 16
  wakeFlag : FlagId
  faultFlag : Option FlagId
  privilege : Privilege
  deriving DecidableEq, Repr

/-- The chain context of 01 Table 1-3. -/
structure Chain where
  state : ChainState
  latched : Latched
  inHand : Option PhysAddr
  anchor : Option Anchor
  next : Option PhysAddr
  resume : Option ResumePoint
  pauseMark : Bool
  breakReason : BreakReason
  lastCode : Code
  lastTag : BitVec 16
  retireCount : BitVec 32
  deriving DecidableEq, Repr

/-- 01 R1: the chain context after power-on reset and after soft reset. -/
def Chain.atRest : Chain where
  state := .idle
  latched := { priority := 3, context := 0, wakeFlag := 0, faultFlag := none, privilege := .data }
  inHand := none
  anchor := none
  next := none
  resume := none
  pauseMark := false
  breakReason := .none
  lastCode := .ok
  lastTag := 0
  retireCount := 0

/-! ## Job records (01, 02, 11) -/

/-- The seven kinds of job (11 Table 11-5). -/
inductive Kind where
  | convert | copy | surface | map | table | coeff | signal
  deriving DecidableEq, Repr

/-- 11 Table 11-5: what a record's outcome state says. -/
inductive OutcomeState where
  | pending | doneHeld | doneFree
  deriving DecidableEq, Repr

/-- 11 Table 11-5, options bit 1. -/
inductive FaultPolicy where
  | halt | continue_
  deriving DecidableEq, Repr

/-- 11 Table 11-5, options bit 2. -/
inductive CheckPolicy where
  | report | stop
  deriving DecidableEq, Repr

/-- 02 section 2.5. -/
inductive GuardMode where
  | wait | skip
  deriving DecidableEq, Repr

/-- A guard (02 section 2.5); `wanted` true is "set". -/
structure Guard where
  flag : FlagId
  wanted : Bool
  mode : GuardMode
  consume : Bool
  deriving DecidableEq, Repr

/-- 02 section 2.6. -/
inductive FlagOp where
  | set | clear | toggle
  deriving DecidableEq, Repr

/-- 02 Table 2-6. -/
inductive Condition where
  | always | ok | fault | skip | zero | neg | sat | stray | check
  deriving DecidableEq, Repr

/-- A post action (02 section 2.6). -/
structure PostAction where
  flag : FlagId
  op : FlagOp
  condition : Condition
  deriving DecidableEq, Repr

/-- The line range of a CONVERT or COPY body (11 Table 11-9). -/
structure LineBody where
  sourceSlot : Byte
  destSlot : Byte
  sourceFirst : BitVec 16
  destFirst : BitVec 16
  lineCount : BitVec 16
  deriving DecidableEq, Repr

/-- The transform parameters of a CONVERT body, undecoded (11 Table 11-9). -/
structure TransformBody where
  transform : Byte
  indexWidth : Byte
  coeffSet : Byte
  widen : Byte
  fill : BitVec 32
  deriving DecidableEq, Repr

/-- A tap entry of a SURFACE body, undecoded (11 Table 11-10). -/
structure TapBody where
  origin : BitVec 16
  step : Byte
  direction : Byte
  deriving DecidableEq, Repr

/-- A SURFACE body, undecoded (11 Table 11-10). -/
structure SurfaceBody where
  slot : Byte
  operation : Byte
  laneWidth : Byte
  trailer : Byte
  sampleKind : Byte
  chromaOrder : Byte
  tableBase : Byte
  tapMapPresent : Byte
  base : Addr64
  pitch : BitVec 32
  lineCount : BitVec 16
  lanes : BitVec 16
  tapCount : Byte
  rotation : Byte
  pixels : BitVec 16
  taps : List TapBody
  deriving DecidableEq, Repr

/-- A MAP body, undecoded (11 Table 11-11). -/
structure MapBody where
  slot : Byte
  operation : Byte
  context : Byte
  shared : Byte
  size : Byte
  readRight : Byte
  writeRight : Byte
  effectiveBase : Addr64
  physicalBase : Addr64
  deriving DecidableEq, Repr

/-- A TABLE body (11 Table 11-12). -/
structure TableBody where
  source : Addr64
  first : BitVec 16
  count : BitVec 16
  deriving DecidableEq, Repr

/-- A COEFF body, undecoded (11 Table 11-12). -/
structure CoeffBody where
  set : Byte
  order : Byte
  k1 : BitVec 16
  k2 : BitVec 16
  k3 : BitVec 16
  k4 : BitVec 16
  deriving DecidableEq, Repr

/-- The body of a job as read; `unread` until the second part has arrived. SIGNAL has no body. -/
inductive Body where
  | unread
  | convert (lines : LineBody) (transform : TransformBody)
  | copy (lines : LineBody)
  | surface (body : SurfaceBody)
  | map (body : MapBody)
  | table (body : TableBody)
  | coeff (body : CoeffBody)
  | signal
  deriving DecidableEq, Repr

/-! ## Surfaces (03) -/

/-- 03 Table 3-1. -/
inductive Trailer where
  | none | crc
  deriving DecidableEq, Repr

/-- 03 Table 3-1. -/
inductive SampleKind where
  | plain | paired
  deriving DecidableEq, Repr

/-- 03 Table 3-1. -/
inductive ChromaOrder where
  | uFirst | vFirst
  deriving DecidableEq, Repr

/-- 03 Table 3-1. -/
inductive Direction where
  | ascend | descend
  deriving DecidableEq, Repr

/-- A tap entry (05 section 5.5). -/
structure Tap where
  origin : Nat
  step : Nat
  direction : Direction
  deriving DecidableEq, Repr

/-- A tap map; the tap count T is the number of its taps (03 Table 3-1). -/
structure TapMap where
  rotation : Nat
  pixels : Nat
  taps : List Tap
  deriving DecidableEq, Repr

/-- The surface record of a valid slot (03 Table 3-1). -/
structure Surface where
  base : Addr64
  pitch : Nat
  lineCount : Nat
  laneWidth : Nat
  lanes : Nat
  trailer : Trailer
  sampleKind : SampleKind
  chromaOrder : ChromaOrder
  tableBase : Nat
  tapMap : Option TapMap
  payload : Nat
  trailerOffset : Nat
  footprint : Nat
  deriving DecidableEq, Repr

/-! ## Transform Unit (06) -/

/-- 06 Table 6-9. -/
inductive ComponentOrder where
  | rgb | bgr
  deriving DecidableEq, Repr

/-- A coefficient set (06 Table 6-1). -/
structure CoeffSet where
  k1 : Nat
  k2 : Nat
  k3 : Nat
  k4 : Nat
  order : ComponentOrder
  deriving DecidableEq, Repr

/-- The kind of a claim at the table gate (06 Table 6-1). -/
inductive TableClaim where
  | table | lookup
  deriving DecidableEq, Repr

/-- The table gate (06 Table 6-1): sets of chains are kept chain by chain. -/
structure TableGate where
  users : Vector Bool 4
  holder : Option ChainId
  waiting : Vector (Option TableClaim) 4
  deriving DecidableEq, Repr

/-- The line marks of the line being converted (06 R112). -/
structure LineMarks where
  neg : Bool
  sat : Bool
  allZero : Bool
  deriving DecidableEq, Repr

/-! ## Translation Unit and Memory Port (08, 09) -/

/-- A physical byte range. -/
structure PhysRange where
  start : PhysAddr
  bytes : Nat
  deriving DecidableEq, Repr

/-- 08 Table 8-2: the size of a page. -/
inductive PageSize where
  | size4K | size64K | size2M | size1G
  deriving DecidableEq, Repr

/-- A valid mapping entry (08 Table 8-2). -/
structure MapEntry where
  context : Fin 16
  shared : Bool
  size : PageSize
  effectiveBase : Addr64
  physicalBase : PhysAddr
  readRight : Bool
  writeRight : Bool
  deriving DecidableEq, Repr

/-- The replacement gate (08 Table 8-1). -/
structure ReplGate where
  holder : Option ChainId
  waiting : Vector Bool 4
  deriving DecidableEq, Repr

/-- What follows when a status write has been answered (01 R14, R16, R27, 09 R164). -/
inductive StatusNext where
  /-- The status write of a retire whose outcome write carried this state. -/
  | retire (outcome : OutcomeState)
  /-- The status write of an entry into PARKED. -/
  | park
  /-- The status write that ends ABORTING. -/
  | abortEnd
  /-- The status write of a break tail, with the fault flag latched at the break. -/
  | breakTail (flag : Option FlagId)
  /-- The status write of an entry into PARKED that a PAUSE has left since: nothing follows (log 10). -/
  | nothing
  /-- The same, where a RESUME has entered PARKED again since: the status entry is written again (log 10). -/
  | parkAgain
  /-- The status write of an entry into PARKED whose chain has taken ABORT since: the abort goes on (log 10). -/
  | abortAnchor
  deriving DecidableEq, Repr

/-- The step that called for a release (01 R18). -/
inductive ReleaseNext where
  | readNext | directory | abortEnd
  deriving DecidableEq, Repr

/-- The kinds of access of 09 Table 9-1, with what the asking block needs at the answer. -/
inductive AccessKind where
  /-- directory read at START -/
  | directoryRead
  /-- directory read of the head field at a wake -/
  | headReRead
  /-- record read, first part -/
  | headerRead
  /-- record read, second part -/
  | secondPartRead
  /-- link re-read at retire -/
  | linkReRead
  /-- link re-read of a record anchor -/
  | anchorReRead
  | outcomeWrite (outcome : OutcomeState) (byAbort : Bool)
  | releaseWrite (next : ReleaseNext) (record : PhysAddr)
  | statusWrite (next : StatusNext)
  | lineFetch (buffer : Fin 2)
  | lineStore (buffer : Fin 2)
  | tableRead
  deriving DecidableEq, Repr

/-- An entry of the outstanding access list (09 R157). `line` is the job line of a line fetch or store. `cells` are the
bytes a write carries and has not yet seen take effect, empty for a read (log 4). -/
structure Access where
  kind : AccessKind
  chain : ChainId
  line : Option Nat
  ranges : List PhysRange
  cells : List Host.Cell
  deriving DecidableEq, Repr

/-! ## The in-flight job (01 R9) -/

/-- 01 Table 1-4. -/
inductive Phase where
  | admitting | running | draining | reporting
  deriving DecidableEq, Repr

/-- The lines-stored record (04 R69); `above` pairs a stored line with its all-zero mark. `failed` are the lines above
the prefix that were reported faulted, answered with an error or discarded; the lowest of them is a view (log 17). -/
structure LinesStored where
  prefixLen : Nat
  above : List (Nat × Bool)
  closed : Bool
  failed : List Nat
  zeroSoFar : Bool
  deriving DecidableEq, Repr

/-- 04 R68: the lines-stored record of a job just admitted. -/
def LinesStored.empty : LinesStored where
  prefixLen := 0
  above := []
  closed := false
  failed := []
  zeroSoFar := true

/-- The result flags of a job (06 section 6.5). -/
structure ResultFlags where
  zero : Bool
  neg : Bool
  sat : Bool
  stray : Bool
  check : Bool
  deriving DecidableEq, Repr

/-- No result flag set. -/
def ResultFlags.none : ResultFlags where
  zero := false
  neg := false
  sat := false
  stray := false
  check := false

/-- What is known of one source byte of a table load (06 R116). -/
inductive SourceByte where
  | unanswered
  | arrived (value : Byte)
  | failed
  deriving DecidableEq, Repr

/-- A table load under way (06 R116). -/
structure TableLoad where
  ranges : List PhysRange
  source : List SourceByte
  entriesLoaded : Nat
  deriving DecidableEq, Repr

/-- The in-flight job context of 01 Table 1-4. -/
structure Job where
  kind : Option Kind
  record : PhysAddr
  tag : BitVec 16
  guardPresent : Bool
  onFault : FaultPolicy
  check : CheckPolicy
  actionCount : Nat
  guard : Option Guard
  actions : List PostAction
  guardPassed : Bool
  body : Body
  phase : Phase
  admitted : Bool
  source : Option Surface
  dest : Option Surface
  coeff : Option CoeffSet
  nextLine : Nat
  stored : LinesStored
  flags : ResultFlags
  firstFault : Option Code
  ended : Bool
  code : Option Code
  linesDone : Nat
  pins : BitVec 32
  held : Bool
  abortRequested : Bool
  load : Option TableLoad
  deriving DecidableEq, Repr

/-! ## Flag File (02) -/

/-- 02 Table 2-2: what a waiter waits for. -/
inductive WaiterKind where
  | guard | wake
  deriving DecidableEq, Repr

/-- A waiter of a chain (02 Table 2-2); its priority is the chain's latched priority. -/
structure Waiter where
  flag : FlagId
  wanted : Bool
  consuming : Bool
  kind : WaiterKind
  deriving DecidableEq, Repr

/-! ## Line Engine, Tap Untangler, Trailer Unit (04, 05, 07) -/

/-- 04 Table 4-2. -/
inductive Stage where
  | fetching | fetched | converting | storing
  deriving DecidableEq, Repr

/-- A line record (04 Table 4-1). -/
structure LineRecord where
  chain : ChainId
  jobLine : Nat
  sourceLine : Nat
  destLine : Nat
  stage : Stage
  inputBuffer : Option (Fin 2)
  outputBuffer : Option (Fin 2)
  fetchRanges : List PhysRange
  storeRanges : List PhysRange
  discard : Bool
  allZero : Bool
  deriving DecidableEq, Repr

/-- The conversion-in-progress mark: the line whose conversion is running (04 R65). -/
structure ConversionMark where
  chain : ChainId
  jobLine : Nat
  deriving DecidableEq, Repr

/-- The working image (05 R88): each pixel is uncovered (`none`) or holds a sample. -/
structure WorkingImage where
  pixels : List (Option Nat)
  stray : Bool
  deriving DecidableEq, Repr

/-- A fetch check (07 Table 7-1). -/
structure FetchCheck where
  crc : BitVec 32
  taken : Nat
  expected : Option (BitVec 32)
  deriving DecidableEq, Repr

/-- The pack check (07 Table 7-1). -/
structure PackCheck where
  crc : BitVec 32
  taken : Nat
  deriving DecidableEq, Repr

/-! ## Control Port (09 section 9.4, 10) -/

/-- 10 Table 10-2, COMMAND_STATUS bits 17-16. -/
inductive Result where
  | none | accepted | refused
  deriving DecidableEq, Repr

/-- 10 Table 10-2, COMMAND_STATUS bits 20-18. -/
inductive Reason where
  | none | busy | notRunning | notPaused | resetting
  deriving DecidableEq, Repr

/-- The last result (10 R175); `register` is the written register's offset divided by 4. -/
structure LastResult where
  result : Result
  reason : Reason
  register : BitVec 4
  chain : ChainId
  deriving DecidableEq, Repr

/-- 10 R175: the last result after power-on reset and from the start of a soft reset. -/
def LastResult.none : LastResult where
  result := .none
  reason := .none
  register := 0
  chain := 0

/-- 09 Table 9-4: the kind of an error report. -/
inductive ErrorKind where
  | none | directoryRead | recordRead | badLink | outcomeWrite | releaseWrite | statusWrite
  deriving DecidableEq, Repr

/-- The device error summary (09 Table 9-4). -/
structure ErrorSummary where
  pending : Bool
  firstKind : ErrorKind
  firstChain : ChainId
  further : BitVec 8
  deriving DecidableEq, Repr

/-- 09 Table 9-4: the summary after either reset and after a clear. -/
def ErrorSummary.clear : ErrorSummary where
  pending := false
  firstKind := .none
  firstChain := 0
  further := 0

/-! ## The machine -/

/-- Everything the TL20 holds, and the queue of the commands waiting. -/
structure State where
  -- Chain Unit
  chains : Vector Chain 4
  jobs : Vector (Option Job) 4
  -- Flag File
  flags : BitVec 32
  waiters : Vector (Option Waiter) 4
  -- Surface Table
  surfaces : Vector (Option Surface) 16
  -- Line Engine
  lines : List LineRecord
  inBuf : Vector (List Byte) 2
  outBuf : Vector (List Byte) 2
  passOver : Vector Nat 4
  conversion : Option ConversionMark
  -- Tap Untangler
  image : Option WorkingImage
  -- Transform Unit
  lut : Vector (BitVec 16) 1024
  coeffs : Vector CoeffSet 4
  tableGate : TableGate
  lineMarks : Option LineMarks
  -- Trailer Unit
  fetchChecks : Vector (Option FetchCheck) 2
  packCheck : Option PackCheck
  copyZero : Option Bool
  -- Translation Unit
  entries : Vector (Option MapEntry) 32
  pendingMark : Option EntryId
  replGate : ReplGate
  -- Memory Port
  accesses : List Access
  -- Control Port
  ten : Bool
  softReset : Bool
  exchangeBase : BitVec 28
  lastResult : LastResult
  attentionMask : BitVec 32
  errors : ErrorSummary
  -- the model's own fields (log 4, log 5, log 26) and the queue
  memory : List Host.Cell
  choices : Nat
  pending : List Instr
  deriving DecidableEq, Repr

/-- Why a step stops the machine. The TL20 never stops: a job fault is a completion code and a failed access breaks a
chain, both next states, so there is no constructor and no command raises one (log 18; safe: nothing is stopped). -/
inductive Fault : Type where
  deriving DecidableEq, Repr

/-- Why a command has no meaning. -/
inductive Refusal where
  /-- Raised by an arm of `exec` whose command has no meaning yet; no arm does. Safe: the model stops. -/
  | notModelled (mnemonic : String)
  deriving DecidableEq, Repr

/-- 06 Table 6-1: the table gate after either reset. -/
def TableGate.empty : TableGate where
  users := Vector.replicate 4 false
  holder := none
  waiting := Vector.replicate 4 none

/-- 08 Table 8-1: the replacement gate after either reset. -/
def ReplGate.empty : ReplGate where
  holder := none
  waiting := Vector.replicate 4 false

/-- 06 Table 6-1: a coefficient set after power-on reset. -/
def CoeffSet.atReset : CoeffSet where
  k1 := 0
  k2 := 0
  k3 := 0
  k4 := 0
  order := .rgb

/-- The machine after power-on reset (10 R182, and each block's own table of reset values). The queue, the memory bytes
written and the choice counter are the model's own and start empty (log 4, log 5, log 26). -/
def State.reset : State where
  chains := Vector.replicate 4 .atRest
  jobs := Vector.replicate 4 none
  flags := 0
  waiters := Vector.replicate 4 none
  surfaces := Vector.replicate 16 none
  lines := []
  inBuf := Vector.replicate 2 []
  outBuf := Vector.replicate 2 []
  passOver := Vector.replicate 4 0
  conversion := none
  image := none
  lut := Vector.replicate 1024 0
  coeffs := Vector.replicate 4 .atReset
  tableGate := .empty
  lineMarks := none
  fetchChecks := Vector.replicate 2 none
  packCheck := none
  copyZero := none
  entries := Vector.replicate 32 none
  pendingMark := none
  replGate := .empty
  accesses := []
  ten := false
  softReset := false
  exchangeBase := 0
  lastResult := .none
  attentionMask := 0
  errors := .clear
  memory := []
  choices := 0
  pending := []

end Sys2Proof.Machine
end

