-- ==== Sys2Proof/Machine/Flags.lean ====
section
/-! DEFINITION. The Flag File (02): flag operations, waiters, evaluation on change with its cascade of consumption, and the
conditions of post actions. -/

namespace Sys2Proof.Machine

/-- The state the Flag File owns (02 R30): the flags, and the waiter of each chain where it has one (02 R33). -/
structure FlagFile where
  flags : BitVec 32
  waiters : Vector (Option Waiter) 4
  deriving DecidableEq, Repr

/-- What a service tells a chain to do, and the drop of a job context that follows a retire's arrival (log 5). -/
inductive Followup where
  /-- The chain's WAIT guard was served: its job gets the guard-passed mark and goes on to admission (02 R36, R37). -/
  | passed (chain : ChainId)
  /-- The chain's wake claim was served: it re-reads its anchor's link (02 R37, 01 R17). -/
  | wake (chain : ChainId)
  /-- The job context of the retired job is dropped (01 R14). -/
  | drop (chain : ChainId)
  deriving DecidableEq, Repr

/-- The chain of highest priority: the lowest level, ties to the lower chain number (00 section 0.6.5; 02 R37, 04 R72,
R76, 06 R120, 08 R147). The chains are given in increasing order. -/
def bestChain (level : ChainId → Nat) : List ChainId → Option ChainId
  | [] => none
  | c :: rest =>
    match bestChain level rest with
    | none => some c
    | some d => if level d < level c then some d else some c

/-- The value of a flag. -/
def FlagFile.value (ff : FlagFile) (f : FlagId) : Bool := ff.flags.getLsbD f

/-- The flag with this value, every other flag as it was. -/
def FlagFile.put (ff : FlagFile) (f : FlagId) (v : Bool) : FlagFile :=
  { ff with flags := if v then ff.flags ||| BitVec.twoPow 32 f else ff.flags &&& ~~~ BitVec.twoPow 32 f }

/-- The chains whose waiter stands against the flag, with this consuming field, and wants its value. -/
def FlagFile.satisfied (ff : FlagFile) (f : FlagId) (consuming : Bool) : List ChainId :=
  allChains.filter fun c =>
    match ff.waiters[c] with
    | some w => w.flag == f && w.consuming == consuming && w.wanted == ff.value f
    | none => false

/-- What the service of the chain's waiter tells it. -/
def FlagFile.followup (ff : FlagFile) (c : ChainId) : Followup :=
  match ff.waiters[c] with
  | some { kind := .wake, .. } => .wake c
  | _ => .passed c

/-- The waiters of these chains leave their sets. -/
def FlagFile.unregister (ff : FlagFile) (cs : List ChainId) : FlagFile :=
  { ff with waiters := Vector.ofFn fun c => if cs.contains c then none else ff.waiters[c] }

/-- 02 R36 to R38: a flag that has a new value serves every satisfied non-consuming waiter, then one consuming waiter
by priority, which gives the flag the opposite value; that change is evaluated in turn. The cascade ends after at most
four consumptions, so `fuel` 5 is enough. -/
def FlagFile.evaluate (level : ChainId → Nat) (f : FlagId) : (fuel : Nat) → FlagFile → FlagFile × List Followup
  | 0, ff => (ff, [])
  | fuel + 1, ff =>
    let first := ff.satisfied f false
    let served := first.map ff.followup
    let ff := ff.unregister first
    match bestChain level (ff.satisfied f true) with
    | none => (ff, served)
    | some c =>
      let rest := FlagFile.evaluate level f fuel ((ff.unregister [c]).put f (!ff.value f))
      (rest.1, served ++ ff.followup c :: rest.2)

/-- The flag is given a value; a new value is evaluated, an operation without change starts nothing (02 section 2.1). -/
def FlagFile.change (level : ChainId → Nat) (f : FlagId) (v : Bool) (ff : FlagFile) : FlagFile × List Followup :=
  if ff.value f = v then (ff, []) else FlagFile.evaluate level f 5 (ff.put f v)

/-- One operation on one flag (02 section 2.1). -/
def FlagFile.apply (level : ChainId → Nat) (f : FlagId) (op : FlagOp) (ff : FlagFile) : FlagFile × List Followup :=
  match op with
  | .set => ff.change level f true
  | .clear => ff.change level f false
  | .toggle => ff.change level f (!ff.value f)

/-- 02 R43: operations of one arrival in list order, each evaluated before the next is applied. -/
def FlagFile.applyAll (level : ChainId → Nat) : List (FlagId × FlagOp) → FlagFile → FlagFile × List Followup
  | [], ff => (ff, [])
  | (f, op) :: rest, ff =>
    let one := ff.apply level f op
    let more := FlagFile.applyAll level rest one.1
    (more.1, one.2 ++ more.2)

/-- The evaluation of each flag of a list, one after another. -/
def FlagFile.evaluateAll (level : ChainId → Nat) : List FlagId → FlagFile → FlagFile × List Followup
  | [], ff => (ff, [])
  | f :: rest, ff =>
    let one := FlagFile.evaluate level f 5 ff
    let more := FlagFile.evaluateAll level rest one.1
    (more.1, one.2 ++ more.2)

/-- The flags in which two words differ, in increasing order. -/
def changedFlags (old new : BitVec 32) : List FlagId :=
  (List.finRange 32).filter fun f => old.getLsbD f != new.getLsbD f

/-- 02 R32: a host mask changes its flags together; each flag with a new value is then evaluated. -/
def FlagFile.hostWrite (level : ChainId → Nat) (new : BitVec 32) (ff : FlagFile) : FlagFile × List Followup :=
  FlagFile.evaluateAll level (changedFlags ff.flags new) { ff with flags := new }

/-- 02 R34: a waiter is registered. It is served at once where its wanted value holds, and a consuming one then
consumes the flag. -/
def FlagFile.register (level : ChainId → Nat) (c : ChainId) (w : Waiter) (ff : FlagFile) : FlagFile × List Followup :=
  if ff.value w.flag = w.wanted then
    let own := if w.kind = .wake then Followup.wake c else Followup.passed c
    if w.consuming then
      let more := ff.change level w.flag (!w.wanted)
      (more.1, own :: more.2)
    else (ff, [own])
  else ({ ff with waiters := ff.waiters.set c (some w) }, [])

/-- 02 Table 2-6: the codes that the condition FAULT holds for. -/
def Code.isFault : Code → Bool
  | .ok => false
  | .skipped => false
  | .aborted => false
  | .badRecord => true
  | .notPermitted => true
  | .noSurface => true
  | .badSurface => true
  | .range => true
  | .shape => true
  | .badEntry => true
  | .address => true
  | .miss => true
  | .readDenied => true
  | .writeDenied => true
  | .busRead => true
  | .busWrite => true
  | .checkFail => true

/-- 02 R42, Table 2-6: the condition holds for the outcome as written. -/
def Condition.holds (code : Code) (flags : ResultFlags) : Condition → Bool
  | .always => true
  | .ok => code == .ok
  | .fault => code.isFault
  | .skip => code == .skipped
  | .zero => flags.zero
  | .neg => flags.neg
  | .sat => flags.sat
  | .stray => flags.stray
  | .check => flags.check

/-- 02 R42 to R45: the operations of a retire's arrival: the post actions whose conditions hold, in list order (none
for a job that faulted BAD_RECORD, R44), and then the fault flag of a faulted job. -/
def retireOps (j : Job) (code : Code) (faultFlag : Option FlagId) : List (FlagId × FlagOp) :=
  (if code = .badRecord then [] else (j.actions.filter fun a => a.condition.holds code j.flags).map fun a => (a.flag, a.op))
    ++ (if code.isFault then (faultFlag.toList.map fun f => (f, FlagOp.set)) else [])

end Sys2Proof.Machine
end

