-- ==== Sys2Proof/Machine/Operands.lean ====
section
/-! DEFINITION. The formats of chapter 11 and the register encodings of chapter 10: little-endian numbers, the encodings of
enumerated values, and the decoding of directory entries, headers, guards, post actions and bodies. -/

namespace Sys2Proof.Machine

/-! ## Little-endian numbers (00 section 0.6.2) -/

/-- The number that bytes hold, least significant byte first. -/
def leNat : List Byte → Nat
  | [] => 0
  | b :: bs => b.toNat + 256 * leNat bs

/-- The `n` bytes of a number, least significant byte first. -/
def leBytes : (n : Nat) → Nat → List Byte
  | 0, _ => []
  | n + 1, v => BitVec.ofNat 8 v :: leBytes n (v / 256)

/-- The `n`-byte number at an offset of a structure. -/
def fieldAt (bytes : List Byte) (offset n : Nat) : Nat := leNat ((bytes.drop offset).take n)

/-- The byte at an offset of a structure. -/
def byteAt (bytes : List Byte) (offset : Nat) : Byte := BitVec.ofNat 8 (fieldAt bytes offset 1)

/-! ## Encodings (11, 10 Table 10-2) -/

/-- 01 Table 1-2: the state codes. -/
def ChainState.code : ChainState → Nat
  | .idle => 0
  | .reading => 1
  | .waiting => 2
  | .active => 3
  | .parked => 4
  | .paused => 5
  | .halted => 6
  | .broken => 7
  | .aborting => 8

/-- 11 Table 11-3: the break reason byte. -/
def BreakReason.code : BreakReason → Nat
  | .none => 0
  | .directoryRead => 1
  | .recordRead => 2
  | .badLink => 3
  | .outcomeWrite => 4
  | .releaseWrite => 5

/-- 11 Table 11-6: the completion codes. -/
def Code.value : Code → Nat
  | .ok => 0x00
  | .skipped => 0x01
  | .aborted => 0x02
  | .badRecord => 0x03
  | .notPermitted => 0x04
  | .noSurface => 0x05
  | .badSurface => 0x06
  | .range => 0x07
  | .shape => 0x08
  | .badEntry => 0x09
  | .address => 0x0A
  | .miss => 0x0B
  | .readDenied => 0x0C
  | .writeDenied => 0x0D
  | .busRead => 0x0E
  | .busWrite => 0x0F
  | .checkFail => 0x10

/-- 11 Table 11-5: the outcome state byte. -/
def OutcomeState.value : OutcomeState → Nat
  | .pending => 0x01
  | .doneHeld => 0x02
  | .doneFree => 0x03

/-- 11 Table 11-5: the result flags byte, ZERO in bit 0 to CHECK in bit 4. -/
def ResultFlags.value (f : ResultFlags) : Nat :=
  f.zero.toNat + 2 * f.neg.toNat + 4 * f.sat.toNat + 8 * f.stray.toNat + 16 * f.check.toNat

/-- 10 Table 10-2, ERROR bits 6-4. -/
def ErrorKind.code : ErrorKind → Nat
  | .none => 0
  | .directoryRead => 1
  | .recordRead => 2
  | .badLink => 3
  | .outcomeWrite => 4
  | .releaseWrite => 5
  | .statusWrite => 6

/-- 09 R164: a break is reported with its break reason as kind. -/
def BreakReason.errorKind : BreakReason → ErrorKind
  | .none => .none
  | .directoryRead => .directoryRead
  | .recordRead => .recordRead
  | .badLink => .badLink
  | .outcomeWrite => .outcomeWrite
  | .releaseWrite => .releaseWrite

/-- 10 Table 10-2, COMMAND_STATUS bits 17-16. -/
def Result.code : Result → Nat
  | .none => 0
  | .accepted => 1
  | .refused => 2

/-- 10 Table 10-2, COMMAND_STATUS bits 20-18. -/
def Reason.code : Reason → Nat
  | .none => 0
  | .busy => 1
  | .notRunning => 2
  | .notPaused => 3
  | .resetting => 4

/-! ## Links (01 R2) -/

/-- The three outcomes of the link check. -/
inductive LinkValue where
  | bad
  | zero
  | to (record : PhysAddr)
  deriving DecidableEq, Repr

/-- 01 R2: bits 63 to 40 and 4 to 0 of a link must be zero; 0 is the end of the chain. -/
def linkValue (v : Addr64) : LinkValue :=
  if v.extractLsb' 40 24 ≠ 0 ∨ v.extractLsb' 0 5 ≠ 0 then .bad
  else if v = 0 then .zero
  else .to (v.extractLsb' 0 40)

/-- The link in bytes 0 to 7: of a directory entry (head) or of a record header (next link). -/
def linkField (bytes : List Byte) : Addr64 := BitVec.ofNat 64 (fieldAt bytes 0 8)

/-! ## Directory entry (11 Table 11-2, R183) -/

/-- An encoding below `n`. -/
def finOf (n : Nat) (v : Nat) : Option (Fin n) := if h : v < n then some ⟨v, h⟩ else none

/-- The fault flag byte: a flag, or 0xFF for none. -/
def decodeFaultFlag (v : Nat) : Option (Option FlagId) :=
  if v = 0xFF then some none else (finOf 32 v).map some

/-- The privilege byte. -/
def decodePrivilege : Nat → Option Privilege
  | 0x01 => some .config
  | 0x02 => some .data
  | _ => none

/-- Bytes 8 to 12 of a directory entry; `none` where one of them is undefined. -/
def decodeLatched (bytes : List Byte) : Option Latched :=
  match finOf 4 (fieldAt bytes 8 1), finOf 16 (fieldAt bytes 9 1), finOf 32 (fieldAt bytes 10 1),
      decodeFaultFlag (fieldAt bytes 11 1), decodePrivilege (fieldAt bytes 12 1) with
  | some priority, some context, some wakeFlag, some faultFlag, some privilege =>
    some { priority, context, wakeFlag, faultFlag, privilege }
  | _, _, _, _, _ => none

/-! ## Record header (11 Table 11-5, R185) -/

/-- The kind byte. -/
def decodeKind : Nat → Option Kind
  | 0x01 => some .convert
  | 0x02 => some .copy
  | 0x03 => some .surface
  | 0x04 => some .map
  | 0x05 => some .table
  | 0x06 => some .coeff
  | 0x07 => some .signal
  | _ => none

/-- 01 R5: the outcome state byte of a header is PENDING. -/
def headerIsPending (bytes : List Byte) : Bool := fieldAt bytes 8 1 == 0x01

/-- 01 R5 step 2: the kind is one of the seven and the action count is at most 4. -/
def headerIsSound (bytes : List Byte) : Bool :=
  (decodeKind (fieldAt bytes 18 1)).isSome && decide (fieldAt bytes 20 1 ≤ 4)

/-- The job context that a header gives (01 R9); nothing of the second part is known yet. -/
def jobOfHeader (record : PhysAddr) (bytes : List Byte) : Job where
  kind := decodeKind (fieldAt bytes 18 1)
  record := record
  tag := BitVec.ofNat 16 (fieldAt bytes 16 2)
  guardPresent := (byteAt bytes 19).getLsbD 0
  onFault := if (byteAt bytes 19).getLsbD 1 then .halt else .continue_
  check := if (byteAt bytes 19).getLsbD 2 then .stop else .report
  actionCount := fieldAt bytes 20 1
  guard := none
  actions := []
  guardPassed := false
  body := .unread
  phase := .admitting
  admitted := false
  source := none
  dest := none
  coeff := none
  nextLine := 0
  stored := .empty
  flags := .none
  firstFault := none
  ended := false
  code := none
  linesDone := 0
  pins := 0
  held := false
  abortRequested := false
  load := none

/-- 01 R4: the size of the body of each kind. -/
def Kind.bodyBytes : Kind → Nat
  | .convert => 32
  | .copy => 32
  | .surface => 64
  | .map => 32
  | .table => 32
  | .coeff => 32
  | .signal => 0

/-- The size of the body of a job whose header passed its checks. -/
def Job.bodyBytes (j : Job) : Nat :=
  match j.kind with
  | some k => k.bodyBytes
  | none => 0

/-- 01 R4: the size of the second part of the record. -/
def Job.secondPartBytes (j : Job) : Nat :=
  j.bodyBytes + (if j.guardPresent then 8 else 0) + 8 * j.actionCount

/-! ## Guard and post actions (11 section 11.2.1, R186) -/

/-- A flag byte of a guard or post action: bits 4 to 0; bits 7 to 5 are ignored. -/
def flagField (bytes : List Byte) : FlagId := Fin.ofNat 32 (fieldAt bytes 0 1)

/-- A yes-or-no byte. -/
def decodeBit : Nat → Option Bool
  | 0x00 => some false
  | 0x01 => some true
  | _ => none

/-- The guard mode byte. -/
def decodeMode : Nat → Option GuardMode
  | 0x01 => some .wait
  | 0x02 => some .skip
  | _ => none

/-- The 8 bytes of a guard. -/
def decodeGuard (bytes : List Byte) : Option Guard :=
  match decodeBit (fieldAt bytes 1 1), decodeMode (fieldAt bytes 2 1), decodeBit (fieldAt bytes 3 1) with
  | some wanted, some mode, some consume => some { flag := flagField bytes, wanted, mode, consume }
  | _, _, _ => none

/-- The operation byte of a post action. -/
def decodeFlagOp : Nat → Option FlagOp
  | 0x01 => some .set
  | 0x02 => some .clear
  | 0x03 => some .toggle
  | _ => none

/-- The condition byte of a post action. -/
def decodeCondition : Nat → Option Condition
  | 0x01 => some .always
  | 0x02 => some .ok
  | 0x03 => some .fault
  | 0x04 => some .skip
  | 0x05 => some .zero
  | 0x06 => some .neg
  | 0x07 => some .sat
  | 0x08 => some .stray
  | 0x09 => some .check
  | _ => none

/-- The 8 bytes of a post action. -/
def decodeAction (bytes : List Byte) : Option PostAction :=
  match decodeFlagOp (fieldAt bytes 1 1), decodeCondition (fieldAt bytes 2 1) with
  | some op, some condition => some { flag := flagField bytes, op, condition }
  | _, _ => none

/-- `n` post actions, 8 bytes each, in the order of their offsets; `none` where one is undefined. -/
def decodeActions : (n : Nat) → List Byte → Option (List PostAction)
  | 0, _ => some []
  | n + 1, bytes =>
    match decodeAction (bytes.take 8), decodeActions n (bytes.drop 8) with
    | some a, some rest => some (a :: rest)
    | _, _ => none

/-! ## Bodies (11 section 11.2.2) -/

/-- 11 Table 11-9, the fields that CONVERT and COPY share. -/
def decodeLineBody (b : List Byte) : LineBody where
  sourceSlot := byteAt b 0
  destSlot := byteAt b 1
  sourceFirst := BitVec.ofNat 16 (fieldAt b 2 2)
  destFirst := BitVec.ofNat 16 (fieldAt b 4 2)
  lineCount := BitVec.ofNat 16 (fieldAt b 6 2)

/-- 11 Table 11-9, the transform parameters of CONVERT. -/
def decodeTransformBody (b : List Byte) : TransformBody where
  transform := byteAt b 8
  indexWidth := byteAt b 9
  coeffSet := byteAt b 10
  widen := byteAt b 11
  fill := BitVec.ofNat 32 (fieldAt b 12 4)

/-- 11 Table 11-10, tap entry `t`. -/
def decodeTapBody (b : List Byte) (t : Nat) : TapBody where
  origin := BitVec.ofNat 16 (fieldAt b (32 + 4 * t) 2)
  step := byteAt b (34 + 4 * t)
  direction := byteAt b (35 + 4 * t)

/-- 11 Table 11-10. -/
def decodeSurfaceBody (b : List Byte) : SurfaceBody where
  slot := byteAt b 0
  operation := byteAt b 1
  laneWidth := byteAt b 2
  trailer := byteAt b 3
  sampleKind := byteAt b 4
  chromaOrder := byteAt b 5
  tableBase := byteAt b 6
  tapMapPresent := byteAt b 7
  base := BitVec.ofNat 64 (fieldAt b 8 8)
  pitch := BitVec.ofNat 32 (fieldAt b 16 4)
  lineCount := BitVec.ofNat 16 (fieldAt b 20 2)
  lanes := BitVec.ofNat 16 (fieldAt b 22 2)
  tapCount := byteAt b 24
  rotation := byteAt b 25
  pixels := BitVec.ofNat 16 (fieldAt b 26 2)
  taps := (List.range 8).map (decodeTapBody b)

/-- 11 Table 11-11. -/
def decodeMapBody (b : List Byte) : MapBody where
  slot := byteAt b 0
  operation := byteAt b 1
  context := byteAt b 2
  shared := byteAt b 3
  size := byteAt b 4
  readRight := byteAt b 5
  writeRight := byteAt b 6
  effectiveBase := BitVec.ofNat 64 (fieldAt b 8 8)
  physicalBase := BitVec.ofNat 64 (fieldAt b 16 8)

/-- 11 Table 11-12, TABLE. -/
def decodeTableBody (b : List Byte) : TableBody where
  source := BitVec.ofNat 64 (fieldAt b 0 8)
  first := BitVec.ofNat 16 (fieldAt b 8 2)
  count := BitVec.ofNat 16 (fieldAt b 10 2)

/-- 11 Table 11-12, COEFF. -/
def decodeCoeffBody (b : List Byte) : CoeffBody where
  set := byteAt b 0
  order := byteAt b 1
  k1 := BitVec.ofNat 16 (fieldAt b 4 2)
  k2 := BitVec.ofNat 16 (fieldAt b 6 2)
  k3 := BitVec.ofNat 16 (fieldAt b 8 2)
  k4 := BitVec.ofNat 16 (fieldAt b 10 2)

/-- The body of a kind. -/
def decodeBody (k : Kind) (b : List Byte) : Body :=
  match k with
  | .convert => .convert (decodeLineBody b) (decodeTransformBody b)
  | .copy => .copy (decodeLineBody b)
  | .surface => .surface (decodeSurfaceBody b)
  | .map => .map (decodeMapBody b)
  | .table => .table (decodeTableBody b)
  | .coeff => .coeff (decodeCoeffBody b)
  | .signal => .signal

/-- The job with the second part of its record: its body, and its guard and post actions where they are defined;
`none` where an encoding of the guard or of an action is undefined (01 R6, 11 R186). -/
def Job.withSecondPart (j : Job) (bytes : List Byte) : Option Job :=
  let rest := bytes.drop j.bodyBytes
  let afterGuard := if j.guardPresent then rest.drop 8 else rest
  let guard : Option (Option Guard) := if j.guardPresent then (decodeGuard (rest.take 8)).map some else some none
  match j.kind, guard, decodeActions j.actionCount afterGuard with
  | some k, some guard, some actions => some { j with body := decodeBody k bytes, guard, actions }
  | _, _, _ => none

/-! ## What the part writes -/

/-- The outcome field, bytes 8 to 15 of a record (11 Table 11-5, R185). -/
def outcomeBytes (state : OutcomeState) (code : Code) (flags : ResultFlags) (linesDone : Nat) : List Byte :=
  leBytes 1 state.value ++ leBytes 1 code.value ++ leBytes 1 flags.value ++ leBytes 1 0 ++ leBytes 4 linesDone

/-- A status entry (11 Table 11-3, R184). -/
def statusBytes (state : ChainState) (reason : BreakReason) (code : Code) (retireCount : BitVec 32) (address : Nat)
    (tag : BitVec 16) : List Byte :=
  leBytes 1 state.code ++ leBytes 1 reason.code ++ leBytes 1 code.value ++ leBytes 1 0 ++ leBytes 4 retireCount.toNat
    ++ leBytes 8 address ++ leBytes 2 tag.toNat ++ leBytes 14 0

end Sys2Proof.Machine
end

