-- ==== Sys2Proof/Machine/Ops.lean ====
section
/-! DEFINITION. The named operations that every meaning is built of: the homes of chains and jobs, system memory as the
part's writes leave it, the outstanding access list, the error summary, and the last result. -/

namespace Sys2Proof.Machine

/-! ## Chains and jobs -/

/-- The chain context of a chain. -/
def State.chain (s : State) (c : ChainId) : Chain := s.chains[c]

/-- The job context of a chain. -/
def State.job (s : State) (c : ChainId) : Option Job := s.jobs[c]

/-- The waiter of a chain. -/
def State.waiter (s : State) (c : ChainId) : Option Waiter := s.waiters[c]

/-- Replaces a chain context. -/
def State.setChain (s : State) (c : ChainId) (x : Chain) : State := { s with chains := s.chains.set c x }

/-- Changes a chain context. -/
def State.updChain (s : State) (c : ChainId) (f : Chain → Chain) : State := s.setChain c (f (s.chain c))

/-- Replaces a job context, or drops it. -/
def State.setJob (s : State) (c : ChainId) (j : Option Job) : State := { s with jobs := s.jobs.set c j }

/-- Changes a job context, where there is one. -/
def State.updJob (s : State) (c : ChainId) (f : Job → Job) : State := s.setJob c ((s.job c).map f)

/-- Registers or removes a chain's waiter. -/
def State.setWaiter (s : State) (c : ChainId) (w : Option Waiter) : State := { s with waiters := s.waiters.set c w }

/-- The latched priority level of a chain. -/
def State.level (s : State) (c : ChainId) : Nat := (s.chain c).latched.priority.val

/-- A chain's job has been admitted in the sense of 08 R138. -/
def State.hasAdmitted (s : State) (c : ChainId) : Bool :=
  match s.job c with
  | some j => j.admitted
  | none => false

/-- 08 R138: a job is admitted on some chain. -/
def State.anyAdmitted (s : State) : Bool := allChains.any s.hasAdmitted

/-! ## Views the spec names as state and that other state determines (log 17) -/

/-- 08 R144: the pin count of an entry is the number of in-flight jobs whose pin set contains it. -/
def State.pinCount (s : State) (m : EntryId) : Nat :=
  (allChains.filter fun c => match s.job c with
    | some j => j.pins.getLsbD m
    | none => false).length

/-- 08 Table 8-1: the chains whose jobs carry the held mark. -/
def State.heldSet (s : State) : List ChainId :=
  allChains.filter fun c => match s.job c with
    | some j => j.held
    | none => false

/-- 02 R47, 10 R177: the attention output. -/
def State.attn (s : State) : Bool := (s.flags &&& s.attentionMask) != 0 || s.errors.pending

/-! ## System memory as the part's writes leave it (09 R158, R159; log 4) -/

/-- The byte that the part last wrote at an address; `none` where it has written none. -/
def Memory.read : List Host.Cell → Nat → Option Byte
  | [], _ => none
  | (x, v) :: rest, a => if a = x then some v else Memory.read rest a

/-- Writes one byte, keeping the addresses strictly rising. -/
def Memory.write : List Host.Cell → Nat → Byte → List Host.Cell
  | [], a, b => [(a, b)]
  | (x, v) :: rest, a, b =>
    if a < x then (a, b) :: (x, v) :: rest
    else if a = x then (a, b) :: rest
    else (x, v) :: Memory.write rest a b

/-- Writes cells one after another. -/
def Memory.writeAll (m : List Host.Cell) (cells : List Host.Cell) : List Host.Cell :=
  cells.foldl (fun m c => Memory.write m c.1 c.2) m

/-- The canonical form: addresses strictly rising. An unlisted address is one the part has not written. -/
abbrev Memory.wf (m : List Host.Cell) : Prop := m.Pairwise fun p q => p.1 < q.1

/-! ## Physical ranges (09 R157, R158) -/

/-- The addresses that ranges cover, in order. -/
def rangeAddresses (ranges : List PhysRange) : List Nat :=
  ranges.flatMap fun r => (List.range r.bytes).map (r.start.toNat + ·)

/-- The bytes of a write, each at its address. -/
def cellsOf (ranges : List PhysRange) (bytes : List Byte) : List Host.Cell := (rangeAddresses ranges).zip bytes

/-- The byte that the pieces of a store leave at an address, of the bytes they bring to it: where there are several, the
free value says which (log 26). It is asked of no address to which they bring none. -/
def pieceByte (n address : Nat) : List Byte → Byte
  | [] => 0
  | [b] => b
  | b :: rest => (b :: rest)[Config.lastPiece n address % (b :: rest).length]?.getD b

/-- 04 R78, 09 R158: the bytes that a store leaves in memory. Its pieces are written in any order, so where its ranges cover
one physical byte more than once, choice `n` says which of the bytes brought there remains (log 26). -/
def storeCells (n : Nat) (ranges : List PhysRange) (bytes : List Byte) : List Host.Cell :=
  let cells := cellsOf ranges bytes
  cells.map fun x => (x.1, pieceByte n x.1 ((cells.filter fun y => y.1 == x.1).map (·.2)))

/-- The bytes that an access covers. -/
def Access.bytes (a : Access) : Nat := (a.ranges.map (·.bytes)).sum

/-- One range split at every 4 KiB boundary of physical address; a range of `n` bytes crosses at most `n`. -/
def splitRange : (fuel : Nat) → PhysRange → List PhysRange
  | 0, r => [r]
  | fuel + 1, r =>
    let room := 4096 - r.start.toNat % 4096
    if r.bytes ≤ room then [r]
    else { start := r.start, bytes := room } ::
      splitRange fuel { start := r.start + BitVec.ofNat 40 room, bytes := r.bytes - room }

/-- 09 R158: the pieces an access is carried in, where the Memory Port splits no further than it must. -/
def Access.pieces (a : Access) : List PhysRange := a.ranges.flatMap fun r => splitRange r.bytes r

/-- The ranges of the `bytes` bytes at an offset of a record: one range, or, where it would run past 2^40, the part of it
below and then each byte past the top at an address of its own, which the manual does not give (log 7). -/
def recordRanges (record : PhysAddr) (offset bytes : Nat) : List PhysRange :=
  let start := record.toNat + offset
  if start + bytes ≤ 2 ^ 40 then [{ start := BitVec.ofNat 40 start, bytes }]
  else
    (if start < 2 ^ 40 then [{ start := BitVec.ofNat 40 start, bytes := 2 ^ 40 - start }] else [])
      ++ (List.range (start + bytes - max start (2 ^ 40))).map fun k =>
        { start := Config.pastTop (max start (2 ^ 40) + k), bytes := 1 }

/-- 10 R173: the physical address of the exchange area. -/
def State.exchangeArea (s : State) : PhysAddr := s.exchangeBase ++ 0#12

/-- 10 R173: the address of a chain's directory entry. -/
def State.directoryAddress (s : State) (c : ChainId) : PhysAddr := s.exchangeArea + BitVec.ofNat 40 (32 * c.val)

/-- 10 R173: the address of a chain's status entry. -/
def State.statusAddress (s : State) (c : ChainId) : PhysAddr := s.exchangeArea + BitVec.ofNat 40 (128 + 32 * c.val)

/-! ## The outstanding access list (09) -/

/-- An access is issued: it joins the end of the list. -/
def State.issue (s : State) (a : Access) : State := { s with accesses := s.accesses ++ [a] }

/-- A read of consecutive bytes is issued. -/
def State.issueRead (s : State) (kind : AccessKind) (c : ChainId) (start : PhysAddr) (bytes : Nat) : State :=
  s.issue { kind, chain := c, line := none, ranges := [{ start, bytes }], cells := [] }

/-- A write of consecutive bytes is issued. -/
def State.issueWrite (s : State) (kind : AccessKind) (c : ChainId) (start : PhysAddr) (bytes : List Byte) : State :=
  s.issue { kind, chain := c, line := none, ranges := [{ start, bytes := bytes.length }],
            cells := cellsOf [{ start, bytes := bytes.length }] bytes }

/-- The `n`th access, in order of issue, that satisfies `p`. -/
def nthAccess (p : Access → Bool) : List Access → Nat → Option Access
  | [], _ => none
  | a :: rest, n =>
    if p a then
      match n with
      | 0 => some a
      | n + 1 => nthAccess p rest n
    else nthAccess p rest n

/-- The access without the bytes at these addresses: a write issued later has taken effect there (09 R159). -/
def Access.without (landed : List Nat) (a : Access) : Access :=
  { a with cells := a.cells.filter fun c => !landed.contains c.1 }

/-- The list after the `n`th access that satisfies `p` has left it; the bytes it changed are no longer to be changed by
the writes issued before it (09 R159). -/
def removeNth (p : Access → Bool) (landed : List Nat) : List Access → Nat → List Access
  | [], _ => []
  | a :: rest, n =>
    if p a then
      match n with
      | 0 => rest
      | n + 1 => a.without landed :: removeNth p landed rest n
    else a.without landed :: removeNth p landed rest n

/-- The outcome state byte of a record that an outcome write or a release write carries. -/
def Access.stateByte (a : Access) : Option Nat :=
  match a.kind with
  | .outcomeWrite _ _ => a.ranges.head?.map (·.start.toNat)
  | .releaseWrite _ _ => a.ranges.head?.map (·.start.toNat)
  | _ => none

/-- The cells of a write that have changed memory (09 R158). A failed outcome write leaves its record as it was, PENDING,
and a failed release leaves DONE_HELD (01 R13, 09 R162); one cut short by a soft reset leaves the outcome state (01 R29,
10 R180). -/
def landedCells (answer : WriteAnswer) (a : Access) : List Host.Cell :=
  match answer with
  | .acknowledged => a.cells
  | .error landed => if a.stateByte.isSome then [] else a.cells.filter fun c => landed.contains c.1
  | .cut landed => a.cells.filter fun c => landed.contains c.1 && a.stateByte != some c.1

/-- The write was acknowledged without error. -/
def writeOk : WriteAnswer → Bool
  | .acknowledged => true
  | .error _ => false
  | .cut _ => false

/-- The answer of a write whose remaining pieces are never issued. -/
def writeIsCut : WriteAnswer → Bool
  | .acknowledged => false
  | .error _ => false
  | .cut _ => true

/-- A read is answered: it leaves the list, and `after` follows, but in a soft reset the answer is discarded (09 R158,
R169). An answer to no outstanding access, or one that does not answer every byte of it, is no event (log 2). -/
def State.onRead (p : Access → Bool) (answer : ReadAnswer) (after : Access → State → State) (s : State) : State :=
  match nthAccess p s.accesses 0 with
  | none => s
  | some a =>
    if answer.hasLength a.bytes then
      let rest := { s with accesses := removeNth p [] s.accesses 0 }
      if s.softReset then rest else after a rest
    else s

/-- The `n`th write that satisfies `p` is answered: the bytes that landed have changed memory, it leaves the list, and
`after` follows with whether it was acknowledged, but in a soft reset the answer is discarded (09 R158, R169). -/
def State.onWrite (p : Access → Bool) (n : Nat) (answer : WriteAnswer) (after : Access → Bool → State → State)
    (s : State) : State :=
  match nthAccess p s.accesses n with
  | none => s
  | some a =>
    if writeIsCut answer && !s.softReset then s
    else
      let landed := landedCells answer a
      let rest := { s with accesses := removeNth p (landed.map (·.1)) s.accesses n
                           memory := Memory.writeAll s.memory landed }
      if s.softReset then rest else after a (writeOk answer) rest

/-- An access of this kind for this chain. -/
def Access.isFor (kind : AccessKind) (c : ChainId) (a : Access) : Bool := a.kind == kind && a.chain == c

/-- The outcome write of a chain. -/
def Access.isOutcomeFor (c : ChainId) (a : Access) : Bool :=
  match a.kind with
  | .outcomeWrite _ _ => a.chain == c
  | _ => false

/-- The release write of a chain. -/
def Access.isReleaseFor (c : ChainId) (a : Access) : Bool :=
  match a.kind with
  | .releaseWrite _ _ => a.chain == c
  | _ => false

/-- A status write of a chain. -/
def Access.isStatusFor (c : ChainId) (a : Access) : Bool :=
  match a.kind with
  | .statusWrite _ => a.chain == c
  | _ => false

/-- A re-read of a chain's anchor link or of its directory head. -/
def Access.isAnchorReReadFor (c : ChainId) (a : Access) : Bool :=
  (a.kind == .anchorReRead || a.kind == .headReRead) && a.chain == c

/-- The fetch into an input buffer. -/
def Access.isFetchInto (b : Fin 2) (a : Access) : Bool := a.kind == .lineFetch b

/-- The store from an output buffer. -/
def Access.isStoreFrom (b : Fin 2) (a : Access) : Bool := a.kind == .lineStore b

/-- The table load. -/
def Access.isTableRead (a : Access) : Bool := a.kind == .tableRead

/-! ## Control Port (09 R167, 10 R175) -/

/-- 09 R167: a report reaches the device error summary. -/
def ErrorSummary.report (e : ErrorSummary) (kind : ErrorKind) (c : ChainId) : ErrorSummary :=
  if e.pending then { e with further := if e.further = 255 then 255 else e.further + 1 }
  else { pending := true, firstKind := kind, firstChain := c, further := 0 }

/-- A report to the device error summary. -/
def State.report (s : State) (kind : ErrorKind) (c : ChainId) : State := { s with errors := s.errors.report kind c }

/-- 10 R175: an accepted write. -/
def State.accept (s : State) (register : BitVec 4) (c : ChainId) : State :=
  { s with lastResult := { result := .accepted, reason := .none, register, chain := c } }

/-- 10 R175: a refused write; nothing else changes (10 R170). -/
def State.refuse (s : State) (reason : Reason) (register : BitVec 4) (c : ChainId) : State :=
  { s with lastResult := { result := .refused, reason, register, chain := c } }

/-! ## The order of what one arrival sets going (log 5) -/

/-- The things in the order in which they are taken, chosen by the free value from choice `n` on. One thing alone needs
no choice. -/
def arrange {α : Type} : (fuel : Nat) → (n : Nat) → List α → List α
  | 0, _, things => things
  | _, _, [] => []
  | _, _, [x] => [x]
  | fuel + 1, n, x :: y :: rest =>
    let things := x :: y :: rest
    let i := Config.takenFirst n % things.length
    match things[i]? with
    | some z => z :: arrange fuel (n + 1) (things.eraseIdx i)
    | none => things

end Sys2Proof.Machine
end

