-- ==== Sys2Proof/Machine/Surfaces.lean ====
section
/-! DEFINITION. Surfaces (03): the quantities a LOAD derives, its checks, and the admission checks of CONVERT and COPY;
and the checks of COEFF and TABLE bodies (06). -/

namespace Sys2Proof.Machine

/-! ## Loading a slot (03 section 3.2) -/

/-- 03 R54: the payload of `n` lanes of `w` bits, in whole bytes. -/
def payloadBytes (lanes laneWidth : Nat) : Nat := (lanes * laneWidth + 7) / 8

/-- 03 R54: the payload rounded up to a multiple of 4. -/
def trailerOffsetOf (payload : Nat) : Nat := (payload + 3) / 4 * 4

/-- 03 R54: the bytes that a fetch reads and a store writes. -/
def footprintOf (trailer : Trailer) (payload : Nat) : Nat :=
  match trailer with
  | .crc => trailerOffsetOf payload + 4
  | .none => payload

/-- 00 section 0.6.3: bits 63 to 47 all have the same value. -/
def wellFormed48 (a : Addr64) : Bool := a.extractLsb' 47 17 == 0 || a.extractLsb' 47 17 == BitVec.allOnes 17

/-- The trailer byte (11 Table 11-10). -/
def decodeTrailer : Nat → Option Trailer
  | 0x00 => some .none
  | 0x01 => some .crc
  | _ => none

/-- The sample kind byte (11 Table 11-10). -/
def decodeSampleKind : Nat → Option SampleKind
  | 0x00 => some .plain
  | 0x01 => some .paired
  | _ => none

/-- The chroma order byte (11 Table 11-10). -/
def decodeChromaOrder : Nat → Option ChromaOrder
  | 0x00 => some .uFirst
  | 0x01 => some .vFirst
  | _ => none

/-- The direction byte of a tap (11 Table 11-10). -/
def decodeDirection : Nat → Option Direction
  | 0x00 => some .ascend
  | 0x01 => some .descend
  | _ => none

/-- 03 R53: the seven lane widths. -/
def laneWidthDefined (w : Nat) : Bool := w == 8 || w == 10 || w == 12 || w == 14 || w == 16 || w == 24 || w == 32

/-- 03 R55: a tap entry with its checks. -/
def checkTap (t : TapBody) : Option Tap :=
  match decodeDirection t.direction.toNat with
  | some direction =>
    if t.origin.toNat ≤ 16383 ∧ 1 ≤ t.step.toNat ∧ t.step.toNat ≤ 8 then
      some { origin := t.origin.toNat, step := t.step.toNat, direction }
    else none
  | none => none

/-- 03 R55: the taps checked in turn; one that fails fails all. -/
def checkTaps : List TapBody → Option (List Tap)
  | [] => some []
  | t :: rest =>
    match checkTap t, checkTaps rest with
    | some tap, some taps => some (tap :: taps)
    | _, _ => none

/-- 03 R55: the tap map of a body that says it is present, with its first T entries. -/
def checkTapMap (b : SurfaceBody) : Option TapMap :=
  let count := b.tapCount.toNat
  if 1 ≤ count ∧ count ≤ 8 ∧ count ≤ b.lanes.toNat ∧ b.rotation.toNat < count ∧ 1 ≤ b.pixels.toNat
      ∧ b.pixels.toNat ≤ 16384 then
    (checkTaps (b.taps.take count)).map fun taps => { rotation := b.rotation.toNat, pixels := b.pixels.toNat, taps }
  else none

/-- 03 R55: the tap map byte and what it calls for: no tap map, a checked one, or a failure. -/
def checkTapField (b : SurfaceBody) : Option (Option TapMap) :=
  match b.tapMapPresent.toNat with
  | 0x00 => some none
  | 0x01 => (checkTapMap b).map some
  | _ => none

/-- 03 R53 to R56: the surface record of a LOAD that passes every check; `none` faults BAD_SURFACE. -/
def checkSurface (b : SurfaceBody) : Option Surface :=
  match decodeTrailer b.trailer.toNat, decodeSampleKind b.sampleKind.toNat, decodeChromaOrder b.chromaOrder.toNat,
      checkTapField b with
  | some trailer, some sampleKind, some chromaOrder, some tapMap =>
    let w := b.laneWidth.toNat
    let n := b.lanes.toNat
    let payload := payloadBytes n w
    let footprint := footprintOf trailer payload
    if b.slot.toNat ≤ 15 ∧ wellFormed48 b.base ∧ 1 ≤ b.pitch.toNat ∧ b.pitch.toNat ≤ 16777216
        ∧ 1 ≤ b.lineCount.toNat ∧ laneWidthDefined w ∧ 1 ≤ n ∧ n ≤ 16384 ∧ b.tableBase.toNat ≤ 15
        ∧ payload ≤ 16384 ∧ footprint ≤ b.pitch.toNat
        ∧ (sampleKind = .paired → w = 16 ∨ w = 24) then
      some { base := b.base, pitch := b.pitch.toNat, lineCount := b.lineCount.toNat, laneWidth := w, lanes := n,
             trailer, sampleKind, chromaOrder, tableBase := b.tableBase.toNat, tapMap,
             payload, trailerOffset := trailerOffsetOf payload, footprint }
    else none
  | _, _, _, _ => none

/-- What the work of a SURFACE job does: a slot and its new contents, or BAD_SURFACE (03 R52 to R56, 11 R187). -/
def surfaceEffect (b : SurfaceBody) : Option (Fin 16 × Option Surface) :=
  match b.operation.toNat with
  | 0x01 =>
    match finOf 16 b.slot.toNat, checkSurface b with
    | some slot, some surface => some (slot, some surface)
    | _, _ => none
  | 0x02 => (finOf 16 b.slot.toNat).map fun slot => (slot, none)
  | _ => none

/-! ## Admission checks of CONVERT and COPY (03 sections 3.3, 3.4) -/

/-- 11 Table 11-9: the transforms. -/
inductive Transform where
  | pass | lookup | chroma
  deriving DecidableEq, Repr

/-- 11 Table 11-9: the widen policies. -/
inductive WidenPolicy where
  | replicate | zeroLow | lowAlign
  deriving DecidableEq, Repr

/-- The transform byte. -/
def decodeTransform : Nat → Option Transform
  | 0x01 => some .pass
  | 0x02 => some .lookup
  | 0x03 => some .chroma
  | _ => none

/-- The widen policy byte. -/
def decodeWiden : Nat → Option WidenPolicy
  | 0x01 => some .replicate
  | 0x02 => some .zeroLow
  | 0x03 => some .lowAlign
  | _ => none

/-- 03 R61: the check of the transform parameters. R61 numbers no order among its checks: the encodings of transform and
widen policy (SHAPE) come before the index width and coefficient set (RANGE), the model's choice (log 24). -/
def transformFault (t : TransformBody) : Option Code :=
  match decodeTransform t.transform.toNat, decodeWiden t.widen.toNat with
  | some transform, some _ =>
    if transform = .lookup ∧ ¬ (1 ≤ t.indexWidth.toNat ∧ t.indexWidth.toNat ≤ 10) then some .range
    else if transform = .chroma ∧ ¬ t.coeffSet.toNat ≤ 3 then some .range
    else none
  | _, _ => some .shape

/-- 03 R60: the range check. -/
def rangeFault (b : LineBody) (source dest : Surface) : Option Code :=
  if b.lineCount.toNat = 0 ∨ source.lineCount < b.sourceFirst.toNat + b.lineCount.toNat
      ∨ dest.lineCount < b.destFirst.toNat + b.lineCount.toNat then some .range
  else none

/-- 05 R96: the identity map of a source with no tap map. -/
def identityMap (lanes : Nat) : TapMap where
  rotation := 0
  pixels := lanes
  taps := [{ origin := 0, step := 1, direction := .ascend }]

/-- The tap map that a source acts with (05 R96). -/
def Surface.layout (s : Surface) : TapMap := s.tapMap.getD (identityMap s.lanes)

/-- 03 R62: the output values per pixel. -/
def Transform.valuesPerPixel : Transform → Nat
  | .pass => 1
  | .lookup => 1
  | .chroma => 3

/-- 03 R62: the shape check of a CONVERT job. -/
def convertShapeFault (transform : Transform) (source dest : Surface) : Option Code :=
  if ¬ (dest.laneWidth = 8 ∨ dest.laneWidth = 16 ∨ dest.laneWidth = 32) then some .shape
  else if source.sampleKind ≠ (if transform = .chroma then .paired else .plain) then some .shape
  else if dest.lanes ≠ source.layout.pixels * transform.valuesPerPixel then some .shape
  else none

/-- 03 R63: the shape check of a COPY job. -/
def copyShapeFault (source dest : Surface) : Option Code :=
  if source.payload ≠ dest.payload then some .shape else none

/-- The first of two checks to fail. -/
def firstFault (a b : Option Code) : Option Code :=
  match a with
  | some code => some code
  | none => b

/-- 03 R58 steps 1 to 3: the slots' snapshots; `none` faults NO_SURFACE. -/
def slotSnapshots (surfaces : Vector (Option Surface) 16) (b : LineBody) : Option (Surface × Surface) :=
  match finOf 16 b.sourceSlot.toNat, finOf 16 b.destSlot.toNat with
  | some i, some k =>
    match surfaces[i], surfaces[k] with
    | some source, some dest => some (source, dest)
    | _, _ => none
  | _, _ => none

/-- The parameters of an admitted CONVERT job. -/
def TransformBody.kind (t : TransformBody) : Transform := (decodeTransform t.transform.toNat).getD .pass

/-- 03 R58 for a CONVERT job: its snapshots, or the code of the first check that fails. -/
def convertChecks (s : State) (b : LineBody) (t : TransformBody) : Except Code (Surface × Surface × Option CoeffSet) :=
  match slotSnapshots s.surfaces b with
  | none => .error .noSurface
  | some (source, dest) =>
    match firstFault (transformFault t) (firstFault (rangeFault b source dest) (convertShapeFault t.kind source dest)) with
    | some code => .error code
    | none =>
      .ok (source, dest, if t.kind = .chroma then (finOf 4 t.coeffSet.toNat).map fun i => s.coeffs[i] else none)

/-- 03 R58 for a COPY job. -/
def copyChecks (s : State) (b : LineBody) : Except Code (Surface × Surface) :=
  match slotSnapshots s.surfaces b with
  | none => .error .noSurface
  | some (source, dest) =>
    match firstFault (rangeFault b source dest) (copyShapeFault source dest) with
    | some code => .error code
    | none => .ok (source, dest)

/-! ## COEFF and TABLE bodies (06) -/

/-- The component order byte (11 Table 11-12). -/
def decodeOrder : Nat → Option ComponentOrder
  | 0x00 => some .rgb
  | 0x01 => some .bgr
  | _ => none

/-- What the work of a COEFF job does: a set and its new contents, or RANGE (06 R122). -/
def coeffEffect (b : CoeffBody) : Option (Fin 4 × CoeffSet) :=
  match finOf 4 b.set.toNat, decodeOrder b.order.toNat with
  | some set, some order =>
    if b.k1.toNat ≤ 4095 ∧ b.k2.toNat ≤ 4095 ∧ b.k3.toNat ≤ 4095 ∧ b.k4.toNat ≤ 4095 then
      some (set, { k1 := b.k1.toNat, k2 := b.k2.toNat, k3 := b.k3.toNat, k4 := b.k4.toNat, order })
    else none
  | _, _ => none

/-- 06 R114: the check of a TABLE body. -/
def tableFault (b : TableBody) : Option Code :=
  if 1023 < b.first.toNat ∨ b.count.toNat = 0 ∨ 1024 < b.count.toNat ∨ 1024 < b.first.toNat + b.count.toNat then some .range
  else none

end Sys2Proof.Machine
end

