-- ==== Sys2Proof/Machine/Translation.lean ====
section
/-! DEFINITION. Address translation (08): address forms, matching, walking a footprint, line and table resolutions, pins,
and the checks and effects of MAP operations. -/

namespace Sys2Proof.Machine

/-- 08 Table 8-2: the bytes of a page. -/
def PageSize.bytes : PageSize → Nat
  | .size4K => 2 ^ 12
  | .size64K => 2 ^ 16
  | .size2M => 2 ^ 21
  | .size1G => 2 ^ 30

/-- 08 R139: the last byte of an entry's page. -/
def MapEntry.pageLast (e : MapEntry) : Nat := e.effectiveBase.toNat + e.size.bytes - 1

/-- 08 R140: an entry matches an effective address in a context. -/
def MapEntry.matches (e : MapEntry) (context : Fin 16) (x : Nat) : Bool :=
  (e.shared || e.context == context) && decide (e.effectiveBase.toNat ≤ x) && decide (x ≤ e.pageLast)

/-- 08 R140: the physical address of an effective address through an entry. -/
def MapEntry.physical (e : MapEntry) (x : Nat) : PhysAddr :=
  e.physicalBase + BitVec.ofNat 40 (x - e.effectiveBase.toNat)

/-- The matching entry of the context; R150 leaves at most one, and the lowest-numbered one is taken. -/
def matchEntry (entries : Vector (Option MapEntry) 32) (context : Fin 16) (x : Nat) : Option (EntryId × MapEntry) :=
  (List.finRange 32).findSome? fun m =>
    match entries[m] with
    | some e => if e.matches context x then some (m, e) else none
    | none => none

/-- 08 R136, R137: every byte from `first` to `last` has its bits 63 down to `bits - 1` all alike, and `last` is below
2^64: the footprint lies in one half of the space. -/
def inOneHalf (bits first last : Nat) : Bool :=
  decide (last < 2 ^ (bits - 1)) || (decide (2 ^ 64 - 2 ^ (bits - 1) ≤ first) && decide (last < 2 ^ 64))

/-- What a footprint resolves to: its ranges, each with the entry it went through (none while TEN is 0), or a hold, or a
fault. -/
inductive FootprintAnswer where
  | ranges (found : List (PhysRange × Option EntryId))
  | held
  | fault (code : Code)
  deriving DecidableEq, Repr

/-- What a resolution is made against: the table, the pending mark, the job's context and pin set, and whether the
footprint needs the write right. -/
structure Resolver where
  entries : Vector (Option MapEntry) 32
  pendingMark : Option EntryId
  context : Fin 16
  pins : BitVec 32
  write : Bool

/-- 08 R152: a range through the pending entry, in a job whose pin set does not contain it, is held. -/
def Resolver.holds (r : Resolver) (m : EntryId) : Bool := r.pendingMark == some m && !r.pins.getLsbD m

/-- 08 R142: the entry has the right that the footprint needs. -/
def Resolver.permits (r : Resolver) (e : MapEntry) : Bool := if r.write then e.writeRight else e.readRight

/-- 08 R142: the code of a denied range. -/
def Resolver.denied (r : Resolver) : Code := if r.write then .writeDenied else .readDenied

/-- 08 R141, R143: the walk of the bytes `x` to `last`, each range checked for a match, for the pending mark and for
its right, in that order. Each range covers at least one byte, so `fuel` is the number of bytes. -/
def Resolver.walk (r : Resolver) : (fuel x last : Nat) → FootprintAnswer
  | 0, _, _ => .ranges []
  | fuel + 1, x, last =>
    if last < x then .ranges []
    else match matchEntry r.entries r.context x with
      | none => .fault .miss
      | some (m, e) =>
        if r.holds m then .held
        else if r.permits e then
          let stop := min last e.pageLast
          match r.walk fuel (stop + 1) last with
          | .ranges more => .ranges (({ start := e.physical x, bytes := stop + 1 - x }, some m) :: more)
          | .held => .held
          | .fault code => .fault code
        else .fault r.denied

/-- 08 R136, R137, R143: a footprint of `length` bytes at the exact address `first`. -/
def Resolver.footprint (r : Resolver) (ten : Bool) (first length : Nat) : FootprintAnswer :=
  let last := first + length - 1
  if ten then
    if inOneHalf 48 first last then r.walk length first last else .fault .address
  else
    if inOneHalf 40 first last then .ranges [({ start := BitVec.ofNat 40 first, bytes := length }, none)]
    else .fault .address

/-- The entries of a list of ranges, as a set. -/
def entriesUsed (found : List (PhysRange × Option EntryId)) : BitVec 32 :=
  found.foldl (fun acc r => match r.2 with
    | some m => acc ||| BitVec.twoPow 32 m
    | none => acc) 0

/-- The answer of the Translation Unit to a line resolution or a table resolution (08 R135); a table resolution has no
store ranges. -/
inductive Resolution where
  | resolved (fetch store : List PhysRange) (used : BitVec 32)
  | held
  | fault (code : Code)
  deriving DecidableEq, Repr

/-- The resolver for a job of chain `c`. -/
def State.resolver (s : State) (c : ChainId) (j : Job) (write : Bool) : Resolver where
  entries := s.entries
  pendingMark := s.pendingMark
  context := (s.chain c).latched.context
  pins := j.pins
  write := write

/-- 08 R143: the fetch footprint is taken whole before the store footprint. -/
def State.resolveLine (s : State) (c : ChainId) (j : Job) (fetchAt fetchBytes storeAt storeBytes : Nat) : Resolution :=
  match (s.resolver c j false).footprint s.ten fetchAt fetchBytes with
  | .held => .held
  | .fault code => .fault code
  | .ranges fetch =>
    match (s.resolver c j true).footprint s.ten storeAt storeBytes with
    | .held => .held
    | .fault code => .fault code
    | .ranges store => .resolved (fetch.map (·.1)) (store.map (·.1)) (entriesUsed (fetch ++ store))

/-- 08 R135: the table resolution, with the read right. -/
def State.resolveTable (s : State) (c : ChainId) (j : Job) (b : TableBody) : Resolution :=
  match (s.resolver c j false).footprint s.ten b.source.toNat (b.count.toNat * 2) with
  | .held => .held
  | .fault code => .fault code
  | .ranges found => .resolved (found.map (·.1)) [] (entriesUsed found)

/-! ## MAP operations (08 sections 8.6, 8.7) -/

/-- The operation byte of a MAP body (11 Table 11-11). -/
inductive MapOp where
  | load | invalidate
  deriving DecidableEq, Repr

/-- 11 Table 11-11. -/
def decodeMapOp : Nat → Option MapOp
  | 0x01 => some .load
  | 0x02 => some .invalidate
  | _ => none

/-- 11 Table 11-11. -/
def decodePageSize : Nat → Option PageSize
  | 0x00 => some .size4K
  | 0x01 => some .size64K
  | 0x02 => some .size2M
  | 0x03 => some .size1G
  | _ => none

/-- 08 R146: the entry of a LOAD body that passes the checks that do not depend on the table. -/
def checkMapEntry (b : MapBody) : Option MapEntry :=
  match finOf 16 b.context.toNat, decodeBit b.shared.toNat, decodePageSize b.size.toNat, decodeBit b.readRight.toNat,
      decodeBit b.writeRight.toNat with
  | some context, some shared, some size, some readRight, some writeRight =>
    if b.effectiveBase.toNat % size.bytes = 0 ∧ wellFormed48 b.effectiveBase
        ∧ wellFormed48 (b.effectiveBase + BitVec.ofNat 64 (size.bytes - 1))
        ∧ b.physicalBase.toNat % size.bytes = 0 ∧ b.physicalBase.toNat < 2 ^ 40 then
      some { context, shared, size, effectiveBase := b.effectiveBase,
             physicalBase := b.physicalBase.extractLsb' 0 40, readRight, writeRight }
    else none
  | _, _, _, _, _ => none

/-- What a MAP body asks for: a slot and its new contents; `none` faults BAD_ENTRY (08 R146, 11 R187). -/
def mapEffect (b : MapBody) : Option (EntryId × Option MapEntry) :=
  match decodeMapOp b.operation.toNat, finOf 32 b.slot.toNat with
  | some .load, some slot => (checkMapEntry b).map fun e => (slot, some e)
  | some .invalidate, some slot => some (slot, none)
  | _, _ => none

/-- 08 R150: two pages overlap in some context. -/
def MapEntry.conflicts (a b : MapEntry) : Bool :=
  (a.shared || b.shared || a.context == b.context)
    && decide (a.effectiveBase.toNat ≤ b.pageLast) && decide (b.effectiveBase.toNat ≤ a.pageLast)

/-- 08 R150: the LOAD of a slot overlaps a valid entry in another slot. -/
def overlapsTable (entries : Vector (Option MapEntry) 32) (slot : EntryId) (e : MapEntry) : Bool :=
  (List.finRange 32).any fun m =>
    m != slot && match entries[m] with
      | some other => e.conflicts other
      | none => false

/-- 08 R150, R151: a MAP operation carried out: the new table, or BAD_ENTRY with the table left as it was. -/
def mapCarriedOut (entries : Vector (Option MapEntry) 32) (slot : EntryId) (new : Option MapEntry) :
    Option (Vector (Option MapEntry) 32) :=
  match new with
  | some e => if overlapsTable entries slot e then none else some (entries.set slot (some e))
  | none => some (entries.set slot none)

end Sys2Proof.Machine
end

