-- ==== Sys2Proof/Machine/ChainUnit.lean ====
section
/-! DEFINITION. The Chain Unit's writes and the end of a job's work (01 sections 1.5, 1.6, 1.8, 1.10): status, outcome and
release writes, the first fault, the completion code, and the start of a retire. -/

namespace Sys2Proof.Machine

/-! ## Writes -/

/-- 01 R19: the current record address: after a DONE_FREE retire the next record address, else the record in hand, else
the anchor record, else 0. -/
def Chain.currentAddress (x : Chain) (afterFree : Bool) : Nat :=
  match (if afterFree then x.next else none), x.inHand, x.anchor with
  | some a, _, _ => a.toNat
  | none, some a, _ => a.toNat
  | none, none, some (.record a) => a.toNat
  | none, none, some .directory => 0
  | none, none, none => 0

/-- 01 R19, 11 R184: a status write with this state code and current record address. -/
def State.issueStatus (s : State) (c : ChainId) (code : ChainState) (address : Nat) (next : StatusNext) : State :=
  let x := s.chain c
  s.issueWrite (.statusWrite next) c (s.statusAddress c)
    (statusBytes code x.breakReason x.lastCode x.retireCount address x.lastTag)

/-- 01 R13, 11 R185: the outcome write of the job in REPORTING: bytes 8 to 15 of its record. -/
def State.issueOutcome (s : State) (c : ChainId) (outcome : OutcomeState) (byAbort : Bool) : State :=
  match s.job c with
  | none => s
  | some j =>
    (s.setJob c (some { j with phase := .reporting })).issueWrite (.outcomeWrite outcome byAbort) c (j.record + 8)
      (outcomeBytes outcome (j.code.getD .ok) j.flags j.linesDone)

/-- 01 R18, 11 R185: the release write of a record: byte 8 alone. The anchor becomes absent when it is issued. -/
def State.issueRelease (s : State) (c : ChainId) (record : PhysAddr) (next : ReleaseNext) : State :=
  (s.updChain c fun x => { x with anchor := none }).issueWrite (.releaseWrite next record) c (record + 8)
    (leBytes 1 OutcomeState.doneFree.value)

/-! ## The end of a job's work (01 R10, R11, R28) -/

/-- CONVERT and COPY. -/
def Job.isLine (j : Job) : Bool := j.kind == some .convert || j.kind == some .copy

/-- 01 Table 1-5: lines done when the work has ended. -/
def Job.workLines (j : Job) : Nat :=
  match j.kind with
  | some .convert => j.stored.prefixLen
  | some .copy => j.stored.prefixLen
  | some .table =>
    match j.load with
    | some load => load.entriesLoaded
    | none => 0
  | _ => 0

/-- 01 R11, R28: the completion code when the work has ended. -/
def Job.endCode (j : Job) : Code :=
  match j.firstFault with
  | some code => code
  | none => if j.abortRequested then .aborted else .ok

/-- 01 R10, R11, 06 R113: the work of an admitted job has ended. -/
def Job.finish (j : Job) : Job :=
  { j with
    ended := true
    code := some j.endCode
    linesDone := j.workLines
    flags := { j.flags with zero := j.isLine && decide (1 ≤ j.workLines) && j.stored.zeroSoFar } }

/-- 01 R11: a job retired without admission has ended with this code, lines done 0 and no result flags. -/
def Job.finishUnadmitted (code : Code) (j : Job) : Job :=
  { j with
    ended := true
    code := some code
    linesDone := 0
    flags := .none
    firstFault := if code.isFault then some code else j.firstFault }

/-- The job ended with a fault code. -/
def Job.faulted (j : Job) : Bool :=
  match j.code with
  | some code => code.isFault
  | none => false

/-- 01 R15: the job retires under the HALT policy. -/
def Job.haltsChain (j : Job) : Bool := j.faulted && j.onFault == .halt

/-- 01 R11, R28: the first fault of a job is recorded; a later one, or one after an ABORT, is not. -/
def Job.recordFault (code : Code) (j : Job) : Job :=
  if j.firstFault.isNone && !j.abortRequested then { j with firstFault := some code } else j

/-- A fault reaches the job context of a chain. -/
def State.recordFault (s : State) (c : ChainId) (code : Code) : State := s.updJob c (Job.recordFault code)

/-- 01 R11, R12, R15: the chain is ACTIVE with its job in REPORTING; a job that halts its chain writes its outcome at
once, any other re-reads the link of its record. The ended mark stays set until the job context is dropped (log 27). -/
def State.beginRetire (s : State) (c : ChainId) : State :=
  match s.job c with
  | none => s
  | some j =>
    let s := (s.updChain c fun x => { x with state := .active, resume := none, pauseMark := false }).setJob c
      (some { j with phase := .reporting })
    if j.haltsChain then s.issueOutcome c .doneHeld false
    else s.issueRead .linkReRead c j.record 8

/-- 01 R11, R24, R26: what follows the end of a job's work: the abort's outcome write; the retire; or, with the chain
PAUSED or its pause mark set, PAUSED with resume point READ_NEXT, but the retire at once for a job that halts its chain
(log 6). -/
def State.afterWork (s : State) (c : ChainId) : State :=
  match s.job c with
  | none => s
  | some j =>
    if (s.chain c).state = .aborting then s.issueOutcome c .doneFree true
    else if ((s.chain c).state = .paused ∨ (s.chain c).pauseMark = true) ∧ j.haltsChain = false then
      s.updChain c fun x => { x with state := .paused, resume := some .readNext, pauseMark := false }
    else s.beginRetire c

/-- The work of an admitted job has ended (01 R11). -/
def State.finishWork (s : State) (c : ChainId) : State := (s.updJob c Job.finish).afterWork c

/-- A job is retired without admission (01 R11). -/
def State.endUnadmitted (s : State) (c : ChainId) (code : Code) : State :=
  (s.updJob c (Job.finishUnadmitted code)).afterWork c

end Sys2Proof.Machine
end

