-- ==== Sys2Proof/Machine/Jobs.lean ====
section
/-! DEFINITION. Admission (01 R8), the table gate (06 section 6.7), the replacement gate (08 section 8.6), table resolution
(06 R115), pending replacements (08 section 8.7), and the drop of a job context (01 R9). -/

namespace Sys2Proof.Machine

/-! ## Table resolution (06 R115) -/

/-- A TABLE job asks for its source footprint: the load begins, the job is held, or its work ends with the fault. -/
def State.tableResolve (s : State) (c : ChainId) : State :=
  match s.job c with
  | none => s
  | some j =>
    match j.body with
    | .table b =>
      match s.resolveTable c j b with
      | .resolved ranges _ used =>
        (s.setJob c (some { j with
          pins := j.pins ||| used
          load := some { ranges, source := List.replicate (b.count.toNat * 2) .unanswered, entriesLoaded := 0 } })).issue
          { kind := .tableRead, chain := c, line := none, ranges, cells := [] }
      | .held => s.setJob c (some { j with held := true })
      | .fault code => (s.recordFault c code).finishWork c
    | _ => s

/-! ## Admission (01 R8) -/

/-- What a job claims in the third admission step. -/
inductive GateClaim where
  | none | table | lookup | replacement
  deriving DecidableEq, Repr

/-- 01 R8 step 3. -/
def Job.gateClaim (j : Job) : GateClaim :=
  match j.body with
  | .table _ => .table
  | .map _ => .replacement
  | .convert _ t => if t.kind = .lookup then .lookup else .none
  | _ => .none

/-- 01 Table 1-1, 08 Table 8-5: the kinds that a DATA chain may run. -/
def Job.dataMayRun (j : Job) : Bool := j.kind == some .convert || j.kind == some .copy || j.kind == some .signal

/-- 01 R8 step 2: the checks of the kind, and the job with its snapshots. A job that faults in this step stores none, also
where the fault comes after the snapshot reads (03 R58, R59 do not say: log 28). -/
def State.admissionChecks (s : State) (j : Job) : Except Code Job :=
  match j.body with
  | .convert b t =>
    match convertChecks s b t with
    | .ok (source, dest, coeff) => .ok { j with source := some source, dest := some dest, coeff }
    | .error code => .error code
  | .copy b =>
    match copyChecks s b with
    | .ok (source, dest) => .ok { j with source := some source, dest := some dest }
    | .error code => .error code
  | .table b =>
    match tableFault b with
    | some code => .error code
    | none => .ok j
  | .map b => if (mapEffect b).isSome then .ok j else .error .badEntry
  | .surface _ => .ok j
  | .coeff _ => .ok j
  | .signal => .ok j
  | .unread => .ok j

/-- The gate has granted the chain's claim already (06 R120, 08 R147). -/
def State.gateGranted (s : State) (c : ChainId) : GateClaim → Bool
  | .none => true
  | .table => s.tableGate.holder == some c
  | .lookup => s.tableGate.users[c]
  | .replacement => s.replGate.holder == some c

/-- The table gate has a LOOKUP user. -/
def TableGate.hasUser (g : TableGate) : Bool := allChains.any fun c => g.users[c]

/-- The chains whose claims of this kind wait at the table gate. -/
def TableGate.waitingFor (g : TableGate) (k : TableClaim) : List ChainId :=
  allChains.filter fun c => g.waiting[c] == some k

/-- The table gate with its TABLE claim granted. -/
def TableGate.grantTable (g : TableGate) (c : ChainId) : TableGate :=
  { g with holder := some c, waiting := g.waiting.set c none }

/-- The table gate with a LOOKUP claim granted. -/
def TableGate.grantLookup (g : TableGate) (c : ChainId) : TableGate :=
  { g with users := g.users.set c true, waiting := g.waiting.set c none }

/-- The table gate with a claim among the waiting claims. -/
def TableGate.hold (g : TableGate) (c : ChainId) (k : TableClaim) : TableGate :=
  { g with waiting := g.waiting.set c (some k) }

/-- The table gate without the chain. -/
def TableGate.without (g : TableGate) (c : ChainId) : TableGate :=
  { users := g.users.set c false
    holder := if g.holder = some c then none else g.holder
    waiting := g.waiting.set c none }

/-- The chain has a place at the table gate. -/
def TableGate.has (g : TableGate) (c : ChainId) : Bool := g.users[c] || g.holder == some c || g.waiting[c].isSome

/-- The chains whose claims wait at the replacement gate. -/
def ReplGate.waitingClaims (g : ReplGate) : List ChainId := allChains.filter fun c => g.waiting[c]

/-- The replacement gate with a claim granted. -/
def ReplGate.grant (g : ReplGate) (c : ChainId) : ReplGate := { holder := some c, waiting := g.waiting.set c false }

/-- The replacement gate with a claim among the waiting claims. -/
def ReplGate.hold (g : ReplGate) (c : ChainId) : ReplGate := { g with waiting := g.waiting.set c true }

/-- The replacement gate without the chain. -/
def ReplGate.without (g : ReplGate) (c : ChainId) : ReplGate :=
  { holder := if g.holder = some c then none else g.holder, waiting := g.waiting.set c false }

/-- The chain has a place at the replacement gate. -/
def ReplGate.has (g : ReplGate) (c : ChainId) : Bool := g.holder == some c || g.waiting[c]

/-- 06 R118, R119, 08 R147: a claim is granted at once where the gate is free for it; `none` where it waits. -/
def State.claim (s : State) (c : ChainId) : GateClaim → Option State
  | .none => some s
  | .table =>
    if s.tableGate.hasUser = false ∧ s.tableGate.holder = none then
      some { s with tableGate := s.tableGate.grantTable c }
    else none
  | .lookup =>
    if s.tableGate.holder = none ∧ s.tableGate.waitingFor .table = [] then
      some { s with tableGate := s.tableGate.grantLookup c }
    else none
  | .replacement => if s.replGate.holder = none then some { s with replGate := s.replGate.grant c } else none

/-- 01 R8, 06 R118, R119, 08 R147: the record is held at the gate in WAITING, its snapshots discarded. -/
def State.waitAtGate (s : State) (c : ChainId) (claim : GateClaim) : State :=
  let s := (s.updChain c fun x => { x with state := .waiting }).updJob c fun j =>
    { j with phase := .admitting, source := none, dest := none, coeff := none }
  match claim with
  | .none => s
  | .table => { s with tableGate := s.tableGate.hold c .table }
  | .lookup => { s with tableGate := s.tableGate.hold c .lookup }
  | .replacement => { s with replGate := s.replGate.hold c }

/-- 01 R8 step 4, 04 R68: the job is admitted. -/
def Job.admit_ (j : Job) : Job :=
  { j with phase := .running, admitted := true, nextLine := 0, stored := .empty, flags := .none, firstFault := none }

/-- 01 R8 step 4: the job enters RUNNING and the chain ACTIVE; the work of a SIGNAL job ends at once (02 R46), and a
TABLE job resolves its source (06 R115). -/
def State.enterRunning (s : State) (c : ChainId) : State :=
  match s.job c with
  | none => s
  | some j =>
    let s := (s.updChain c fun x => { x with state := .active }).setJob c (some j.admit_)
    match j.body with
    | .signal => s.finishWork c
    | .table _ => s.tableResolve c
    | _ => s

/-- 01 R8: the admission of the job of a chain, from its first step. A claim that the gate has granted from the waiting
claims is found granted. -/
def State.admitJob (s : State) (c : ChainId) : State :=
  match s.job c with
  | none => s
  | some j =>
    if (s.chain c).latched.privilege = .data ∧ j.dataMayRun = false then s.endUnadmitted c .notPermitted
    else match s.admissionChecks j with
      | .error code => s.endUnadmitted c code
      | .ok j =>
        let s := s.setJob c (some j)
        if s.gateGranted c j.gateClaim then s.enterRunning c
        else match s.claim c j.gateClaim with
          | some s => s.enterRunning c
          | none => s.waitAtGate c j.gateClaim

/-! ## Service of the gates (06 R120, 08 R147) -/

/-- 06 R120 step 2: every waiting LOOKUP claim is granted together, and each job is admitted. -/
def State.grantLookups (s : State) : State :=
  let cs := s.tableGate.waitingFor .lookup
  cs.foldl State.admitJob { s with tableGate := cs.foldl TableGate.grantLookup s.tableGate }

/-- 06 R120: the table gate serves its waiting claims. -/
def State.serveTableGate (s : State) : State :=
  if s.tableGate.holder = none then
    match bestChain s.level (s.tableGate.waitingFor .table) with
    | some c =>
      if s.tableGate.hasUser then s
      else State.admitJob { s with tableGate := s.tableGate.grantTable c } c
    | none => s.grantLookups
  else s

/-- 08 R147: the replacement gate grants the waiting claim of the highest-priority chain. -/
def State.serveReplGate (s : State) : State :=
  if s.replGate.holder = none then
    match bestChain s.level s.replGate.waitingClaims with
    | some c => State.admitJob { s with replGate := s.replGate.grant c } c
    | none => s
  else s

/-- 06 R120, R121: the chain leaves the table gate, which then serves its waiting claims. -/
def State.leaveTableGate (s : State) (c : ChainId) : State :=
  if s.tableGate.has c then State.serveTableGate { s with tableGate := s.tableGate.without c } else s

/-- 08 R147, R148: the chain leaves the replacement gate, which then serves its waiting claims. -/
def State.leaveReplGate (s : State) (c : ChainId) : State :=
  if s.replGate.has c then State.serveReplGate { s with replGate := s.replGate.without c } else s

/-! ## Pending replacements (08 R152 to R155) -/

/-- A TABLE job that resolves afresh as its hold ends: its chain is ACTIVE (06 R115, R117). -/
def State.resolvesAfresh (s : State) (c : ChainId) : Bool :=
  match s.job c with
  | some j => j.held && j.kind == some .table && (s.chain c).state == .active
  | none => false

/-- Every held mark cleared, which empties the held set. -/
def State.clearHeld (s : State) : State := { s with jobs := s.jobs.map (Option.map fun j => { j with held := false }) }

/-- The chains whose held TABLE jobs resolve their sources afresh as the hold ends. -/
def State.afresh (s : State) : List ChainId := allChains.filter s.resolvesAfresh

/-- 08 R154: the held set is released; a held TABLE job resolves its source afresh, and a held line job is eligible
again. -/
def State.releaseHeld (s : State) : State := s.afresh.foldl State.tableResolve s.clearHeld

/-- 08 R150, R151: the MAP operation of chain `c` carried out; a LOAD that overlaps faults BAD_ENTRY. -/
def State.carryOutMap (s : State) (c : ChainId) (slot : EntryId) (new : Option MapEntry) : State :=
  match mapCarriedOut s.entries slot new with
  | some entries => { s with entries }
  | none => s.recordFault c .badEntry

/-- 08 R153: the pending replacement is carried out: the operation, the mark, the held set, the end of the MAP job's
work, and then the held TABLE jobs resolve afresh. -/
def State.completeReplacement (s : State) : State :=
  match s.replGate.holder with
  | none => s
  | some c =>
    match s.job c with
    | none => s
    | some j =>
      match j.body with
      | .map b =>
        match mapEffect b with
        | some (slot, new) =>
          s.afresh.foldl State.tableResolve
            ((State.clearHeld { s.carryOutMap c slot new with pendingMark := none }).finishWork c)
        | none => s
      | _ => s

/-- 08 R145, R153: after a release of pins, the pending replacement is carried out if its entry has no pin left. -/
def State.afterPinRelease (s : State) : State :=
  match s.pendingMark with
  | some m => if s.pinCount m = 0 then s.completeReplacement else s
  | none => s

/-- 08 R154: an ABORT withdraws the pending replacement; the slot keeps its old entry. -/
def State.withdrawReplacement (s : State) : State := State.releaseHeld { s with pendingMark := none }

/-- 01 R9: the job context of a chain is dropped, and with it its pins (08 R145), its places at the gates (06 R120,
08 R147) and its held mark (08 R155). The pins go first, with the replacement that this completes, then the table gate, then
the replacement gate: 08 R135 and R145 let them come in any order, and this one is the model's choice (log 25). -/
def State.dropJob (s : State) (c : ChainId) : State :=
  match s.job c with
  | none => s
  | some _ => ((s.setJob c none).afterPinRelease.leaveTableGate c).leaveReplGate c

end Sys2Proof.Machine
end

