-- ==== Sys2Proof/Machine/Progress.lean ====
section
/-! DEFINITION. The progress of a chain: flag arrivals and what they set going (02 R31), the guard step (01 R7), parking
and waking (01 section 1.7), record reads (01 R4), the deferred pause (01 R22), breakage (09 section 9.3), and the end of
an abort (01 R27). -/

namespace Sys2Proof.Machine

/-! ## Re-reading an anchor and arrivals at the Flag File -/

/-- 01 R17, R25: the chain is READING and re-reads its anchor's link: bytes 0 to 7 of the anchor record, or the head
field of its directory entry. -/
def State.reReadAnchor (s : State) (c : ChainId) : State :=
  match (s.chain c).anchor with
  | some (.record a) => (s.updChain c fun x => { x with state := .reading }).issueRead .anchorReRead c a 8
  | some .directory => (s.updChain c fun x => { x with state := .reading }).issueRead .headReRead c (s.directoryAddress c) 8
  | none => s

/-- What a service, or the drop of a retired job's context, does. -/
def State.runFollowup (s : State) : Followup → State
  | .passed c => (s.updJob c fun j => { j with guardPassed := true }).admitJob c
  | .wake c => s.reReadAnchor c
  | .drop c => s.dropJob c

/-- The things one arrival sets going are taken in an order the manual leaves free (log 5). -/
def State.settle (s : State) (things : List Followup) : State :=
  (arrange things.length s.choices things).foldl State.runFollowup
    { s with choices := if things.length ≤ 1 then s.choices else s.choices + things.length }

/-- The state the Flag File owns. -/
def State.flagFile (s : State) : FlagFile where
  flags := s.flags
  waiters := s.waiters

/-- 02 R31: an arrival at the Flag File, taken whole; then what it sets going, with `also` beside it. -/
def State.flagArrival (s : State) (op : FlagFile → FlagFile × List Followup) (also : List Followup) : State :=
  let r := op s.flagFile
  State.settle { s with flags := r.1.flags, waiters := r.1.waiters } (r.2 ++ also)

/-! ## Guard step (01 R7, 02 R39, R40) -/

/-- The guard step of the record a chain holds in WAITING. -/
def State.guardStep (s : State) (c : ChainId) : State :=
  match s.job c with
  | none => s
  | some j =>
    match j.guard with
    | none => s.admitJob c
    | some g =>
      if j.guardPassed then s.admitJob c
      else match g.mode with
        | .wait =>
          s.flagArrival (FlagFile.register s.level c
            { flag := g.flag, wanted := g.wanted, consuming := g.consume, kind := .guard }) []
        | .skip =>
          if s.flags.getLsbD g.flag = g.wanted then
            if g.consume then s.flagArrival (FlagFile.change s.level g.flag (!g.wanted)) [.passed c]
            else s.runFollowup (.passed c)
          else s.endUnadmitted c .skipped

/-! ## Reading records and parking -/

/-- 01 R4: the record at the next record address becomes the record in hand, and its header is read. -/
def State.readRecord (s : State) (c : ChainId) : State :=
  match (s.chain c).next with
  | none => s
  | some a =>
    (s.updChain c fun x => { x with state := .reading, inHand := some a, anchor := none, next := none }).issueRead
      .headerRead c a 32

/-- The chain goes on to the record at the next record address, or enters PAUSED with READ_NEXT instead where its pause
mark is set (01 R22). -/
def State.goOnReading (s : State) (c : ChainId) : State :=
  if (s.chain c).pauseMark then
    s.updChain c fun x =>
      { x with state := .paused, resume := some .readNext, pauseMark := false, inHand := none, anchor := none }
  else s.readRecord c

/-- 01 R16: the wake claim of a parked chain is offered. -/
def State.offerWake (s : State) (c : ChainId) : State :=
  s.flagArrival (FlagFile.register s.level c
    { flag := (s.chain c).latched.wakeFlag, wanted := true, consuming := true, kind := .wake }) []

/-- 01 R16: the chain enters PARKED with this anchor; the status entry is written unless a retire's status write has
already carried PARKED, and then the wake claim is offered at once. -/
def State.park (s : State) (c : ChainId) (anchor : Anchor) (writeStatus : Bool) : State :=
  let s := s.updChain c fun x => { x with state := .parked, inHand := none, anchor := some anchor }
  if writeStatus then s.issueStatus c .parked ((s.chain c).currentAddress false) .park
  else s.offerWake c

/-- The status write of an entry into PARKED, whatever the chain has done since. -/
def Access.isParkStatusFor (c : ChainId) (a : Access) : Bool :=
  a.chain == c && match a.kind with
    | .statusWrite .park => true
    | .statusWrite .nothing => true
    | .statusWrite .parkAgain => true
    | .statusWrite .abortAnchor => true
    | _ => false

/-- The status write of the chain's entry into PARKED is not yet answered. -/
def State.awaitsParkStatus (s : State) (c : ChainId) : Bool := s.accesses.any (Access.isParkStatusFor c)

/-- What is to follow the status write of the chain's entry into PARKED changes: a chain has one access of its own
outstanding at a time (09 R157), so its next write waits for this one's answer (log 10). -/
def State.redirectPark (s : State) (c : ChainId) (next : StatusNext) : State :=
  { s with accesses := s.accesses.map fun a =>
      if a.isParkStatusFor c then { a with kind := .statusWrite next } else a }

/-- 01 R25: RESUME at PARK enters PARKED on the same anchor and writes the status entry, after the answer of the status
write of its last entry into PARKED where that is still awaited (log 10). -/
def State.resumePark (s : State) (c : ChainId) : State :=
  match (s.chain c).anchor with
  | some a =>
    if s.awaitsParkStatus c then
      (s.updChain c fun x => { x with state := .parked, inHand := none, anchor := some a }).redirectPark c .parkAgain
    else s.park c a true
  | none => s

/-- The chain parks, or enters PAUSED with PARK instead where its pause mark is set (01 R22). -/
def State.goOnParking (s : State) (c : ChainId) (anchor : Anchor) (writeStatus : Bool) : State :=
  if (s.chain c).pauseMark then
    s.updChain c fun x =>
      { x with state := .paused, resume := some .park, pauseMark := false, inHand := none, anchor := some anchor }
  else s.park c anchor writeStatus

/-! ## Breakage (09 R162 to R164) -/

/-- A cause of 09 Table 9-3 arises: the chain enters BROKEN, its job context is dropped, and the break tail starts. -/
def State.breakChain (s : State) (c : ChainId) (reason : BreakReason) (address : Nat) : State :=
  let flag := (s.chain c).latched.faultFlag
  let s := (s.updChain c fun x =>
    { x with state := .broken, breakReason := reason, inHand := none, anchor := none, next := none, resume := none,
             pauseMark := false }).dropJob c
  (s.report reason.errorKind c).issueStatus c .broken address (.breakTail flag)

/-! ## The end of an abort (01 R27) -/

/-- Every write the abort calls for has been acknowledged: the status entry is written with state IDLE. -/
def State.finishAbort (s : State) (c : ChainId) : State := s.issueStatus c .idle 0 .abortEnd

/-- The abort's last status write has been answered: the job context is dropped and the chain is IDLE. -/
def State.endAbort (s : State) (c : ChainId) : State :=
  (s.updChain c fun x => { x with state := .idle, inHand := none, anchor := none, next := none }).dropJob c

/-- 01 R26: the anchor record of an abort is released; with the directory or nothing as anchor there is nothing to write.
A status write still awaited is answered first (log 10). -/
def State.abortAnchor (s : State) (c : ChainId) : State :=
  if s.awaitsParkStatus c then s.redirectPark c .abortAnchor
  else match (s.chain c).anchor with
    | some (.record a) => s.issueRelease c a .abortEnd
    | _ => s.finishAbort c

/-! ## Directory reads and links -/

/-- 01 R3: the directory read of a START is issued. -/
def State.readDirectory (s : State) (c : ChainId) : State :=
  (s.updChain c fun x => { x with state := .reading }).issueRead .directoryRead c (s.directoryAddress c) 32

/-- 01 R2, with the directory as source: a bad link breaks the chain, 0 parks it, any other value is read. -/
def State.takeHead (s : State) (c : ChainId) (link : Addr64) : State :=
  match linkValue link with
  | .bad => s.breakChain c .badLink 0
  | .zero => s.goOnParking c .directory true
  | .to a => (s.updChain c fun x => { x with next := some a, anchor := none }).goOnReading c

/-- 01 R2, R17, with an anchor record as source: a bad link breaks the chain, 0 parks it on the same anchor, any other
value releases the anchor first. -/
def State.takeAnchorLink (s : State) (c : ChainId) (anchor : PhysAddr) (link : Addr64) : State :=
  match linkValue link with
  | .bad => s.breakChain c .badLink anchor.toNat
  | .zero => s.goOnParking c (.record anchor) true
  | .to a => (s.updChain c fun x => { x with next := some a }).issueRelease c anchor .readNext

/-! ## The record in hand -/

/-- The record has passed its checks: it is held in WAITING and its guard step is made, or the chain enters PAUSED with
GUARD instead where its pause mark is set (01 R7, R22). -/
def State.recordPassed (s : State) (c : ChainId) : State :=
  if (s.chain c).pauseMark then
    s.updChain c fun x => { x with state := .paused, resume := some .guard, pauseMark := false }
  else (s.updChain c fun x => { x with state := .waiting }).guardStep c

/-- 01 R26: a record not yet admitted is retired ABORTED, with lines done 0 and no result flags. -/
def State.abortRecord (s : State) (c : ChainId) : State :=
  (s.updJob c (Job.finishUnadmitted .aborted)).issueOutcome c .doneFree true

end Sys2Proof.Machine
end

