-- ==== Sys2Proof/Machine/ChainAnswers.lean ====
section
/-! DEFINITION. The answers to the Chain Unit's accesses: directory, record, link and anchor reads, and outcome, release
and status writes (01, 09). -/

namespace Sys2Proof.Machine

/-- The address of the record in hand; 0 where there is none. -/
def Chain.handAddress (x : Chain) : Nat :=
  match x.inHand with
  | some a => a.toNat
  | none => 0

/-! ## Reads -/

/-- 01 R3, 11 R183; during an abort the answer is not decoded (R26). -/
def State.afterDirectoryRead (s : State) (c : ChainId) (answer : ReadAnswer) : State :=
  if (s.chain c).state = .aborting then s.finishAbort c
  else match answer with
    | .error => s.breakChain c .directoryRead 0
    | .data bytes =>
      match decodeLatched bytes with
      | none => s.breakChain c .directoryRead 0
      | some latched => (s.updChain c fun x => { x with latched }).takeHead c (linkField bytes)

/-- DIRECTORY_READ. -/
def execDirectoryRead (c : ChainId) (answer : ReadAnswer) (s : State) : Host.Outcome State Fault Refusal :=
  .next (s.onRead (Access.isFor .directoryRead c) answer fun _ s => s.afterDirectoryRead c answer)

/-- 01 R5 step 1: a record whose outcome state is not PENDING breaks the chain, and the last completion code becomes
BAD_RECORD. -/
def State.breakOnRecordState (s : State) (c : ChainId) : State :=
  (s.updChain c fun x => { x with lastCode := .badRecord }).breakChain c .recordRead (s.chain c).handAddress

/-- 01 R4: the second part is read (past 2^40: log 7); a record with none has been read whole. -/
def State.readSecondPart (s : State) (c : ChainId) (j : Job) : State :=
  if j.secondPartBytes = 0 then (s.setJob c (some { j with body := .signal })).recordPassed c
  else s.issue { kind := .secondPartRead, chain := c, line := none, ranges := recordRanges j.record 32 j.secondPartBytes,
                 cells := [] }

/-- 01 R5, R9, 11 R185: a header has arrived at the record in hand. -/
def State.takeHeader (s : State) (c : ChainId) (record : PhysAddr) (bytes : List Byte) : State :=
  let j := jobOfHeader record bytes
  let s' := s.setJob c (some j)
  if headerIsPending bytes then
    if headerIsSound bytes then s'.readSecondPart c j else s'.endUnadmitted c .badRecord
  else s.breakOnRecordState c

/-- 01 R26: a header that arrives during an abort: a PENDING record gives a job retired ABORTED; any other leaves the
record unwritten and breaks nothing. -/
def State.takeHeaderAborting (s : State) (c : ChainId) (record : PhysAddr) (bytes : List Byte) : State :=
  if headerIsPending bytes then
    (s.setJob c (some { jobOfHeader record bytes with abortRequested := true })).abortRecord c
  else s.finishAbort c

/-- 01 R4, R5: the header read is answered. -/
def State.afterHeaderRead (s : State) (c : ChainId) (answer : ReadAnswer) : State :=
  match (s.chain c).inHand, answer with
  | some a, .data bytes =>
    if (s.chain c).state = .aborting then s.takeHeaderAborting c a bytes else s.takeHeader c a bytes
  | _, _ => s.breakChain c .recordRead (s.chain c).handAddress

/-- RECORD_HEADER_READ. -/
def execRecordHeaderRead (c : ChainId) (answer : ReadAnswer) (s : State) : Host.Outcome State Fault Refusal :=
  .next (s.onRead (Access.isFor .headerRead c) answer fun _ s => s.afterHeaderRead c answer)

/-- 01 R6, 11 R186: the second part has arrived. -/
def State.takeSecondPart (s : State) (c : ChainId) (bytes : List Byte) : State :=
  match s.job c with
  | none => s
  | some j =>
    match j.withSecondPart bytes with
    | some j => (s.setJob c (some j)).recordPassed c
    | none => s.endUnadmitted c .badRecord

/-- 01 R4, R6: the second part's read is answered; during an abort it is not checked (R26). -/
def State.afterSecondPartRead (s : State) (c : ChainId) (answer : ReadAnswer) : State :=
  match answer with
  | .error => s.breakChain c .recordRead (s.chain c).handAddress
  | .data bytes => if (s.chain c).state = .aborting then s.abortRecord c else s.takeSecondPart c bytes

/-- RECORD_SECOND_PART_READ. -/
def execRecordSecondPartRead (c : ChainId) (answer : ReadAnswer) (s : State) : Host.Outcome State Fault Refusal :=
  .next (s.onRead (Access.isFor .secondPartRead c) answer fun _ s => s.afterSecondPartRead c answer)

/-- 01 R12 step 3: the link of a finished record. -/
def State.takeLink (s : State) (c : ChainId) (link : Addr64) : State :=
  match linkValue link with
  | .bad => s.breakChain c .badLink (s.chain c).handAddress
  | .zero => s.issueOutcome c .doneHeld false
  | .to a => (s.updChain c fun x => { x with next := some a }).issueOutcome c .doneFree false

/-- 01 R12: the link re-read of a retire is answered; during an abort its value is not taken (R26). -/
def State.afterLinkReRead (s : State) (c : ChainId) (answer : ReadAnswer) : State :=
  match answer with
  | .error => s.breakChain c .recordRead (s.chain c).handAddress
  | .data bytes =>
    if (s.chain c).state = .aborting then s.issueOutcome c .doneFree true else s.takeLink c (linkField bytes)

/-- LINK_RE_READ. -/
def execLinkReRead (c : ChainId) (answer : ReadAnswer) (s : State) : Host.Outcome State Fault Refusal :=
  .next (s.onRead (Access.isFor .linkReRead c) answer fun _ s => s.afterLinkReRead c answer)

/-- 01 R17: the re-read of a record anchor's link is answered; during an abort the anchor is released whatever its link
holds (R26). -/
def State.afterAnchorRecord (s : State) (c : ChainId) (anchor : PhysAddr) (answer : ReadAnswer) : State :=
  match answer with
  | .error => s.breakChain c .recordRead anchor.toNat
  | .data bytes =>
    if (s.chain c).state = .aborting then s.issueRelease c anchor .abortEnd
    else s.takeAnchorLink c anchor (linkField bytes)

/-- 01 R17: the re-read of the directory head is answered; the latched parameters are not re-read. -/
def State.afterAnchorHead (s : State) (c : ChainId) (answer : ReadAnswer) : State :=
  if (s.chain c).state = .aborting then s.finishAbort c
  else match answer with
    | .error => s.breakChain c .directoryRead 0
    | .data bytes => s.takeHead c (linkField bytes)

/-- What follows the re-read of an anchor. -/
def State.afterAnchorReRead (s : State) (c : ChainId) (answer : ReadAnswer) : State :=
  match (s.chain c).anchor with
  | some (.record a) => s.afterAnchorRecord c a answer
  | _ => s.afterAnchorHead c answer

/-- ANCHOR_LINK_RE_READ. -/
def execAnchorLinkReRead (c : ChainId) (answer : ReadAnswer) (s : State) : Host.Outcome State Fault Refusal :=
  .next (s.onRead (Access.isAnchorReReadFor c) answer fun _ s => s.afterAnchorReRead c answer)

/-! ## Writes -/

/-- 01 R13: an acknowledged outcome write counts and sets the last completion code and last tag. -/
def State.countRetire (s : State) (c : ChainId) : State :=
  match s.job c with
  | none => s
  | some j =>
    s.updChain c fun x =>
      { x with retireCount := x.retireCount + 1, lastCode := j.code.getD .ok, lastTag := j.tag }

/-- The job of the chain retires under the HALT policy (01 R15). -/
def State.jobHalts (s : State) (c : ChainId) : Bool :=
  match s.job c with
  | some j => j.haltsChain
  | none => false

/-- 01 R14, R15, R23: the state code of a retire's status write. -/
def State.retireStateCode (s : State) (c : ChainId) (outcome : OutcomeState) : ChainState :=
  if (s.chain c).state = .aborting then .aborting
  else if s.jobHalts c then .halted
  else if (s.chain c).pauseMark then .paused
  else if outcome = .doneFree then .reading
  else .parked

/-- 01 R14: the status write of a retire. -/
def State.retireStatus (s : State) (c : ChainId) (outcome : OutcomeState) : State :=
  s.issueStatus c (s.retireStateCode c outcome) ((s.chain c).currentAddress (outcome == .doneFree)) (.retire outcome)

/-- 01 R13, R14, R27: the outcome write is answered. -/
def State.afterOutcomeWrite (s : State) (c : ChainId) (outcome : OutcomeState) (byAbort ok : Bool) : State :=
  if ok then
    let s := s.countRetire c
    if byAbort then s.finishAbort c else s.retireStatus c outcome
  else s.breakChain c .outcomeWrite (s.chain c).handAddress

/-- OUTCOME_WRITE. -/
def execOutcomeWrite (c : ChainId) (answer : WriteAnswer) (s : State) : Host.Outcome State Fault Refusal :=
  .next (s.onWrite (Access.isOutcomeFor c) 0 answer fun a ok s =>
    match a.kind with
    | .outcomeWrite outcome byAbort => s.afterOutcomeWrite c outcome byAbort ok
    | _ => s)

/-- 01 R18, R27: the release write is answered, and the step that called for it follows. -/
def State.afterRelease (s : State) (c : ChainId) (next : ReleaseNext) (record : PhysAddr) (ok : Bool) : State :=
  if ok then
    if (s.chain c).state = .aborting then s.finishAbort c
    else match next with
      | .readNext => s.goOnReading c
      | .directory => s.readDirectory c
      | .abortEnd => s.finishAbort c
  else s.breakChain c .releaseWrite record.toNat

/-- RELEASE_WRITE. -/
def execReleaseWrite (c : ChainId) (answer : WriteAnswer) (s : State) : Host.Outcome State Fault Refusal :=
  .next (s.onWrite (Access.isReleaseFor c) 0 answer fun a ok s =>
    match a.kind with
    | .releaseWrite next record => s.afterRelease c next record ok
    | _ => s)

/-- 01 R14, R15, R22, R26: the next step of a chain whose retire is complete, with no record in hand any more (R18):
`halts` says that its job halted the chain. -/
def State.afterRetire (s : State) (c : ChainId) (outcome : OutcomeState) (halts : Bool) : State :=
  match (s.chain c).inHand with
  | none => s
  | some record =>
    let s := s.updChain c fun x => { x with inHand := none }
    if (s.chain c).state = .aborting then
      if outcome = .doneHeld then s.issueRelease c record .abortEnd else s.finishAbort c
    else if halts then
      s.updChain c fun x => { x with state := .halted, anchor := some (.record record), pauseMark := false }
    else if outcome = .doneFree then s.goOnReading c
    else s.goOnParking c (.record record) false

/-- 01 R14, 02 R42 to R45: the status write of a retire has been answered: the post actions and the fault flag are one
arrival, the job context is dropped, and the chain takes its next step. -/
def State.endRetire (s : State) (c : ChainId) (outcome : OutcomeState) : State :=
  match s.job c with
  | none => s
  | some j =>
    (s.flagArrival
      (FlagFile.applyAll s.level (retireOps j (j.code.getD .ok) (s.chain c).latched.faultFlag)) [.drop c]).afterRetire c
      outcome j.haltsChain

/-- 09 R164 step 3: the fault flag of a break tail is its own arrival. -/
def State.endBreakTail (s : State) (flag : Option FlagId) : State :=
  match flag with
  | some f => s.flagArrival (FlagFile.change s.level f true) []
  | none => s

/-- What follows a status write, by what it was made for, and by what its chain has done since (log 10). -/
def State.afterStatusWrite (s : State) (c : ChainId) : StatusNext → State
  | .retire outcome => s.endRetire c outcome
  | .park => s.offerWake c
  | .abortEnd => s.endAbort c
  | .breakTail flag => s.endBreakTail flag
  | .nothing => s
  | .parkAgain => s.resumePark c
  | .abortAnchor => s.abortAnchor c

/-- 01 R14, R19, 09 R167: a status write is answered; a failure is reported, and the chain goes on all the same. -/
def State.statusAnswered (s : State) (c : ChainId) (next : StatusNext) (ok : Bool) : State :=
  (if ok then s else s.report .statusWrite c).afterStatusWrite c next

/-- STATUS_WRITE. -/
def execStatusWrite (c : ChainId) (nth : Nat) (answer : WriteAnswer) (s : State) : Host.Outcome State Fault Refusal :=
  .next (s.onWrite (Access.isStatusFor c) nth answer fun a ok s =>
    match a.kind with
    | .statusWrite next => s.statusAnswered c next ok
    | _ => s)

end Sys2Proof.Machine
end

