-- ==== Sys2Proof/Machine/ControlPort.lean ====
section
/-! DEFINITION. The Control Port (10): register reads, the resets, and the writes of TEN, EXCHANGE_BASE, the flags,
ATTENTION_MASK and ERROR. -/

namespace Sys2Proof.Machine

/-! ## Register reads (10 R170, R171, R175 to R178) -/

/-- 10 R171. -/
def identValue : BitVec 32 := 0x93D20001#32

/-- The number with fields at bit positions: each a value and the position of its bit 0. -/
def packFields (fields : List (Nat × Nat)) : BitVec 32 :=
  BitVec.ofNat 32 ((fields.map fun f => f.1 * 2 ^ f.2).sum)

/-- 10 Table 10-2: CONTROL. -/
def State.controlValue (s : State) : BitVec 32 := packFields [(s.ten.toNat, 0), (s.softReset.toNat, 1)]

/-- 10 Table 10-2, R175: COMMAND_STATUS. -/
def State.commandStatusValue (s : State) : BitVec 32 :=
  packFields [((s.chain 0).state.code, 0), ((s.chain 1).state.code, 4), ((s.chain 2).state.code, 8),
    ((s.chain 3).state.code, 12), (s.lastResult.result.code, 16), (s.lastResult.reason.code, 18),
    (s.lastResult.register.toNat, 24), (s.lastResult.chain.val, 28)]

/-- 10 Table 10-2, R178: ERROR. -/
def State.errorValue (s : State) : BitVec 32 :=
  packFields [(s.errors.pending.toNat, 0), (s.errors.firstKind.code, 4), (s.errors.firstChain.val, 8),
    (s.errors.further.toNat, 16)]

/-- 10 R170: what a read of an offset returns; a read changes no state, so it is no command. -/
def State.readRegister (s : State) (offset : BitVec 12) : BitVec 32 :=
  match offset.toNat with
  | 0x00 => identValue
  | 0x04 => s.controlValue
  | 0x08 => s.exchangeBase.setWidth 32
  | 0x0C => 0
  | 0x10 => s.commandStatusValue
  | 0x14 => s.flags
  | 0x18 => s.flags
  | 0x1C => s.attentionMask
  | 0x20 => s.errorValue
  | _ => 0

/-! ## The numbers of the registers in COMMAND_STATUS: offset divided by 4 (10 Table 10-1, R175) -/

/-- CONTROL, offset 0x04. -/
def regControl : BitVec 4 := 1
/-- EXCHANGE_BASE, offset 0x08. -/
def regExchangeBase : BitVec 4 := 2
/-- CHAIN_COMMAND, offset 0x0C. -/
def regChainCommand : BitVec 4 := 3
/-- FLAG_SET, offset 0x14. -/
def regFlagSet : BitVec 4 := 5
/-- FLAG_CLEAR, offset 0x18. -/
def regFlagClear : BitVec 4 := 6
/-- ATTENTION_MASK, offset 0x1C. -/
def regAttentionMask : BitVec 4 := 7
/-- ERROR, offset 0x20. -/
def regError : BitVec 4 := 8

/-- 10 R181: while a soft reset is in progress a register write is refused with RESETTING; otherwise its own rule
takes it. -/
def State.hostWrite (s : State) (register : BitVec 4) (c : ChainId) (taken : State → State) : State :=
  if s.softReset then s.refuse .resetting register c else taken s

/-! ## Resets -/

/-- 10 R179: a soft reset starts: the Flag File withdraws every waiter (02 R48), the conversion in progress is stopped
(04 R87, 05 R88, 06 R102), the Trailer Unit discards its checks (07 R134), and the last result becomes NONE. No chain,
flag or error summary changes. -/
def State.beginSoftReset (s : State) : State :=
  { s with
    softReset := true
    lastResult := .none
    waiters := Vector.replicate 4 none
    image := none
    lineMarks := none
    fetchChecks := Vector.replicate 2 none
    packCheck := none
    copyZero := none }

/-- 10 R180: the end of a soft reset brings every block to its rest state. Kept: surfaces, mapping entries, lookup table,
coefficient sets, TEN, EXCHANGE_BASE and the last result. -/
def State.endSoftReset (s : State) : State :=
  { s with
    chains := Vector.replicate 4 .atRest
    jobs := Vector.replicate 4 none
    flags := 0
    waiters := Vector.replicate 4 none
    lines := []
    inBuf := Vector.replicate 2 []
    outBuf := Vector.replicate 2 []
    passOver := Vector.replicate 4 0
    conversion := none
    image := none
    tableGate := .empty
    lineMarks := none
    fetchChecks := Vector.replicate 2 none
    packCheck := none
    copyZero := none
    pendingMark := none
    replGate := .empty
    softReset := false
    attentionMask := 0
    errors := .clear }

/-- POWER_ON_RESET (10 R182): every state of the part holds its power-on value; outstanding accesses are abandoned and
nothing is written to memory. -/
def execPowerOnReset (s : State) : Host.Outcome State Fault Refusal :=
  .next { State.reset with memory := s.memory, choices := s.choices, pending := s.pending }

/-- SOFT_RESET (10 R172, R179, R181). With no access outstanding the drain ends at once (log 12). -/
def execSoftReset (_ten : Bool) (s : State) : Host.Outcome State Fault Refusal :=
  .next (s.hostWrite regControl 0 fun s =>
    if s.accesses = [] then s.beginSoftReset.endSoftReset else s.beginSoftReset)

/-- SOFT_RESET_END (10 R180): it comes about in a soft reset whose outstanding access list is empty (log 2). -/
def execSoftResetEnd (s : State) : Host.Outcome State Fault Refusal :=
  .next (if s.softReset = true ∧ s.accesses = [] then s.endSoftReset else s)

/-! ## Register writes -/

/-- TEN_WRITE (10 R172, 08 R138). -/
def execTenWrite (ten : Bool) (s : State) : Host.Outcome State Fault Refusal :=
  .next (s.hostWrite regControl 0 fun s =>
    if ten = s.ten then s.accept regControl 0
    else if s.anyAdmitted then s.refuse .busy regControl 0
    else { s with ten }.accept regControl 0)

/-- 10 R173: every chain is IDLE. -/
def State.allIdle (s : State) : Bool := allChains.all fun c => (s.chain c).state == .idle

/-- EXCHANGE_BASE_WRITE (10 R173); bits 31 to 28 of the value are ignored. -/
def execExchangeBaseWrite (value : BitVec 32) (s : State) : Host.Outcome State Fault Refusal :=
  .next (s.hostWrite regExchangeBase 0 fun s =>
    if s.allIdle then { s with exchangeBase := value.extractLsb' 0 28 }.accept regExchangeBase 0
    else s.refuse .busy regExchangeBase 0)

/-- FLAG_SET (02 R32, 10 R176). -/
def execFlagSet (mask : BitVec 32) (s : State) : Host.Outcome State Fault Refusal :=
  .next (s.hostWrite regFlagSet 0 fun s =>
    (s.flagArrival (FlagFile.hostWrite s.level (s.flags ||| mask)) []).accept regFlagSet 0)

/-- FLAG_CLEAR (02 R32, 10 R176). -/
def execFlagClear (mask : BitVec 32) (s : State) : Host.Outcome State Fault Refusal :=
  .next (s.hostWrite regFlagClear 0 fun s =>
    (s.flagArrival (FlagFile.hostWrite s.level (s.flags &&& ~~~ mask)) []).accept regFlagClear 0)

/-- ATTENTION_MASK_WRITE (10 R177). -/
def execAttentionMaskWrite (value : BitVec 32) (s : State) : Host.Outcome State Fault Refusal :=
  .next (s.hostWrite regAttentionMask 0 fun s => { s with attentionMask := value }.accept regAttentionMask 0)

/-- ERROR_CLEAR (09 R168, 10 R178): taken also during a soft reset; with bit 0 at 0 it changes nothing. -/
def execErrorClear (value : BitVec 32) (s : State) : Host.Outcome State Fault Refusal :=
  .next ((if value.getLsbD 0 then { s with errors := .clear } else s).accept regError 0)

/-- IGNORED_REGISTER_WRITE (10 R170): no state changes, COMMAND_STATUS included. -/
def execIgnoredRegisterWrite (_offset : BitVec 12) (_value : BitVec 32) (_strobes : BitVec 4) (s : State) :
    Host.Outcome State Fault Refusal :=
  .next s

end Sys2Proof.Machine
end

