-- ==== Sys2Proof/Machine/Trailers.lean ====
section
/-! DEFINITION. Line trailers (07): the CRC, the source check, destination pad bytes and trailers, and the COPY byte path. -/

namespace Sys2Proof.Machine

/-- 07 R125 step 1. -/
def crcStart : BitVec 32 := 0xFFFFFFFF#32

/-- 07 R125 step 2: one of the eight steps of a byte. -/
def crcStep (r : BitVec 32) : BitVec 32 := if r.getLsbD 0 then (r >>> 1) ^^^ 0xEDB88320#32 else r >>> 1

/-- 07 R125 step 2: a byte taken into the register. -/
def crcByte (r : BitVec 32) (b : Byte) : BitVec 32 :=
  crcStep (crcStep (crcStep (crcStep (crcStep (crcStep (crcStep (crcStep (r ^^^ b.setWidth 32))))))))

/-- 07 R125: bytes taken into the register in order. -/
def crcTake (r : BitVec 32) (bytes : List Byte) : BitVec 32 := bytes.foldl crcByte r

/-- 07 R125: the CRC of a run of bytes. -/
def crcOf (bytes : List Byte) : BitVec 32 := ~~~ crcTake crcStart bytes

/-- 07 R124: a fetch check as it is created at a fetch grant. -/
def FetchCheck.start : FetchCheck where
  crc := crcStart
  taken := 0
  expected := none

/-- 07 R126: the fetch check after every byte of the source footprint has arrived. -/
def FetchCheck.arrived (check : FetchCheck) (source : Surface) (footprint : List Byte) : FetchCheck where
  crc := crcTake check.crc (footprint.take source.payload)
  taken := check.taken + source.payload
  expected := some (BitVec.ofNat 32 (fieldAt footprint source.trailerOffset 4))

/-- 07 R126: the line matches its stored trailer. -/
def FetchCheck.isMatch (check : FetchCheck) : Bool := check.expected == some (~~~ check.crc)

/-- 07 R124: a pack check as it is created at a conversion start. -/
def PackCheck.start : PackCheck where
  crc := crcStart
  taken := 0

/-- 07 R130 step 1: the pack check after the output payload has been written. -/
def PackCheck.took (check : PackCheck) (payload : List Byte) : PackCheck where
  crc := crcTake check.crc payload
  taken := check.taken + payload.length

/-- 07 R130: the destination footprint: the payload, and where a pack check was made the pad bytes of 0 and the CRC
little-endian at the trailer offset. -/
def destFootprint (dest : Surface) (check : Option PackCheck) (payload : List Byte) : List Byte :=
  match check with
  | none => payload
  | some check =>
    payload ++ List.replicate (dest.trailerOffset - dest.payload) 0 ++ leBytes 4 (~~~ (check.took payload).crc).toNat

/-- 07 R132: the payload that the COPY byte path moves unchanged. -/
def copyPayload (source : Surface) (buffer : List Byte) : List Byte := buffer.take source.payload

/-- 07 R132: the copy all-zero mark after the payload. -/
def copyZeroAfter (mark : Bool) (payload : List Byte) : Bool := mark && payload.all (· == 0)

end Sys2Proof.Machine
end

