-- ==== Sys2Proof/Machine/Untangle.lean ====
section
/-! DEFINITION. Lane unpacking and tap untangling (05): lanes, groups, tap assignment, placement and strays. -/

namespace Sys2Proof.Machine

/-- 05 R88: the working image as it is created at conversion start. -/
def WorkingImage.empty (pixels : Nat) : WorkingImage where
  pixels := List.replicate pixels none
  stray := false

/-- 05 R90: the value of lane `i` of `w` bits; `string` is the payload bit string as a number, bit b of it being
bit (b mod 8) of byte floor(b / 8). -/
def laneValue (string w i : Nat) : Nat := string >>> (i * w) % 2 ^ w

/-- 05 R94: the pixel position of the sample that a tap delivers in group `k`, an exact signed integer. -/
def Tap.position (t : Tap) (k : Nat) : Int :=
  match t.direction with
  | .ascend => (t.origin : Int) + (k : Int) * (t.step : Int)
  | .descend => (t.origin : Int) - (k : Int) * (t.step : Int)

/-- 05 R94, R95: a sample at a position: outside the line it is a stray; on a covered pixel it replaces the old sample,
which becomes a stray. -/
def WorkingImage.place (img : WorkingImage) (p : Int) (value : Nat) : WorkingImage :=
  if 0 ≤ p ∧ p < (img.pixels.length : Int) then
    { pixels := img.pixels.set p.toNat (some value)
      stray := img.stray || (img.pixels[p.toNat]?.getD none).isSome }
  else { img with stray := true }

/-- 05 R92, R93: lane `i` of source line `y` is at position i mod T of group i / T and carries tap
(i mod T + y × R) mod T. -/
def WorkingImage.placeLane (m : TapMap) (y string w : Nat) (img : WorkingImage) (i : Nat) : WorkingImage :=
  let count := m.taps.length
  match m.taps[(i % count + y * m.rotation) % count]? with
  | some tap => img.place (tap.position (i / count)) (laneValue string w i)
  | none => img

/-- 05 R92: a line has lanes that belong to no group. -/
def hasLeftover (m : TapMap) (lanes : Nat) : Bool := lanes % m.taps.length != 0

/-- 05 R95: the samples of a line placed in lane order, from lane 0 to the last lane of the last whole group; leftover
lanes are strays. -/
def WorkingImage.untangle (m : TapMap) (y : Nat) (payload : List Byte) (w lanes : Nat) (img : WorkingImage) :
    WorkingImage :=
  let placed := (List.range (lanes / m.taps.length * m.taps.length)).foldl
    (WorkingImage.placeLane m y (leNat payload) w) img
  { placed with stray := placed.stray || hasLeftover m lanes }

end Sys2Proof.Machine
end

