-- ==== Sys2Proof/Machine/Transform.lean ====
section
/-! DEFINITION. Value transforms (06): PASS, LOOKUP and CHROMA, container fitting, fill, and the output lanes. -/

namespace Sys2Proof.Machine

/-- Bit `i` of a number, as a number. -/
def bitOf (x i : Nat) : Nat := (x.testBit i).toNat

/-- 06 R105, REPLICATE: bit (dw - 1 - i) of the result is bit (pw - 1 - (i mod pw)) of x; the result is built from its
top bit down. -/
def replicateBits (pw dw x : Nat) : Nat :=
  (List.range dw).foldl (fun acc i => 2 * acc + bitOf x (pw - 1 - i % pw)) 0

/-- 06 R105: a produced value of `pw` bits fitted to a container of `dw` bits. -/
def fit (policy : WidenPolicy) (pw dw x : Nat) : Nat :=
  if pw = dw then x
  else if dw < pw then x >>> (pw - dw)
  else match policy with
    | .replicate => replicateBits pw dw x
    | .zeroLow => x <<< (dw - pw)
    | .lowAlign => x

/-- 06 R106 step 1: the index that a sample of `w` bits gives under index width `li`. -/
def lookupIndex (w li s : Nat) : Nat := if li ≤ w then s >>> (w - li) else s <<< (li - w)

/-- 06 R106 step 2: the entry number. -/
def lookupEntry (tableBase w li s : Nat) : Nat := (tableBase * 64 + lookupIndex w li s) % 1024

/-- 06 R106: the produced value of LOOKUP. -/
def lookupValue (lut : Vector (BitVec 16) 1024) (tableBase w li s : Nat) : Nat :=
  (lut[lookupEntry tableBase w li s]'(Nat.mod_lt _ (by decide))).toNat

/-- 06 R108: the luma half of a sample. -/
def luma (cw s : Nat) : Nat := s % 2 ^ cw

/-- 06 R108: the chroma half of a sample. -/
def chromaHalf (cw s : Nat) : Nat := s >>> cw

/-- 06 R108: the neutral chroma. -/
def neutral (cw : Nat) : Nat := 2 ^ (cw - 1)

/-- 06 R109: the chroma that the pixel at a position carries for its pair: neutral where it is uncovered or missing. -/
def chromaAt (cw : Nat) (pixels : List (Option Nat)) (p : Nat) : Nat :=
  match pixels[p]? with
  | some (some s) => chromaHalf cw s
  | _ => neutral cw

/-- 06 R109: the pixel of the pair of pixel `p` that carries U. -/
def uCarrier (order : ChromaOrder) (p : Nat) : Nat :=
  match order with
  | .uFirst => p / 2 * 2
  | .vFirst => p / 2 * 2 + 1

/-- 06 R109: the pixel of the pair of pixel `p` that carries V. -/
def vCarrier (order : ChromaOrder) (p : Nat) : Nat :=
  match order with
  | .uFirst => p / 2 * 2 + 1
  | .vFirst => p / 2 * 2

/-- 06 R110: floor((x + 512) / 1024), rounding toward minus infinity. -/
def roundComponent (x : Int) : Int := Int.fdiv (x + 512) 1024

/-- 06 R110: the three rounded components, red, green and blue, of luma `y` with chroma `u` and `v`. -/
def components (k : CoeffSet) (cw y u v : Nat) : Int × Int × Int :=
  let du : Int := (u : Int) - (neutral cw : Int)
  let dv : Int := (v : Int) - (neutral cw : Int)
  let base : Int := 1024 * (y : Int)
  (roundComponent (base + (k.k1 : Int) * dv),
   roundComponent (base - (k.k2 : Int) * dv - (k.k3 : Int) * du),
   roundComponent (base + (k.k4 : Int) * du))

/-- 06 R111: a component saturated to 0 to 2^cw - 1. -/
def saturate (cw : Nat) (r : Int) : Nat := if r < 0 then 0 else if (2 ^ cw - 1 : Int) < r then 2 ^ cw - 1 else r.toNat

/-- 06 R111: the component sets NEG. -/
def setsNeg (r : Int) : Bool := decide (r < 0)

/-- 06 R111: the component sets SAT. -/
def setsSat (cw : Nat) (r : Int) : Bool := decide (r < 0) || decide ((2 ^ cw - 1 : Int) < r)

/-- Output values of one pixel with the marks they set. -/
structure PixelOutput where
  values : List Nat
  neg : Bool
  sat : Bool
  deriving DecidableEq, Repr

/-- What a conversion works with: the job's transform parameters and snapshots, and the lookup table. -/
structure Conversion where
  transform : Transform
  policy : WidenPolicy
  indexWidth : Nat
  fill : Nat
  source : Surface
  containerWidth : Nat
  coeff : CoeffSet
  lut : Vector (BitVec 16) 1024

/-- 06 R111: the components in the order the coefficient snapshot names. -/
def ordered (order : ComponentOrder) (r g b : Nat) : List Nat :=
  match order with
  | .rgb => [r, g, b]
  | .bgr => [b, g, r]

/-- 06 R103: the output values of a covered pixel `p` with sample `s`. -/
def Conversion.covered (v : Conversion) (pixels : List (Option Nat)) (p s : Nat) : PixelOutput :=
  let w := v.source.laneWidth
  match v.transform with
  | .pass => { values := [fit v.policy w v.containerWidth s], neg := false, sat := false }
  | .lookup =>
    { values := [fit v.policy 16 v.containerWidth (lookupValue v.lut v.source.tableBase w v.indexWidth s)]
      neg := false, sat := false }
  | .chroma =>
    let cw := w / 2
    let u := chromaAt cw pixels (uCarrier v.source.chromaOrder p)
    let vv := chromaAt cw pixels (vCarrier v.source.chromaOrder p)
    let rgb := components v.coeff cw (luma cw s) u vv
    { values := (ordered v.coeff.order (saturate cw rgb.1) (saturate cw rgb.2.1) (saturate cw rgb.2.2)).map
        (fit v.policy cw v.containerWidth)
      neg := setsNeg rgb.1 || setsNeg rgb.2.1 || setsNeg rgb.2.2
      sat := setsSat cw rgb.1 || setsSat cw rgb.2.1 || setsSat cw rgb.2.2 }

/-- 05 R98: an uncovered pixel receives the fill value, truncated to the container, in each of its V output values. -/
def Conversion.uncovered (v : Conversion) : PixelOutput where
  values := List.replicate v.transform.valuesPerPixel (v.fill % 2 ^ v.containerWidth)
  neg := false
  sat := false

/-- 05 R99: the output of pixel `p`. -/
def Conversion.pixel (v : Conversion) (pixels : List (Option Nat)) (p : Nat) : PixelOutput :=
  match pixels[p]? with
  | some (some s) => v.covered pixels p s
  | _ => v.uncovered

/-- 05 R99: the outputs of every pixel in increasing order. -/
def Conversion.outputs (v : Conversion) (pixels : List (Option Nat)) : List PixelOutput :=
  (List.range pixels.length).map (v.pixel pixels)

/-- The output values of a line, in the order of their positions. -/
def outputValues (outputs : List PixelOutput) : List Nat := outputs.flatMap (·.values)

/-- 06 R112: the line marks after the outputs of a line. -/
def LineMarks.after (marks : LineMarks) (outputs : List PixelOutput) : LineMarks where
  neg := marks.neg || outputs.any (·.neg)
  sat := marks.sat || outputs.any (·.sat)
  allZero := marks.allZero && (outputValues outputs).all (· == 0)

/-- 05 R100: the output values as destination lanes of 8, 16 or 32 bits, each little-endian in its bytes. -/
def outputPayload (containerWidth : Nat) (outputs : List PixelOutput) : List Byte :=
  (outputValues outputs).flatMap (leBytes (containerWidth / 8))

end Sys2Proof.Machine
end

