-- ==== Sys2Proof/Machine/LineEngine.lean ====
section
/-! DEFINITION. The Line Engine (04): the lines-stored record, buffers, discards and line faults, the line arbiter and
fetch grants, candidates, and the conversion of one line. -/

namespace Sys2Proof.Machine

/-! ## The lines-stored record (04 R69) -/

/-- Once closed, the prefix no longer moves and the set above it is emptied. -/
def LinesStored.close (r : LinesStored) : LinesStored := { r with closed := true, above := [] }

/-- The prefix advances over each line of the set that stands at it. -/
def LinesStored.joinAbove : (fuel : Nat) → LinesStored → LinesStored
  | 0, r => r
  | fuel + 1, r =>
    match r.above.find? fun a => a.1 == r.prefixLen with
    | some (m, z) =>
      LinesStored.joinAbove fuel { r with
        prefixLen := r.prefixLen + 1
        above := r.above.filter fun a => a.1 != m
        zeroSoFar := r.zeroSoFar && z }
    | none => r

/-- The lowest failed line: the lowest job line above the prefix that faulted, whose store failed, or that was
discarded. -/
def LinesStored.lowestFailed (r : LinesStored) : Option Nat := (r.failed.filter fun m => decide (r.prefixLen < m)).min?

/-- The record closes when the prefix reaches the lowest failed line; it passes none. -/
def LinesStored.closeAtFailed (r : LinesStored) : LinesStored :=
  if r.failed.contains r.prefixLen then r.close else r

/-- Line `m`, with this all-zero mark, is stored. -/
def LinesStored.recordStored (m : Nat) (allZero : Bool) (r : LinesStored) : LinesStored :=
  if r.closed then r
  else if m = r.prefixLen then
    (LinesStored.joinAbove r.above.length
      { r with prefixLen := r.prefixLen + 1, zeroSoFar := r.zeroSoFar && allZero }).closeAtFailed
  else if r.prefixLen < m then { r with above := (m, allZero) :: r.above }
  else r

/-- Line `m` can no longer be stored: it faulted, its store failed, or it was discarded. At the prefix it closes the
record; above the prefix it counts for the lowest failed line, on a closed record too (04 R69, R81). -/
def LinesStored.recordFailed (m : Nat) (r : LinesStored) : LinesStored :=
  if m = r.prefixLen then r.close
  else if r.prefixLen < m then { r with failed := m :: r.failed }
  else r

/-! ## Lines and buffers (04 section 4.1) -/

/-- 04 R67: a line is uncommitted while it is in FETCHING or FETCHED. -/
def LineRecord.uncommitted (l : LineRecord) : Bool := l.stage == .fetching || l.stage == .fetched

/-- The line is line `m` of the job of chain `c`. -/
def LineRecord.isLine (c : ChainId) (m : Nat) (l : LineRecord) : Bool := l.chain == c && l.jobLine == m

/-- No line record holds the input buffer. -/
def State.inputFree (s : State) (b : Fin 2) : Bool := s.lines.all fun l => l.inputBuffer != some b

/-- No line record holds the output buffer. -/
def State.outputFree (s : State) (b : Fin 2) : Bool := s.lines.all fun l => l.outputBuffer != some b

/-- 04 R70: the free input buffer that a grant takes: IB0 if both are free. -/
def State.freeInput (s : State) : Option (Fin 2) := [0, 1].find? s.inputFree

/-- 04 R76: the free output buffer that a conversion takes: OB0 if both are free. -/
def State.freeOutput (s : State) : Option (Fin 2) := [0, 1].find? s.outputFree

/-- The chain has a line in flight. -/
def State.hasLines (s : State) (c : ChainId) : Bool := s.lines.any fun l => l.chain == c

/-- The input buffers after the lines of a list have given theirs up. -/
def freedInputs (gone : List LineRecord) (bufs : Vector (List Byte) 2) : Vector (List Byte) 2 :=
  Vector.ofFn fun b => if gone.any fun l => l.inputBuffer == some b then [] else bufs[b]

/-- A line leaves flight: its record is dropped and its buffers are free (04 R80). -/
def State.leaveFlight (s : State) (l : LineRecord) : State :=
  { s with
    lines := s.lines.filter fun k => !k.isLine l.chain l.jobLine
    inBuf := freedInputs [l] s.inBuf
    outBuf := Vector.ofFn fun b => if l.outputBuffer == some b then [] else s.outBuf[b] }

/-- 04 R80: a job in DRAINING with no line left in flight has its work ended. -/
def State.checkDrained (s : State) (c : ChainId) : State :=
  match s.job c with
  | some j => if j.phase = .draining ∧ j.ended = false ∧ s.hasLines c = false then s.finishWork c else s
  | none => s

/-- The lines that a discard reaches: uncommitted, not discarded before, and above the line of the fault. -/
def State.discarded (s : State) (c : ChainId) (above : Option Nat) : List LineRecord :=
  s.lines.filter fun l => l.chain == c && l.uncommitted && !l.discard && match above with
    | some m => decide (m < l.jobLine)
    | none => true

/-- 04 R82: a FETCHED line leaves flight at once; a FETCHING line receives the discard mark and keeps its buffer. -/
def State.discardLines (s : State) (c : ChainId) (above : Option Nat) : State :=
  let gone := s.discarded c above
  let s' := s.updJob c fun j => { j with stored := gone.foldl (fun r l => r.recordFailed l.jobLine) j.stored }
  { s' with
    lines := s.lines.filterMap fun l =>
      if gone.contains l then (if l.stage = .fetching then some { l with discard := true } else none) else some l
    inBuf := freedInputs (gone.filter fun l => l.stage == .fetched) s.inBuf }

/-- The job leaves RUNNING for DRAINING (01 R11). -/
def Job.stopGrants (j : Job) : Job := if j.phase = .running then { j with phase := .draining } else j

/-- 04 R81: a fault is reported for job line `m`. -/
def State.lineFault (s : State) (c : ChainId) (m : Nat) (code : Code) : State :=
  ((s.recordFault c code).updJob c fun j => { j.stopGrants with stored := j.stored.recordFailed m }).discardLines c (some m)

/-- 04 R85: an abort ends the lines of a job. -/
def State.abortLines (s : State) (c : ChainId) : State :=
  ((s.updJob c Job.stopGrants).discardLines c none).checkDrained c

/-! ## Fetch grants (04 section 4.3) -/

/-- The line range of a CONVERT or COPY job. -/
def Job.lineBody (j : Job) : Option LineBody :=
  match j.body with
  | .convert b _ => some b
  | .copy b => some b
  | _ => none

/-- The line count of a job; 0 where it has no lines. -/
def Job.lineCount (j : Job) : Nat :=
  match j.lineBody with
  | some b => b.lineCount.toNat
  | none => 0

/-- 04 R68: the chain's job is eligible for a fetch grant. -/
def State.eligible (s : State) (c : ChainId) : Bool :=
  match s.job c with
  | some j => j.phase == .running && decide (j.nextLine < j.lineCount) && (s.chain c).state == .active && !j.held
  | none => false

/-- 04 R72: the arbiter's choice: chains at 8 first, then priority, then the lower number. -/
def State.chooseChain (s : State) : Option ChainId :=
  let cs := allChains.filter s.eligible
  let starved := cs.filter fun c => s.passOver[c] == 8
  bestChain s.level (if starved = [] then cs else starved)

/-- 04 R72: the counts after a grant to chain `c`: its own becomes 0, every other eligible chain's rises by 1 up to 8. -/
def State.passOverAfter (s : State) (c : ChainId) : Vector Nat 4 :=
  Vector.ofFn fun d =>
    if d = c then 0
    else if s.eligible d then (if s.passOver[d] < 8 then s.passOver[d] + 1 else s.passOver[d])
    else s.passOver[d]

/-- 04 R70, R60: the line record of job line `i` in a buffer. -/
def grantedLine (c : ChainId) (b : LineBody) (i : Nat) (buffer : Fin 2) (fetch store : List PhysRange) : LineRecord where
  chain := c
  jobLine := i
  sourceLine := b.sourceFirst.toNat + i
  destLine := b.destFirst.toNat + i
  stage := .fetching
  inputBuffer := some buffer
  outputBuffer := none
  fetchRanges := fetch
  storeRanges := store
  discard := false
  allZero := false

/-- The exact address of a line of a surface (03 R54, 08 R137). -/
def Surface.lineAddress (s : Surface) (line : Nat) : Nat := s.base.toNat + line * s.pitch

/-- 04 R70 step 2: both footprints of the next line to grant are resolved. -/
def State.resolveNext (s : State) (c : ChainId) (j : Job) (b : LineBody) (source dest : Surface) : Resolution :=
  s.resolveLine c j (source.lineAddress (b.sourceFirst.toNat + j.nextLine)) source.footprint
    (dest.lineAddress (b.destFirst.toNat + j.nextLine)) dest.footprint

/-- 07 R124: a fetch check exists for a line whose source has trailer CRC. -/
def startedCheck (source : Surface) : Option FetchCheck :=
  match source.trailer with
  | .crc => some .start
  | .none => none

/-- 07 R124: a pack check exists for a line whose destination has trailer CRC. -/
def startedPack (dest : Surface) : Option PackCheck :=
  match dest.trailer with
  | .crc => some .start
  | .none => none

/-- 04 R70 step 3, resolved: the grant of the next line of chain `c` into a buffer. -/
def State.grant (s : State) (c : ChainId) (j : Job) (b : LineBody) (source : Surface) (buffer : Fin 2)
    (fetch store : List PhysRange) (used : BitVec 32) : State :=
  let j' := { j with nextLine := j.nextLine + 1, pins := j.pins ||| used
                     phase := if j.nextLine + 1 < j.lineCount then j.phase else .draining }
  ({ (s.setJob c (some j')) with
    lines := s.lines ++ [grantedLine c b j.nextLine buffer fetch store]
    passOver := s.passOverAfter c
    fetchChecks := s.fetchChecks.set buffer (startedCheck source) }).issue
    { kind := .lineFetch buffer, chain := c, line := some j.nextLine, ranges := fetch, cells := [] }

/-- 04 R70: a fetch grant decision. A chain found held or faulted is not eligible any more and the arbiter goes back to
step 1, so at most four rounds are made. -/
def State.grantDecision : (fuel : Nat) → State → State
  | 0, s => s
  | fuel + 1, s =>
    match s.freeInput, s.chooseChain with
    | some buffer, some c =>
      match s.job c with
      | none => s
      | some j =>
        match j.lineBody, j.source, j.dest with
        | some b, some source, some dest =>
          match s.resolveNext c j b source dest with
          | .resolved fetch store used => s.grant c j b source buffer fetch store used
          | .held => State.grantDecision fuel (s.setJob c (some { j with held := true }))
          | .fault code => State.grantDecision fuel ((s.lineFault c j.nextLine code).checkDrained c)
        | _, _, _ => s
    | _, _ => s

/-! ## Conversion (04 section 4.4) -/

/-- 04 R75: a line is a candidate: FETCHED, without discard mark, and its predecessor has reached conversion complete
(log 22). -/
def State.candidate (s : State) (l : LineRecord) : Bool :=
  l.stage == .fetched && !l.discard &&
    s.lines.all fun k => !(k.chain == l.chain && k.jobLine + 1 == l.jobLine) || k.stage == .storing

/-- The chain has a candidate. -/
def State.hasCandidate (s : State) (c : ChainId) : Bool := s.lines.any fun l => l.chain == c && s.candidate l

/-- 04 R76: the candidate of the chain of highest priority. -/
def State.chooseCandidate (s : State) : Option LineRecord :=
  match bestChain s.level (allChains.filter s.hasCandidate) with
  | some c => s.lines.find? fun l => l.chain == c && s.candidate l
  | none => none

/-- A line record replaced. -/
def State.replaceLine (s : State) (old new : LineRecord) : State :=
  { s with lines := s.lines.map fun k => if k.isLine old.chain old.jobLine then new else k }

/-- The transform parameters of a CONVERT job. -/
def Job.transformBody (j : Job) : Option TransformBody :=
  match j.body with
  | .convert _ t => some t
  | _ => none

/-- What a conversion works with (06 R103). -/
def conversionOf (s : State) (j : Job) (t : TransformBody) (source dest : Surface) : Conversion where
  transform := t.kind
  policy := (decodeWiden t.widen.toNat).getD .replicate
  indexWidth := t.indexWidth.toNat
  fill := t.fill.toNat
  source := source
  containerWidth := dest.laneWidth
  coeff := j.coeff.getD .atReset
  lut := s.lut

/-- The output of a line: its payload, the marks it applies and its all-zero mark. -/
structure LineOutput where
  payload : List Byte
  neg : Bool
  sat : Bool
  stray : Bool
  allZero : Bool
  deriving DecidableEq, Repr

/-- 04 R77, CONVERT: the Tap Untangler fills the working image and the Transform Unit produces the output values
(05, 06). -/
def convertLine (v : Conversion) (img : WorkingImage) (marks : LineMarks) (y : Nat) (buffer : List Byte) : LineOutput :=
  let img := img.untangle v.source.layout y (buffer.take v.source.payload) v.source.laneWidth v.source.lanes
  let outputs := v.outputs img.pixels
  let marks := marks.after outputs
  { payload := outputPayload v.containerWidth outputs, neg := marks.neg, sat := marks.sat, stray := img.stray
    allZero := marks.allZero }

/-- 07 R132, COPY: the byte path. -/
def copyLine (source : Surface) (mark : Bool) (buffer : List Byte) : LineOutput where
  payload := copyPayload source buffer
  neg := false
  sat := false
  stray := false
  allZero := copyZeroAfter mark (copyPayload source buffer)

/-- 06 R112: line marks as they are created at conversion start. -/
def LineMarks.start : LineMarks where
  neg := false
  sat := false
  allZero := true

/-- The output of the line being converted. -/
def State.lineOutput (s : State) (j : Job) (source dest : Surface) (y : Nat) (buffer : List Byte) : LineOutput :=
  match j.transformBody with
  | some t =>
    convertLine (conversionOf s j t source dest) (s.image.getD (.empty source.layout.pixels))
      (s.lineMarks.getD .start) y buffer
  | none => copyLine source (s.copyZero.getD true) buffer

/-- 04 R77: the marks of a line applied to the result flags of its job: a set mark sets the flag. -/
def ResultFlags.apply (f : ResultFlags) (o : LineOutput) : ResultFlags :=
  { f with neg := f.neg || o.neg, sat := f.sat || o.sat, stray := f.stray || o.stray }

end Sys2Proof.Machine
end

