-- ==== Sys2Proof/Machine/ChainCommands.lean ====
section
/-! DEFINITION. The chain commands START, PAUSE, RESUME and ABORT (01 section 1.9). -/

namespace Sys2Proof.Machine

/-- The chain has a job that is not yet admitted and has not ended: only such a job has a claim to withdraw. -/
def State.awaitsAdmission (s : State) (c : ChainId) : Bool :=
  match s.job c with
  | some j => j.phase == .admitting && !j.ended
  | none => false

/-- 01 R21, R26: the chain's waiter is withdrawn unserved (02 R35), and so is any claim at a gate for a job not yet
admitted (06 R121, 08 R148). -/
def State.withdrawClaims (s : State) (c : ChainId) : State :=
  let s := s.setWaiter c none
  if s.awaitsAdmission c then (s.leaveTableGate c).leaveReplGate c else s

/-- The chain enters PAUSED with this resume point. -/
def State.enterPaused (s : State) (c : ChainId) (point : ResumePoint) : State :=
  s.updChain c fun x => { x with state := .paused, resume := some point }

/-! ## START (01 R20) -/

/-- START of a HALTED chain: its anchor is released first. -/
def State.startHalted (s : State) (c : ChainId) : State :=
  match (s.chain c).anchor with
  | some (.record a) => (s.updChain c fun x => { x with state := .reading }).issueRelease c a .directory
  | _ => s.readDirectory c

/-- START taken. -/
def State.startChain (s : State) (c : ChainId) : State :=
  let halted := (s.chain c).state = .halted
  let s := s.updChain c fun x => { x with breakReason := .none }
  if halted then s.startHalted c else s.readDirectory c

/-- 01 R20: START is taken in IDLE, HALTED and BROKEN. -/
def ChainState.takesStart (x : ChainState) : Bool := x == .idle || x == .halted || x == .broken

/-- START. -/
def execStart (c : ChainId) (s : State) : Host.Outcome State Fault Refusal :=
  .next (s.hostWrite regChainCommand c fun s =>
    if (s.chain c).state.takesStart then (s.startChain c).accept regChainCommand c
    else s.refuse .busy regChainCommand c)

/-! ## PAUSE (01 R21, R22) -/

/-- The job of the chain is in REPORTING. -/
def State.isReporting (s : State) (c : ChainId) : Bool :=
  match s.job c with
  | some j => j.phase == .reporting
  | none => false

/-- PAUSE in WAITING: claims are withdrawn and snapshots discarded; the record stays in hand. -/
def State.pauseWaiting (s : State) (c : ChainId) : State :=
  ((s.enterPaused c .guard).updJob c fun j => { j with source := none, dest := none, coeff := none }).withdrawClaims c

/-- PAUSE taken, by the chain's state. A status write of its entry into PARKED brings no wake claim any more (log 10). -/
def State.pauseChain (s : State) (c : ChainId) : State :=
  match (s.chain c).state with
  | .waiting => s.pauseWaiting c
  | .parked => ((s.enterPaused c .park).setWaiter c none).redirectPark c .nothing
  | .active => if s.isReporting c then s.updChain c fun x => { x with pauseMark := true } else s.enterPaused c .run
  | .reading => s.updChain c fun x => { x with pauseMark := true }
  | .paused => s
  | .idle => s
  | .halted => s
  | .broken => s
  | .aborting => s

/-- 01 R21: PAUSE is refused in IDLE, HALTED, BROKEN and ABORTING. -/
def ChainState.takesPause (x : ChainState) : Bool :=
  x == .reading || x == .waiting || x == .active || x == .parked || x == .paused

/-- PAUSE. -/
def execPause (c : ChainId) (s : State) : Host.Outcome State Fault Refusal :=
  .next (s.hostWrite regChainCommand c fun s =>
    if (s.chain c).state.takesPause then (s.pauseChain c).accept regChainCommand c
    else s.refuse .notRunning regChainCommand c)

/-! ## RESUME (01 R25) -/

/-- RESUME at READ_NEXT: the retire of an ended job begins, or the record at the next record address is read. -/
def State.resumeReadNext (s : State) (c : ChainId) : State :=
  match s.job c with
  | some j => if j.ended then s.beginRetire c else s.readRecord c
  | none => s.readRecord c

/-- A TABLE job that has not begun its load, whose hold ended while its chain was PAUSED (06 R117). -/
def Job.awaitsResolution (j : Job) : Bool := j.kind == some .table && j.load.isNone && !j.held && !j.ended

/-- RESUME at RUN: the chain is ACTIVE again; a TABLE job that awaits its resolution makes it. -/
def State.resumeRun (s : State) (c : ChainId) : State :=
  let s := s.updChain c fun x => { x with state := .active }
  match s.job c with
  | some j => if j.awaitsResolution then s.tableResolve c else s
  | none => s

/-- RESUME of a PAUSED chain. -/
def State.resumePaused (s : State) (c : ChainId) : State :=
  let point := (s.chain c).resume
  let s := s.updChain c fun x => { x with resume := none }
  match point with
  | some .readNext => s.resumeReadNext c
  | some .guard => (s.updChain c fun x => { x with state := .waiting }).guardStep c
  | some .run => s.resumeRun c
  | some .park => s.resumePark c
  | none => s

/-- RESUME taken. -/
def State.resumeChain (s : State) (c : ChainId) : State :=
  if (s.chain c).state = .halted then s.reReadAnchor c else s.resumePaused c

/-- 01 R25: RESUME is taken in PAUSED and in HALTED. -/
def ChainState.takesResume (x : ChainState) : Bool := x == .paused || x == .halted

/-- RESUME. -/
def execResume (c : ChainId) (s : State) : Host.Outcome State Fault Refusal :=
  .next (s.hostWrite regChainCommand c fun s =>
    if (s.chain c).state.takesResume then (s.resumeChain c).accept regChainCommand c
    else s.refuse .notPaused regChainCommand c)

/-! ## ABORT (01 R26) -/

/-- 06 R117: an abort ends a TABLE job that has no load under way at once; a load runs to its end. -/
def State.abortTable (s : State) (c : ChainId) (j : Job) : State :=
  match j.load with
  | some _ => s
  | none => (s.setJob c (some { j with held := false })).finishWork c

/-- 08 R154: an abort withdraws a pending replacement, and the MAP job's work ends; an arrival not yet taken is
still to come. -/
def State.abortMap (s : State) (c : ChainId) : State :=
  if s.pendingMark.isSome then s.withdrawReplacement.finishWork c else s

/-- 01 R26, admitted job: its lines are ended; non-line work runs to its end but for a held table load and a pending
replacement. -/
def State.abortWork (s : State) (c : ChainId) : State :=
  match s.job c with
  | none => s
  | some j =>
    match j.body with
    | .convert _ _ => s.abortLines c
    | .copy _ => s.abortLines c
    | .table _ => s.abortTable c j
    | .map _ => s.abortMap c
    | _ => s

/-- A chain PAUSED with READ_NEXT: an ended job keeps its code and its outcome is written; else nothing is written. -/
def State.abortReadNext (s : State) (c : ChainId) : State :=
  match s.job c with
  | some _ => s.issueOutcome c .doneFree true
  | none => s.finishAbort c

/-- What an abort does in PAUSED, by resume point. -/
def State.abortPaused (s : State) (c : ChainId) : Option ResumePoint → State
  | some .readNext => s.abortReadNext c
  | some .guard => s.abortRecord c
  | some .run => s.abortWork c
  | some .park => s.abortAnchor c
  | none => s.finishAbort c

/-- What every abort does first: ABORTING, the pause mark and resume point cleared, the abort-requested mark, the
claims withdrawn. -/
def State.enterAborting (s : State) (c : ChainId) : State :=
  ((s.updChain c fun x => { x with state := .aborting, pauseMark := false, resume := none }).updJob c
    fun j => { j with abortRequested := true }).withdrawClaims c

/-- ABORT taken in one of the six states that enter ABORTING: the writes it makes depend on what the chain held. An
access in flight, in READING or in a retire, is awaited. -/
def State.abortRunning (s : State) (c : ChainId) : State :=
  let was := s.chain c
  let s := s.enterAborting c
  match was.state with
  | .waiting => s.abortRecord c
  | .active => if s.isReporting c then s else s.abortWork c
  | .parked => s.abortAnchor c
  | .paused => s.abortPaused c was.resume
  | .halted => s.abortAnchor c
  | .reading => s
  | .idle => s
  | .broken => s
  | .aborting => s

/-- 01 R26: in BROKEN the chain is IDLE at once, with no write. -/
def State.abortBroken (s : State) (c : ChainId) : State :=
  s.updChain c fun x => { x with state := .idle, breakReason := .none }

/-- 01 R26: ABORT is refused in IDLE and ABORTING. -/
def ChainState.takesAbort (x : ChainState) : Bool := x != .idle && x != .aborting

/-- ABORT. -/
def execAbort (c : ChainId) (s : State) : Host.Outcome State Fault Refusal :=
  .next (s.hostWrite regChainCommand c fun s =>
    if (s.chain c).state.takesAbort then
      (if (s.chain c).state = .broken then s.abortBroken c else s.abortRunning c).accept regChainCommand c
    else s.refuse .notRunning regChainCommand c)

end Sys2Proof.Machine
end

