-- ==== Sys2Proof/Machine/LineEvents.lean ====
section
/-! DEFINITION. The events of the Line Engine (04): fetch grant decisions, fetch and conversion events, and store answers.
In a soft reset no decision is made and no conversion starts or completes (04 R87); an event whose conditions do not hold
does not come about (log 2). -/

namespace Sys2Proof.Machine

/-- FETCH_GRANT_DECISION (04 R70). -/
def execFetchGrantDecision (s : State) : Host.Outcome State Fault Refusal :=
  .next (if s.softReset then s else s.grantDecision 5)

/-! ## Fetch complete (04 R74, R82, 07 R126 to R128) -/

/-- The fetch check of a buffer ends. -/
def State.endFetchCheck (s : State) (b : Fin 2) : State := { s with fetchChecks := s.fetchChecks.set b none }

/-- 07 R127, R128: a mismatch sets the CHECK result flag of the job. -/
def Job.setCheck (j : Job) : Job := { j with flags := { j.flags with check := true } }

/-- 04 R74: the line faults: it leaves flight and the fault is reported for its job line. -/
def State.faultLine (s : State) (l : LineRecord) (code : Code) : State :=
  ((s.leaveFlight l).lineFault l.chain l.jobLine code).checkDrained l.chain

/-- 04 R74: the line enters FETCHED with its footprint in its input buffer. -/
def State.enterFetched (s : State) (l : LineRecord) (b : Fin 2) (bytes : List Byte) : State :=
  State.replaceLine { s with inBuf := s.inBuf.set b bytes } l { l with stage := .fetched }

/-- 07 R126: the footprint mismatches its stored trailer; without a fetch check it does not. -/
def trailerMismatch (check : Option FetchCheck) (source : Option Surface) (bytes : List Byte) : Bool :=
  match check, source with
  | some check, some source => !(check.arrived source bytes).isMatch
  | _, _ => false

/-- 07 R127, R128: the line has arrived whole: it enters FETCHED, or under STOP a mismatch faults it CHECK_FAIL. -/
def State.fetchArrived (s : State) (l : LineRecord) (j : Job) (b : Fin 2) (bytes : List Byte) : State :=
  if trailerMismatch s.fetchChecks[b] j.source bytes then
    let s' := (s.endFetchCheck b).setJob l.chain (some j.setCheck)
    if j.check = .stop then s'.faultLine l .checkFail else s'.enterFetched l b bytes
  else (s.endFetchCheck b).enterFetched l b bytes

/-- 04 R74, R82: what a fetch complete does. -/
def State.afterFetch (s : State) (b : Fin 2) (answer : ReadAnswer) : State :=
  match s.lines.find? fun l => l.inputBuffer == some b && l.stage == .fetching with
  | none => s
  | some l =>
    if l.discard then ((s.endFetchCheck b).leaveFlight l).checkDrained l.chain
    else match answer, s.job l.chain with
      | .error, _ => (s.endFetchCheck b).faultLine l .busRead
      | .data bytes, some j => s.fetchArrived l j b bytes
      | .data _, none => s

/-- FETCH_COMPLETE. -/
def execFetchComplete (b : Fin 2) (answer : ReadAnswer) (s : State) : Host.Outcome State Fault Refusal :=
  .next (s.onRead (Access.isFetchInto b) answer fun _ s => s.afterFetch b answer)

/-! ## Conversion (04 R76, R77) -/

/-- 04 R76, 05 R88, 06 R112, 07 R124, R132: a line takes an output buffer and enters CONVERTING; its working image and
line marks (CONVERT), or its copy all-zero mark (COPY), and its pack check are created. -/
def State.startConversion (s : State) (l : LineRecord) (j : Job) (source dest : Surface) (b : Fin 2) : State :=
  let converts := j.transformBody.isSome
  State.replaceLine { s with
      conversion := some { chain := l.chain, jobLine := l.jobLine }
      image := if converts then some (.empty source.layout.pixels) else none
      lineMarks := if converts then some .start else none
      packCheck := startedPack dest
      copyZero := if converts then none else some true }
    l { l with stage := .converting, outputBuffer := some b }

/-- What a conversion start does: nothing unless no conversion is in progress, an output buffer is free and a candidate
exists. -/
def State.conversionStarts (s : State) : State :=
  match s.conversion, s.freeOutput, s.chooseCandidate with
  | none, some b, some l =>
    match s.job l.chain with
    | some j =>
      match j.source, j.dest with
      | some source, some dest => s.startConversion l j source dest b
      | _, _ => s
    | none => s
  | _, _, _ => s

/-- CONVERSION_START. -/
def execConversionStart (s : State) : Host.Outcome State Fault Refusal :=
  .next (if s.softReset then s else s.conversionStarts)

/-- The working state of a conversion is gone. -/
def State.clearConversion (s : State) : State :=
  { s with conversion := none, image := none, lineMarks := none, packCheck := none, copyZero := none }

/-- 04 R77, R78: the destination footprint stands in the output buffer: the marks are applied, the input buffer is freed,
the line enters STORING and its store is issued, the order of its pieces left free (log 26). -/
def State.finishConversion (s : State) (l : LineRecord) (j : Job) (source dest : Surface) (inB outB : Fin 2) : State :=
  let out := s.lineOutput j source dest l.sourceLine s.inBuf[inB]
  let footprint := destFootprint dest s.packCheck out.payload
  let s := (s.setJob l.chain (some { j with flags := j.flags.apply out })).clearConversion
  (State.replaceLine { s with
      inBuf := s.inBuf.set inB [], outBuf := s.outBuf.set outB footprint, choices := s.choices + 1 }
    l { l with stage := .storing, inputBuffer := none, allZero := out.allZero }).issue
    { kind := .lineStore outB, chain := l.chain, line := some l.jobLine, ranges := l.storeRanges,
      cells := storeCells s.choices l.storeRanges footprint }

/-- What a conversion complete does: nothing unless a conversion is in progress. -/
def State.conversionCompletes (s : State) : State :=
  match s.conversion with
  | none => s
  | some mark =>
    match s.lines.find? (LineRecord.isLine mark.chain mark.jobLine), s.job mark.chain with
    | some l, some j =>
      match l.inputBuffer, l.outputBuffer, j.source, j.dest with
      | some inB, some outB, some source, some dest => s.finishConversion l j source dest inB outB
      | _, _, _, _ => s
    | _, _ => s

/-- CONVERSION_COMPLETE. -/
def execConversionComplete (s : State) : Host.Outcome State Fault Refusal :=
  .next (if s.softReset then s else s.conversionCompletes)

/-! ## Store answered (04 R79, R80) -/

/-- 04 R69, R79: the line is stored: its job's lines-stored record takes it, and it leaves flight. -/
def State.lineStored (s : State) (l : LineRecord) : State :=
  ((s.leaveFlight l).updJob l.chain fun j => { j with stored := j.stored.recordStored l.jobLine l.allZero }).checkDrained
    l.chain

/-- What a store answer does. -/
def State.afterStore (s : State) (b : Fin 2) (ok : Bool) : State :=
  match s.lines.find? fun l => l.outputBuffer == some b && l.stage == .storing with
  | none => s
  | some l => if ok then s.lineStored l else s.faultLine l .busWrite

/-- STORE_ANSWERED. -/
def execStoreAnswered (b : Fin 2) (answer : WriteAnswer) (s : State) : Host.Outcome State Fault Refusal :=
  .next (s.onWrite (Access.isStoreFrom b) 0 answer fun _ ok s => s.afterStore b ok)

end Sys2Proof.Machine
end

