-- ==== Sys2Proof/Machine/Works.lean ====
section
/-! DEFINITION. The work of SURFACE, COEFF, MAP and TABLE jobs at the blocks that own the state they change (03 R51,
06 R116, R122, 08 R149). In a soft reset no arrival is taken (03 R57, 06 R122, 08 R156). -/

namespace Sys2Proof.Machine

/-- The job is admitted and its work has not ended. -/
def Job.working (j : Job) : Bool := j.phase == .running && !j.ended

/-- The job of a chain, where it is at work and no soft reset is in progress. -/
def State.workingJob (s : State) (c : ChainId) : Option Job :=
  if s.softReset then none
  else match s.job c with
    | some j => if j.working then some j else none
    | none => none

/-! ## SURFACE (03) -/

/-- 03 R51 to R56: the slot is loaded or cleared, or the job faults BAD_SURFACE; its work ends. -/
def State.doSurface (s : State) (c : ChainId) (b : SurfaceBody) : State :=
  match surfaceEffect b with
  | some (slot, new) => State.finishWork { s with surfaces := s.surfaces.set slot new } c
  | none => (s.recordFault c .badSurface).finishWork c

/-- SURFACE_WORK. -/
def execSurfaceWork (c : ChainId) (s : State) : Host.Outcome State Fault Refusal :=
  .next (match s.workingJob c with
    | some j =>
      match j.body with
      | .surface b => s.doSurface c b
      | _ => s
    | none => s)

/-! ## COEFF (06) -/

/-- 06 R122: the set is replaced whole, or the job faults RANGE; its work ends. -/
def State.doCoeff (s : State) (c : ChainId) (b : CoeffBody) : State :=
  match coeffEffect b with
  | some (set, new) => State.finishWork { s with coeffs := s.coeffs.set set new } c
  | none => (s.recordFault c .range).finishWork c

/-- COEFF_WORK. -/
def execCoeffWork (c : ChainId) (s : State) : Host.Outcome State Fault Refusal :=
  .next (match s.workingJob c with
    | some j =>
      match j.body with
      | .coeff b => s.doCoeff c b
      | _ => s
    | none => s)

/-! ## MAP (08) -/

/-- 08 R149: the slot is valid and pinned. -/
def State.pinned (s : State) (m : EntryId) : Bool := s.entries[m].isSome && decide (0 < s.pinCount m)

/-- 08 R149: an unpinned slot is changed at once and the work ends; a pinned one is marked pending. An ABORT taken since the
admission changes neither: the work, begun at admission, runs to its end (01 R26; log 8). -/
def State.doMap (s : State) (c : ChainId) (slot : EntryId) (new : Option MapEntry) : State :=
  if s.pinned slot then { s with pendingMark := some slot } else (s.carryOutMap c slot new).finishWork c

/-- MAP_WORK: the arrival is taken once; while a replacement is pending its arrival has been taken. -/
def execMapWork (c : ChainId) (s : State) : Host.Outcome State Fault Refusal :=
  .next (match s.workingJob c, s.pendingMark with
    | some j, none =>
      match j.body with
      | .map b =>
        match mapEffect b with
        | some (slot, new) => s.doMap c slot new
        | none => s
      | _ => s
    | _, _ => s)

/-! ## TABLE (06 R116) -/

/-- The source bytes that an answered table read covers. -/
def answeredBytes (length : Nat) : ReadAnswer → List SourceByte
  | .error => List.replicate length .failed
  | .data bytes => bytes.map .arrived

/-- The read covers unanswered bytes of the source, at least one: it is an outstanding table read. -/
def TableLoad.awaits (load : TableLoad) (offset length : Nat) : Bool :=
  decide (1 ≤ length) && decide (offset + length ≤ load.source.length)
    && ((load.source.drop offset).take length).all (· == .unanswered)

/-- The source after a read of `length` bytes at `offset` has been answered. -/
def TableLoad.answer (load : TableLoad) (offset length : Nat) (answer : ReadAnswer) : TableLoad :=
  { load with source := load.source.take offset ++ answeredBytes length answer ++ load.source.drop (offset + length) }

/-- The entry whose two source bytes have arrived. -/
def TableLoad.entryAt (load : TableLoad) (e : Nat) : Option (BitVec 16) :=
  match load.source[2 * e]?, load.source[2 * e + 1]? with
  | some (.arrived low), some (.arrived high) => some (high ++ low)
  | _, _ => none

/-- 06 R116: entries are written in increasing order, each as soon as its bytes and every lower entry's have arrived;
a failed byte stops at its entry. -/
def loadEntries (first : Nat) : (fuel : Nat) → TableLoad → Vector (BitVec 16) 1024 →
    TableLoad × Vector (BitVec 16) 1024
  | 0, load, lut => (load, lut)
  | fuel + 1, load, lut =>
    match load.entryAt load.entriesLoaded with
    | some v =>
      loadEntries first fuel { load with entriesLoaded := load.entriesLoaded + 1 }
        (lut.setIfInBounds (first + load.entriesLoaded) v)
    | none => (load, lut)

/-- 06 R116: every table read issued has been answered. -/
def TableLoad.complete (load : TableLoad) : Bool := load.source.all (· != .unanswered)

/-- The table load leaves the outstanding access list. -/
def State.endTableRead (s : State) : State := { s with accesses := removeNth Access.isTableRead [] s.accesses 0 }

/-- 06 R116: a table read of the TABLE job of chain `c` is answered. -/
def State.tableAnswered (s : State) (c : ChainId) (j : Job) (b : TableBody) (load : TableLoad) (offset length : Nat)
    (answer : ReadAnswer) : State :=
  let r := loadEntries b.first.toNat b.count.toNat (load.answer offset length answer) s.lut
  let j := { j with load := some r.1 }
  let j := if answer = .error then j.recordFault .busRead else j
  let s := { s with lut := r.2 }.setJob c (some j)
  if r.1.complete then s.endTableRead.finishWork c else s

/-- 06 R117, 09 R169: a table read is answered in a soft reset: nothing is written and no fault recorded, and the load
leaves the list when every byte is answered or, never having been asked for, given up (log 13). -/
def State.tableDrained (s : State) (c : ChainId) (j : Job) (load : TableLoad) : State :=
  let s := s.setJob c (some { j with load := some load })
  if load.complete then s.endTableRead else s

/-- What the answer of a table read does, in a soft reset and out of one. -/
def State.afterTableRead (s : State) (a : Access) (offset length : Nat) (answer : ReadAnswer) : State :=
  match s.job a.chain with
  | some j =>
    match j.body, j.load with
    | .table b, some load =>
      if load.awaits offset length && answer.hasLength length then
        if s.softReset then s.tableDrained a.chain j (load.answer offset length answer)
        else s.tableAnswered a.chain j b load offset length answer
      else s
    | _, _ => s
  | none => s

/-- TABLE_READ_ANSWERED. -/
def execTableReadAnswered (offset length : Nat) (answer : ReadAnswer) (s : State) : Host.Outcome State Fault Refusal :=
  .next (match nthAccess Access.isTableRead s.accesses 0 with
    | some a => s.afterTableRead a offset length answer
    | none => s)

end Sys2Proof.Machine
end

