-- ==== Sys2Proof/Machine/Dispatch.lean ====
section
/-! DEFINITION. The dispatch of commands to their meanings, one arm per row of the opcode table. -/

namespace Sys2Proof.Machine

def exec (i : Instr) (s : State) : Host.Outcome State Fault Refusal :=
  match i with
  | .powerOnReset => Sys2Proof.Machine.execPowerOnReset s
  | .softReset ten => Sys2Proof.Machine.execSoftReset ten s
  | .softResetEnd => Sys2Proof.Machine.execSoftResetEnd s
  | .tenWrite ten => Sys2Proof.Machine.execTenWrite ten s
  | .exchangeBaseWrite value => Sys2Proof.Machine.execExchangeBaseWrite value s
  | .start chain => Sys2Proof.Machine.execStart chain s
  | .pause chain => Sys2Proof.Machine.execPause chain s
  | .resume chain => Sys2Proof.Machine.execResume chain s
  | .abort chain => Sys2Proof.Machine.execAbort chain s
  | .flagSet mask => Sys2Proof.Machine.execFlagSet mask s
  | .flagClear mask => Sys2Proof.Machine.execFlagClear mask s
  | .attentionMaskWrite value => Sys2Proof.Machine.execAttentionMaskWrite value s
  | .errorClear value => Sys2Proof.Machine.execErrorClear value s
  | .ignoredRegisterWrite offset value strobes => Sys2Proof.Machine.execIgnoredRegisterWrite offset value strobes s
  | .directoryRead chain answer => Sys2Proof.Machine.execDirectoryRead chain answer s
  | .recordHeaderRead chain answer => Sys2Proof.Machine.execRecordHeaderRead chain answer s
  | .recordSecondPartRead chain answer => Sys2Proof.Machine.execRecordSecondPartRead chain answer s
  | .linkReRead chain answer => Sys2Proof.Machine.execLinkReRead chain answer s
  | .anchorLinkReRead chain answer => Sys2Proof.Machine.execAnchorLinkReRead chain answer s
  | .outcomeWrite chain answer => Sys2Proof.Machine.execOutcomeWrite chain answer s
  | .releaseWrite chain answer => Sys2Proof.Machine.execReleaseWrite chain answer s
  | .statusWrite chain nth answer => Sys2Proof.Machine.execStatusWrite chain nth answer s
  | .fetchGrantDecision => Sys2Proof.Machine.execFetchGrantDecision s
  | .fetchComplete buffer answer => Sys2Proof.Machine.execFetchComplete buffer answer s
  | .conversionStart => Sys2Proof.Machine.execConversionStart s
  | .conversionComplete => Sys2Proof.Machine.execConversionComplete s
  | .storeAnswered buffer answer => Sys2Proof.Machine.execStoreAnswered buffer answer s
  | .tableReadAnswered offset length answer => Sys2Proof.Machine.execTableReadAnswered offset length answer s
  | .surfaceWork chain => Sys2Proof.Machine.execSurfaceWork chain s
  | .coeffWork chain => Sys2Proof.Machine.execCoeffWork chain s
  | .mapWork chain => Sys2Proof.Machine.execMapWork chain s

end Sys2Proof.Machine
end

