-- ==== Sys2Proof/Safety.lean ====
section
/-! DEFINITION. What has to hold of the TL20 between commands: the invariants that the statements speak of, and which
commands may change which stores of configuration. -/

namespace Sys2Proof.Machine

/-- The list of bytes that the part has written is in canonical form (log 4). -/
def State.memoryCanonical (s : State) : Prop := Memory.wf s.memory

/-- 04 R65: for each chain, a pass-over count from 0 to 8. -/
def State.passOverBounded (s : State) : Prop := ∀ c : ChainId, s.passOver[c] ≤ 8

/-- 08 R150: no effective address is matched by two valid mapping entries for any one context. -/
def entriesUnambiguous (entries : Vector (Option MapEntry) 32) : Prop :=
  ∀ (context : Fin 16) (x : Nat) (m n : EntryId) (a b : MapEntry),
    entries[m] = some a → entries[n] = some b → a.matches context x = true → b.matches context x = true → m = n

/-- 08 R150 in a state. -/
def State.tableUnambiguous (s : State) : Prop := entriesUnambiguous s.entries

/-- 02 R34: every waiter wants the opposite of its flag's current value. -/
def State.waitersUnsatisfied (s : State) : Prop :=
  ∀ (c : ChainId) (w : Waiter), s.waiter c = some w → w.wanted ≠ s.flags.getLsbD w.flag

/-- 04 R82: the discard mark is carried by FETCHING lines alone; and a FETCHING line holds no output buffer (04 R76). -/
def State.discardsFetching (s : State) : Prop :=
  ∀ l ∈ s.lines, (l.stage = .fetching → l.outputBuffer = none) ∧ (l.discard = true → l.stage = .fetching)

/-- The access `a` is outstanding, the `n`th of those that satisfy `p`; `before` and `after` are the accesses issued before
and after it. -/
def State.hasOutstanding (s : State) (p : Access → Bool) (n : Nat) (a : Access) (before after : List Access) : Prop :=
  s.accesses = before ++ a :: after ∧ p a = true ∧ before.countP p = n

/-- A run is safe when all of these hold of every state it reaches. -/
def State.safe (s : State) : Prop :=
  s.memoryCanonical ∧ s.passOverBounded ∧ s.tableUnambiguous ∧ s.waitersUnsatisfied ∧ s.discardsFetching

end Sys2Proof.Machine

/-! ## Which commands may change which store -/

namespace Sys2Proof

/-- The commands that may change the surface slots: the work of a SURFACE job (03 R56, R59) and power-on reset. -/
def Instr.mayChangeSurfaces : Instr → Bool
  | .surfaceWork _ => true
  | .powerOnReset => true
  | _ => false

/-- The commands that may change the coefficient sets (06 R122). -/
def Instr.mayChangeCoeffs : Instr → Bool
  | .coeffWork _ => true
  | .powerOnReset => true
  | _ => false

/-- The commands that may change the lookup table (06 R116). -/
def Instr.mayChangeLut : Instr → Bool
  | .tableReadAnswered _ _ _ => true
  | .powerOnReset => true
  | _ => false

/-- The commands that may change the mapping table while no replacement is pending (08 R149); a pending one is carried out
at the command that releases its entry's last pin (08 R153). -/
def Instr.mayChangeEntries : Instr → Bool
  | .mapWork _ => true
  | .powerOnReset => true
  | _ => false

/-- The commands that may change TEN (08 R138, 10 R172). -/
def Instr.mayChangeTen : Instr → Bool
  | .tenWrite _ => true
  | .powerOnReset => true
  | _ => false

/-- The commands that may change EXCHANGE_BASE (10 R173). -/
def Instr.mayChangeExchangeBase : Instr → Bool
  | .exchangeBaseWrite _ => true
  | .powerOnReset => true
  | _ => false

/-- The commands that may change ATTENTION_MASK (10 R177, R180). -/
def Instr.mayChangeMask : Instr → Bool
  | .attentionMaskWrite _ => true
  | .softReset _ => true
  | .softResetEnd => true
  | .powerOnReset => true
  | _ => false

/-- The commands that may change the pass-over counts (04 R72). -/
def Instr.mayChangePassOver : Instr → Bool
  | .fetchGrantDecision => true
  | .softReset _ => true
  | .softResetEnd => true
  | .powerOnReset => true
  | _ => false

/-- The commands at which bytes of memory change: the answers of the part's writes (09 R158). -/
def Instr.mayChangeMemory : Instr → Bool
  | .outcomeWrite _ _ => true
  | .releaseWrite _ _ => true
  | .statusWrite _ _ _ => true
  | .storeAnswered _ _ => true
  | _ => false

end Sys2Proof
end

