-- ==== Sys2Proof/Certificates/Slice0/Obligations.lean ====
section
/-! DEFINITION. The statements for the provers. -/

namespace Sys2Proof.Statements

open Sys2Proof.Machine

/-- The last result of an accepted write (10 R175). -/
def accepted (register : BitVec 4) (chain : ChainId) : LastResult where
  result := .accepted
  reason := .none
  register := register
  chain := chain

/-- The last result of a refused write (10 R175). -/
def refused (reason : Reason) (register : BitVec 4) (chain : ChainId) : LastResult where
  result := .refused
  reason := reason
  register := register
  chain := chain

/-- A read of `bytes` bytes at `start`, as the outstanding access list holds it. -/
def readAccess (kind : AccessKind) (chain : ChainId) (start : PhysAddr) (bytes : Nat) : Access where
  kind := kind
  chain := chain
  line := none
  ranges := [{ start := start, bytes := bytes }]
  cells := []

/-- A write of bytes at `start`, as the outstanding access list holds it. -/
def writeAccess (kind : AccessKind) (chain : ChainId) (start : PhysAddr) (bytes : List Byte) : Access where
  kind := kind
  chain := chain
  line := none
  ranges := [{ start := start, bytes := bytes.length }]
  cells := cellsOf [{ start := start, bytes := bytes.length }] bytes

/-- Log 10: the status write of an entry into PARKED whose chain has taken a command since: what is to follow its answer. -/
def redirected (next : StatusNext) (chain : ChainId) (a : Access) : Access :=
  if a.isParkStatusFor chain then { a with kind := .statusWrite next } else a

/-- A status write of a chain with its present codes, as the outstanding access list holds it. -/
def statusAccess (s : State) (chain : ChainId) (next : StatusNext) (code : ChainState) (address : Nat) : Access :=
  writeAccess (.statusWrite next) chain (s.statusAddress chain)
    (statusBytes code (s.chain chain).breakReason (s.chain chain).lastCode (s.chain chain).retireCount address
      (s.chain chain).lastTag)

/-- The chains whose held TABLE jobs resolve their sources afresh when a replacement ends or is withdrawn: the ACTIVE ones
(08 R153, R154). -/
def heldTables (s : State) : List ChainId :=
  allChains.filter fun d => match s.job d with
    | some k => k.held && k.kind == some .table && (s.chain d).state == .active
    | none => false

/-- The address of an anchor in a status entry (01 R19). -/
def anchorAddress : Anchor → Nat
  | .record r => r.toNat
  | .directory => 0

end Sys2Proof.Statements

open Sys2Proof Sys2Proof.Machine Sys2Proof.Statements

/-! ## The step, the resets and the Control Port -/

/-- A step takes the command at the front of the queue, on the state with the queue's rest. With no command waiting the part
idles, which is the model's choice (log 1). -/
def Obligations.StepTakesFrontCommand : Prop :=
  (∀ (i : Instr) (rest : List Instr) (s : State),
    step { s with pending := i :: rest } = exec i { s with pending := rest }) ∧
  (∀ s : State, s.pending = [] → step s = .next s)

/-- POWER_ON_RESET brings every state of the part to its reset value, given block by block, and writes nothing to memory; the
queue and the count of choices are the model's own and stay (log 14). -/
def Obligations.ResetHoldsPowerOnValues : Prop :=
  (∀ s : State, exec .powerOnReset s =
    .next { State.reset with memory := s.memory, choices := s.choices, pending := s.pending }) ∧
  (∀ c, State.reset.chain c =
    { state := .idle, latched := { priority := 3, context := 0, wakeFlag := 0, faultFlag := none, privilege := .data }
      inHand := none, anchor := none, next := none, resume := none, pauseMark := false, breakReason := .none
      lastCode := .ok, lastTag := 0, retireCount := 0 }) ∧
  (∀ c, State.reset.job c = none) ∧ State.reset.flags = 0 ∧ (∀ c, State.reset.waiter c = none) ∧
  (∀ i : Fin 16, State.reset.surfaces[i] = none) ∧ State.reset.lines = [] ∧
  (∀ b, State.reset.inputFree b = true) ∧ (∀ b, State.reset.outputFree b = true) ∧
  (∀ c : ChainId, State.reset.passOver[c] = 0) ∧ State.reset.conversion = none ∧ State.reset.image = none ∧
  (∀ i : Fin 1024, State.reset.lut[i] = 0) ∧
  (∀ i : Fin 4, State.reset.coeffs[i] = { k1 := 0, k2 := 0, k3 := 0, k4 := 0, order := .rgb }) ∧
  State.reset.tableGate = .empty ∧ State.reset.lineMarks = none ∧ (∀ b : Fin 2, State.reset.fetchChecks[b] = none) ∧
  State.reset.packCheck = none ∧ State.reset.copyZero = none ∧ (∀ m : EntryId, State.reset.entries[m] = none) ∧
  (∀ m, State.reset.pinCount m = 0) ∧ State.reset.pendingMark = none ∧ State.reset.heldSet = [] ∧
  State.reset.replGate = .empty ∧ State.reset.accesses = [] ∧ State.reset.ten = false ∧
  State.reset.softReset = false ∧ State.reset.exchangeBase = 0 ∧
  State.reset.lastResult = { result := .none, reason := .none, register := 0, chain := 0 } ∧
  State.reset.attentionMask = 0 ∧
  State.reset.errors = { pending := false, firstKind := .none, firstChain := 0, further := 0 } ∧
  State.reset.attn = false ∧ State.reset.pending = []

/-- A soft reset with an access outstanding begins the drain: the waiters are withdrawn, the working state of the
conversion and the checks are gone, the last result is NONE, and nothing else changes. While it lasts, an answer only leaves
the outstanding access list (that each access is answered whole is the model's choice, log 13), with the bytes of a write in
memory as far as they landed (log 4); the bytes of an answered table read are marked, and their load leaves the list with the
last of them (log 13); no grant is made, no conversion starts or completes, and no arrival of a SURFACE, COEFF or MAP job is
taken. -/
def Obligations.SoftResetBeginsAndDrains : Prop :=
  (∀ (ten : Bool) (s : State), s.softReset = false → s.accesses ≠ [] →
    exec (.softReset ten) s = .next { s with
      softReset := true, lastResult := .none, waiters := Vector.replicate 4 none, image := none, lineMarks := none
      fetchChecks := Vector.replicate 2 none, packCheck := none, copyZero := none }) ∧
  (∀ s : State, s.softReset = true → exec .fetchGrantDecision s = .next s ∧ exec .conversionStart s = .next s ∧
    exec .conversionComplete s = .next s ∧
    ∀ c, exec (.surfaceWork c) s = .next s ∧ exec (.coeffWork c) s = .next s ∧ exec (.mapWork c) s = .next s) ∧
  (∀ (c : ChainId) (answer : ReadAnswer) (a : Access) (before after : List Access) (s : State), s.softReset = true →
    answer.hasLength a.bytes = true →
    (s.hasOutstanding (Access.isFor .directoryRead c) 0 a before after →
      exec (.directoryRead c answer) s = .next { s with accesses := before ++ after }) ∧
    (s.hasOutstanding (Access.isFor .headerRead c) 0 a before after →
      exec (.recordHeaderRead c answer) s = .next { s with accesses := before ++ after }) ∧
    (s.hasOutstanding (Access.isFor .secondPartRead c) 0 a before after →
      exec (.recordSecondPartRead c answer) s = .next { s with accesses := before ++ after }) ∧
    (s.hasOutstanding (Access.isFor .linkReRead c) 0 a before after →
      exec (.linkReRead c answer) s = .next { s with accesses := before ++ after }) ∧
    (s.hasOutstanding (Access.isAnchorReReadFor c) 0 a before after →
      exec (.anchorLinkReRead c answer) s = .next { s with accesses := before ++ after }) ∧
    (∀ b, s.hasOutstanding (Access.isFetchInto b) 0 a before after →
      exec (.fetchComplete b answer) s = .next { s with accesses := before ++ after })) ∧
  (∀ (c : ChainId) (n : Nat) (answer : WriteAnswer) (a : Access) (before after : List Access) (s : State),
    s.softReset = true →
    let done : State := { s with
      memory := Memory.writeAll s.memory (landedCells answer a)
      accesses := before.map (Access.without ((landedCells answer a).map (·.1))) ++ after }
    (s.hasOutstanding (Access.isOutcomeFor c) 0 a before after → exec (.outcomeWrite c answer) s = .next done) ∧
    (s.hasOutstanding (Access.isReleaseFor c) 0 a before after → exec (.releaseWrite c answer) s = .next done) ∧
    (s.hasOutstanding (Access.isStatusFor c) n a before after → exec (.statusWrite c n answer) s = .next done) ∧
    (∀ b, s.hasOutstanding (Access.isStoreFrom b) 0 a before after → exec (.storeAnswered b answer) s = .next done)) ∧
  (∀ (offset length : Nat) (answer : ReadAnswer) (j : Job) (b : TableBody) (load : TableLoad) (a : Access)
      (before after : List Access) (s : State), s.softReset = true →
    s.hasOutstanding Access.isTableRead 0 a before after → s.job a.chain = some j → j.body = .table b →
    j.load = some load → 1 ≤ length → offset + length ≤ load.source.length → answer.hasLength length = true →
    (∀ k, offset ≤ k → k < offset + length → load.source[k]? = some .unanswered) →
    let marked := load.answer offset length answer
    ((∃ x ∈ marked.source, x = .unanswered) → exec (.tableReadAnswered offset length answer) s = .next { s with
      jobs := s.jobs.set a.chain (some { j with load := some marked }) }) ∧
    ((∀ x ∈ marked.source, x ≠ .unanswered) → exec (.tableReadAnswered offset length answer) s = .next { s with
      jobs := s.jobs.set a.chain (some { j with load := some marked }), accesses := before ++ after }))

/-- The state at rest after a soft reset; the slots, the mapping entries, the lookup table, the coefficient sets, TEN,
EXCHANGE_BASE, the outstanding accesses and the bytes written are kept. -/
def Sys2Proof.Statements.atRest (s : State) : State :=
  { s with
    chains := Vector.replicate 4 .atRest, jobs := Vector.replicate 4 none, flags := 0
    waiters := Vector.replicate 4 none, lines := [], inBuf := Vector.replicate 2 [], outBuf := Vector.replicate 2 []
    passOver := Vector.replicate 4 0, conversion := none, image := none, tableGate := .empty, lineMarks := none
    fetchChecks := Vector.replicate 2 none, packCheck := none, copyZero := none, pendingMark := none
    replGate := .empty, softReset := false, attentionMask := 0, errors := .clear }

/-- The end of a soft reset brings every block to rest; with nothing outstanding at its start it ends at once, with the
last result NONE. -/
def Obligations.SoftResetEndsAtRest : Prop :=
  (∀ s : State, s.softReset = true → s.accesses = [] → exec .softResetEnd s = .next (atRest s)) ∧
  (∀ (ten : Bool) (s : State), s.softReset = false → s.accesses = [] →
    exec (.softReset ten) s = .next { atRest s with lastResult := .none }) ∧
  (∀ s : State, (atRest s).readRegister 0x04 = s.readRegister 0x04 &&& 1 ∧ (atRest s).attn = false)

/-- 10 R181 whole: while a soft reset is in progress every write but one to ERROR is refused with RESETTING and changes nothing
else; a write to ERROR is taken; and reads are answered as ever. -/
def Obligations.WritesRefusedDuringSoftReset : Prop :=
  ∀ s : State, s.softReset = true →
    (∀ ten, exec (.softReset ten) s = .next { s with lastResult := refused .resetting 1 0 }) ∧
    (∀ ten, exec (.tenWrite ten) s = .next { s with lastResult := refused .resetting 1 0 }) ∧
    (∀ v, exec (.exchangeBaseWrite v) s = .next { s with lastResult := refused .resetting 2 0 }) ∧
    (∀ c, exec (.start c) s = .next { s with lastResult := refused .resetting 3 c }) ∧
    (∀ c, exec (.pause c) s = .next { s with lastResult := refused .resetting 3 c }) ∧
    (∀ c, exec (.resume c) s = .next { s with lastResult := refused .resetting 3 c }) ∧
    (∀ c, exec (.abort c) s = .next { s with lastResult := refused .resetting 3 c }) ∧
    (∀ m, exec (.flagSet m) s = .next { s with lastResult := refused .resetting 5 0 }) ∧
    (∀ m, exec (.flagClear m) s = .next { s with lastResult := refused .resetting 6 0 }) ∧
    (∀ v, exec (.attentionMaskWrite v) s = .next { s with lastResult := refused .resetting 7 0 }) ∧
    (∀ v, exec (.errorClear v) s = .next { s with
      errors := if v.getLsbD 0 then .clear else s.errors, lastResult := accepted 8 0 }) ∧
    ∀ offset : BitVec 12, offset ≠ 0x04 →
      s.readRegister offset = ({ s with softReset := false } : State).readRegister offset

/-- 10 R172 whole: a CONTROL write with SOFT_RESET 1 starts a soft reset, which is then in progress or, with nothing
outstanding, may have ended, and leaves TEN; with SOFT_RESET 0, TEN takes the written value unless it would change while a job
is admitted, which is refused with BUSY; how CONTROL reads; and every write is refused during a soft reset. The resolutions
of lines and of table loads use TEN as it stands. -/
def Obligations.ControlWriteStartsResetOrSetsTen : Prop :=
  (∀ (ten : Bool) (s : State), s.softReset = false →
    (∃ t, exec (.softReset ten) s = .next t ∧ t.ten = s.ten ∧ t.lastResult = .none ∧
      (t.softReset = true ∨ (s.accesses = [] ∧ t = { atRest s with lastResult := .none }))) ∧
    ((ten = s.ten ∨ ∀ c j, s.job c = some j → j.admitted = false) →
      exec (.tenWrite ten) s = .next { s with ten := ten, lastResult := accepted 1 0 }) ∧
    ((ten ≠ s.ten ∧ ∃ c j, s.job c = some j ∧ j.admitted = true) →
      exec (.tenWrite ten) s = .next { s with lastResult := refused .busy 1 0 })) ∧
  (∀ s : State, (s.readRegister 0x04).toNat = s.ten.toNat + 2 * s.softReset.toNat) ∧
  (∀ (ten : Bool) (s : State), s.softReset = true →
    exec (.softReset ten) s = .next { s with lastResult := refused .resetting 1 0 } ∧
    exec (.tenWrite ten) s = .next { s with lastResult := refused .resetting 1 0 }) ∧
  (∀ (ten : Bool) (c : ChainId) (j : Job) (p n q k : Nat) (s : State),
    ({ s with ten := ten } : State).resolveLine c j p n q k =
      (match (s.resolver c j false).footprint ten p n, (s.resolver c j true).footprint ten q k with
        | .held, _ => .held
        | .fault code, _ => .fault code
        | .ranges _, .held => .held
        | .ranges _, .fault code => .fault code
        | .ranges fetch, .ranges store =>
          .resolved (fetch.map (·.1)) (store.map (·.1)) (entriesUsed (fetch ++ store)))) ∧
  (∀ (ten : Bool) (c : ChainId) (j : Job) (b : TableBody) (s : State),
    ({ s with ten := ten } : State).resolveTable c j b =
      (match (s.resolver c j false).footprint ten b.source.toNat (b.count.toNat * 2) with
        | .held => .held
        | .fault code => .fault code
        | .ranges found => .resolved (found.map (·.1)) [] (entriesUsed found)))

/-- EXCHANGE_BASE is replaced by bits 27 to 0 of the write when every chain is IDLE, else the write is refused with BUSY; an
access already issued keeps its address; the directory and status entries stand at its area, and each directory read, at START
and at a wake, and each status write takes its address when it is issued; what the resets do to it; and the status write of a
break tail outstanding at a change completes in the old area (its bytes change at its answer: log 4), and sets its fault flag, here
where no waiter stands on it. -/
def Obligations.ExchangeBaseReplacedWhenAllIdle : Prop :=
  (∀ (v : BitVec 32) (s : State), s.softReset = false →
    ((∀ c, (s.chain c).state = .idle) →
      exec (.exchangeBaseWrite v) s = .next { s with exchangeBase := v.extractLsb' 0 28, lastResult := accepted 2 0 }) ∧
    ((∃ c, (s.chain c).state ≠ .idle) →
      exec (.exchangeBaseWrite v) s = .next { s with lastResult := refused .busy 2 0 })) ∧
  (∀ (s : State) (c : ChainId),
    (s.directoryAddress c).toNat = s.exchangeBase.toNat * 4096 + 32 * c.val ∧
    (s.statusAddress c).toNat = s.exchangeBase.toNat * 4096 + 128 + 32 * c.val ∧
    (s.readDirectory c).accesses = s.accesses ++ [readAccess .directoryRead c (s.directoryAddress c) 32] ∧
    ((s.chain c).anchor = some .directory →
      (s.reReadAnchor c).accesses = s.accesses ++ [readAccess .headReRead c (s.directoryAddress c) 8]) ∧
    ∀ x a n, ∃ bytes, (s.issueStatus c x a n).accesses =
      s.accesses ++ [writeAccess (.statusWrite n) c (s.statusAddress c) bytes]) ∧
  (∀ s : State, ∃ t, exec .powerOnReset s = .next t ∧ t.exchangeBase = 0) ∧
  (∀ (ten : Bool) (s : State), ∃ t u, exec (.softReset ten) s = .next t ∧ t.exchangeBase = s.exchangeBase ∧
    exec .softResetEnd s = .next u ∧ u.exchangeBase = s.exchangeBase) ∧
  (∀ (c : ChainId) (n : Nat) (v : BitVec 32) (f : FlagId) (a : Access) (before after : List Access) (s : State),
    s.softReset = false → (∀ d, (s.chain d).state = .idle) → s.hasOutstanding (Access.isStatusFor c) n a before after →
    a.kind = .statusWrite (.breakTail (some f)) → (∀ d w, s.waiter d = some w → w.flag ≠ f) →
    ∃ t, exec (.exchangeBaseWrite v) s = .next t ∧ t.exchangeBase = v.extractLsb' 0 28 ∧ t.accesses = s.accesses ∧
      exec (.statusWrite c n .acknowledged) t = .next { t with
        memory := Memory.writeAll s.memory a.cells, flags := s.flags ||| BitVec.twoPow 32 f
        accesses := before.map (Access.without (a.cells.map (·.1))) ++ after })

/-- 10 R171 whole: IDENT reads 0x93D20001 in every state. And the layouts of CONTROL, EXCHANGE_BASE, CHAIN_COMMAND, COMMAND_STATUS and the flag registers when read, and 0 from
offset 0x24 upward. -/
def Obligations.RegisterReadLayouts : Prop :=
  ∀ s : State, s.readRegister 0x00 = 0x93D20001#32 ∧ 0x93D20001#32 = 0x93D#12 ++ 0x20#8 ++ 0x001#12 ∧
    (s.readRegister 0x04).toNat = s.ten.toNat + 2 * s.softReset.toNat ∧
    (s.readRegister 0x08).toNat = s.exchangeBase.toNat ∧ s.readRegister 0x0C = 0 ∧
    (s.readRegister 0x10).toNat = (s.chain 0).state.code + 2 ^ 4 * (s.chain 1).state.code +
      2 ^ 8 * (s.chain 2).state.code + 2 ^ 12 * (s.chain 3).state.code + 2 ^ 16 * s.lastResult.result.code +
      2 ^ 18 * s.lastResult.reason.code + 2 ^ 24 * s.lastResult.register.toNat + 2 ^ 28 * s.lastResult.chain.val ∧
    s.readRegister 0x14 = s.flags ∧ s.readRegister 0x18 = s.flags ∧ s.readRegister 0x1C = s.attentionMask ∧
    ∀ offset : BitVec 12, 0x24 ≤ offset.toNat → s.readRegister offset = 0

/-- An APB write is the command of its register (10 Tables 10-1, 10-2), and one that the port ignores changes no state. -/
def Obligations.ApbWritesAreTheirCommands : Prop :=
  (∀ v : BitVec 32, Instr.ofApbWrite 0x04 v 0xF =
    if v.getLsbD 1 then .softReset (v.getLsbD 0) else .tenWrite (v.getLsbD 0)) ∧
  (∀ v, Instr.ofApbWrite 0x08 v 0xF = .exchangeBaseWrite v) ∧
  (∀ v : BitVec 32, ∃ c : ChainId, c.val = v.toNat % 4 ∧ Instr.ofApbWrite 0x0C v 0xF =
    (match (v.extractLsb' 4 2).toNat with
      | 0 => .start c
      | 1 => .pause c
      | 2 => .resume c
      | _ => .abort c)) ∧
  (∀ v, Instr.ofApbWrite 0x14 v 0xF = .flagSet v) ∧ (∀ v, Instr.ofApbWrite 0x18 v 0xF = .flagClear v) ∧
  (∀ v, Instr.ofApbWrite 0x1C v 0xF = .attentionMaskWrite v) ∧ (∀ v, Instr.ofApbWrite 0x20 v 0xF = .errorClear v) ∧
  (∀ (o : BitVec 12) (v : BitVec 32) (b : BitVec 4), b ≠ 0xF ∨ o = 0x00 ∨ o = 0x10 ∨ 0x24 ≤ o.toNat →
    Instr.ofApbWrite o v b = .ignoredRegisterWrite o v b) ∧
  (∀ (o : BitVec 12) (v : BitVec 32) (b : BitVec 4) (s : State), ignoredWrite o b = true →
    exec (.ignoredRegisterWrite o v b) s = .next s)

/-- 10 R177 whole: the mask is replaced and read back, ATTN follows it, and both resets bring it to 0. -/
def Obligations.AttentionMaskSelectsFlags : Prop :=
  (∀ (v : BitVec 32) (s : State), s.softReset = false →
    exec (.attentionMaskWrite v) s = .next { s with attentionMask := v, lastResult := accepted 7 0 }) ∧
  (∀ s : State, s.readRegister 0x1C = s.attentionMask) ∧
  (∀ s : State, s.attn = true ↔
    (∃ f : FlagId, s.flags.getLsbD f = true ∧ s.attentionMask.getLsbD f = true) ∨ s.errors.pending = true) ∧
  (∀ s : State, ∃ t, exec .powerOnReset s = .next t ∧ t.attentionMask = 0) ∧
  (∀ s : State, s.softReset = true → s.accesses = [] → ∃ t, exec .softResetEnd s = .next t ∧ t.attentionMask = 0) ∧
  (∀ (v : BitVec 32) (s : State), s.softReset = true →
    exec (.attentionMaskWrite v) s = .next { s with lastResult := refused .resetting 7 0 })

/-- 10 R178 whole: how ERROR reads, and what a write to it does, in a soft reset as out of one. -/
def Obligations.ErrorRegisterReadsAndClears : Prop :=
  (∀ s : State, (s.readRegister 0x20).toNat =
    s.errors.pending.toNat + 2 ^ 4 * s.errors.firstKind.code + 2 ^ 8 * s.errors.firstChain.val +
      2 ^ 16 * s.errors.further.toNat) ∧
  (∀ (v : BitVec 32) (s : State), v.getLsbD 0 = true →
    exec (.errorClear v) s = .next { s with
      errors := { pending := false, firstKind := .none, firstChain := 0, further := 0 }, lastResult := accepted 8 0 }) ∧
  (∀ (v : BitVec 32) (s : State), v.getLsbD 0 = false →
    exec (.errorClear v) s = .next { s with lastResult := accepted 8 0 }) ∧
  (∀ (v : BitVec 32) (s : State), v.getLsbD 0 = true → ∃ t, exec (.errorClear v) s = .next t ∧
    t.attn = (s.flags &&& s.attentionMask != 0))

/-- A report finds the summary clear and becomes its first error, or is counted up to 255. -/
def Obligations.ErrorSummaryKeepsFirstAndCounts : Prop :=
  ∀ (e : ErrorSummary) (k : ErrorKind) (c : ChainId),
    (e.pending = false → e.report k c = { pending := true, firstKind := k, firstChain := c, further := 0 }) ∧
    (e.pending = true → (e.report k c).pending = true ∧ (e.report k c).firstKind = e.firstKind ∧
      (e.report k c).firstChain = e.firstChain ∧ (e.report k c).further.toNat = min 255 (e.further.toNat + 1))

/-! ## Flags -/

/-- A host mask sets or clears its flags together, and each flag with a new value is evaluated as a change of that flag alone.
One that reaches no waiter's flag changes nothing else. One that satisfies one waiter serves it: a WAIT guard gets the
guard-passed mark and goes on to admission, a wake claim makes its chain re-read its anchor, and a consuming waiter takes the
flag back. -/
def Obligations.HostMaskSetsAndClearsFlags : Prop :=
  (∀ (mask : BitVec 32) (s : State), s.softReset = false →
    (∀ c w, s.waiter c = some w → mask.getLsbD w.flag = false) →
    exec (.flagSet mask) s = .next { s with flags := s.flags ||| mask, lastResult := accepted 5 0 } ∧
    exec (.flagClear mask) s = .next { s with flags := s.flags &&& ~~~mask, lastResult := accepted 6 0 }) ∧
  (∀ (v : Bool) (mask : BitVec 32) (c : ChainId) (w : Waiter) (s : State), s.softReset = false →
    s.waiter c = some w → mask.getLsbD w.flag = true → w.wanted = v → s.flags.getLsbD w.flag = !v →
    (∀ d u, s.waiter d = some u → mask.getLsbD u.flag = true → d = c) →
    let i : Instr := if v then .flagSet mask else .flagClear mask
    let flags := if v then s.flags ||| mask else s.flags &&& ~~~mask
    let taken := if v then flags &&& ~~~BitVec.twoPow 32 w.flag else flags ||| BitVec.twoPow 32 w.flag
    let result := accepted (if v then 5 else 6) 0
    (∀ j, w.kind = .guard → s.job c = some j →
      exec i s = .next { (State.admitJob { s with
        flags := if w.consuming then taken else flags, waiters := s.waiters.set c none
        jobs := s.jobs.set c (some { j with guardPassed := true }) } c) with lastResult := result }) ∧
    (∀ r, w.kind = .wake → w.consuming = true → (s.chain c).anchor = some (.record r) →
      exec i s = .next { s with
        flags := taken, waiters := s.waiters.set c none
        chains := s.chains.set c { s.chain c with state := .reading }
        accesses := s.accesses ++ [readAccess .anchorReRead c r 8], lastResult := result }) ∧
    (w.kind = .wake → w.consuming = true → (s.chain c).anchor = some .directory →
      exec i s = .next { s with
        flags := taken, waiters := s.waiters.set c none
        chains := s.chains.set c { s.chain c with state := .reading }
        accesses := s.accesses ++ [readAccess .headReRead c (s.directoryAddress c) 8], lastResult := result })) ∧
  (∀ (mask : BitVec 32) (s : State), s.softReset = false →
    exec (.flagSet mask) s = .next { (s.flagArrival (FlagFile.hostWrite s.level (s.flags ||| mask)) []) with
      lastResult := accepted 5 0 } ∧
    exec (.flagClear mask) s = .next { (s.flagArrival (FlagFile.hostWrite s.level (s.flags &&& ~~~mask)) []) with
      lastResult := accepted 6 0 }) ∧
  (∀ (level : ChainId → Nat) (new : BitVec 32) (ff : FlagFile),
    (FlagFile.hostWrite level new ff).2 = ((List.finRange 32).filter fun f : FlagId => ff.flags.getLsbD f != new.getLsbD f).flatMap
      (fun f : FlagId => (ff.change level f (new.getLsbD f)).2) ∧
    ∀ f : FlagId, (FlagFile.hostWrite level new ff).1.value f = (ff.change level f (new.getLsbD f)).1.value f ∧
      ∀ (c : ChainId) (w : Waiter), ff.waiters[c] = some w → w.flag = f →
        (FlagFile.hostWrite level new ff).1.waiters[c] = (ff.change level f (new.getLsbD f)).1.waiters[c])

/-- One change of a flag: every satisfied non-consuming waiter is served; with no consuming waiter satisfied the flag
keeps the new value; with one, the waiter of the chain of highest priority is served and takes the flag back, unless a
waiter wants the taken-back value. No other flag changes, no other waiter is disturbed, and nobody else is served; an operation
without change does nothing. A waiter whose wanted value does not hold is registered, and one whose value holds is served at
once. What an arrival serves goes on in an order that is left free (log 5): a guard to admission with its mark, a wake claim to
the re-read of its anchor. -/
def Obligations.FlagChangeServesWaitersByRule : Prop :=
  (∀ (level : ChainId → Nat) (f : FlagId) (v : Bool) (ff : FlagFile), ff.value f ≠ v →
    (∀ (c : ChainId) (w : Waiter), ff.waiters[c] = some w → w.flag = f → w.wanted = v) →
    let served := (allChains.filter fun d => match ff.waiters[d] with
      | some w => w.flag == f && !w.consuming
      | none => false).map ff.followup
    (∀ (c : ChainId) (w : Waiter), ff.waiters[c] = some w → w.flag = f → w.consuming = false →
      (ff.change level f v).1.waiters[c] = none ∧ ff.followup c ∈ (ff.change level f v).2) ∧
    ((∀ (c : ChainId) (w : Waiter), ff.waiters[c] = some w → w.flag = f → w.consuming = false) →
      (ff.change level f v).1.value f = v ∧ (ff.change level f v).2 = served) ∧
    (∀ (c : ChainId) (w : Waiter), ff.waiters[c] = some w → w.flag = f → w.consuming = true →
      (∀ (d : ChainId) (u : Waiter), ff.waiters[d] = some u → u.flag = f → u.consuming = true → d ≠ c →
        level c < level d ∨ (level c = level d ∧ c < d)) →
      (ff.change level f v).1.value f = !v ∧ (ff.change level f v).1.waiters[c] = none ∧
      (ff.change level f v).2 = served ++ [ff.followup c] ∧
      ∀ (d : ChainId) (u : Waiter), ff.waiters[d] = some u → u.flag = f → u.consuming = true → d ≠ c →
        (ff.change level f v).1.waiters[d] = some u) ∧
    (∀ g, g ≠ f → (ff.change level f v).1.value g = ff.value g) ∧
    (∀ (c : ChainId) (w : Waiter), ff.waiters[c] = some w → w.flag ≠ f → (ff.change level f v).1.waiters[c] = some w)) ∧
  (∀ (level : ChainId → Nat) (f : FlagId) (ff : FlagFile), ff.change level f (ff.value f) = (ff, [])) ∧
  (∀ (c : ChainId) (w : Waiter) (ff : FlagFile), ff.waiters[c] = some w →
    ff.followup c = if w.kind = .wake then .wake c else .passed c) ∧
  (∀ (level : ChainId → Nat) (c : ChainId) (w : Waiter) (ff : FlagFile),
    let own := if w.kind = .wake then Followup.wake c else Followup.passed c
    (ff.value w.flag ≠ w.wanted →
      FlagFile.register level c w ff = ({ ff with waiters := ff.waiters.set c (some w) }, [])) ∧
    (ff.value w.flag = w.wanted → w.consuming = false → FlagFile.register level c w ff = (ff, [own])) ∧
    (ff.value w.flag = w.wanted → w.consuming = true → FlagFile.register level c w ff =
      ((ff.change level w.flag (!w.wanted)).1, own :: (ff.change level w.flag (!w.wanted)).2))) ∧
  (∀ (op : FlagFile → FlagFile × List Followup) (also : List Followup) (s : State),
    ∃ (things : List Followup) (n : Nat), things.Perm ((op s.flagFile).2 ++ also) ∧
      s.flagArrival op also = things.foldl State.runFollowup { s with
        flags := (op s.flagFile).1.flags, waiters := (op s.flagFile).1.waiters, choices := n }) ∧
  (∀ (c : ChainId) (s : State),
    (∀ j, s.job c = some j → s.runFollowup (.passed c) =
      State.admitJob { s with jobs := s.jobs.set c (some { j with guardPassed := true }) } c) ∧
    (∀ r, (s.chain c).anchor = some (.record r) → s.runFollowup (.wake c) = { s with
      chains := s.chains.set c { s.chain c with state := .reading }
      accesses := s.accesses ++ [readAccess .anchorReRead c r 8] }) ∧
    ((s.chain c).anchor = some .directory → s.runFollowup (.wake c) = { s with
      chains := s.chains.set c { s.chain c with state := .reading }
      accesses := s.accesses ++ [readAccess .headReRead c (s.directoryAddress c) 8] }) ∧
    s.runFollowup (.drop c) = s.dropJob c)

/-- The conditions of post actions, tested against the outcome as written (02 Table 2-6). The operations that a retire hands
the Flag File: the post actions whose condition holds, in list order, none of a job that faulted BAD_RECORD, and after them the
set of the chain's fault flag, where it has one and the code is a fault. They are applied one after another, each evaluated
before the next. -/
def Obligations.PostActionsAppliedByRetire : Prop :=
  (∀ (code : Code) (r : ResultFlags),
    Condition.always.holds code r = true ∧ (Condition.ok.holds code r = true ↔ code = .ok) ∧
    (Condition.skip.holds code r = true ↔ code = .skipped) ∧
    (Condition.fault.holds code r = true ↔ code ≠ .ok ∧ code ≠ .skipped ∧ code ≠ .aborted) ∧
    Condition.zero.holds code r = r.zero ∧ Condition.neg.holds code r = r.neg ∧ Condition.sat.holds code r = r.sat ∧
    Condition.stray.holds code r = r.stray ∧ Condition.check.holds code r = r.check) ∧
  (∀ (j : Job) (code : Code) (faultFlag : Option FlagId),
    (∀ a rest, code ≠ .badRecord → j.actions = a :: rest → retireOps j code faultFlag =
      (if a.condition.holds code j.flags then [(a.flag, a.op)] else []) ++
        retireOps { j with actions := rest } code faultFlag) ∧
    ((code = .badRecord ∨ j.actions = []) → retireOps j code faultFlag =
      (match faultFlag with
        | some f => if code = .ok ∨ code = .skipped ∨ code = .aborted then [] else [(f, .set)]
        | none => []))) ∧
  (∀ (level : ChainId → Nat) (ff : FlagFile), FlagFile.applyAll level [] ff = (ff, [])) ∧
  (∀ (level : ChainId → Nat) (f : FlagId) (op : FlagOp) (rest : List (FlagId × FlagOp)) (ff : FlagFile),
    let one := ff.change level f (match op with
      | .set => true
      | .clear => false
      | .toggle => !ff.value f)
    FlagFile.applyAll level ((f, op) :: rest) ff =
      ((FlagFile.applyAll level rest one.1).1, one.2 ++ (FlagFile.applyAll level rest one.1).2))

/-! ## Chain commands -/

/-- 01 Table 1-6: what each command answers, by the chain's state. A refused command, and a PAUSE of a PAUSED chain, change
nothing but the last result. -/
def Obligations.ChainCommandAcceptance : Prop :=
  ∀ (c : ChainId) (s : State), s.softReset = false →
    (∃ t, exec (.start c) s = .next t ∧ t.lastResult =
      (if (s.chain c).state ∈ [.idle, .halted, .broken] then accepted 3 c else refused .busy 3 c)) ∧
    (∃ t, exec (.pause c) s = .next t ∧ t.lastResult =
      (if (s.chain c).state ∈ [.reading, .waiting, .active, .parked, .paused] then accepted 3 c
       else refused .notRunning 3 c)) ∧
    (∃ t, exec (.resume c) s = .next t ∧ t.lastResult =
      (if (s.chain c).state ∈ [.paused, .halted] then accepted 3 c else refused .notPaused 3 c)) ∧
    (∃ t, exec (.abort c) s = .next t ∧ t.lastResult =
      (if (s.chain c).state ∈ [.idle, .aborting] then refused .notRunning 3 c else accepted 3 c)) ∧
    ((s.chain c).state ∉ [.idle, .halted, .broken] →
      exec (.start c) s = .next { s with lastResult := refused .busy 3 c }) ∧
    ((s.chain c).state ∈ [.idle, .halted, .broken, .aborting] →
      exec (.pause c) s = .next { s with lastResult := refused .notRunning 3 c }) ∧
    ((s.chain c).state = .paused → exec (.pause c) s = .next { s with lastResult := accepted 3 c }) ∧
    ((s.chain c).state ∉ [.paused, .halted] →
      exec (.resume c) s = .next { s with lastResult := refused .notPaused 3 c }) ∧
    ((s.chain c).state ∈ [.idle, .aborting] →
      exec (.abort c) s = .next { s with lastResult := refused .notRunning 3 c })

/-- START from IDLE and from BROKEN reads the directory entry; START from HALTED first releases the anchor, whatever its
link holds. -/
def Obligations.StartReadsDirectoryOrReleasesAnchor : Prop :=
  ∀ (c : ChainId) (s : State), s.softReset = false →
    ((s.chain c).state = .idle ∨ (s.chain c).state = .broken →
      exec (.start c) s = .next { s with
        chains := s.chains.set c { s.chain c with state := .reading, breakReason := .none }
        accesses := s.accesses ++ [readAccess .directoryRead c (s.directoryAddress c) 32]
        lastResult := accepted 3 c }) ∧
    (∀ a, (s.chain c).state = .halted → (s.chain c).anchor = some (.record a) →
      exec (.start c) s = .next { s with
        chains := s.chains.set c { s.chain c with state := .reading, breakReason := .none, anchor := none }
        accesses := s.accesses ++ [writeAccess (.releaseWrite .directory a) c (a + 8) [0x03]]
        lastResult := accepted 3 c })

/-- PAUSE in WAITING keeps the record in hand with its guard-passed mark, discards the snapshots, withdraws the registered
guard, and leaves the gates where it has a place at one; in PARKED it keeps the anchor and withdraws the wake claim, and a
status write of the entry into PARKED not yet answered brings none (the model's reading, log 10); in ACTIVE it pauses a
running job at once; in READING and in REPORTING it sets the pause mark. -/
def Obligations.PauseTakesChainByItsState : Prop :=
  ∀ (c : ChainId) (s : State), s.softReset = false →
    ((s.chain c).state = .parked →
      exec (.pause c) s = .next { s with
        chains := s.chains.set c { s.chain c with state := .paused, resume := some .park }
        waiters := s.waiters.set c none, accesses := s.accesses.map (redirected .nothing c)
        lastResult := accepted 3 c }) ∧
    (∀ j, (s.chain c).state = .active → s.job c = some j → j.phase ≠ .reporting →
      exec (.pause c) s = .next { s with
        chains := s.chains.set c { s.chain c with state := .paused, resume := some .run }
        lastResult := accepted 3 c }) ∧
    (∀ j, ((s.chain c).state = .reading ∨
        (s.chain c).state = .active ∧ s.job c = some j ∧ j.phase = .reporting) →
      exec (.pause c) s = .next { s with
        chains := s.chains.set c { s.chain c with pauseMark := true }, lastResult := accepted 3 c }) ∧
    (∀ j, (s.chain c).state = .waiting → s.job c = some j → s.tableGate.has c = false → s.replGate.has c = false →
      exec (.pause c) s = .next { s with
        chains := s.chains.set c { s.chain c with state := .paused, resume := some .guard }
        jobs := s.jobs.set c (some { j with source := none, dest := none, coeff := none })
        waiters := s.waiters.set c none, lastResult := accepted 3 c }) ∧
    (∀ j, (s.chain c).state = .waiting → s.job c = some j → j.phase = .admitting → j.ended = false →
      exec (.pause c) s = .next { (State.leaveReplGate (State.leaveTableGate { s with
          chains := s.chains.set c { s.chain c with state := .paused, resume := some .guard }
          jobs := s.jobs.set c (some { j with source := none, dest := none, coeff := none })
          waiters := s.waiters.set c none } c) c) with lastResult := accepted 3 c })

/-- RESUME of a HALTED chain re-reads its anchor's link; of a chain paused at PARK enters PARKED and writes the status
entry, after the answer of the status write of its last entry into PARKED where that is still awaited (the model's reading,
log 10); of one paused at RUN returns to ACTIVE, where a TABLE job that has neither a load nor a hold resolves; of one paused at READ_NEXT reads the next record, or begins the retire of
its ended job; of one paused at GUARD makes the guard step afresh. -/
def Obligations.ResumeReturnsToResumePoint : Prop :=
  ∀ (c : ChainId) (s : State), s.softReset = false →
    (∀ a, (s.chain c).state = .halted → (s.chain c).anchor = some (.record a) →
      exec (.resume c) s = .next { s with
        chains := s.chains.set c { s.chain c with state := .reading }
        accesses := s.accesses ++ [readAccess .anchorReRead c a 8], lastResult := accepted 3 c }) ∧
    (∀ a, (s.chain c).state = .paused → (s.chain c).resume = some .park → (s.chain c).anchor = some a →
      s.awaitsParkStatus c = false →
      exec (.resume c) s = .next { s with
        chains := s.chains.set c { s.chain c with state := .parked, resume := none, inHand := none }
        accesses := s.accesses ++ [statusAccess s c .park .parked (anchorAddress a)], lastResult := accepted 3 c }) ∧
    (∀ a, (s.chain c).state = .paused → (s.chain c).resume = some .park → (s.chain c).anchor = some a →
      s.awaitsParkStatus c = true →
      exec (.resume c) s = .next { s with
        chains := s.chains.set c { s.chain c with state := .parked, resume := none, inHand := none }
        accesses := s.accesses.map (redirected .parkAgain c), lastResult := accepted 3 c }) ∧
    (∀ j, (s.chain c).state = .paused → (s.chain c).resume = some .run → s.job c = some j → j.kind = some .table →
      j.load = none → j.held = false → j.ended = false →
      exec (.resume c) s = .next { (State.tableResolve { s with
        chains := s.chains.set c { s.chain c with state := .active, resume := none } } c) with
          lastResult := accepted 3 c }) ∧
    (∀ j, (s.chain c).state = .paused → (s.chain c).resume = some .run → s.job c = some j →
      (j.kind = some .table → j.load.isSome = true ∨ j.held = true ∨ j.ended = true) →
      exec (.resume c) s = .next { s with
        chains := s.chains.set c { s.chain c with state := .active, resume := none }, lastResult := accepted 3 c }) ∧
    (∀ a, (s.chain c).state = .paused → (s.chain c).resume = some .readNext → s.job c = none →
      (s.chain c).next = some a →
      exec (.resume c) s = .next { s with
        chains := s.chains.set c { s.chain c with
          state := .reading, resume := none, inHand := some a, anchor := none, next := none }
        accesses := s.accesses ++ [readAccess .headerRead c a 32], lastResult := accepted 3 c }) ∧
    (∀ j, (s.chain c).state = .paused → (s.chain c).resume = some .readNext → s.job c = some j → j.ended = true →
      j.haltsChain = false →
      exec (.resume c) s = .next { s with
        chains := s.chains.set c { s.chain c with state := .active, resume := none, pauseMark := false }
        jobs := s.jobs.set c (some { j with phase := .reporting })
        accesses := s.accesses ++ [readAccess .linkReRead c j.record 8], lastResult := accepted 3 c }) ∧
    ((s.chain c).state = .paused → (s.chain c).resume = some .guard →
      exec (.resume c) s = .next { (State.guardStep { s with
        chains := s.chains.set c { s.chain c with state := .waiting, resume := none } } c) with
          lastResult := accepted 3 c })

/-- ABORT of a BROKEN chain makes it IDLE with no write; of one at rest on a record anchor releases it; of one at rest on the
directory, or paused with no job, writes the IDLE status; of one whose entry into PARKED has its status write unanswered awaits
that first (the model's reading, log 10); of one whose read is outstanding, or whose job is in REPORTING, awaits the answer; of
a record not admitted writes its outcome ABORTED, DONE_FREE, with lines done 0 and no result flags, once it has left the
gates; of an ended job paused at READ_NEXT writes its outcome with its own code. The ended mark stays set as the retire begins (log 27). -/
def Obligations.AbortWithoutAdmittedJob : Prop :=
  ∀ (c : ChainId) (s : State), s.softReset = false →
    let aborting : Chain := { s.chain c with state := .aborting, pauseMark := false, resume := none }
    ((s.chain c).state = .broken →
      exec (.abort c) s = .next { s with
        chains := s.chains.set c { s.chain c with state := .idle, breakReason := .none }, lastResult := accepted 3 c }) ∧
    (∀ a, ((s.chain c).state = .parked ∨ (s.chain c).state = .halted ∨
        ((s.chain c).state = .paused ∧ (s.chain c).resume = some .park)) →
      s.job c = none → (s.chain c).anchor = some (.record a) → s.awaitsParkStatus c = false →
      exec (.abort c) s = .next { s with
        chains := s.chains.set c { aborting with anchor := none }, waiters := s.waiters.set c none
        accesses := s.accesses ++ [writeAccess (.releaseWrite .abortEnd a) c (a + 8) [0x03]]
        lastResult := accepted 3 c }) ∧
    (((((s.chain c).state = .parked ∨ ((s.chain c).state = .paused ∧ (s.chain c).resume = some .park)) ∧
        (s.chain c).anchor = some .directory ∧ s.awaitsParkStatus c = false) ∨
        ((s.chain c).state = .paused ∧ (s.chain c).resume = some .readNext)) →
      s.job c = none →
      exec (.abort c) s = .next { s with
        chains := s.chains.set c aborting, waiters := s.waiters.set c none
        accesses := s.accesses ++ [statusAccess s c .abortEnd .idle 0], lastResult := accepted 3 c }) ∧
    (((s.chain c).state = .parked ∨ ((s.chain c).state = .paused ∧ (s.chain c).resume = some .park)) →
      s.job c = none → s.awaitsParkStatus c = true →
      exec (.abort c) s = .next { s with
        chains := s.chains.set c aborting, waiters := s.waiters.set c none
        accesses := s.accesses.map (redirected .abortAnchor c), lastResult := accepted 3 c }) ∧
    ((s.chain c).state = .reading → s.job c = none →
      exec (.abort c) s = .next { s with
        chains := s.chains.set c aborting, waiters := s.waiters.set c none, lastResult := accepted 3 c }) ∧
    (∀ j, (((s.chain c).state = .reading ∧ s.tableGate.has c = false ∧ s.replGate.has c = false) ∨
        ((s.chain c).state = .active ∧ j.phase = .reporting)) → s.job c = some j →
      exec (.abort c) s = .next { s with
        chains := s.chains.set c aborting, jobs := s.jobs.set c (some { j with abortRequested := true })
        waiters := s.waiters.set c none, lastResult := accepted 3 c }) ∧
    (∀ j, ((s.chain c).state = .waiting ∨ ((s.chain c).state = .paused ∧ (s.chain c).resume = some .guard)) →
      s.job c = some j →
      (s.tableGate.has c = false → s.replGate.has c = false →
        exec (.abort c) s = .next { s with
          chains := s.chains.set c aborting
          jobs := s.jobs.set c (some { j with
            abortRequested := true, ended := true, code := some .aborted, linesDone := 0, flags := .none
            phase := .reporting })
          waiters := s.waiters.set c none
          accesses := s.accesses ++ [writeAccess (.outcomeWrite .doneFree true) c (j.record + 8)
            [0x03, 0x02, 0x00, 0x00, 0x00, 0x00, 0x00, 0x00]]
          lastResult := accepted 3 c }) ∧
      (j.phase = .admitting → j.ended = false →
        exec (.abort c) s = .next { (State.abortRecord (State.leaveReplGate (State.leaveTableGate { s with
          chains := s.chains.set c aborting, jobs := s.jobs.set c (some { j with abortRequested := true })
          waiters := s.waiters.set c none } c) c) c) with lastResult := accepted 3 c })) ∧
    (∀ j, (s.chain c).state = .paused → (s.chain c).resume = some .readNext → s.job c = some j → j.ended = true →
      exec (.abort c) s = .next { s with
        chains := s.chains.set c aborting
        jobs := s.jobs.set c (some { j with abortRequested := true, phase := .reporting })
        waiters := s.waiters.set c none
        accesses := s.accesses ++ [writeAccess (.outcomeWrite .doneFree true) c (j.record + 8)
          (outcomeBytes .doneFree (j.code.getD .ok) j.flags j.linesDone)]
        lastResult := accepted 3 c })

/-- ABORT of an admitted job, its chain ACTIVE or paused at RUN. A line job: grants stop, its FETCHED lines leave flight at once
with their input buffers free, its FETCHING lines are marked, the lines-stored record is told of both, and its committed
lines run on; with no line left in flight its work ends at once, and its outcome is written DONE_FREE with the code of a fault
recorded before, or ABORTED. A TABLE job runs its load to its end, or, held, ends at once with no load begun, as does one whose hold ended
while its chain was PAUSED (the model's reading, log 9); a MAP job's pending
replacement is withdrawn with the held set released, the held TABLE jobs of ACTIVE chains resolving afresh, and ends; other
work runs to its end. The ended mark stays set as the retire begins (log 27). -/
def Obligations.AbortEndsWorkOfAdmittedJob : Prop :=
  ∀ (c : ChainId) (j : Job) (s : State), s.softReset = false →
    ((s.chain c).state = .active ∨ ((s.chain c).state = .paused ∧ (s.chain c).resume = some .run)) →
    s.job c = some j → (j.phase = .running ∨ j.phase = .draining) →
    let aborting : Chain := { s.chain c with state := .aborting, pauseMark := false, resume := none }
    let gone := s.lines.filter fun l => l.chain == c && l.uncommitted && !l.discard
    (j.lineBody.isSome = true → (∃ l ∈ s.lines, l.chain = c ∧ (l.uncommitted = false ∨ l.stage = .fetching)) →
      (∀ l ∈ s.lines, l.chain = c → l.stage = .fetched → l.discard = false) →
      ∃ t, exec (.abort c) s = .next t ∧ (t.chain c).state = .aborting ∧
        t.job c = some { j with
          phase := .draining, abortRequested := true
          stored := gone.foldl (fun r l => r.recordFailed l.jobLine) j.stored } ∧
        (∀ k ∈ s.lines, (k.chain ≠ c ∨ k.uncommitted = false) → k ∈ t.lines) ∧
        (∀ k ∈ s.lines, k.chain = c → k.stage = .fetching → { k with discard := true } ∈ t.lines) ∧
        (∀ l ∈ t.lines, l.chain = c → l.stage ≠ .fetched ∧ (l.uncommitted = true → l.discard = true)) ∧
        (∀ b, (∃ k ∈ s.lines, k.chain = c ∧ k.stage = .fetched ∧ k.inputBuffer = some b) → t.inBuf[b] = [] ∧
          ((∀ k ∈ s.lines, k.inputBuffer = some b → k.chain = c ∧ k.stage = .fetched) → t.inputFree b = true)) ∧
        t.accesses = s.accesses ∧ t.memory = s.memory ∧ t.passOver = s.passOver) ∧
    (j.lineBody.isSome = true → j.ended = false →
      (∀ l ∈ s.lines, l.chain = c → l.stage = .fetched ∧ l.discard = false) →
      ∃ t k, exec (.abort c) s = .next t ∧ (t.chain c).state = .aborting ∧ t.job c = some k ∧ k.phase = .reporting ∧
        k.ended = true ∧ k.abortRequested = true ∧ k.code = some (j.firstFault.getD .aborted) ∧
        ((j.kind = some .convert ∨ j.kind = some .copy) → k.linesDone = j.stored.prefixLen) ∧
        (∀ l ∈ t.lines, l.chain ≠ c) ∧ (∀ l ∈ s.lines, l.chain ≠ c → l ∈ t.lines) ∧
        t.accesses = s.accesses ++ [writeAccess (.outcomeWrite .doneFree true) c (j.record + 8)
          (outcomeBytes .doneFree (j.firstFault.getD .aborted) k.flags k.linesDone)] ∧
        t.memory = s.memory ∧ t.passOver = s.passOver) ∧
    (((∃ b load, j.body = .table b ∧ j.load = some load) ∨ ((∃ b, j.body = .map b) ∧ s.pendingMark = none) ∨
        (∃ b, j.body = .surface b) ∨ (∃ b, j.body = .coeff b)) →
      exec (.abort c) s = .next { s with
        chains := s.chains.set c aborting, jobs := s.jobs.set c (some { j with abortRequested := true })
        waiters := s.waiters.set c none, lastResult := accepted 3 c }) ∧
    (∀ b, j.body = .table b → j.load = none →
      exec (.abort c) s = .next { (State.finishWork { s with
        chains := s.chains.set c aborting, jobs := s.jobs.set c (some { j with abortRequested := true, held := false })
        waiters := s.waiters.set c none } c) with lastResult := accepted 3 c }) ∧
    (∀ b m, j.body = .map b → s.pendingMark = some m →
      let withdrawn : State := { s with
        chains := s.chains.set c aborting, pendingMark := none, waiters := s.waiters.set c none
        jobs := (s.jobs.set c (some { j with abortRequested := true })).map fun o => o.map fun k =>
          { k with held := false } }
      exec (.abort c) s = .next { (State.finishWork
        (((heldTables s).filter fun d => d != c).foldl State.tableResolve withdrawn) c) with lastResult := accepted 3 c })

/-! ## Answers to the Chain Unit's accesses -/

/-- What the part reads from memory, by the formats of chapter 11. The bytes of a little-endian field; the link check: bits 63
to 40 or 4 to 0 not zero are bad, 0 is the end of the chain, any other value is the next record address; the five directory
bytes with their defined encodings; when a record's header is PENDING, when it is sound, and the job context it gives; the size
of its second part; when the guard and the post actions of that part are defined, what they are, and every field of the body of
each kind (11 Tables 11-5 and 11-7 to 11-12, R185 to R187). -/
def Obligations.ReadBytesFollowTheFormats : Prop :=
  (∀ (bytes : List Byte) (offset n k : Nat), (fieldAt bytes offset n).testBit k =
    (decide (k < 8 * n) && ((bytes[offset + k / 8]?).getD 0).getLsbD (k % 8))) ∧
  (∀ bytes : List Byte, (linkField bytes).toNat = fieldAt bytes 0 8) ∧
  (∀ v : Addr64,
    ((v.toNat ≥ 2 ^ 40 ∨ v.toNat % 32 ≠ 0) → linkValue v = .bad) ∧
    (v = 0 → linkValue v = .zero) ∧
    (v ≠ 0 → v.toNat < 2 ^ 40 → v.toNat % 32 = 0 → ∃ a : PhysAddr, linkValue v = .to a ∧ a.toNat = v.toNat)) ∧
  (∀ (bytes : List Byte) (p : Latched), decodeLatched bytes = some p ↔
    fieldAt bytes 8 1 = p.priority.val ∧ fieldAt bytes 9 1 = p.context.val ∧ fieldAt bytes 10 1 = p.wakeFlag.val ∧
    fieldAt bytes 11 1 = (match p.faultFlag with
      | some f => f.val
      | none => 0xFF) ∧
    fieldAt bytes 12 1 = (match p.privilege with
      | .config => 1
      | .data => 2)) ∧
  (∀ bytes : List Byte, (headerIsPending bytes = true ↔ fieldAt bytes 8 1 = 1) ∧
    (headerIsSound bytes = true ↔ 1 ≤ fieldAt bytes 18 1 ∧ fieldAt bytes 18 1 ≤ 7 ∧ fieldAt bytes 20 1 ≤ 4)) ∧
  (∀ (record : PhysAddr) (bytes : List Byte),
    let j := jobOfHeader record bytes
    (∀ kind, j.kind = some kind ↔ fieldAt bytes 18 1 = (match kind with
      | .convert => 1
      | .copy => 2
      | .surface => 3
      | .map => 4
      | .table => 5
      | .coeff => 6
      | .signal => 7)) ∧
    j = {
      kind := j.kind, record := record, tag := BitVec.ofNat 16 (fieldAt bytes 16 2)
      guardPresent := (fieldAt bytes 19 1).testBit 0
      onFault := if (fieldAt bytes 19 1).testBit 1 then .halt else .continue_
      check := if (fieldAt bytes 19 1).testBit 2 then .stop else .report
      actionCount := fieldAt bytes 20 1
      guard := none, actions := [], guardPassed := false, body := .unread, phase := .admitting, admitted := false
      source := none, dest := none, coeff := none, nextLine := 0
      stored := { prefixLen := 0, closed := false, above := [], failed := [], zeroSoFar := true }
      flags := { zero := false, neg := false, sat := false, stray := false, check := false }
      firstFault := none, ended := false, code := none, linesDone := 0, pins := 0, held := false
      abortRequested := false, load := none } ∧
    j.secondPartBytes = j.bodyBytes + (if j.guardPresent then 8 else 0) + 8 * j.actionCount) ∧
  (∀ j : Job, j.bodyBytes = (match j.kind with
    | some .surface => 64
    | some .signal => 0
    | none => 0
    | _ => 32)) ∧
  ∀ (j : Job) (bytes : List Byte),
    let at_ := fun offset => fieldAt bytes (j.bodyBytes + offset) 1
    let action := fun i => (if j.guardPresent then 8 else 0) + 8 * i
    ((j.withSecondPart bytes).isSome = true ↔ j.kind ≠ none ∧
      (j.guardPresent = true → at_ 1 ∈ [0, 1] ∧ at_ 2 ∈ [1, 2] ∧ at_ 3 ∈ [0, 1]) ∧
      ∀ i < j.actionCount, at_ (action i + 1) ∈ [1, 2, 3] ∧ at_ (action i + 2) ∈ [1, 2, 3, 4, 5, 6, 7, 8, 9]) ∧
    ∀ k, j.withSecondPart bytes = some k →
      k = { j with body := k.body, guard := k.guard, actions := k.actions } ∧
      k.guard = (if j.guardPresent then some {
        flag := Fin.ofNat 32 (at_ 0), wanted := at_ 1 == 1
        mode := if at_ 2 = 1 then .wait else .skip, consume := at_ 3 == 1 } else none) ∧
      k.actions = (List.range j.actionCount).map (fun i => {
        flag := Fin.ofNat 32 (at_ (action i))
        op := if at_ (action i + 1) = 1 then .set else if at_ (action i + 1) = 2 then .clear else .toggle
        condition := ([.always, .always, .ok, .fault, .skip, .zero, .neg, .sat, .stray,
          .check][at_ (action i + 2)]?).getD .always }) ∧
      let b8 := fun offset => BitVec.ofNat 8 (fieldAt bytes offset 1)
      let b16 := fun offset => BitVec.ofNat 16 (fieldAt bytes offset 2)
      let b64 := fun offset => BitVec.ofNat 64 (fieldAt bytes offset 8)
      let lines : LineBody := {
        sourceSlot := b8 0, destSlot := b8 1, sourceFirst := b16 2, destFirst := b16 4, lineCount := b16 6 }
      (j.kind = some .convert → k.body = .convert lines {
        transform := b8 8, indexWidth := b8 9, coeffSet := b8 10, widen := b8 11
        fill := BitVec.ofNat 32 (fieldAt bytes 12 4) }) ∧
      (j.kind = some .copy → k.body = .copy lines) ∧
      (j.kind = some .surface → k.body = .surface {
        slot := b8 0, operation := b8 1, laneWidth := b8 2, trailer := b8 3, sampleKind := b8 4, chromaOrder := b8 5
        tableBase := b8 6, tapMapPresent := b8 7, base := b64 8, pitch := BitVec.ofNat 32 (fieldAt bytes 16 4)
        lineCount := b16 20, lanes := b16 22, tapCount := b8 24, rotation := b8 25, pixels := b16 26
        taps := [32, 36, 40, 44, 48, 52, 56, 60].map fun o => {
          origin := b16 o, step := b8 (o + 2), direction := b8 (o + 3) } }) ∧
      (j.kind = some .map → k.body = .map {
        slot := b8 0, operation := b8 1, context := b8 2, shared := b8 3, size := b8 4, readRight := b8 5
        writeRight := b8 6, effectiveBase := b64 8, physicalBase := b64 16 }) ∧
      (j.kind = some .table → k.body = .table { source := b64 0, first := b16 8, count := b16 10 }) ∧
      (j.kind = some .coeff → k.body = .coeff {
        set := b8 0, order := b8 1, k1 := b16 4, k2 := b16 6, k3 := b16 8, k4 := b16 10 }) ∧
      (j.kind = some .signal → k.body = .signal)

/-- A directory entry with an undefined byte, or a failed read, breaks the chain and nothing is latched; one whose five bytes
are defined is latched, and its head is read, or parks the chain, or pauses it where its pause mark is set, or, bad, breaks it.
In an abort the answer is not decoded, and the status entry is written with IDLE. -/
def Obligations.DirectoryReadLatchesAndFollowsHead : Prop :=
  (∀ (c : ChainId) (a : Access) (before after : List Access) (bytes : List Byte) (s : State), s.softReset = false →
    s.hasOutstanding (Access.isFor .directoryRead c) 0 a before after → bytes.length = a.bytes →
    (s.chain c).state = .reading → s.job c = none →
    (decodeLatched bytes = none → ∃ t, exec (.directoryRead c (.data bytes)) s = .next t ∧
      (t.chain c).state = .broken ∧ (t.chain c).breakReason = .directoryRead ∧
      (t.chain c).latched = (s.chain c).latched) ∧
    (∀ p r, decodeLatched bytes = some p → linkValue (linkField bytes) = .to r → (s.chain c).pauseMark = false →
      exec (.directoryRead c (.data bytes)) s = .next { s with
        chains := s.chains.set c { s.chain c with latched := p, inHand := some r, anchor := none, next := none }
        accesses := before ++ after ++ [readAccess .headerRead c r 32] }) ∧
    (∀ p r, decodeLatched bytes = some p → linkValue (linkField bytes) = .to r → (s.chain c).pauseMark = true →
      exec (.directoryRead c (.data bytes)) s = .next { s with
        chains := s.chains.set c { s.chain c with
          state := .paused, latched := p, resume := some .readNext, pauseMark := false
          inHand := none, anchor := none, next := some r }
        accesses := before ++ after }) ∧
    (∀ p, decodeLatched bytes = some p → linkValue (linkField bytes) = .zero → (s.chain c).pauseMark = false →
      exec (.directoryRead c (.data bytes)) s = .next { s with
        chains := s.chains.set c { s.chain c with
          state := .parked, latched := p, inHand := none, anchor := some .directory }
        accesses := before ++ after ++ [writeAccess (.statusWrite .park) c (s.statusAddress c)
          (statusBytes .parked (s.chain c).breakReason (s.chain c).lastCode (s.chain c).retireCount 0
            (s.chain c).lastTag)] }) ∧
    (∀ p, decodeLatched bytes = some p → linkValue (linkField bytes) = .zero → (s.chain c).pauseMark = true →
      exec (.directoryRead c (.data bytes)) s = .next { s with
        chains := s.chains.set c { s.chain c with
          state := .paused, latched := p, resume := some .park, pauseMark := false
          inHand := none, anchor := some .directory }
        accesses := before ++ after }) ∧
    (∀ p, decodeLatched bytes = some p → linkValue (linkField bytes) = .bad →
      exec (.directoryRead c (.data bytes)) s = .next (State.breakChain { s with
        chains := s.chains.set c { s.chain c with latched := p }, accesses := before ++ after } c .badLink 0)) ∧
    exec (.directoryRead c .error) s = .next
      (State.breakChain { s with accesses := before ++ after } c .directoryRead 0)) ∧
  (∀ (c : ChainId) (a : Access) (before after : List Access) (answer : ReadAnswer) (s : State), s.softReset = false →
    s.hasOutstanding (Access.isFor .directoryRead c) 0 a before after → answer.hasLength a.bytes = true →
    (s.chain c).state = .aborting →
    exec (.directoryRead c answer) s = .next { s with
      accesses := before ++ after ++ [statusAccess s c .abortEnd .idle 0] })

/-- A break: the chain is BROKEN with its reason, holds no record, the error summary is reported to, the status entry is
written with the fixed address, and the chain's job is dropped: whatever its job, with all that its drop sets going at the gates
and at a pending replacement (PendingReplacementAndGates); and written out for a chain with no job, or whose job has no place at
a gate, with no replacement pending. -/
def Obligations.BreakReportsAndWritesStatus : Prop :=
  (∀ (c : ChainId) (reason : BreakReason) (address : Nat) (s : State),
    let broken : Chain := { s.chain c with
      state := .broken, breakReason := reason, inHand := none, anchor := none, next := none, resume := none
      pauseMark := false }
    let dropped := State.dropJob { s with chains := s.chains.set c broken } c
    dropped.chain c = broken ∧ dropped.job c = none ∧ dropped.errors = s.errors ∧
    s.breakChain c reason address = { dropped with
      errors := s.errors.report reason.errorKind c
      accesses := dropped.accesses ++ [writeAccess (.statusWrite (.breakTail (s.chain c).latched.faultFlag)) c
        (s.statusAddress c)
        (statusBytes .broken reason (s.chain c).lastCode (s.chain c).retireCount address (s.chain c).lastTag)] }) ∧
  ∀ (c : ChainId) (reason : BreakReason) (address : Nat) (s : State),
    (s.job c = none ∨ (s.pendingMark = none ∧ s.tableGate.has c = false ∧ s.replGate.has c = false)) →
    s.breakChain c reason address = { s with
      chains := s.chains.set c { s.chain c with
        state := .broken, breakReason := reason, inHand := none, anchor := none, next := none, resume := none
        pauseMark := false }
      jobs := s.jobs.set c none
      errors := s.errors.report reason.errorKind c
      accesses := s.accesses ++ [writeAccess (.statusWrite (.breakTail (s.chain c).latched.faultFlag)) c
        (s.statusAddress c)
        (statusBytes .broken reason (s.chain c).lastCode (s.chain c).retireCount address (s.chain c).lastTag)] }

/-- The header read: a failed one breaks the chain; a record that is not PENDING breaks the chain and sets the last completion
code to BAD_RECORD; a PENDING record with an undefined kind or too many actions gives a job that ends BAD_RECORD, with its
second part unread; a sound one with a second part has it read, at 32 bytes into the record (past the top of physical memory:
log 7), and one with none goes on to admission, or pauses at GUARD. In an abort, a PENDING record is retired ABORTED, and any
other leaves the record unwritten. What the bytes of a header say: ReadBytesFollowTheFormats. The ended mark stays set as a
retire begins (log 27). -/
def Obligations.RecordHeaderReadChecks : Prop :=
  (∀ (c : ChainId) (record : PhysAddr) (a : Access) (before after : List Access) (bytes : List Byte) (s : State),
    s.softReset = false → s.hasOutstanding (Access.isFor .headerRead c) 0 a before after → bytes.length = a.bytes →
    (s.chain c).state = .reading → (s.chain c).inHand = some record → s.job c = none →
    (headerIsPending bytes = false → exec (.recordHeaderRead c (.data bytes)) s = .next
      (State.breakChain { s with
        chains := s.chains.set c { s.chain c with lastCode := .badRecord }
        accesses := before ++ after } c .recordRead record.toNat)) ∧
    exec (.recordHeaderRead c .error) s = .next
      (State.breakChain { s with accesses := before ++ after } c .recordRead record.toNat) ∧
    (headerIsPending bytes = true → headerIsSound bytes = false → exec (.recordHeaderRead c (.data bytes)) s = .next
      (State.endUnadmitted { s with
        jobs := s.jobs.set c (some (jobOfHeader record bytes)), accesses := before ++ after } c .badRecord)) ∧
    (headerIsPending bytes = true → headerIsSound bytes = true → (jobOfHeader record bytes).secondPartBytes = 0 →
      let k : Job := { jobOfHeader record bytes with body := .signal }
      ((s.chain c).pauseMark = false → exec (.recordHeaderRead c (.data bytes)) s = .next (State.admitJob { s with
        chains := s.chains.set c { s.chain c with state := .waiting }
        jobs := s.jobs.set c (some k), accesses := before ++ after } c)) ∧
      ((s.chain c).pauseMark = true → exec (.recordHeaderRead c (.data bytes)) s = .next { s with
        chains := s.chains.set c { s.chain c with state := .paused, resume := some .guard, pauseMark := false }
        jobs := s.jobs.set c (some k), accesses := before ++ after })) ∧
    (headerIsPending bytes = true → headerIsSound bytes = false → (byteAt bytes 19).getLsbD 1 = false →
      (s.chain c).pauseMark = false →
      exec (.recordHeaderRead c (.data bytes)) s = .next { s with
        chains := s.chains.set c { s.chain c with state := .active, resume := none, pauseMark := false }
        jobs := s.jobs.set c (some { jobOfHeader record bytes with
          phase := .reporting, ended := true, code := some .badRecord, firstFault := some .badRecord })
        accesses := before ++ after ++ [readAccess .linkReRead c record 8] }) ∧
    (headerIsPending bytes = true → headerIsSound bytes = true → (jobOfHeader record bytes).secondPartBytes ≠ 0 →
      exec (.recordHeaderRead c (.data bytes)) s = .next { s with
        jobs := s.jobs.set c (some (jobOfHeader record bytes))
        accesses := before ++ after ++ [{
          kind := .secondPartRead, chain := c, line := none, cells := []
          ranges := recordRanges record 32 (jobOfHeader record bytes).secondPartBytes }] })) ∧
  (∀ (c : ChainId) (record : PhysAddr) (a : Access) (before after : List Access) (bytes : List Byte) (s : State),
    s.softReset = false → s.hasOutstanding (Access.isFor .headerRead c) 0 a before after → bytes.length = a.bytes →
    (s.chain c).state = .aborting → (s.chain c).inHand = some record →
    (headerIsPending bytes = true → exec (.recordHeaderRead c (.data bytes)) s = .next { s with
      jobs := s.jobs.set c (some { jobOfHeader record bytes with
        phase := .reporting, ended := true, code := some .aborted, abortRequested := true })
      accesses := before ++ after ++ [writeAccess (.outcomeWrite .doneFree true) c (record + 8)
        (outcomeBytes .doneFree .aborted .none 0)] }) ∧
    (headerIsPending bytes = false → exec (.recordHeaderRead c (.data bytes)) s = .next { s with
      accesses := before ++ after ++ [statusAccess s c .abortEnd .idle 0] }) ∧
    exec (.recordHeaderRead c .error) s = .next
      (State.breakChain { s with accesses := before ++ after } c .recordRead record.toNat)) ∧
  (∀ (record : PhysAddr) (offset n : Nat), record.toNat + offset + n ≤ 2 ^ 40 →
    recordRanges record offset n = [{ start := record + BitVec.ofNat 40 offset, bytes := n }])

/-- The second part of a record: a failed read breaks the chain; an undefined guard or action ends the job BAD_RECORD; a sound
one makes its guard step in WAITING, and with no guard goes on to admission; with the pause mark set the chain is PAUSED at
GUARD. In an abort it is not checked, and the record is retired ABORTED. What the bytes of the guard, the actions and the body
say: ReadBytesFollowTheFormats. The ended mark stays set as a retire begins (log 27). -/
def Obligations.SecondPartGoesOnToAdmission : Prop :=
  ∀ (c : ChainId) (j : Job) (a : Access) (before after : List Access) (bytes : List Byte) (s : State),
    s.softReset = false → s.hasOutstanding (Access.isFor .secondPartRead c) 0 a before after → bytes.length = a.bytes →
    s.job c = some j →
    ((s.chain c).state = .reading → j.withSecondPart bytes = none → (s.chain c).pauseMark = false →
      j.onFault = .continue_ →
      exec (.recordSecondPartRead c (.data bytes)) s = .next { s with
        chains := s.chains.set c { s.chain c with state := .active, resume := none, pauseMark := false }
        jobs := s.jobs.set c (some { j with
          phase := .reporting, ended := true, code := some .badRecord, linesDone := 0, flags := .none
          firstFault := some .badRecord })
        accesses := before ++ after ++ [readAccess .linkReRead c j.record 8] }) ∧
    ((s.chain c).state = .reading → j.withSecondPart bytes = none →
      exec (.recordSecondPartRead c (.data bytes)) s = .next
        (State.endUnadmitted { s with accesses := before ++ after } c .badRecord)) ∧
    (∀ k, (s.chain c).state = .reading → j.withSecondPart bytes = some k → (s.chain c).pauseMark = false →
      let held : State := { s with
        chains := s.chains.set c { s.chain c with state := .waiting }
        jobs := s.jobs.set c (some k), accesses := before ++ after }
      exec (.recordSecondPartRead c (.data bytes)) s = .next (held.guardStep c) ∧
      (k.guard = none → exec (.recordSecondPartRead c (.data bytes)) s = .next (held.admitJob c))) ∧
    (∀ k, (s.chain c).state = .reading → j.withSecondPart bytes = some k → (s.chain c).pauseMark = true →
      exec (.recordSecondPartRead c (.data bytes)) s = .next { s with
        chains := s.chains.set c { s.chain c with state := .paused, resume := some .guard, pauseMark := false }
        jobs := s.jobs.set c (some k), accesses := before ++ after }) ∧
    ((s.chain c).state = .aborting → exec (.recordSecondPartRead c (.data bytes)) s = .next { s with
      jobs := s.jobs.set c (some { j with
        phase := .reporting, ended := true, code := some .aborted, linesDone := 0, flags := .none })
      accesses := before ++ after ++ [writeAccess (.outcomeWrite .doneFree true) c (j.record + 8)
        (outcomeBytes .doneFree .aborted .none 0)] }) ∧
    (∀ record, (s.chain c).inHand = some record → exec (.recordSecondPartRead c .error) s = .next
      (State.breakChain { s with accesses := before ++ after } c .recordRead record.toNat))

/-- A WAIT guard that its flag does not satisfy is registered; a SKIP guard that its flag does not satisfy retires the job
SKIPPED; a guard that its flag satisfies goes on to admission with the guard-passed mark, and one that consumes takes the flag
back, whatever waiters that change serves; a job with no guard, or whose guard has passed, goes on to admission.
Admission: a job that its chain's privilege forbids ends NOT_PERMITTED; one whose checks fail ends with their code; one whose
claim its gate has granted, or grants at once, or that claims none, is admitted with its snapshots, and a SIGNAL job's work
then ends and a TABLE job resolves its source; any other waits at its gate, its snapshots discarded. Which kinds a DATA chain may run, which gate each kind claims, and when a gate has granted a claim. The checks of each
kind, in their order; that a CONVERT's SHAPE encodings come before its RANGE fields is the model's choice (log 24), as is that a
job which faults in them keeps no snapshot (log 28). -/
def Obligations.GuardStepAndAdmission : Prop :=
  (∀ (c : ChainId) (j : Job) (g : Guard) (s : State), s.job c = some j → j.guard = some g → j.guardPassed = false →
    (g.mode = .wait → s.flags.getLsbD g.flag ≠ g.wanted → s.guardStep c = { s with
      waiters := s.waiters.set c
        (some { flag := g.flag, wanted := g.wanted, consuming := g.consume, kind := .guard }) }) ∧
    (g.mode = .skip → s.flags.getLsbD g.flag ≠ g.wanted → s.guardStep c = s.endUnadmitted c .skipped) ∧
    (s.flags.getLsbD g.flag = g.wanted → g.consume = false → s.guardStep c =
      State.admitJob { s with jobs := s.jobs.set c (some { j with guardPassed := true }) } c) ∧
    (s.flags.getLsbD g.flag = g.wanted → g.consume = true → (∀ d w, s.waiter d = some w → w.flag ≠ g.flag) →
      s.guardStep c = State.admitJob { s with
        flags := if g.wanted then s.flags &&& ~~~BitVec.twoPow 32 g.flag else s.flags ||| BitVec.twoPow 32 g.flag
        jobs := s.jobs.set c (some { j with guardPassed := true }) } c) ∧
    (g.mode = .wait → s.guardStep c = s.flagArrival (FlagFile.register s.level c
      { flag := g.flag, wanted := g.wanted, consuming := g.consume, kind := .guard }) []) ∧
    (g.mode = .skip → s.flags.getLsbD g.flag = g.wanted → g.consume = true →
      s.guardStep c = s.flagArrival (FlagFile.change s.level g.flag (!g.wanted)) [.passed c])) ∧
  (∀ (c : ChainId) (j : Job) (s : State), s.job c = some j → (j.guard = none ∨ j.guardPassed = true) →
    s.guardStep c = s.admitJob c) ∧
  (∀ (c : ChainId) (j : Job) (s : State), s.job c = some j →
    ((s.chain c).latched.privilege = .data → j.dataMayRun = false → s.admitJob c = s.endUnadmitted c .notPermitted) ∧
    (((s.chain c).latched.privilege = .config ∨ j.dataMayRun = true) →
      (∀ code, s.admissionChecks j = .error code → s.admitJob c = s.endUnadmitted c code) ∧
      (∀ k, s.admissionChecks j = .ok k →
        (∀ u v : State, ((s.gateGranted c k.gateClaim = true ∧ u = s) ∨
            (s.gateGranted c k.gateClaim = false ∧ s.claim c k.gateClaim = some u)) →
          v = { u with
            chains := s.chains.set c { s.chain c with state := .active }
            jobs := s.jobs.set c (some { k with
              phase := .running, admitted := true, nextLine := 0, stored := .empty, flags := .none
              firstFault := none }) } →
          (k.body = .signal → s.admitJob c = v.finishWork c) ∧
          (∀ b, k.body = .table b → s.admitJob c = v.tableResolve c) ∧
          (k.body ≠ .signal → (∀ b, k.body ≠ .table b) → s.admitJob c = v)) ∧
        (s.gateGranted c k.gateClaim = false → s.claim c k.gateClaim = none →
          s.admitJob c = { s with
            chains := s.chains.set c { s.chain c with state := .waiting }
            jobs := s.jobs.set c (some { k with phase := .admitting, source := none, dest := none, coeff := none })
            tableGate := if k.gateClaim = .replacement then s.tableGate else { s.tableGate with
              waiting := s.tableGate.waiting.set c (some (if k.gateClaim = .table then .table else .lookup)) }
            replGate := if k.gateClaim = .replacement then
              { s.replGate with waiting := s.replGate.waiting.set c true } else s.replGate })))) ∧
  (∀ j : Job,
    (j.dataMayRun = true ↔ j.kind = some .convert ∨ j.kind = some .copy ∨ j.kind = some .signal) ∧
    (∀ b, j.body = .table b → j.gateClaim = .table) ∧ (∀ b, j.body = .map b → j.gateClaim = .replacement) ∧
    (∀ b t, j.body = .convert b t → j.gateClaim = if t.transform = 2 then .lookup else .none) ∧
    ((∃ b, j.body = .copy b) ∨ (∃ b, j.body = .surface b) ∨ (∃ b, j.body = .coeff b) ∨ j.body = .signal →
      j.gateClaim = .none)) ∧
  (∀ (c : ChainId) (s : State), s.gateGranted c .none = true ∧
    (s.gateGranted c .table = true ↔ s.tableGate.holder = some c) ∧
    s.gateGranted c .lookup = s.tableGate.users[c] ∧
    (s.gateGranted c .replacement = true ↔ s.replGate.holder = some c) ∧ s.claim c .none = some s) ∧
  (∀ (j : Job) (b : LineBody) (s : State), ((∃ t, j.body = .convert b t) ∨ j.body = .copy b) →
    (16 ≤ b.sourceSlot.toNat ∨ 16 ≤ b.destSlot.toNat → s.admissionChecks j = .error .noSurface) ∧
    (∀ i k : Fin 16, b.sourceSlot.toNat = i.val → b.destSlot.toNat = k.val →
      s.surfaces[i] = none ∨ s.surfaces[k] = none → s.admissionChecks j = .error .noSurface)) ∧
  (∀ (j : Job) (b : LineBody) (i k : Fin 16) (source dest : Surface) (s : State),
    b.sourceSlot.toNat = i.val → b.destSlot.toNat = k.val → s.surfaces[i] = some source → s.surfaces[k] = some dest →
    (∀ t, j.body = .convert b t → s.admissionChecks j =
      (if t.transform.toNat ∉ [1, 2, 3] ∨ t.widen.toNat ∉ [1, 2, 3] then .error .shape
        else if (t.transform = 2 ∧ (t.indexWidth = 0 ∨ 10 < t.indexWidth.toNat)) ∨
          (t.transform = 3 ∧ 3 < t.coeffSet.toNat) then .error .range
        else if b.lineCount = 0 ∨ source.lineCount < b.sourceFirst.toNat + b.lineCount.toNat ∨
          dest.lineCount < b.destFirst.toNat + b.lineCount.toNat then .error .range
        else if dest.laneWidth ∉ [8, 16, 32] ∨ ¬ (source.sampleKind = .paired ↔ t.transform = 3) ∨
          dest.lanes ≠ (match source.tapMap with
            | some m => m.pixels
            | none => source.lanes) * (if t.transform = 3 then 3 else 1) then .error .shape
        else .ok { j with
          source := some source, dest := some dest
          coeff := if t.transform = 3 then s.coeffs[t.coeffSet.toNat]? else none })) ∧
    (j.body = .copy b → s.admissionChecks j =
      (if b.lineCount = 0 ∨ source.lineCount < b.sourceFirst.toNat + b.lineCount.toNat ∨
          dest.lineCount < b.destFirst.toNat + b.lineCount.toNat then .error .range
        else if source.payload ≠ dest.payload then .error .shape
        else .ok { j with source := some source, dest := some dest }))) ∧
  (∀ (j : Job) (s : State),
    (∀ b, j.body = .table b → s.admissionChecks j =
      (if 1023 < b.first.toNat ∨ b.count = 0 ∨ 1024 < b.count.toNat ∨ 1024 < b.first.toNat + b.count.toNat then
        .error .range else .ok j)) ∧
    (∀ b, j.body = .map b → s.admissionChecks j = (if (mapEffect b).isSome then .ok j else .error .badEntry)) ∧
    ((∃ b, j.body = .surface b) ∨ (∃ b, j.body = .coeff b) ∨ j.body = .signal → s.admissionChecks j = .ok j))

/-- The end of a job's work: the code is the first fault, else ABORTED under an abort, else OK; lines done is the prefix of a
line job, the entries loaded by a TABLE job, and else 0; ZERO is set for a line job that stored a line at the prefix, and there
only samples of 0; the other result flags stay. An ACTIVE chain begins the
retire by re-reading the link, or, for a fault under HALT, by the outcome write DONE_HELD, as a PAUSED chain then does too;
without such a fault a PAUSED chain keeps READ_NEXT; an ABORTING chain writes the outcome DONE_FREE. A job retired without
admission ends with its code, lines done 0 and no result flags, and its retire begins in the same way, or, with the chain's
pause mark set, waits with READ_NEXT. That a fault under HALT retires at once, its chain ACTIVE with pause mark and resume
point dropped as the retire begins, also where no admitted job runs and the chain is PAUSED, or where the pause mark is set, is the
model's choice (log 6); and so is that the ended mark stays set as the retire begins (log 27). -/
def Obligations.EndOfWorkBeginsRetire : Prop :=
  ∀ (c : ChainId) (j : Job) (s : State), s.job c = some j →
    j.finish.ended = true ∧
    j.finish.linesDone = (match j.kind, j.load with
      | some .convert, _ => j.stored.prefixLen
      | some .copy, _ => j.stored.prefixLen
      | some .table, some load => load.entriesLoaded
      | _, _ => 0) ∧
    j.finish.flags = { j.flags with
      zero := decide ((j.kind = some .convert ∨ j.kind = some .copy) ∧ 1 ≤ j.stored.prefixLen ∧
        j.stored.zeroSoFar = true) } ∧
    j.finish.code = some (match j.firstFault with
      | some code => code
      | none => if j.abortRequested then .aborted else .ok) ∧
    ((s.chain c).state = .active → (s.chain c).pauseMark = false → j.finish.haltsChain = false →
      s.finishWork c = { s with
        chains := s.chains.set c { s.chain c with state := .active, resume := none, pauseMark := false }
        jobs := s.jobs.set c (some { j.finish with phase := .reporting })
        accesses := s.accesses ++ [readAccess .linkReRead c j.record 8] }) ∧
    (j.finish.haltsChain = true ↔ j.onFault = .halt ∧
      ∃ code, j.firstFault = some code ∧ code ∉ [Code.ok, .skipped, .aborted]) ∧
    (((s.chain c).state = .active ∨ (s.chain c).state = .paused) → j.finish.haltsChain = true →
      s.finishWork c = { s with
        chains := s.chains.set c { s.chain c with state := .active, resume := none, pauseMark := false }
        jobs := s.jobs.set c (some { j.finish with phase := .reporting })
        accesses := s.accesses ++ [writeAccess (.outcomeWrite .doneHeld false) c (j.record + 8)
          (outcomeBytes .doneHeld (j.finish.code.getD .ok) j.finish.flags j.finish.linesDone)] }) ∧
    (((s.chain c).state = .paused ∨ ((s.chain c).state = .active ∧ (s.chain c).pauseMark = true)) →
      j.finish.haltsChain = false →
      s.finishWork c = { s with
        chains := s.chains.set c { s.chain c with state := .paused, resume := some .readNext, pauseMark := false }
        jobs := s.jobs.set c (some j.finish) }) ∧
    ((s.chain c).state = .aborting →
      s.finishWork c = { s with
        jobs := s.jobs.set c (some { j.finish with phase := .reporting })
        accesses := s.accesses ++ [writeAccess (.outcomeWrite .doneFree true) c (j.record + 8)
          (outcomeBytes .doneFree (j.finish.code.getD .ok) j.finish.flags j.finish.linesDone)] }) ∧
    ∀ code, code ≠ .aborted →
      let k : Job := { j with
        ended := true, code := some code, linesDone := 0, flags := .none
        firstFault := if code = .ok ∨ code = .skipped then j.firstFault else some code }
      let halts := code ≠ .ok ∧ code ≠ .skipped ∧ j.onFault = .halt
      ((s.chain c).state ≠ .aborting → halts → s.endUnadmitted c code = { s with
        chains := s.chains.set c { s.chain c with state := .active, resume := none, pauseMark := false }
        jobs := s.jobs.set c (some { k with phase := .reporting })
        accesses := s.accesses ++ [writeAccess (.outcomeWrite .doneHeld false) c (j.record + 8)
          (outcomeBytes .doneHeld code .none 0)] }) ∧
      ((s.chain c).state ≠ .aborting → (s.chain c).state ≠ .paused → (s.chain c).pauseMark = false → ¬ halts →
        s.endUnadmitted c code = { s with
          chains := s.chains.set c { s.chain c with state := .active, resume := none, pauseMark := false }
          jobs := s.jobs.set c (some { k with phase := .reporting })
          accesses := s.accesses ++ [readAccess .linkReRead c j.record 8] }) ∧
      ((s.chain c).state ≠ .aborting → ((s.chain c).state = .paused ∨ (s.chain c).pauseMark = true) → ¬ halts →
        s.endUnadmitted c code = { s with
          chains := s.chains.set c { s.chain c with state := .paused, resume := some .readNext, pauseMark := false }
          jobs := s.jobs.set c (some k) })

/-- The link re-read of a retire: 0 makes the outcome DONE_HELD, another good link DONE_FREE, and a bad one or a failed read
breaks the chain with no outcome written. In an abort its value is not taken, and the outcome is DONE_FREE. -/
def Obligations.LinkReReadDecidesOutcomeState : Prop :=
  ∀ (c : ChainId) (j : Job) (record : PhysAddr) (a : Access) (before after : List Access) (bytes : List Byte) (s : State),
    s.softReset = false → s.hasOutstanding (Access.isFor .linkReRead c) 0 a before after → bytes.length = a.bytes →
    s.job c = some j → (s.chain c).inHand = some record →
    exec (.linkReRead c .error) s = .next
      (State.breakChain { s with accesses := before ++ after } c .recordRead record.toNat) ∧
    ((s.chain c).state = .aborting → exec (.linkReRead c (.data bytes)) s = .next { s with
      jobs := s.jobs.set c (some { j with phase := .reporting })
      accesses := before ++ after ++ [writeAccess (.outcomeWrite .doneFree true) c (j.record + 8)
        (outcomeBytes .doneFree (j.code.getD .ok) j.flags j.linesDone)] }) ∧
    ((s.chain c).state = .active → linkValue (linkField bytes) = .zero → exec (.linkReRead c (.data bytes)) s = .next { s with
      jobs := s.jobs.set c (some { j with phase := .reporting })
      accesses := before ++ after ++ [writeAccess (.outcomeWrite .doneHeld false) c (j.record + 8)
        (outcomeBytes .doneHeld (j.code.getD .ok) j.flags j.linesDone)] }) ∧
    (∀ r, (s.chain c).state = .active → linkValue (linkField bytes) = .to r → exec (.linkReRead c (.data bytes)) s = .next { s with
      chains := s.chains.set c { s.chain c with next := some r }
      jobs := s.jobs.set c (some { j with phase := .reporting })
      accesses := before ++ after ++ [writeAccess (.outcomeWrite .doneFree false) c (j.record + 8)
        (outcomeBytes .doneFree (j.code.getD .ok) j.flags j.linesDone)] }) ∧
    ((s.chain c).state = .active → linkValue (linkField bytes) = .bad → exec (.linkReRead c (.data bytes)) s = .next
      (State.breakChain { s with accesses := before ++ after } c .badLink record.toNat))

/-- The bytes of an outcome write and of a status write (11 Tables 11-3, 11-5), field by field; and the numbers of the outcome
states, chain states, break reasons and completion codes (01 Table 1-2, 11 Tables 11-3, 11-5, 11-6), of the error kinds and of
the results and reasons of the last result (10 Table 10-2). -/
def Obligations.WrittenBytesFollowTheFormats : Prop :=
  (∀ (o : OutcomeState) (code : Code) (r : ResultFlags) (n : Nat), n < 2 ^ 32 →
    (outcomeBytes o code r n).length = 8 ∧ fieldAt (outcomeBytes o code r n) 0 1 = o.value ∧
    fieldAt (outcomeBytes o code r n) 1 1 = code.value ∧ fieldAt (outcomeBytes o code r n) 2 1 =
      r.zero.toNat + 2 * r.neg.toNat + 4 * r.sat.toNat + 8 * r.stray.toNat + 16 * r.check.toNat ∧
    fieldAt (outcomeBytes o code r n) 3 1 = 0 ∧ fieldAt (outcomeBytes o code r n) 4 4 = n) ∧
  (∀ (x : ChainState) (e : BreakReason) (code : Code) (count : BitVec 32) (address : Nat) (tag : BitVec 16),
    address < 2 ^ 40 →
    (statusBytes x e code count address tag).length = 32 ∧ fieldAt (statusBytes x e code count address tag) 0 1 = x.code ∧
    fieldAt (statusBytes x e code count address tag) 1 1 = e.code ∧
    fieldAt (statusBytes x e code count address tag) 2 1 = code.value ∧
    fieldAt (statusBytes x e code count address tag) 3 1 = 0 ∧
    fieldAt (statusBytes x e code count address tag) 4 4 = count.toNat ∧
    fieldAt (statusBytes x e code count address tag) 8 8 = address ∧
    fieldAt (statusBytes x e code count address tag) 16 2 = tag.toNat ∧
    fieldAt (statusBytes x e code count address tag) 18 14 = 0) ∧
  [OutcomeState.pending, .doneHeld, .doneFree].map OutcomeState.value = [0x01, 0x02, 0x03] ∧
  [ChainState.idle, .reading, .waiting, .active, .parked, .paused, .halted, .broken, .aborting].map ChainState.code =
    [0, 1, 2, 3, 4, 5, 6, 7, 8] ∧
  [BreakReason.none, .directoryRead, .recordRead, .badLink, .outcomeWrite, .releaseWrite].map BreakReason.code =
    [0, 1, 2, 3, 4, 5] ∧
  [Code.ok, .skipped, .aborted, .badRecord, .notPermitted, .noSurface, .badSurface, .range, .shape, .badEntry, .address,
    .miss, .readDenied, .writeDenied, .busRead, .busWrite, .checkFail].map Code.value =
    [0x00, 0x01, 0x02, 0x03, 0x04, 0x05, 0x06, 0x07, 0x08, 0x09, 0x0A, 0x0B, 0x0C, 0x0D, 0x0E, 0x0F, 0x10] ∧
  [ErrorKind.none, .directoryRead, .recordRead, .badLink, .outcomeWrite, .releaseWrite, .statusWrite].map ErrorKind.code =
    [0, 1, 2, 3, 4, 5, 6] ∧
  [Result.none, .accepted, .refused].map Result.code = [0, 1, 2] ∧
  [Reason.none, .busy, .notRunning, .notPaused, .resetting].map Reason.code = [0, 1, 2, 3, 4]

/-- The re-read of an anchor: 0 parks the chain again on the same anchor, or pauses it at PARK where its pause mark is set; a
good link releases a record anchor, whatever the pause mark, and from the directory is read at once, or pauses the chain at
READ_NEXT; a bad link breaks the chain with BAD_LINK; a failed read breaks it with RECORD_READ, or DIRECTORY_READ for the
head. In an abort a record anchor is released whatever its link holds, and the head is not decoded. -/
def Obligations.AnchorLinkReReadParksOrReleases : Prop :=
  ∀ (c : ChainId) (a : Access) (before after : List Access) (s : State),
    s.softReset = false → s.hasOutstanding (Access.isAnchorReReadFor c) 0 a before after →
    let x := s.chain c
    let taken : State := { s with accesses := before ++ after }
    (∀ anchor bytes, x.state = .reading → x.anchor = some (.record anchor) → bytes.length = a.bytes →
      (linkValue (linkField bytes) = .zero → x.pauseMark = false →
        exec (.anchorLinkReRead c (.data bytes)) s = .next { s with
          chains := s.chains.set c { x with state := .parked, inHand := none }
          accesses := before ++ after ++ [statusAccess s c .park .parked anchor.toNat] }) ∧
      (linkValue (linkField bytes) = .zero → x.pauseMark = true →
        exec (.anchorLinkReRead c (.data bytes)) s = .next { taken with
          chains := s.chains.set c { x with
            state := .paused, resume := some .park, pauseMark := false, inHand := none } }) ∧
      (∀ r, linkValue (linkField bytes) = .to r → exec (.anchorLinkReRead c (.data bytes)) s = .next { s with
        chains := s.chains.set c { x with next := some r, anchor := none }
        accesses := before ++ after ++ [writeAccess (.releaseWrite .readNext anchor) c (anchor + 8) [0x03]] }) ∧
      (linkValue (linkField bytes) = .bad →
        exec (.anchorLinkReRead c (.data bytes)) s = .next (taken.breakChain c .badLink anchor.toNat))) ∧
    (∀ anchor, x.anchor = some (.record anchor) →
      exec (.anchorLinkReRead c .error) s = .next (taken.breakChain c .recordRead anchor.toNat)) ∧
    (∀ bytes, x.state = .reading → x.anchor = some .directory → bytes.length = a.bytes →
      (linkValue (linkField bytes) = .zero → x.pauseMark = false →
        exec (.anchorLinkReRead c (.data bytes)) s = .next { s with
          chains := s.chains.set c { x with state := .parked, inHand := none }
          accesses := before ++ after ++ [statusAccess s c .park .parked 0] }) ∧
      (linkValue (linkField bytes) = .zero → x.pauseMark = true →
        exec (.anchorLinkReRead c (.data bytes)) s = .next { taken with
          chains := s.chains.set c { x with
            state := .paused, resume := some .park, pauseMark := false, inHand := none } }) ∧
      (∀ r, linkValue (linkField bytes) = .to r → x.pauseMark = false →
        exec (.anchorLinkReRead c (.data bytes)) s = .next { s with
          chains := s.chains.set c { x with inHand := some r, anchor := none, next := none }
          accesses := before ++ after ++ [readAccess .headerRead c r 32] }) ∧
      (∀ r, linkValue (linkField bytes) = .to r → x.pauseMark = true →
        exec (.anchorLinkReRead c (.data bytes)) s = .next { taken with
          chains := s.chains.set c { x with
            state := .paused, resume := some .readNext, pauseMark := false, inHand := none, anchor := none
            next := some r } }) ∧
      (linkValue (linkField bytes) = .bad →
        exec (.anchorLinkReRead c (.data bytes)) s = .next (taken.breakChain c .badLink 0))) ∧
    (x.state = .reading → x.anchor = some .directory →
      exec (.anchorLinkReRead c .error) s = .next (taken.breakChain c .directoryRead 0)) ∧
    (∀ anchor bytes, x.state = .aborting → x.anchor = some (.record anchor) → bytes.length = a.bytes →
      exec (.anchorLinkReRead c (.data bytes)) s = .next { s with
        chains := s.chains.set c { x with anchor := none }
        accesses := before ++ after ++ [writeAccess (.releaseWrite .abortEnd anchor) c (anchor + 8) [0x03]] }) ∧
    (∀ answer : ReadAnswer, x.state = .aborting → x.anchor = some .directory → answer.hasLength a.bytes = true →
      exec (.anchorLinkReRead c answer) s = .next { s with
        accesses := before ++ after ++ [statusAccess s c .abortEnd .idle 0] })

/-- The acknowledged outcome write: its bytes are in memory, the retire count, the last completion code and the last tag are
set, and the status entry is written, with the state the retire ends in, or with IDLE in an abort. An error leaves memory as
it was, the record PENDING, and breaks the chain (that bytes change at the answer is the model's choice, log 4). A retire that an ABORT finds under way writes the state ABORTING; and which
record's address a status write names. -/
def Obligations.OutcomeWriteCountsAndWritesStatus : Prop :=
  (∀ (c : ChainId) (j : Job) (record : PhysAddr) (o : OutcomeState) (byAbort : Bool) (a : Access)
      (before after : List Access) (s : State),
    s.softReset = false → s.hasOutstanding (Access.isOutcomeFor c) 0 a before after →
    a.kind = .outcomeWrite o byAbort → s.job c = some j → (s.chain c).inHand = some record → a.ranges ≠ [] →
    (exec (.outcomeWrite c .acknowledged) s = .next { s with
      memory := Memory.writeAll s.memory a.cells
      chains := s.chains.set c { s.chain c with
        retireCount := (s.chain c).retireCount + 1, lastCode := j.code.getD .ok, lastTag := j.tag }
      accesses := before.map (Access.without (a.cells.map (·.1))) ++ after ++
        [writeAccess (.statusWrite (if byAbort then .abortEnd else .retire o)) c (s.statusAddress c)
          (statusBytes (if byAbort then .idle else s.retireStateCode c o) (s.chain c).breakReason (j.code.getD .ok)
            ((s.chain c).retireCount + 1)
            (if byAbort then 0 else (s.chain c).currentAddress (o == .doneFree)) j.tag)] }) ∧
    (∀ landed, exec (.outcomeWrite c (.error landed)) s = .next
      (State.breakChain { s with accesses := before ++ after } c .outcomeWrite record.toNat))) ∧
  (∀ (c : ChainId) (o : OutcomeState) (s : State), (s.chain c).state = .aborting → s.retireStateCode c o = .aborting) ∧
  (∀ (x : Chain) (afterFree : Bool),
    (∀ a, afterFree = true → x.next = some a → x.currentAddress afterFree = a.toNat) ∧
    ((afterFree = false ∨ x.next = none) →
      (∀ a, x.inHand = some a → x.currentAddress afterFree = a.toNat) ∧
      (∀ a, x.inHand = none → x.anchor = some (.record a) → x.currentAddress afterFree = a.toNat) ∧
      (x.inHand = none → (x.anchor = some .directory ∨ x.anchor = none) → x.currentAddress afterFree = 0)))

/-- 01 R23 whole: the state code of the status write at the end of a retire, and the pause mark of a retire under HALT. -/
def Obligations.RetireStatusCarriesPausedUnderPauseMark : Prop :=
  ∀ (c : ChainId) (j : Job) (o : OutcomeState) (s : State), s.job c = some j → (s.chain c).state = .active →
    (j.haltsChain = false → (s.chain c).pauseMark = true → s.retireStateCode c o = .paused) ∧
    (j.haltsChain = false → (s.chain c).pauseMark = false →
      s.retireStateCode c o = (if o = .doneFree then .reading else .parked)) ∧
    (j.haltsChain = true → s.retireStateCode c o = .halted) ∧
    (∀ r, (s.chain c).inHand = some r → (s.afterRetire c o true).chain c =
      { s.chain c with state := .halted, inHand := none, anchor := some (.record r), pauseMark := false })

/-- The acknowledged release write: byte 8 of the record holds DONE_FREE, and the chain goes on to the record at the next
record address, or pauses at READ_NEXT where its pause mark is set, or goes on to the directory read of a START, or, ABORTING, writes its status entry with IDLE. An error leaves the
byte as it was, DONE_HELD, and breaks the chain (that bytes change at the answer is the model's choice, log 4). -/
def Obligations.ReleaseWriteGoesOnToCallingStep : Prop :=
  ∀ (c : ChainId) (record : PhysAddr) (n : ReleaseNext) (a : Access) (before after : List Access) (s : State),
    s.softReset = false → s.hasOutstanding (Access.isReleaseFor c) 0 a before after →
    a = writeAccess (.releaseWrite n record) c (record + 8) [0x03] →
    (∀ r, (s.chain c).state = .reading → n = .readNext → (s.chain c).next = some r → (s.chain c).pauseMark = false →
      exec (.releaseWrite c .acknowledged) s = .next { s with
        memory := Memory.write s.memory (record + 8).toNat 0x03
        chains := s.chains.set c { s.chain c with state := .reading, inHand := some r, anchor := none, next := none }
        accesses := before.map (Access.without [(record + 8).toNat]) ++ after ++ [readAccess .headerRead c r 32] }) ∧
    ((s.chain c).state = .reading → n = .readNext → (s.chain c).pauseMark = true →
      exec (.releaseWrite c .acknowledged) s = .next { s with
        memory := Memory.write s.memory (record + 8).toNat 0x03
        chains := s.chains.set c { s.chain c with
          state := .paused, resume := some .readNext, pauseMark := false, inHand := none, anchor := none }
        accesses := before.map (Access.without [(record + 8).toNat]) ++ after }) ∧
    ((s.chain c).state = .reading → n = .directory → exec (.releaseWrite c .acknowledged) s = .next { s with
        memory := Memory.write s.memory (record + 8).toNat 0x03
        chains := s.chains.set c { s.chain c with state := .reading }
        accesses := before.map (Access.without [(record + 8).toNat]) ++ after ++
          [readAccess .directoryRead c (s.directoryAddress c) 32] }) ∧
    ((s.chain c).state = .aborting → exec (.releaseWrite c .acknowledged) s = .next { s with
        memory := Memory.write s.memory (record + 8).toNat 0x03
        accesses := before.map (Access.without [(record + 8).toNat]) ++ after ++ [statusAccess s c .abortEnd .idle 0] }) ∧
    (∀ landed, exec (.releaseWrite c (.error landed)) s = .next
      (State.breakChain { s with accesses := before ++ after } c .releaseWrite record.toNat))

/-- What the answer of a status write sets going, by its purpose; a failed one, whatever its purpose, is reported, with the
bytes that landed in memory (log 4), and the chain goes on all the same.
Entry into PARKED: the chain's consuming claim arrives at the Flag File; with its wake flag clear it is registered; with it set,
and no other waiter on it, the flag is consumed and the anchor is read again; where the chain has left PARKED since, nothing, the entry of a
RESUME, or the rest of an abort follows (the model's reading, log 10). End of a retire: the flags of the post actions and of
the fault are one arrival, beside which the job context is dropped (in a free order, log 5); then the next record is read after
DONE_FREE, the chain is HALTED under the HALT policy, parks on its record after DONE_HELD, with its wake claim offered at once,
or pauses at READ_NEXT or PARK under its pause mark; one that an ABORT found under way has no record in hand either, and releases one left DONE_HELD, or
writes IDLE; these for a job with no gate place, with no replacement pending and no waiter to serve. End of an abort: the chain
is IDLE and its job dropped. Break tail: its fault flag arrives at the Flag File, and is set where no waiter stands on it. -/
def Obligations.StatusWriteGoesOnByItsPurpose : Prop :=
  (∀ (c : ChainId) (n : Nat) (anchor : Anchor) (a : Access) (before after : List Access) (s : State),
    s.softReset = false → s.hasOutstanding (Access.isStatusFor c) n a before after → a.kind = .statusWrite .park →
    (s.chain c).anchor = some anchor →
    exec (.statusWrite c n .acknowledged) s = .next (State.flagArrival { s with
      memory := Memory.writeAll s.memory a.cells
      accesses := before.map (Access.without (a.cells.map (·.1))) ++ after }
      (FlagFile.register s.level c
        { flag := (s.chain c).latched.wakeFlag, wanted := true, consuming := true, kind := .wake }) []) ∧
    (s.flags.getLsbD (s.chain c).latched.wakeFlag = false →
      exec (.statusWrite c n .acknowledged) s = .next { s with
        memory := Memory.writeAll s.memory a.cells
        waiters := s.waiters.set c (some { flag := (s.chain c).latched.wakeFlag, wanted := true, consuming := true, kind := .wake })
        accesses := before.map (Access.without (a.cells.map (·.1))) ++ after }) ∧
    (s.flags.getLsbD (s.chain c).latched.wakeFlag = true →
      (∀ d w, s.waiter d = some w → w.flag ≠ (s.chain c).latched.wakeFlag) →
      exec (.statusWrite c n .acknowledged) s = .next { s with
        memory := Memory.writeAll s.memory a.cells
        flags := s.flags &&& ~~~BitVec.twoPow 32 (s.chain c).latched.wakeFlag
        chains := s.chains.set c { s.chain c with state := .reading }
        accesses := before.map (Access.without (a.cells.map (·.1))) ++ after ++ [match anchor with
          | .record r => readAccess .anchorReRead c r 8
          | .directory => readAccess .headReRead c (s.directoryAddress c) 8] }) ∧
    (s.flags.getLsbD (s.chain c).latched.wakeFlag = false →
      exec (.statusWrite c n (.error [])) s = .next { s with
        errors := s.errors.report .statusWrite c
        waiters := s.waiters.set c (some { flag := (s.chain c).latched.wakeFlag, wanted := true, consuming := true, kind := .wake })
        accesses := before ++ after })) ∧
  (∀ (c : ChainId) (n : Nat) (landed : List Nat) (a : Access) (before after : List Access) (s : State),
    s.softReset = false → s.hasOutstanding (Access.isStatusFor c) n a before after →
    exec (.statusWrite c n (.error landed)) s = exec (.statusWrite c n .acknowledged) { s with
      errors := s.errors.report .statusWrite c
      accesses := before ++ { a with cells := a.cells.filter fun x => landed.contains x.1 } :: after }) ∧
  (∀ (c : ChainId) (n : Nat) (next : StatusNext) (a : Access) (before after : List Access) (s : State),
    s.softReset = false → s.hasOutstanding (Access.isStatusFor c) n a before after → a.kind = .statusWrite next →
    (∀ x ∈ before ++ after, x.isParkStatusFor c = false) →
    let t : State := { s with
      memory := Memory.writeAll s.memory a.cells
      accesses := before.map (Access.without (a.cells.map (·.1))) ++ after }
    (next = .nothing → exec (.statusWrite c n .acknowledged) s = .next t) ∧
    (∀ anchor, next = .parkAgain → (s.chain c).anchor = some anchor →
      exec (.statusWrite c n .acknowledged) s = .next { t with
        chains := s.chains.set c { s.chain c with state := .parked, inHand := none }
        accesses := t.accesses ++ [statusAccess s c .park .parked (anchorAddress anchor)] }) ∧
    (∀ r, next = .abortAnchor → (s.chain c).anchor = some (.record r) →
      exec (.statusWrite c n .acknowledged) s = .next { t with
        chains := s.chains.set c { s.chain c with anchor := none }
        accesses := t.accesses ++ [writeAccess (.releaseWrite .abortEnd r) c (r + 8) [0x03]] }) ∧
    (next = .abortAnchor → (s.chain c).anchor = some .directory →
      exec (.statusWrite c n .acknowledged) s = .next { t with
        accesses := t.accesses ++ [statusAccess s c .abortEnd .idle 0] }) ∧
    (next = .abortEnd → exec (.statusWrite c n .acknowledged) s = .next (State.dropJob { t with
        chains := s.chains.set c { s.chain c with state := .idle, inHand := none, anchor := none, next := none } } c)) ∧
    (next = .breakTail none → exec (.statusWrite c n .acknowledged) s = .next t) ∧
    (∀ f, next = .breakTail (some f) → (∀ d w, s.waiter d = some w → w.flag ≠ f) →
      exec (.statusWrite c n .acknowledged) s = .next { t with flags := s.flags ||| BitVec.twoPow 32 f }) ∧
    (∀ f, next = .breakTail (some f) → exec (.statusWrite c n .acknowledged) s = .next
      (t.flagArrival (FlagFile.change s.level f true) [])) ∧
    (∀ j o, next = .retire o → s.job c = some j → exec (.statusWrite c n .acknowledged) s = .next
      ((t.flagArrival (FlagFile.applyAll s.level (retireOps j (j.code.getD .ok) (s.chain c).latched.faultFlag))
        [.drop c]).afterRetire c o j.haltsChain))) ∧
  (∀ (c : ChainId) (n : Nat) (j : Job) (o : OutcomeState) (record : PhysAddr) (a : Access) (before after : List Access)
      (s : State),
    s.softReset = false → s.hasOutstanding (Access.isStatusFor c) n a before after →
    a.kind = .statusWrite (.retire o) → s.job c = some j →
    (s.chain c).inHand = some record → s.pendingMark = none →
    s.tableGate.has c = false → s.replGate.has c = false → (∀ d, s.waiter d = none) →
    let t : State := { s with
      memory := Memory.writeAll s.memory a.cells
      flags := (FlagFile.applyAll s.level (retireOps j (j.code.getD .ok) (s.chain c).latched.faultFlag) s.flagFile).1.flags
      jobs := s.jobs.set c none
      accesses := before.map (Access.without (a.cells.map (·.1))) ++ after }
    (∀ next, (s.chain c).state ≠ .aborting → o = .doneFree → j.haltsChain = false → (s.chain c).pauseMark = false →
      (s.chain c).next = some next →
      exec (.statusWrite c n .acknowledged) s = .next { t with
        chains := s.chains.set c { s.chain c with state := .reading, inHand := some next, anchor := none, next := none }
        accesses := t.accesses ++ [readAccess .headerRead c next 32] }) ∧
    ((s.chain c).state ≠ .aborting → o = .doneFree → j.haltsChain = false → (s.chain c).pauseMark = true →
      exec (.statusWrite c n .acknowledged) s = .next { t with
        chains := s.chains.set c { s.chain c with
          state := .paused, resume := some .readNext, pauseMark := false, inHand := none, anchor := none } }) ∧
    ((s.chain c).state ≠ .aborting → o = .doneHeld → j.haltsChain = false → (s.chain c).pauseMark = true →
      exec (.statusWrite c n .acknowledged) s = .next { t with
        chains := s.chains.set c { s.chain c with
          state := .paused, resume := some .park, pauseMark := false, inHand := none
          anchor := some (.record record) } }) ∧
    ((s.chain c).state = .aborting → o = .doneHeld → exec (.statusWrite c n .acknowledged) s = .next { t with
        chains := s.chains.set c { s.chain c with inHand := none, anchor := none }
        accesses := t.accesses ++ [writeAccess (.releaseWrite .abortEnd record) c (record + 8) [0x03]] }) ∧
    ((s.chain c).state = .aborting → o = .doneFree → exec (.statusWrite c n .acknowledged) s = .next { t with
        chains := s.chains.set c { s.chain c with inHand := none }
        accesses := t.accesses ++ [statusAccess s c .abortEnd .idle 0] }) ∧
    ((s.chain c).state ≠ .aborting → j.haltsChain = true → exec (.statusWrite c n .acknowledged) s = .next { t with
        chains := s.chains.set c { s.chain c with
          state := .halted, inHand := none, anchor := some (.record record), pauseMark := false } }) ∧
    ((s.chain c).state ≠ .aborting → o = .doneHeld → j.haltsChain = false → (s.chain c).pauseMark = false →
      t.flags.getLsbD (s.chain c).latched.wakeFlag = true →
      exec (.statusWrite c n .acknowledged) s = .next { t with
        flags := t.flags &&& ~~~BitVec.twoPow 32 (s.chain c).latched.wakeFlag
        chains := s.chains.set c { s.chain c with state := .reading, inHand := none, anchor := some (.record record) }
        accesses := t.accesses ++ [readAccess .anchorReRead c record 8] }) ∧
    ((s.chain c).state ≠ .aborting → o = .doneHeld → j.haltsChain = false → (s.chain c).pauseMark = false →
      t.flags.getLsbD (s.chain c).latched.wakeFlag = false →
      exec (.statusWrite c n .acknowledged) s = .next { t with
        chains := s.chains.set c { s.chain c with state := .parked, inHand := none, anchor := some (.record record) }
        waiters := s.waiters.set c
          (some { flag := (s.chain c).latched.wakeFlag, wanted := true, consuming := true, kind := .wake }) }))

/-! ## The Line Engine -/

/-- A fetch grant decision with a free input buffer and a chosen chain asks for the footprints of the very line it then
records: each as long as its surface's footprint, from the surface's base and as many pitches as the line's number. Both
resolved, the line is granted, pinned and fetched; held, the job is held; at fault, no line is granted and the line faults (what that does:
StoreAnsweredRecordsLine). After a hold or a fault the arbiter goes back to its first step: the decision goes on as one taken
on the state so changed, which, with no other chain eligible, is where it ends. -/
def Obligations.FetchGrantIssuesNextLine : Prop :=
  (∀ (c : ChainId) (j : Job) (lb : LineBody) (source dest : Surface) (s : State),
    s.resolveNext c j lb source dest = s.resolveLine c j
      (source.base.toNat + (lb.sourceFirst.toNat + j.nextLine) * source.pitch) source.footprint
      (dest.base.toNat + (lb.destFirst.toNat + j.nextLine) * dest.pitch) dest.footprint) ∧
  (∀ (j : Job) (lb : LineBody), j.lineBody = some lb ↔ (∃ t, j.body = .convert lb t) ∨ j.body = .copy lb) ∧
  ∀ (b : Fin 2) (c : ChainId) (j : Job) (lb : LineBody) (source dest : Surface) (s : State), s.softReset = false →
    s.freeInput = some b → s.chooseChain = some c → s.job c = some j → j.lineBody = some lb →
    j.source = some source → j.dest = some dest →
    (∀ fetch store used, s.resolveNext c j lb source dest = .resolved fetch store used →
      exec .fetchGrantDecision s = .next { s with
        jobs := s.jobs.set c (some { j with
          nextLine := j.nextLine + 1, pins := j.pins ||| used
          phase := if j.nextLine + 1 < lb.lineCount.toNat then j.phase else .draining })
        lines := s.lines ++ [{
          chain := c, jobLine := j.nextLine, sourceLine := lb.sourceFirst.toNat + j.nextLine
          destLine := lb.destFirst.toNat + j.nextLine, stage := .fetching, inputBuffer := some b, outputBuffer := none
          fetchRanges := fetch, storeRanges := store, discard := false, allZero := false }]
        passOver := s.passOverAfter c
        fetchChecks := s.fetchChecks.set b (match source.trailer with
          | .crc => some { crc := 0xFFFFFFFF#32, taken := 0, expected := none }
          | .none => none)
        accesses := s.accesses ++
          [{ kind := .lineFetch b, chain := c, line := some j.nextLine, ranges := fetch, cells := [] }] }) ∧
    (s.resolveNext c j lb source dest = .held → exec .fetchGrantDecision s =
      exec .fetchGrantDecision { s with jobs := s.jobs.set c (some { j with held := true }) }) ∧
    (∀ code, s.resolveNext c j lb source dest = .fault code → exec .fetchGrantDecision s =
      exec .fetchGrantDecision (State.checkDrained (s.lineFault c j.nextLine code) c)) ∧
    (s.resolveNext c j lb source dest = .held → (∀ d, d ≠ c → s.eligible d = false) →
      exec .fetchGrantDecision s = .next { s with jobs := s.jobs.set c (some { j with held := true }) }) ∧
    (∀ code, s.resolveNext c j lb source dest = .fault code → (∀ d, d ≠ c → s.eligible d = false) →
      exec .fetchGrantDecision s = .next (State.checkDrained (s.lineFault c j.nextLine code) c))

/-- The line arbiter: the chains passed over 8 times come first, then the lowest priority level, then the lower chain number;
the counts after a grant; and the free input buffer that a grant takes. That a decision with no free buffer or no eligible
chain, which is none by 04 R70, changes nothing is the model's reading (log 2). -/
def Obligations.ArbiterChoosesByPassOverAndPriority : Prop :=
  (∀ (s : State) (c : ChainId), s.level c = (s.chain c).latched.priority.val) ∧
  (∀ (j : Job) (lb : LineBody), (j.lineBody = some lb → j.lineCount = lb.lineCount.toNat) ∧
    (j.lineBody = none → j.lineCount = 0)) ∧
  (∀ (s : State) (c : ChainId), s.eligible c = true ↔ (s.chain c).state = .active ∧
    ∃ j, s.job c = some j ∧ j.phase = .running ∧ j.nextLine < j.lineCount ∧ j.held = false) ∧
  (∀ (s : State) (c : ChainId), s.chooseChain = some c ↔ s.eligible c = true ∧ ∀ d, s.eligible d = true → d ≠ c →
    (s.passOver[c] = 8 ∧ s.passOver[d] ≠ 8) ∨ ((s.passOver[c] = 8 ↔ s.passOver[d] = 8) ∧
      (s.level c < s.level d ∨ (s.level c = s.level d ∧ c < d)))) ∧
  (∀ (s : State) (c d : ChainId), (s.passOverAfter c)[c] = 0 ∧
    (d ≠ c → s.eligible d = true → s.passOver[d] ≤ 8 → (s.passOverAfter c)[d] = min 8 (s.passOver[d] + 1)) ∧
    (d ≠ c → s.eligible d = false → (s.passOverAfter c)[d] = s.passOver[d])) ∧
  (∀ s : State, (s.freeInput = some 0 ↔ s.inputFree 0 = true) ∧
    (s.freeInput = some 1 ↔ s.inputFree 0 = false ∧ s.inputFree 1 = true) ∧
    ∀ b, s.inputFree b = true ↔ ∀ l ∈ s.lines, l.inputBuffer ≠ some b) ∧
  (∀ s : State, (s.freeInput = none ∨ ∀ c, s.eligible c = false) → exec .fetchGrantDecision s = .next s)

/-- The fetch check finds a stored trailer other than the CRC of the payload as fetched (07 R126). -/
def Sys2Proof.Statements.mismatches (s : State) (b : Fin 2) (source : Surface) (bytes : List Byte) : Prop :=
  ∃ check, s.fetchChecks[b] = some check ∧
    BitVec.ofNat 32 (fieldAt bytes source.trailerOffset 4) ≠ ~~~ crcTake check.crc (bytes.take source.payload)

/-- Fetch complete. A line whose trailer does not mismatch enters FETCHED with its footprint in its input buffer; under
REPORT a mismatch sets CHECK besides; under STOP it sets CHECK, and the line leaves flight with its buffer free and faults
CHECK_FAIL; at a failed read it so faults BUS_READ; and a line with its discard mark leaves flight so, with no fault. Stated of
a line that holds no output buffer, as every FETCHING line does (LineEngineRulesStay). -/
def Obligations.FetchCompleteByAnswer : Prop :=
  ∀ (b : Fin 2) (l : LineRecord) (j : Job) (source : Surface) (a : Access) (before after : List Access) (s : State),
    s.softReset = false → s.hasOutstanding (Access.isFetchInto b) 0 a before after →
    s.lines.find? (fun k => k.inputBuffer == some b && k.stage == .fetching) = some l → l.outputBuffer = none →
    s.job l.chain = some j → j.source = some source →
    let gone : State := { s with
      lines := s.lines.filter fun k => !k.isLine l.chain l.jobLine
      inBuf := s.inBuf.set b [], fetchChecks := s.fetchChecks.set b none, accesses := before ++ after }
    let checked := s.jobs.set l.chain (some { j with flags := { j.flags with check := true } })
    (∀ bytes, l.discard = false → bytes.length = a.bytes → ¬ mismatches s b source bytes →
      exec (.fetchComplete b (.data bytes)) s = .next { s with
        lines := s.lines.map fun k => if k.isLine l.chain l.jobLine then { l with stage := .fetched } else k
        inBuf := s.inBuf.set b bytes, fetchChecks := s.fetchChecks.set b none, accesses := before ++ after }) ∧
    (∀ bytes, l.discard = false → bytes.length = a.bytes → mismatches s b source bytes → j.check = .report →
      exec (.fetchComplete b (.data bytes)) s = .next { s with
        jobs := checked
        lines := s.lines.map fun k => if k.isLine l.chain l.jobLine then { l with stage := .fetched } else k
        inBuf := s.inBuf.set b bytes, fetchChecks := s.fetchChecks.set b none, accesses := before ++ after }) ∧
    (∀ bytes, l.discard = false → bytes.length = a.bytes → mismatches s b source bytes → j.check = .stop →
      exec (.fetchComplete b (.data bytes)) s = .next
        (State.checkDrained (State.lineFault { gone with jobs := checked } l.chain l.jobLine .checkFail) l.chain)) ∧
    (l.discard = false → exec (.fetchComplete b .error) s = .next
      (State.checkDrained (State.lineFault gone l.chain l.jobLine .busRead) l.chain)) ∧
    (∀ answer : ReadAnswer, l.discard = true → answer.hasLength a.bytes = true →
      exec (.fetchComplete b answer) s = .next (State.checkDrained gone l.chain))

/-- Conversion start: the candidate of the chain of highest priority takes a free output buffer; with it are made the working
image and the line marks (CONVERT) or the copy all-zero mark (COPY), and the pack check of a destination with trailer CRC.
That a line whose predecessor has left flight may start is the model's reading (log 22); and so is that a start with a
conversion running, no output buffer free or no candidate changes nothing (log 2). -/
def Obligations.ConversionStartTakesCandidate : Prop :=
  (∀ (b : Fin 2) (l : LineRecord) (j : Job) (source dest : Surface) (s : State), s.softReset = false →
    s.conversion = none → s.freeOutput = some b → s.chooseCandidate = some l → s.job l.chain = some j →
    j.source = some source → j.dest = some dest →
    exec .conversionStart s = .next { s with
      lines := s.lines.map fun k =>
        if k.isLine l.chain l.jobLine then { l with stage := .converting, outputBuffer := some b } else k
      conversion := some { chain := l.chain, jobLine := l.jobLine }
      image := if j.transformBody.isSome then
        some { pixels := List.replicate source.layout.pixels none, stray := false } else none
      lineMarks := if j.transformBody.isSome then some { neg := false, sat := false, allZero := true } else none
      copyZero := if j.transformBody.isSome then none else some true
      packCheck := match dest.trailer with
        | .crc => some { crc := 0xFFFFFFFF#32, taken := 0 }
        | .none => none }) ∧
  (∀ (l : LineRecord) (s : State), s.chooseCandidate = some l → l ∈ s.lines ∧ s.candidate l = true ∧
    ∀ k ∈ s.lines, s.candidate k = true → k.chain ≠ l.chain →
      s.level l.chain < s.level k.chain ∨ (s.level l.chain = s.level k.chain ∧ l.chain < k.chain)) ∧
  (∀ s : State, (s.freeOutput = some 0 ↔ s.outputFree 0 = true) ∧
    (s.freeOutput = some 1 ↔ s.outputFree 0 = false ∧ s.outputFree 1 = true) ∧
    ∀ b, s.outputFree b = true ↔ ∀ l ∈ s.lines, l.outputBuffer ≠ some b) ∧
  (∀ (l : LineRecord) (s : State), s.candidate l = true ↔ l.stage = .fetched ∧ l.discard = false ∧
    ∀ k ∈ s.lines, k.chain = l.chain → k.jobLine + 1 = l.jobLine → k.stage = .storing) ∧
  (∀ s : State, (s.conversion ≠ none ∨ s.freeOutput = none ∨ ∀ l ∈ s.lines, s.candidate l = false) →
    exec .conversionStart s = .next s)

/-- Conversion complete: the marks of the line are applied to the result flags of its job, its input buffer is free, its
destination footprint stands in its output buffer, it enters STORING and its store is issued, with the bytes of the footprint at the
addresses of its ranges; where those cover a physical byte more than once, which of the bytes brought there it leaves is a free value
(log 26). The output of a CONVERT
line and of a COPY line; and what a conversion works with: the transform, widen policy, index width and fill of the body by their
encodings, the source snapshot, the destination's lane width, the job's coefficient snapshot and the lookup table as it stands;
and the tap map that a source acts with, the identity map where it has none. -/
def Obligations.ConversionCompleteIssuesStore : Prop :=
  (∀ (c : ChainId) (m : Nat) (l : LineRecord) (j : Job) (source dest : Surface) (inB outB : Fin 2) (s : State),
    s.softReset = false → s.conversion = some { chain := c, jobLine := m } →
    s.lines.find? (LineRecord.isLine c m) = some l → s.job c = some j → l.inputBuffer = some inB →
    l.outputBuffer = some outB → j.source = some source → j.dest = some dest →
    exec .conversionComplete s =
      (let out := s.lineOutput j source dest l.sourceLine s.inBuf[inB]
       .next { s with
        jobs := s.jobs.set c (some { j with flags := { j.flags with
          neg := j.flags.neg || out.neg, sat := j.flags.sat || out.sat, stray := j.flags.stray || out.stray } })
        lines := s.lines.map fun k =>
          if k.isLine c m then { l with stage := .storing, inputBuffer := none, allZero := out.allZero } else k
        inBuf := s.inBuf.set inB [], outBuf := s.outBuf.set outB (destFootprint dest s.packCheck out.payload)
        conversion := none, image := none, lineMarks := none, packCheck := none, copyZero := none
        choices := s.choices + 1
        accesses := s.accesses ++ [{
          kind := .lineStore outB, chain := c, line := some l.jobLine, ranges := l.storeRanges
          cells := storeCells s.choices l.storeRanges (destFootprint dest s.packCheck out.payload) }] })) ∧
  (∀ (n : Nat) (ranges : List PhysRange) (bytes : List Byte),
    (storeCells n ranges bytes).map (·.1) = (cellsOf ranges bytes).map (·.1) ∧
    ((rangeAddresses ranges).Nodup → storeCells n ranges bytes = cellsOf ranges bytes) ∧
    (∀ x ∈ storeCells n ranges bytes, x ∈ cellsOf ranges bytes) ∧
    ∀ x ∈ storeCells n ranges bytes, ∀ y ∈ storeCells n ranges bytes, x.1 = y.1 → x = y) ∧
  (∀ (j : Job) (t : TransformBody), j.transformBody = some t ↔ ∃ lb, j.body = .convert lb t) ∧
  (∀ (s : State) (j : Job) (t : TransformBody) (source dest : Surface),
    let v := conversionOf s j t source dest
    (t.transform = 1 → v.transform = .pass) ∧ (t.transform = 2 → v.transform = .lookup) ∧
    (t.transform = 3 → v.transform = .chroma) ∧
    (t.widen = 1 → v.policy = .replicate) ∧ (t.widen = 2 → v.policy = .zeroLow) ∧ (t.widen = 3 → v.policy = .lowAlign) ∧
    v.indexWidth = t.indexWidth.toNat ∧ v.fill = t.fill.toNat ∧ v.source = source ∧ v.containerWidth = dest.laneWidth ∧
    (∀ k, j.coeff = some k → v.coeff = k) ∧ v.lut = s.lut) ∧
  (∀ r : Surface, (∀ m, r.tapMap = some m → r.layout = m) ∧ (r.tapMap = none →
    r.layout = { rotation := 0, pixels := r.lanes, taps := [{ origin := 0, step := 1, direction := .ascend }] })) ∧
  (∀ (j : Job) (lb : LineBody) (t : TransformBody) (source dest : Surface) (y : Nat) (buffer : List Byte)
      (image : WorkingImage) (s : State), j.body = .convert lb t → s.image = some image →
    s.lineMarks = some { neg := false, sat := false, allZero := true } →
    let filled := image.untangle source.layout y (buffer.take source.payload) source.laneWidth source.lanes
    let outputs := (conversionOf s j t source dest).outputs filled.pixels
    s.lineOutput j source dest y buffer = {
      payload := outputPayload dest.laneWidth outputs, neg := outputs.any (·.neg), sat := outputs.any (·.sat)
      stray := filled.stray, allZero := (outputValues outputs).all (· == 0) }) ∧
  (∀ (j : Job) (lb : LineBody) (source dest : Surface) (y : Nat) (buffer : List Byte) (s : State),
    j.body = .copy lb → s.copyZero = some true →
    s.lineOutput j source dest y buffer = {
      payload := buffer.take source.payload, neg := false, sat := false, stray := false
      allZero := (buffer.take source.payload).all (· == 0) })

/-- The answer of a store, whose bytes stand one after another at the addresses of its ranges. Acknowledged: the bytes of the
footprint are in memory, the line is stored in its job's record
and leaves flight; the work of a job with no line left ends. Failed: the bytes that landed are in memory, the line leaves
flight and faults BUS_WRITE. A line fault: it becomes the job's first fault where there is none and no abort, grants stop, and
of the later lines of its job not yet committed the FETCHED ones leave flight with their input buffers free and the FETCHING
ones are marked; the lines-stored record is told of the line and of those; every other line runs on. That the bytes of the store change at its
answer, and those of a failed one as far as the answer names them, is the model's choice (log 4). The bytes are those
that the store was issued with, one for each physical byte, a free value where its ranges overlap (log 26). -/
def Obligations.StoreAnsweredRecordsLine : Prop :=
  (∀ (start : PhysAddr) (n : Nat) (rest : List PhysRange) (bytes : List Byte), cellsOf [] bytes = [] ∧
    cellsOf ({ start := start, bytes := n } :: rest) bytes =
      ((List.range n).zip bytes).map (fun x => (start.toNat + x.1, x.2)) ++ cellsOf rest (bytes.drop n)) ∧
  (∀ (memory cells : List Host.Cell) (address : Nat), Memory.read (Memory.writeAll memory cells) address =
    (match (cells.filter fun x => x.1 == address).getLast? with
      | some x => some x.2
      | none => Memory.read memory address)) ∧
  (∀ (b : Fin 2) (l : LineRecord) (j : Job) (a : Access) (before after : List Access) (s : State),
    s.softReset = false → s.hasOutstanding (Access.isStoreFrom b) 0 a before after →
    s.lines.find? (fun k => k.outputBuffer == some b && k.stage == .storing) = some l → l.inputBuffer = none →
    s.job l.chain = some j →
    ((j.phase ≠ .draining ∨ j.ended = true ∨ ∃ k ∈ s.lines, k.chain = l.chain ∧ k.jobLine ≠ l.jobLine) →
      exec (.storeAnswered b .acknowledged) s = .next { s with
        memory := Memory.writeAll s.memory a.cells
        jobs := s.jobs.set l.chain (some { j with stored := j.stored.recordStored l.jobLine l.allZero })
        lines := s.lines.filter fun k => !k.isLine l.chain l.jobLine
        outBuf := s.outBuf.set b []
        accesses := before.map (Access.without (a.cells.map (·.1))) ++ after }) ∧
    (j.phase = .draining → j.ended = false → (∀ k ∈ s.lines, k.chain = l.chain → k.jobLine = l.jobLine) →
      exec (.storeAnswered b .acknowledged) s = .next (State.finishWork { s with
        memory := Memory.writeAll s.memory a.cells
        jobs := s.jobs.set l.chain (some { j with stored := j.stored.recordStored l.jobLine l.allZero })
        lines := s.lines.filter fun k => !k.isLine l.chain l.jobLine
        outBuf := s.outBuf.set b []
        accesses := before.map (Access.without (a.cells.map (·.1))) ++ after } l.chain)) ∧
    (∀ landed, exec (.storeAnswered b (.error landed)) s = .next
      (State.checkDrained (State.lineFault { s with
        memory := Memory.writeAll s.memory (a.cells.filter fun x => landed.contains x.1)
        lines := s.lines.filter fun k => !k.isLine l.chain l.jobLine
        outBuf := s.outBuf.set b []
        accesses := before.map (Access.without ((a.cells.filter fun x => landed.contains x.1).map (·.1))) ++ after }
        l.chain l.jobLine .busWrite) l.chain))) ∧
  (∀ (c : ChainId) (m : Nat) (code : Code) (j : Job) (s : State), s.job c = some j →
    let gone := s.lines.filter fun l =>
      l.chain == c && (l.stage == .fetching || l.stage == .fetched) && !l.discard && decide (m < l.jobLine)
    s.lineFault c m code = { s with
      jobs := s.jobs.set c (some { j with
        firstFault := if j.firstFault = none ∧ j.abortRequested = false then some code else j.firstFault
        phase := if j.phase = .running then .draining else j.phase
        stored := gone.foldl (fun r l => r.recordFailed l.jobLine) (j.stored.recordFailed m) })
      lines := s.lines.filterMap fun l =>
        if l ∈ gone then (if l.stage = .fetching then some { l with discard := true } else none) else some l
      inBuf := Vector.ofFn fun b =>
        if gone.any fun l => l.stage == .fetched && l.inputBuffer == some b then [] else s.inBuf[b] } ∧
    s.checkDrained c =
      (if j.phase = .draining ∧ j.ended = false ∧ ∀ l ∈ s.lines, l.chain ≠ c then s.finishWork c else s))

/-- What becomes of one job line, as its lines-stored record hears of it: stored with this all-zero mark, or no longer to
be stored. -/
def Sys2Proof.Statements.hearsOf (r : LinesStored) (event : Nat × Option Bool) : LinesStored :=
  match event.2 with
  | some allZero => r.recordStored event.1 allZero
  | none => r.recordFailed event.1

/-- In whatever order the lines of a job are stored and fail, each once, the prefix is the number of lines from line 0 that
have all been stored, the zero-so-far mark is the conjunction of their marks, the record is closed when a failed line stands at
its prefix, and the lowest failed line is the least line above the prefix that has failed. -/
def Obligations.LinesStoredPrefixCountsStoredLines : Prop :=
  ∀ events : List (Nat × Option Bool), (events.map (·.1)).Nodup →
    (∀ n, n ≤ (events.foldl hearsOf .empty).prefixLen ↔ ∀ k < n, ∃ z, (k, some z) ∈ events) ∧
    ((events.foldl hearsOf .empty).zeroSoFar = true ↔
      ∀ k < (events.foldl hearsOf .empty).prefixLen, (k, some true) ∈ events) ∧
    ((events.foldl hearsOf .empty).closed = true ↔ ((events.foldl hearsOf .empty).prefixLen, none) ∈ events) ∧
    ∀ m, (events.foldl hearsOf .empty).lowestFailed = some m ↔
      (m, none) ∈ events ∧ (events.foldl hearsOf .empty).prefixLen < m ∧
      ∀ k, (k, none) ∈ events → (events.foldl hearsOf .empty).prefixLen < k → m ≤ k

/-! ## SURFACE, COEFF, MAP and TABLE jobs -/

/-- The work of a SURFACE job: a LOAD that passes every check writes its slot, a CLEAR empties it, and anything else faults
BAD_SURFACE and leaves every slot as it was; the work ends. -/
def Obligations.SurfaceWorkLoadsOrClearsSlot : Prop :=
  ∀ (c : ChainId) (j : Job) (b : SurfaceBody) (s : State), s.softReset = false → s.job c = some j →
    j.phase = .running → j.ended = false → j.body = .surface b →
    (∀ (slot : Fin 16) (r : Surface), b.operation = 1 → b.slot.toNat = slot.val → checkSurface b = some r →
      exec (.surfaceWork c) s = .next (State.finishWork { s with surfaces := s.surfaces.set slot (some r) } c)) ∧
    (∀ slot : Fin 16, b.operation = 2 → b.slot.toNat = slot.val →
      exec (.surfaceWork c) s = .next (State.finishWork { s with surfaces := s.surfaces.set slot none } c)) ∧
    ((b.operation ≠ 1 ∧ b.operation ≠ 2) ∨ 16 ≤ b.slot.toNat ∨ (b.operation = 1 ∧ checkSurface b = none) →
      j.firstFault = none → j.abortRequested = false →
      exec (.surfaceWork c) s = .next
        (State.finishWork { s with jobs := s.jobs.set c (some { j with firstFault := some .badSurface }) } c))

/-- The checks of a LOAD (03 R53 to R55), and the record that one which passes them writes. -/
def Obligations.SurfaceLoadChecks : Prop :=
  (∀ b : SurfaceBody, (checkSurface b).isSome = true ↔
    b.slot.toNat ≤ 15 ∧ (b.base.toNat < 2 ^ 47 ∨ 2 ^ 64 - 2 ^ 47 ≤ b.base.toNat) ∧
    1 ≤ b.pitch.toNat ∧ b.pitch.toNat ≤ 16777216 ∧ 1 ≤ b.lineCount.toNat ∧
    b.laneWidth.toNat ∈ [8, 10, 12, 14, 16, 24, 32] ∧ 1 ≤ b.lanes.toNat ∧ b.lanes.toNat ≤ 16384 ∧
    b.trailer.toNat ≤ 1 ∧ b.sampleKind.toNat ≤ 1 ∧ b.chromaOrder.toNat ≤ 1 ∧ b.tableBase.toNat ≤ 15 ∧
    b.tapMapPresent.toNat ≤ 1 ∧ (b.sampleKind = 1 → b.laneWidth = 16 ∨ b.laneWidth = 24) ∧
    (b.lanes.toNat * b.laneWidth.toNat + 7) / 8 ≤ 16384 ∧
    (if b.trailer = 1 then ((b.lanes.toNat * b.laneWidth.toNat + 7) / 8 + 3) / 4 * 4 + 4
      else (b.lanes.toNat * b.laneWidth.toNat + 7) / 8) ≤ b.pitch.toNat ∧
    (b.tapMapPresent = 1 →
      1 ≤ b.tapCount.toNat ∧ b.tapCount.toNat ≤ 8 ∧ b.tapCount.toNat ≤ b.lanes.toNat ∧
      b.rotation.toNat < b.tapCount.toNat ∧ 1 ≤ b.pixels.toNat ∧ b.pixels.toNat ≤ 16384 ∧
      ∀ t ∈ b.taps.take b.tapCount.toNat,
        t.origin.toNat ≤ 16383 ∧ 1 ≤ t.step.toNat ∧ t.step.toNat ≤ 8 ∧ t.direction.toNat ≤ 1)) ∧
  (∀ (b : SurfaceBody) (r : Surface), checkSurface b = some r →
    r.base = b.base ∧ r.pitch = b.pitch.toNat ∧ r.lineCount = b.lineCount.toNat ∧ r.laneWidth = b.laneWidth.toNat ∧
    r.lanes = b.lanes.toNat ∧ (r.trailer = .crc ↔ b.trailer = 1) ∧ (r.sampleKind = .paired ↔ b.sampleKind = 1) ∧
    (r.chromaOrder = .vFirst ↔ b.chromaOrder = 1) ∧ r.tableBase = b.tableBase.toNat ∧
    r.payload = (b.lanes.toNat * b.laneWidth.toNat + 7) / 8 ∧ r.trailerOffset = (r.payload + 3) / 4 * 4 ∧
    r.footprint = (if b.trailer = 1 then r.trailerOffset + 4 else r.payload) ∧
    (r.tapMap.isSome = true ↔ b.tapMapPresent = 1) ∧
    ∀ m, r.tapMap = some m → m.rotation = b.rotation.toNat ∧ m.pixels = b.pixels.toNat ∧
      m.taps.map (fun t => (t.origin, t.step)) =
        (b.taps.take b.tapCount.toNat).map (fun t => (t.origin.toNat, t.step.toNat)) ∧
      m.taps.map (fun t => decide (t.direction = .descend)) =
        (b.taps.take b.tapCount.toNat).map (fun t => decide (t.direction = 1)))

/-- The work of a COEFF job: the set is replaced whole, or an out-of-range field faults RANGE and no set changes. -/
def Obligations.CoeffWorkReplacesSet : Prop :=
  ∀ (c : ChainId) (j : Job) (b : CoeffBody) (s : State), s.softReset = false → s.job c = some j →
    j.phase = .running → j.ended = false → j.body = .coeff b →
    (∀ set : Fin 4, b.set.toNat = set.val → b.order.toNat ≤ 1 →
      (b.k1.toNat ≤ 4095 ∧ b.k2.toNat ≤ 4095 ∧ b.k3.toNat ≤ 4095 ∧ b.k4.toNat ≤ 4095) →
      exec (.coeffWork c) s = .next (State.finishWork { s with
        coeffs := s.coeffs.set set {
          k1 := b.k1.toNat, k2 := b.k2.toNat, k3 := b.k3.toNat, k4 := b.k4.toNat
          order := if b.order = 0 then .rgb else .bgr } } c)) ∧
    (4 ≤ b.set.toNat ∨ 2 ≤ b.order.toNat ∨ 4096 ≤ b.k1.toNat ∨ 4096 ≤ b.k2.toNat ∨ 4096 ≤ b.k3.toNat ∨
      4096 ≤ b.k4.toNat → j.firstFault = none → j.abortRequested = false →
      exec (.coeffWork c) s = .next
        (State.finishWork { s with jobs := s.jobs.set c (some { j with firstFault := some .range }) } c))

/-- The arrival of a MAP job: an unpinned slot is changed at once, or faults BAD_ENTRY where the new page shares an address
with another valid entry in some context; a pinned slot is marked pending, also where the chain has taken ABORT since
admission (log 8). What a MAP body asks for, by its operation and slot; and the checks of a LOAD body, and the
entry that one which passes them gives, field by field. -/
def Obligations.MapWorkChangesOrMarksEntry : Prop :=
  (∀ (c : ChainId) (j : Job) (b : MapBody) (slot : EntryId) (new : Option MapEntry) (s : State), s.softReset = false →
    s.pendingMark = none → s.job c = some j → j.phase = .running → j.ended = false → j.body = .map b →
    mapEffect b = some (slot, new) →
    ((s.entries[slot] = none ∨ s.pinCount slot = 0) →
      (∀ e, new = some e → ∀ m o, m ≠ slot → s.entries[m] = some o →
        ∀ context x, ¬ (o.matches context x = true ∧ e.matches context x = true)) →
      exec (.mapWork c) s = .next (State.finishWork { s with entries := s.entries.set slot new } c)) ∧
    ((s.entries[slot] = none ∨ s.pinCount slot = 0) →
      (∃ e m o context x, new = some e ∧ m ≠ slot ∧ s.entries[m] = some o ∧ o.matches context x = true ∧
        e.matches context x = true) → j.firstFault = none → j.abortRequested = false →
      exec (.mapWork c) s = .next
        (State.finishWork { s with jobs := s.jobs.set c (some { j with firstFault := some .badEntry }) } c)) ∧
    ((s.entries[slot] ≠ none ∧ 0 < s.pinCount slot) →
      exec (.mapWork c) s = .next { s with pendingMark := some slot })) ∧
  (∀ b : MapBody, (checkMapEntry b).isSome = true ↔
    b.context.toNat ≤ 15 ∧ b.shared.toNat ≤ 1 ∧ b.readRight.toNat ≤ 1 ∧ b.writeRight.toNat ≤ 1 ∧
    ∃ size ∈ [2 ^ 12, 2 ^ 16, 2 ^ 21, 2 ^ 30], [2 ^ 12, 2 ^ 16, 2 ^ 21, 2 ^ 30][b.size.toNat]? = some size ∧
      b.effectiveBase.toNat % size = 0 ∧
      (b.effectiveBase.toNat + size ≤ 2 ^ 47 ∨ 2 ^ 64 - 2 ^ 47 ≤ b.effectiveBase.toNat) ∧
      b.physicalBase.toNat % size = 0 ∧ b.physicalBase.toNat < 2 ^ 40) ∧
  (∀ (b : MapBody) (e : MapEntry), checkMapEntry b = some e →
    e.context.val = b.context.toNat ∧ (e.shared = true ↔ b.shared = 1) ∧
    [2 ^ 12, 2 ^ 16, 2 ^ 21, 2 ^ 30][b.size.toNat]? = some e.size.bytes ∧ e.effectiveBase = b.effectiveBase ∧
    e.physicalBase.toNat = b.physicalBase.toNat ∧ (e.readRight = true ↔ b.readRight = 1) ∧
    (e.writeRight = true ↔ b.writeRight = 1)) ∧
  ∀ b : MapBody,
    (∀ slot e, mapEffect b = some (slot, some e) ↔
      b.operation = 1 ∧ b.slot.toNat = slot.val ∧ checkMapEntry b = some e) ∧
    (∀ slot, mapEffect b = some (slot, none) ↔ b.operation = 2 ∧ b.slot.toNat = slot.val) ∧
    (mapEffect b = none ↔ (b.operation ≠ 1 ∧ b.operation ≠ 2) ∨ 32 ≤ b.slot.toNat ∨
      (b.operation = 1 ∧ checkMapEntry b = none))

/-- A pending replacement waits while its entry has a pin, in the pin set of a job, and is carried out when the last is gone, or faults BAD_ENTRY where
its page then overlaps another's and leaves the old entry, with every held mark cleared, the MAP job's work ended, and the held
TABLE jobs of ACTIVE chains resolving afresh; what each gate grants: the table gate a TABLE claim when nothing holds it, a LOOKUP claim when no TABLE job
holds it or waits, the replacement gate one claim at a time; and how a gate that a chain leaves serves its waiting claims: a
TABLE claim by priority once the gate is free, else, with none waiting, every LOOKUP claim, and one replacement claim by
priority. A job dropped releases its pins, its place at the table gate and that at the replacement gate, in this order, which
is the model's choice (log 25). -/
def Obligations.PendingReplacementAndGates : Prop :=
  (∀ (m : EntryId) (s : State), 0 < s.pinCount m ↔ ∃ c j, s.job c = some j ∧ j.pins.getLsbD m = true) ∧
  (∀ (m : EntryId) (s : State), s.pendingMark = some m → 0 < s.pinCount m → s.afterPinRelease = s) ∧
  (∀ (m slot : EntryId) (c : ChainId) (j : Job) (b : MapBody) (new : Option MapEntry) (s : State),
    s.pendingMark = some m → s.pinCount m = 0 → s.replGate.holder = some c → s.job c = some j → j.body = .map b →
    mapEffect b = some (slot, new) →
    let overlaps := ∃ e n o context x, new = some e ∧ n ≠ slot ∧ s.entries[n] = some o ∧ o.matches context x = true ∧
      e.matches context x = true
    (¬ overlaps → s.afterPinRelease = (heldTables s).foldl State.tableResolve (State.finishWork { s with
      entries := s.entries.set slot new, pendingMark := none
      jobs := s.jobs.map fun o => o.map fun k => { k with held := false } } c)) ∧
    (overlaps → s.afterPinRelease = (heldTables s).foldl State.tableResolve (State.finishWork { s with
      pendingMark := none
      jobs := (s.jobs.set c (some { j with
        firstFault := if j.firstFault = none ∧ j.abortRequested = false then some .badEntry else j.firstFault })).map
          fun o => o.map fun k => { k with held := false } } c))) ∧
  (∀ (c : ChainId) (j : Job) (s : State), s.job c = some j →
    s.dropJob c =
      State.leaveReplGate (State.leaveTableGate (State.afterPinRelease { s with jobs := s.jobs.set c none }) c) c ∧
    (s.pendingMark = none → s.tableGate.has c = false → s.replGate.has c = false →
      s.dropJob c = { s with jobs := s.jobs.set c none })) ∧
  (∀ (c : ChainId) (s : State),
    s.claim c .table = (if (∀ d : ChainId, s.tableGate.users[d] = false) ∧ s.tableGate.holder = none then
      some { s with tableGate := { s.tableGate with holder := some c, waiting := s.tableGate.waiting.set c none } }
      else none) ∧
    s.claim c .lookup =
      (if s.tableGate.holder = none ∧ ∀ d : ChainId, s.tableGate.waiting[d] ≠ some .table then
        some { s with tableGate := { s.tableGate with
          users := s.tableGate.users.set c true, waiting := s.tableGate.waiting.set c none } }
        else none) ∧
    s.claim c .replacement = (if s.replGate.holder = none then
      some { s with replGate := { holder := some c, waiting := s.replGate.waiting.set c false } } else none)) ∧
  (∀ (c : ChainId) (s : State),
    s.leaveTableGate c = (if s.tableGate.users[c] = true ∨ s.tableGate.holder = some c ∨ s.tableGate.waiting[c] ≠ none then
      State.serveTableGate { s with tableGate := {
        users := s.tableGate.users.set c false
        holder := if s.tableGate.holder = some c then none else s.tableGate.holder
        waiting := s.tableGate.waiting.set c none } } else s) ∧
    s.leaveReplGate c = (if s.replGate.holder = some c ∨ s.replGate.waiting[c] = true then
      State.serveReplGate { s with replGate := {
        holder := if s.replGate.holder = some c then none else s.replGate.holder
        waiting := s.replGate.waiting.set c false } } else s)) ∧
  (∀ s : State,
    (s.tableGate.holder ≠ none → s.serveTableGate = s) ∧
    ((∃ d : ChainId, s.tableGate.waiting[d] = some .table) → (∃ d : ChainId, s.tableGate.users[d] = true) →
      s.serveTableGate = s) ∧
    (∀ c : ChainId, s.tableGate.holder = none → (∀ d : ChainId, s.tableGate.users[d] = false) →
      s.tableGate.waiting[c] = some .table →
      (∀ d : ChainId, s.tableGate.waiting[d] = some .table → d ≠ c →
        s.level c < s.level d ∨ (s.level c = s.level d ∧ c < d)) →
      s.serveTableGate = State.admitJob { s with tableGate := { s.tableGate with
        holder := some c, waiting := s.tableGate.waiting.set c none } } c) ∧
    (s.tableGate.holder = none → (∀ d : ChainId, s.tableGate.waiting[d] ≠ some .table) →
      s.serveTableGate = (allChains.filter fun d => s.tableGate.waiting[d] = some .lookup).foldl State.admitJob
        { s with tableGate := { s.tableGate with
          users := Vector.ofFn fun d => s.tableGate.users[d] || s.tableGate.waiting[d] == some .lookup
          waiting := Vector.replicate 4 none } }) ∧
    (s.replGate.holder ≠ none ∨ (∀ d : ChainId, s.replGate.waiting[d] = false) → s.serveReplGate = s) ∧
    (∀ c : ChainId, s.replGate.holder = none → s.replGate.waiting[c] = true →
      (∀ d : ChainId, s.replGate.waiting[d] = true → d ≠ c →
        s.level c < s.level d ∨ (s.level c = s.level d ∧ c < d)) →
      s.serveReplGate = State.admitJob { s with replGate := {
        holder := some c, waiting := s.replGate.waiting.set c false } } c))

/-- A TABLE job resolves its source: the load begins, with its pins taken and its reads issued, or the job is held, or its work
ends with the fault. A table read of it is answered: the entries whose bytes, and whose lower entries' bytes, have arrived are
written in increasing order, each as its two bytes little-endian; a failed read faults BUS_READ; and the work ends when every
byte is answered. -/
def Obligations.TableReadsLoadEntriesInOrder : Prop :=
  (∀ (offset length : Nat) (answer : ReadAnswer) (j : Job) (b : TableBody) (load : TableLoad) (a : Access)
      (before after : List Access) (s : State), s.softReset = false →
    s.hasOutstanding Access.isTableRead 0 a before after → s.job a.chain = some j → j.body = .table b →
    j.load = some load → 1 ≤ length → offset + length ≤ load.source.length → answer.hasLength length = true →
    (∀ k, offset ≤ k → k < offset + length → load.source[k]? = some .unanswered) →
    let r := loadEntries b.first.toNat b.count.toNat (load.answer offset length answer) s.lut
    let k : Job := { j with
      load := some r.1
      firstFault := if answer = .error ∧ j.firstFault = none ∧ j.abortRequested = false then some .busRead
        else j.firstFault }
    ((∃ x ∈ (load.answer offset length answer).source, x = .unanswered) →
      exec (.tableReadAnswered offset length answer) s = .next { s with
        lut := r.2, jobs := s.jobs.set a.chain (some k) }) ∧
    ((∀ x ∈ (load.answer offset length answer).source, x ≠ .unanswered) →
      exec (.tableReadAnswered offset length answer) s = .next (State.finishWork { s with
        lut := r.2, jobs := s.jobs.set a.chain (some k), accesses := before ++ after } a.chain))) ∧
  (∀ (load : TableLoad) (offset length : Nat) (answer : ReadAnswer), offset + length ≤ load.source.length →
    answer.hasLength length = true →
    load.answer offset length answer = { load with source := (load.answer offset length answer).source } ∧
    (load.answer offset length answer).source.length = load.source.length ∧
    ∀ k, (load.answer offset length answer).source[k]? =
      (if offset ≤ k ∧ k < offset + length then
        (match answer with
          | .error => some .failed
          | .data bytes => (bytes[k - offset]?).map .arrived)
      else load.source[k]?)) ∧
  (∀ (first count : Nat) (load : TableLoad) (lut : Vector (BitVec 16) 1024),
    let r := loadEntries first count load lut
    load.entriesLoaded ≤ r.1.entriesLoaded ∧ r.1 = { load with entriesLoaded := r.1.entriesLoaded } ∧
    (∀ e, load.entriesLoaded ≤ e → e < r.1.entriesLoaded → ∃ low high : Byte,
      load.source[2 * e]? = some (.arrived low) ∧ load.source[2 * e + 1]? = some (.arrived high) ∧
      ∀ i : Fin 1024, i.val = first + e → (r.2[i]).toNat = low.toNat + 256 * high.toNat) ∧
    (∀ i : Fin 1024, (i.val < first + load.entriesLoaded ∨ first + r.1.entriesLoaded ≤ i.val) → r.2[i] = lut[i]) ∧
    (r.1.entriesLoaded < load.entriesLoaded + count →
      (¬ ∃ low, load.source[2 * r.1.entriesLoaded]? = some (.arrived low)) ∨
      (¬ ∃ high, load.source[2 * r.1.entriesLoaded + 1]? = some (.arrived high)))) ∧
  (∀ (c : ChainId) (j : Job) (b : TableBody) (s : State), s.job c = some j → j.body = .table b →
    (∀ fetch store used, s.resolveTable c j b = .resolved fetch store used → s.tableResolve c = { s with
      jobs := s.jobs.set c (some { j with
        pins := j.pins ||| used
        load := some {
          ranges := fetch, source := List.replicate (b.count.toNat * 2) .unanswered, entriesLoaded := 0 } })
      accesses := s.accesses ++ [{ kind := .tableRead, chain := c, line := none, ranges := fetch, cells := [] }] }) ∧
    (s.resolveTable c j b = .held → s.tableResolve c = { s with jobs := s.jobs.set c (some { j with held := true }) }) ∧
    (∀ code, s.resolveTable c j b = .fault code → j.firstFault = none → j.abortRequested = false →
      s.tableResolve c =
        State.finishWork { s with jobs := s.jobs.set c (some { j with firstFault := some code }) } c))

/-! ## Translation and protection -/

/-- With TEN 0 a footprint is its low 40 address bits in one range, without regard to context or entry, unless it leaves the
two halves of the 40-bit form; with TEN 1 it faults ADDRESS where it leaves those of the 48-bit form. A byte with no matching
entry is MISS, before a pending entry holds it, before its right is checked, range after range in increasing address order, each
range up to the end of its page, and the first finding is the answer. A line resolution asks with the read right for its fetch
footprint and, that one resolved, with the write right for its store footprint, and answers with the ranges of both and the
entries they use; a table resolution asks with the read right for two bytes an entry, from the source address of its body. -/
def Obligations.AddressFormsAndOrderOfChecks : Prop :=
  (∀ (r : Resolver) (first length : Nat), 1 ≤ length →
    (first + length ≤ 2 ^ 39 ∨ (2 ^ 64 - 2 ^ 39 ≤ first ∧ first + length ≤ 2 ^ 64) →
      r.footprint false first length = .ranges [({ start := BitVec.ofNat 40 first, bytes := length }, none)]) ∧
    (¬ (first + length ≤ 2 ^ 39 ∨ (2 ^ 64 - 2 ^ 39 ≤ first ∧ first + length ≤ 2 ^ 64)) →
      r.footprint false first length = .fault .address) ∧
    (¬ (first + length ≤ 2 ^ 47 ∨ (2 ^ 64 - 2 ^ 47 ≤ first ∧ first + length ≤ 2 ^ 64)) →
      r.footprint true first length = .fault .address) ∧
    (first + length ≤ 2 ^ 47 ∨ (2 ^ 64 - 2 ^ 47 ≤ first ∧ first + length ≤ 2 ^ 64) →
      ((∀ (m : EntryId) (e : MapEntry), r.entries[m] = some e → e.matches r.context first = false) →
        r.footprint true first length = .fault .miss) ∧
      (∀ m e, matchEntry r.entries r.context first = some (m, e) →
        (r.pendingMark = some m → r.pins.getLsbD m = false → r.footprint true first length = .held) ∧
        ((r.pendingMark ≠ some m ∨ r.pins.getLsbD m = true) → r.write = false → e.readRight = false →
          r.footprint true first length = .fault .readDenied) ∧
        ((r.pendingMark ≠ some m ∨ r.pins.getLsbD m = true) → r.write = true → e.writeRight = false →
          r.footprint true first length = .fault .writeDenied) ∧
        ((r.pendingMark ≠ some m ∨ r.pins.getLsbD m = true) → (if r.write then e.writeRight else e.readRight) = true →
          let n := min length (e.effectiveBase.toNat + e.size.bytes - first)
          let range : PhysRange × Option EntryId :=
            ({ start := e.physicalBase + BitVec.ofNat 40 (first - e.effectiveBase.toNat), bytes := n }, some m)
          1 ≤ n ∧ (n = length → r.footprint true first length = .ranges [range]) ∧
          (n < length → r.footprint true first length =
            (match r.footprint true (first + n) (length - n) with
              | .ranges more => .ranges (range :: more)
              | .held => .held
              | .fault code => .fault code)))))) ∧
  (∀ (entries : Vector (Option MapEntry) 32) (context : Fin 16) (x : Nat) (m : EntryId) (e : MapEntry),
    matchEntry entries context x = some (m, e) → entries[m] = some e ∧ e.matches context x = true) ∧
  (∀ (e : MapEntry) (context : Fin 16) (x : Nat), e.matches context x = true ↔
    (e.shared = true ∨ e.context = context) ∧ e.effectiveBase.toNat ≤ x ∧ x < e.effectiveBase.toNat + e.size.bytes) ∧
  [PageSize.size4K, .size64K, .size2M, .size1G].map PageSize.bytes = [2 ^ 12, 2 ^ 16, 2 ^ 21, 2 ^ 30] ∧
  (∀ (c : ChainId) (j : Job) (p n q k : Nat) (code : Code) (s : State),
    (s.resolver c j false).footprint s.ten p n = .fault code → s.resolveLine c j p n q k = .fault code) ∧
  (∀ (c : ChainId) (j : Job) (p n q k : Nat) (s : State),
    (s.resolver c j false).footprint s.ten p n = .held → s.resolveLine c j p n q k = .held) ∧
  (∀ (c : ChainId) (j : Job) (p n q k : Nat) (fetch : List (PhysRange × Option EntryId)) (s : State),
    (s.resolver c j false).footprint s.ten p n = .ranges fetch →
    (∀ code, (s.resolver c j true).footprint s.ten q k = .fault code → s.resolveLine c j p n q k = .fault code) ∧
    ((s.resolver c j true).footprint s.ten q k = .held → s.resolveLine c j p n q k = .held) ∧
    (∀ store, (s.resolver c j true).footprint s.ten q k = .ranges store →
      s.resolveLine c j p n q k = .resolved (fetch.map (·.1)) (store.map (·.1)) (entriesUsed (fetch ++ store)))) ∧
  (∀ (c : ChainId) (j : Job) (b : TableBody) (s : State),
    (∀ code, (s.resolver c j false).footprint s.ten b.source.toNat (b.count.toNat * 2) = .fault code →
      s.resolveTable c j b = .fault code) ∧
    ((s.resolver c j false).footprint s.ten b.source.toNat (b.count.toNat * 2) = .held → s.resolveTable c j b = .held) ∧
    (∀ found, (s.resolver c j false).footprint s.ten b.source.toNat (b.count.toNat * 2) = .ranges found →
      s.resolveTable c j b = .resolved (found.map (·.1)) [] (entriesUsed found))) ∧
  (∀ (r : Surface) (y : Nat), r.lineAddress y = r.base.toNat + y * r.pitch)

/-- Protection: with TEN 1, every byte of a footprint that resolves goes through a valid entry that matches its address in
the job's context and has the right that the footprint needs, and it goes to that entry's physical page at the same place. A
job's footprints are resolved against the table and the pending mark as they stand, in the context latched by its chain, with its
own pin set; and a line or table resolution that is answered resolved has all its ranges from such footprints, of the fetch
and the table with the read right and of the store with the write right, and the entries it uses, no others, are those that
give a range. -/
def Obligations.FootprintThroughPermittingEntries : Prop :=
  (∀ (c : ChainId) (j : Job) (write : Bool) (s : State), s.resolver c j write = {
    entries := s.entries, pendingMark := s.pendingMark, context := (s.chain c).latched.context, pins := j.pins
    write := write }) ∧
  (∀ (found : List (PhysRange × Option EntryId)) (m : EntryId),
    (entriesUsed found).getLsbD m = true ↔ ∃ p ∈ found, p.2 = some m) ∧
  (∀ (c : ChainId) (j : Job) (p n q k : Nat) (fetch store : List PhysRange) (used : BitVec 32) (s : State),
    s.resolveLine c j p n q k = .resolved fetch store used → ∃ f g,
      (s.resolver c j false).footprint s.ten p n = .ranges f ∧ (s.resolver c j true).footprint s.ten q k = .ranges g ∧
      fetch = f.map (·.1) ∧ store = g.map (·.1) ∧ used = entriesUsed (f ++ g)) ∧
  (∀ (c : ChainId) (j : Job) (b : TableBody) (ranges store : List PhysRange) (used : BitVec 32) (s : State),
    s.resolveTable c j b = .resolved ranges store used → ∃ f,
      (s.resolver c j false).footprint s.ten b.source.toNat (b.count.toNat * 2) = .ranges f ∧
      ranges = f.map (·.1) ∧ store = [] ∧ used = entriesUsed f) ∧
  ∀ (r : Resolver) (first length : Nat) (found : List (PhysRange × Option EntryId)), 1 ≤ length →
    r.footprint true first length = .ranges found →
    (found.map fun p => p.1.bytes).sum = length ∧
    ∀ k < length, ∃ m e, r.entries[m] = some e ∧ e.matches r.context (first + k) = true ∧
      (e.shared = true ∨ e.context = r.context) ∧
      (if r.write then e.writeRight else e.readRight) = true ∧ (r.pendingMark = some m → r.pins.getLsbD m = true) ∧
      (∃ p ∈ found, p.2 = some m) ∧ (entriesUsed found).getLsbD m = true ∧
      (e.physicalBase.toNat + e.size.bytes ≤ 2 ^ 40 →
        (rangeAddresses (found.map (·.1)))[k]? =
          some (e.physicalBase.toNat + (first + k - e.effectiveBase.toNat)))

/-! ## Conversion of a line -/

/-- 06 R105 whole: a produced value fitted to a container, bit by bit; and the NEG and SAT marks do not depend on the fitting,
which sets neither (ZERO is taken from the values as fitted, 06 R112: PixelOutputs and ConversionCompleteIssuesStore). -/
def Obligations.ContainerFitting : Prop :=
  (∀ (policy : WidenPolicy) (pw dw x : Nat), 1 ≤ pw → x < 2 ^ pw →
    fit policy pw dw x < 2 ^ dw ∧ (pw = dw → fit policy pw dw x = x) ∧
    (dw < pw → ∀ i < dw, (fit policy pw dw x).testBit (dw - 1 - i) = x.testBit (pw - 1 - i)) ∧
    (pw < dw → policy = .replicate →
      ∀ i < dw, (fit policy pw dw x).testBit (dw - 1 - i) = x.testBit (pw - 1 - i % pw)) ∧
    (pw < dw → policy = .zeroLow → fit policy pw dw x = x * 2 ^ (dw - pw)) ∧
    (pw < dw → policy = .lowAlign → fit policy pw dw x = x)) ∧
  (∀ pw dw : Nat, 1 ≤ pw → pw < dw →
    fit .replicate pw dw 0 = 0 ∧ fit .replicate pw dw (2 ^ pw - 1) = 2 ^ dw - 1) ∧
  (∀ (p q : WidenPolicy) (pw dw x : Nat), dw ≤ pw → fit p pw dw x = fit q pw dw x) ∧
  (∀ (v : Conversion) (policy : WidenPolicy) (dw : Nat) (pixels : List (Option Nat)) (p : Nat),
    (({ v with policy := policy, containerWidth := dw } : Conversion).pixel pixels p).neg = (v.pixel pixels p).neg ∧
    (({ v with policy := policy, containerWidth := dw } : Conversion).pixel pixels p).sat = (v.pixel pixels p).sat)

/-- The chroma that a pixel carries for its pair, neutral where it is uncovered or missing (06 R108, R109). -/
def Sys2Proof.Statements.chromaOf (cw : Nat) (pixels : List (Option Nat)) (p : Nat) : Int :=
  match pixels[p]? with
  | some (some s) => s / 2 ^ cw
  | _ => 2 ^ (cw - 1)

/-- A component brought into 0 to 2^cw - 1 (06 R111). -/
def Sys2Proof.Statements.clamp (cw : Nat) (r : Int) : Nat := (max 0 (min r (2 ^ cw - 1))).toNat

/-- The output of a pixel: the fitted sample under PASS; the fitted table entry under LOOKUP; the three saturated components
under CHROMA with the marks they set; and the truncated fill where it is uncovered. -/
def Obligations.PixelOutputs : Prop :=
  ∀ (v : Conversion) (pixels : List (Option Nat)) (p : Nat),
    (∀ x, pixels[p]? = some (some x) → v.transform = .pass →
      v.pixel pixels p = { values := [fit v.policy v.source.laneWidth v.containerWidth x], neg := false, sat := false }) ∧
    (∀ (x : Nat) (e : Fin 1024), pixels[p]? = some (some x) → v.transform = .lookup →
      e.val = (v.source.tableBase * 64 + (if v.indexWidth ≤ v.source.laneWidth
        then x / 2 ^ (v.source.laneWidth - v.indexWidth) else x * 2 ^ (v.indexWidth - v.source.laneWidth))) % 1024 →
      v.pixel pixels p = { values := [fit v.policy 16 v.containerWidth (v.lut[e]).toNat], neg := false, sat := false }) ∧
    (∀ (x cw : Nat) (off luma u w r g b : Int), pixels[p]? = some (some x) → v.transform = .chroma →
      cw = v.source.laneWidth / 2 → off = 2 ^ (cw - 1) → luma = ((x % 2 ^ cw : Nat) : Int) →
      u = chromaOf cw pixels (if v.source.chromaOrder = .uFirst then p / 2 * 2 else p / 2 * 2 + 1) →
      w = chromaOf cw pixels (if v.source.chromaOrder = .uFirst then p / 2 * 2 + 1 else p / 2 * 2) →
      r = (1024 * luma + v.coeff.k1 * (w - off) + 512) / 1024 →
      g = (1024 * luma - v.coeff.k2 * (w - off) - v.coeff.k3 * (u - off) + 512) / 1024 →
      b = (1024 * luma + v.coeff.k4 * (u - off) + 512) / 1024 →
      v.pixel pixels p = {
        values := (if v.coeff.order = .rgb then [r, g, b] else [b, g, r]).map fun y =>
          fit v.policy cw v.containerWidth (clamp cw y)
        neg := decide (r < 0 ∨ g < 0 ∨ b < 0)
        sat := decide ((r < 0 ∨ g < 0 ∨ b < 0) ∨ (2 ^ cw - 1 < r ∨ 2 ^ cw - 1 < g ∨ 2 ^ cw - 1 < b)) }) ∧
    (pixels[p]? = some none →
      v.pixel pixels p = {
        values := List.replicate (if v.transform = .chroma then 3 else 1) (v.fill % 2 ^ v.containerWidth)
        neg := false, sat := false }) ∧
    (v.outputs pixels).length = pixels.length

/-- The pixel position that the tap of lane `i` of source line `y` delivers (05 R92 to R94). -/
def Sys2Proof.Statements.lanePosition (m : TapMap) (y i : Nat) : Option Int :=
  (m.taps[(i % m.taps.length + y * m.rotation) % m.taps.length]?).map fun t =>
    match t.direction with
    | .ascend => t.origin + ((i / m.taps.length * t.step : Nat) : Int)
    | .descend => t.origin - ((i / m.taps.length * t.step : Nat) : Int)

/-- Lanes and taps: lane i holds bits i × w up to i × w + w - 1 of the payload; each pixel holds the sample of the highest
lane whose position fell on it; a leftover lane, a position outside the line and a pixel written twice set the stray mark; and
the output values stand in the output payload as lanes of the container width. -/
def Obligations.LanesPlacedByTaps : Prop :=
  (∀ (payload : List Byte) (w i k : Nat), (laneValue (leNat payload) w i).testBit k =
    (decide (k < w) && ((payload[(i * w + k) / 8]?).getD 0).getLsbD ((i * w + k) % 8))) ∧
  (∀ (m : TapMap) (y : Nat) (payload : List Byte) (w lanes count pixels : Nat) (image : WorkingImage),
    1 ≤ m.taps.length → count = lanes / m.taps.length * m.taps.length →
    image = (WorkingImage.empty pixels).untangle m y payload w lanes →
    image.pixels.length = pixels ∧
    (∀ p < pixels, ∀ i < count, lanePosition m y i = some (p : Int) →
      (∀ k, i < k → k < count → lanePosition m y k ≠ some (p : Int)) →
      image.pixels[p]? = some (some (laneValue (leNat payload) w i))) ∧
    (∀ p < pixels, (∀ i < count, lanePosition m y i ≠ some (p : Int)) → image.pixels[p]? = some none) ∧
    (image.stray = true ↔ lanes % m.taps.length ≠ 0 ∨
      (∃ i < count, ∃ x, lanePosition m y i = some x ∧ (x < 0 ∨ (pixels : Int) ≤ x)) ∨
      ∃ i k, i < k ∧ k < count ∧ lanePosition m y i = lanePosition m y k)) ∧
  (∀ (outputs : List PixelOutput) (dw q x : Nat), (dw = 8 ∨ dw = 16 ∨ dw = 32) →
    (outputValues outputs)[q]? = some x → x < 2 ^ dw → laneValue (leNat (outputPayload dw outputs)) dw q = x)

/-- Trailers: the CRC, bit step by bit step, and its check value; a destination footprint with trailer NONE is its payload; with trailer CRC it is
the payload, pad bytes of 0 and the CRC little-endian, and the source check of such a line matches. -/
def Obligations.TrailersOfDestinationLines : Prop :=
  crcOf [0x31, 0x32, 0x33, 0x34, 0x35, 0x36, 0x37, 0x38, 0x39] = 0xCBF43926#32 ∧
  crcOf [] = 0 ∧
  (∀ bytes : List Byte, crcOf bytes = ~~~ crcTake 0xFFFFFFFF#32 bytes) ∧ (∀ r, crcTake r [] = r) ∧
  (∀ (r : BitVec 32) (bytes : List Byte) (b : Byte), crcTake r (bytes ++ [b]) = crcByte (crcTake r bytes) b) ∧
  (∀ (r : BitVec 32) (b : Byte), crcByte r b = (List.range 8).foldl (fun x _ =>
    if x.getLsbD 0 then (x >>> 1) ^^^ 0xEDB88320#32 else x >>> 1) (r ^^^ b.setWidth 32)) ∧
  (∀ (dest : Surface) (payload : List Byte), destFootprint dest none payload = payload) ∧
  (∀ (dest : Surface) (payload : List Byte), payload.length = dest.payload →
    dest.trailerOffset = (dest.payload + 3) / 4 * 4 →
    let made := destFootprint dest (some { crc := 0xFFFFFFFF#32, taken := 0 }) payload
    made.length = dest.trailerOffset + 4 ∧ made.take dest.payload = payload ∧
    (∀ k, dest.payload ≤ k → k < dest.trailerOffset → made[k]? = some 0) ∧
    fieldAt made dest.trailerOffset 4 = (crcOf payload).toNat ∧ (FetchCheck.start.arrived dest made).isMatch = true)

/-! ## What every step keeps -/

/-- The list of bytes that the part has written stays in canonical form. The list is the model's own (log 4). -/
def Obligations.MemoryStaysCanonical : Prop :=
  ∀ s t : State, s.memoryCanonical → step s = .next t → t.memoryCanonical

/-- 04 R65: the pass-over counts stay from 0 to 8; and 04 R82: the discard mark stays on FETCHING lines, which hold no output
buffer. -/
def Obligations.LineEngineRulesStay : Prop :=
  (∀ s t : State, s.passOverBounded → step s = .next t → t.passOverBounded) ∧
  (∀ s t : State, s.discardsFetching → step s = .next t → t.discardsFetching)

/-- 08 R150: no effective address comes to be matched by two valid mapping entries for one context. -/
def Obligations.TableStaysUnambiguous : Prop :=
  ∀ s t : State, s.tableUnambiguous → step s = .next t → t.tableUnambiguous

/-- 02 R34: every waiter goes on wanting the opposite of its flag's current value. -/
def Obligations.WaitersStayUnsatisfied : Prop :=
  ∀ s t : State, s.waitersUnsatisfied → step s = .next t → t.waitersUnsatisfied

/-- The frame of every command: the surface slots, the coefficient sets, the lookup table, TEN, EXCHANGE_BASE,
ATTENTION_MASK and the pass-over counts change only by the commands named for each, and so does the mapping table while no
replacement is pending; no command adds to the queue, POWER_ON_RESET included (the model's choice, log 14); the bytes of memory
change only at the answer of a write (the model's choice, log 4), and only inside the bytes of an outstanding write. -/
def Obligations.StoresChangeByTheirOwnCommands : Prop :=
  ∀ (i : Instr) (s t : State), exec i s = .next t →
    (i.mayChangeSurfaces = false → t.surfaces = s.surfaces) ∧ (i.mayChangeCoeffs = false → t.coeffs = s.coeffs) ∧
    (i.mayChangeLut = false → t.lut = s.lut) ∧ (i.mayChangeTen = false → t.ten = s.ten) ∧
    (i.mayChangeExchangeBase = false → t.exchangeBase = s.exchangeBase) ∧
    (i.mayChangeMask = false → t.attentionMask = s.attentionMask) ∧
    (i.mayChangePassOver = false → t.passOver = s.passOver) ∧
    (s.pendingMark = none → i.mayChangeEntries = false → t.entries = s.entries) ∧ t.pending = s.pending ∧
    (i.mayChangeMemory = false → t.memory = s.memory) ∧
    ∀ address, (∀ a ∈ s.accesses, address ∉ a.cells.map (·.1)) →
      Memory.read t.memory address = Memory.read s.memory address

/-- The five invariants hold after reset. -/
def Obligations.ResetIsSafe : Prop :=
  State.reset.memoryCanonical ∧ State.reset.passOverBounded ∧ State.reset.tableUnambiguous ∧
  State.reset.waitersUnsatisfied ∧ State.reset.discardsFetching
end

