-- ==== Sys2Proof/Laws/Accesses.lean ====
section
/-! SUPPORT. What the answer of an outstanding access does to the list, said once: it leaves the list, and what follows runs
on the state without it. -/

namespace Sys2Proof.Machine

@[simp] theorem Access.without_nil (a : Access) : a.without [] = a := by
  have h : a.cells.filter (fun c => !([] : List Nat).contains c.1) = a.cells :=
    List.filter_eq_self.mpr fun c _ => rfl
  unfold Access.without
  rw [h]

/-- A failed outcome write or release write lands nothing (01 R13, 09 R162). -/
theorem landedCells_error_of_stateByte {a : Access} {x : Nat} (h : a.stateByte = some x) (landed : List Nat) :
    landedCells (.error landed) a = [] := by
  simp [landedCells, h]

/-- Any other failed write lands the bytes that its answer names. -/
theorem landedCells_error_of_none {a : Access} (h : a.stateByte = none) (landed : List Nat) :
    landedCells (.error landed) a = a.cells.filter fun c => landed.contains c.1 := by
  simp [landedCells, h]

theorem nthAccess_append (p : Access → Bool) (a : Access) (before after : List Access) (n : Nat) (ha : p a = true)
    (hn : before.countP p = n) : nthAccess p (before ++ a :: after) n = some a := by
  induction before generalizing n with
  | nil =>
    subst hn
    simp [nthAccess, ha]
  | cons b rest ih =>
    simp only [List.cons_append, nthAccess]
    rw [List.countP_cons] at hn
    split
    · next hb =>
      rw [if_pos hb] at hn
      subst hn
      exact ih _ rfl
    · next hb =>
      rw [if_neg hb] at hn
      exact ih n hn

theorem removeNth_append (p : Access → Bool) (landed : List Nat) (a : Access) (before after : List Access) (n : Nat)
    (ha : p a = true) (hn : before.countP p = n) :
    removeNth p landed (before ++ a :: after) n = before.map (Access.without landed) ++ after := by
  induction before generalizing n with
  | nil =>
    subst hn
    simp [removeNth, ha]
  | cons b rest ih =>
    simp only [List.cons_append, List.map_cons, removeNth]
    rw [List.countP_cons] at hn
    split
    · next hb =>
      rw [if_pos hb] at hn
      subst hn
      exact congrArg _ (ih _ rfl)
    · next hb =>
      rw [if_neg hb] at hn
      exact congrArg _ (ih n hn)

theorem removeNth_append_nil (p : Access → Bool) (a : Access) (before after : List Access) (n : Nat)
    (ha : p a = true) (hn : before.countP p = n) :
    removeNth p [] (before ++ a :: after) n = before ++ after := by
  rw [removeNth_append p [] a before after n ha hn]
  have h : Access.without [] = id := funext Access.without_nil
  rw [h, List.map_id]

/-- An outstanding read is answered: it leaves the list and `after` follows. -/
theorem State.onRead_outstanding {s : State} {p : Access → Bool} {a : Access} {before later : List Access}
    (h : s.hasOutstanding p 0 a before later) (answer : ReadAnswer) (after : Access → State → State)
    (hl : answer.hasLength a.bytes = true) (hr : s.softReset = false) :
    s.onRead p answer after = after a { s with accesses := before ++ later } := by
  unfold State.onRead
  rw [h.1, nthAccess_append p a before later 0 h.2.1 h.2.2]
  simp only [hl, ↓reduceIte, removeNth_append_nil p a before later 0 h.2.1 h.2.2, hr, Bool.false_eq_true]

/-- An outstanding write is answered: its landed bytes have changed memory, it leaves the list, and `after` follows. -/
theorem State.onWrite_outstanding {s : State} {p : Access → Bool} {n : Nat} {a : Access} {before later : List Access}
    (h : s.hasOutstanding p n a before later) (answer : WriteAnswer) (after : Access → Bool → State → State)
    (hc : writeIsCut answer = false) (hr : s.softReset = false) :
    s.onWrite p n answer after = after a (writeOk answer)
      { s with accesses := before.map (Access.without ((landedCells answer a).map (·.1))) ++ later
               memory := Memory.writeAll s.memory (landedCells answer a) } := by
  unfold State.onWrite
  rw [h.1, nthAccess_append p a before later n h.2.1 h.2.2]
  simp only [hc, Bool.false_and, Bool.false_eq_true, ↓reduceIte, removeNth_append p _ a before later n h.2.1 h.2.2, hr]

end Sys2Proof.Machine
end

