-- ==== Sys2Proof/Laws/Flags.lean ====
section
/-! SUPPORT. The Flag File between arrivals (02 R34): after every arrival, no registered waiter is satisfied. -/

namespace Sys2Proof.Machine

/-- No waiter against a flag of `p` is satisfied. -/
def FlagFile.unsatisfiedOn (p : FlagId → Prop) (ff : FlagFile) : Prop :=
  ∀ (c : ChainId) (w : Waiter), ff.waiters[c] = some w → p w.flag → w.wanted ≠ ff.value w.flag

/-- No waiter is satisfied. -/
def FlagFile.unsatisfied (ff : FlagFile) : Prop := ff.unsatisfiedOn fun _ => True

/-- The number of waiters. -/
def FlagFile.count (ff : FlagFile) : Nat := (allChains.filter fun c => ff.waiters[c].isSome).length

theorem mem_allChains (c : ChainId) : c ∈ allChains := by
  revert c
  decide

theorem FlagFile.count_le (ff : FlagFile) : ff.count ≤ 4 := by
  unfold FlagFile.count
  exact Nat.le_trans (List.length_filter_le _ _) (by decide)

theorem FlagFile.waiters_unregister (ff : FlagFile) (cs : List ChainId) (c : ChainId) :
    (ff.unregister cs).waiters[c] = if cs.contains c then none else ff.waiters[c] := by
  simp [FlagFile.unregister]

theorem FlagFile.value_put (ff : FlagFile) (f g : FlagId) (v : Bool) :
    (ff.put f v).value g = if g = f then v else ff.value g := by
  have hg : (g : Nat) < 32 := g.isLt
  unfold FlagFile.put FlagFile.value
  by_cases h : g = f
  · subst h
    cases v <;> simp [hg]
  · have hne : decide ((f : Nat) = (g : Nat)) = false := decide_eq_false fun e => h (Fin.ext e.symm)
    rw [if_neg h]
    cases v
    · simp only [Bool.false_eq_true, ↓reduceIte, BitVec.getLsbD_and, BitVec.getLsbD_not, BitVec.getLsbD_twoPow, hg, hne]
      simp
    · simp only [↓reduceIte, BitVec.getLsbD_or, BitVec.getLsbD_twoPow, hne]
      simp

/-- A flag given the value it has stays as it is. -/
theorem FlagFile.put_value (ff : FlagFile) (f : FlagId) : ff.put f (ff.value f) = ff := by
  have h : (ff.put f (ff.value f)).flags = ff.flags := BitVec.eq_of_getLsbD_eq fun i hi => by
    refine (FlagFile.value_put ff f ⟨i, hi⟩ (ff.value f)).trans ?_
    split
    · next e => rw [← e]; rfl
    · rfl
  exact congrArg (fun x : BitVec 32 => { ff with flags := x }) h

theorem mem_bestChain {level : ChainId → Nat} {cs : List ChainId} {c : ChainId} (h : bestChain level cs = some c) :
    c ∈ cs := by
  induction cs generalizing c with
  | nil => simp [bestChain] at h
  | cons x rest ih =>
    simp only [bestChain] at h
    split at h
    · simp_all
    · next d hd =>
      split at h
      · simp only [Option.some.injEq] at h
        subst h
        exact List.mem_cons_of_mem _ (ih hd)
      · simp_all

theorem bestChain_eq_none {level : ChainId → Nat} {cs : List ChainId} (h : bestChain level cs = none) : cs = [] := by
  cases cs with
  | nil => rfl
  | cons x rest =>
    simp only [bestChain] at h
    split at h
    · simp at h
    · split at h <;> simp at h

/-- The chain that goes before every other of an increasing list is the one of highest priority. -/
theorem bestChain_eq_some {level : ChainId → Nat} {cs : List ChainId} {c : ChainId} (hs : cs.Pairwise (· < ·))
    (hc : c ∈ cs) (h : ∀ d ∈ cs, d ≠ c → level c < level d ∨ (level c = level d ∧ c < d)) :
    bestChain level cs = some c := by
  induction cs with
  | nil => cases hc
  | cons x rest ih =>
    have hx := (List.pairwise_cons.mp hs).1
    simp only [bestChain]
    rcases List.mem_cons.mp hc with rfl | hc'
    · cases hb : bestChain level rest with
      | none => rfl
      | some d =>
        have hd := mem_bestChain hb
        have hne : d ≠ c := fun e => absurd (e ▸ hx d hd) (Fin.lt_irrefl c)
        have := h d (List.mem_cons_of_mem _ hd) hne
        simp only
        rw [if_neg]
        omega
    · rw [ih (List.pairwise_cons.mp hs).2 hc' fun d hd => h d (List.mem_cons_of_mem _ hd)]
      have hlt := hx c hc'
      have := h x List.mem_cons_self fun e => absurd (e ▸ hlt) (Fin.lt_irrefl x)
      simp only
      rw [if_pos]
      rcases this with h | ⟨_, h'⟩
      · exact h
      · exact absurd (Fin.lt_trans h' hlt) (Fin.lt_irrefl c)

/-- The chains that satisfy `p`, as the blocks list them, stand in increasing order. -/
theorem allChains_filter_increasing (p : ChainId → Bool) : (allChains.filter p).Pairwise (· < ·) :=
  List.Pairwise.filter p (by decide)

theorem FlagFile.mem_satisfied {ff : FlagFile} {f : FlagId} {k : Bool} {c : ChainId} :
    c ∈ ff.satisfied f k ↔ ∃ w, ff.waiters[c] = some w ∧ w.flag = f ∧ w.consuming = k ∧ w.wanted = ff.value f := by
  unfold FlagFile.satisfied
  rw [List.mem_filter]
  constructor
  · rintro ⟨_, h⟩
    split at h
    · next w hw => exact ⟨w, hw, by simpa [and_assoc] using h⟩
    · simp at h
  · rintro ⟨w, hw, h⟩
    exact ⟨mem_allChains c, by rw [hw]; simp [h]⟩

theorem FlagFile.count_unregister_le (ff : FlagFile) (cs : List ChainId) : (ff.unregister cs).count ≤ ff.count := by
  unfold FlagFile.count
  rw [← List.countP_eq_length_filter, ← List.countP_eq_length_filter]
  refine List.countP_mono_left fun c _ h => ?_
  rw [FlagFile.waiters_unregister] at h
  split at h
  · exact absurd h (by simp)
  · exact h

theorem FlagFile.count_unregister_lt (ff : FlagFile) (c : ChainId) (h : ff.waiters[c].isSome) :
    (ff.unregister [c]).count < ff.count := by
  revert h
  unfold FlagFile.count
  simp only [FlagFile.waiters_unregister]
  revert c
  have : allChains = [0, 1, 2, 3] := by decide
  rw [this]
  intro c h
  cases h0 : ff.waiters[(0 : ChainId)].isSome <;> cases h1 : ff.waiters[(1 : ChainId)].isSome <;>
  cases h2 : ff.waiters[(2 : ChainId)].isSome <;> cases h3 : ff.waiters[(3 : ChainId)].isSome <;>
  match c with
  | 0 => simp_all
  | 1 => simp_all
  | 2 => simp_all
  | 3 => simp_all

/-- An evaluation of a flag ends with no waiter on it satisfied, and disturbs no waiter on another. -/
theorem FlagFile.evaluate_unsatisfied (level : ChainId → Nat) (f : FlagId) (p : FlagId → Prop) (fuel : Nat)
    (ff : FlagFile) (hc : ff.count < fuel) (h : ff.unsatisfiedOn fun g => p g ∧ g ≠ f) :
    (FlagFile.evaluate level f fuel ff).1.unsatisfiedOn fun g => p g ∨ g = f := by
  induction fuel generalizing ff with
  | zero => exact absurd hc (Nat.not_lt_zero _)
  | succ fuel ih =>
    simp only [FlagFile.evaluate]
    generalize hff : ff.unregister (ff.satisfied f false) = ff₁
    have hv : ∀ g, ff₁.value g = ff.value g := by intro g; subst hff; rfl
    have hw : ∀ c w, ff₁.waiters[c] = some w → ff.waiters[c] = some w ∧ c ∉ ff.satisfied f false := by
      intro c w hcw
      subst hff
      rw [FlagFile.waiters_unregister] at hcw
      split at hcw
      · simp at hcw
      · next hn => exact ⟨hcw, by simpa using hn⟩
    have hcount : ff₁.count ≤ ff.count := by subst hff; exact FlagFile.count_unregister_le _ _
    split
    · next hb =>
      have hnil := bestChain_eq_none hb
      intro c w hcw hp
      obtain ⟨hcw0, hnot⟩ := hw c w hcw
      rw [hv]
      by_cases hf : w.flag = f
      · intro heq
        cases hk : w.consuming with
        | false => exact hnot (FlagFile.mem_satisfied.mpr ⟨w, hcw0, hf, hk, by rw [heq, hf]⟩)
        | true =>
          have : c ∈ ff₁.satisfied f true := FlagFile.mem_satisfied.mpr ⟨w, hcw, hf, hk, by rw [hv, heq, hf]⟩
          rw [hnil] at this
          simp at this
      · exact h c w hcw0 ⟨hp.resolve_right hf, hf⟩
    · next c hb =>
      have hmem := mem_bestChain hb
      obtain ⟨w0, hw0, _⟩ := FlagFile.mem_satisfied.mp hmem
      refine ih _ ?_ ?_
      · have h1 : ((ff₁.unregister [c]).put f (!ff₁.value f)).count = (ff₁.unregister [c]).count := rfl
        have h2 := FlagFile.count_unregister_lt ff₁ c (by rw [hw0]; rfl)
        omega
      · intro d w hd hp
        have hd' : (ff₁.unregister [c]).waiters[d] = some w := hd
        rw [FlagFile.waiters_unregister] at hd'
        split at hd'
        · simp at hd'
        · obtain ⟨hd0, _⟩ := hw d w hd'
          rw [FlagFile.value_put, if_neg hp.2]
          show w.wanted ≠ ff₁.value w.flag
          rw [hv]
          exact h d w hd0 hp

theorem FlagFile.change_unsatisfied (level : ChainId → Nat) (f : FlagId) (v : Bool) (ff : FlagFile)
    (h : ff.unsatisfied) : (ff.change level f v).1.unsatisfied := by
  unfold FlagFile.change
  split
  · exact h
  · have := FlagFile.evaluate_unsatisfied level f (fun _ => True) 5 (ff.put f v)
      (Nat.lt_of_le_of_lt (FlagFile.count_le _) (by decide)) (by
        intro c w hcw hp
        rw [FlagFile.value_put, if_neg hp.2]
        exact h c w hcw trivial)
    exact fun c w hcw _ => this c w hcw (.inl trivial)

theorem FlagFile.apply_unsatisfied (level : ChainId → Nat) (f : FlagId) (op : FlagOp) (ff : FlagFile)
    (h : ff.unsatisfied) : (ff.apply level f op).1.unsatisfied := by
  cases op <;> exact FlagFile.change_unsatisfied level f _ ff h

theorem FlagFile.applyAll_unsatisfied (level : ChainId → Nat) (ops : List (FlagId × FlagOp)) (ff : FlagFile)
    (h : ff.unsatisfied) : (ff.applyAll level ops).1.unsatisfied := by
  induction ops generalizing ff with
  | nil => exact h
  | cons o rest ih => exact ih _ (FlagFile.apply_unsatisfied level o.1 o.2 ff h)

theorem FlagFile.evaluateAll_unsatisfied (level : ChainId → Nat) (fs : List FlagId) (p : FlagId → Prop) (ff : FlagFile)
    (h : ff.unsatisfiedOn fun g => p g ∧ g ∉ fs) :
    (FlagFile.evaluateAll level fs ff).1.unsatisfiedOn fun g => p g ∨ g ∈ fs := by
  induction fs generalizing p ff with
  | nil => exact fun c w hcw hp => h c w hcw ⟨by simpa using hp, by simp⟩
  | cons f rest ih =>
    have h1 := FlagFile.evaluate_unsatisfied level f (fun g => p g ∧ g ∉ rest) 5 ff
      (Nat.lt_of_le_of_lt (FlagFile.count_le _) (by decide))
      (fun c w hcw hp => h c w hcw ⟨hp.1.1, by simp [hp.1.2, hp.2]⟩)
    have h2 := ih (fun g => p g ∨ g = f) _ (fun c w hcw hp => h1 c w hcw (by
      rcases hp with ⟨hp | hp, hn⟩
      · exact .inl ⟨hp, hn⟩
      · exact .inr hp))
    intro c w hcw hp
    refine h2 c w hcw ?_
    rcases hp with hp | hp
    · exact .inl (.inl hp)
    · rcases List.mem_cons.mp hp with hp | hp
      · exact .inl (.inr hp)
      · exact .inr hp

theorem FlagFile.hostWrite_unsatisfied (level : ChainId → Nat) (new : BitVec 32) (ff : FlagFile)
    (h : ff.unsatisfied) : (ff.hostWrite level new).1.unsatisfied := by
  unfold FlagFile.hostWrite
  have := FlagFile.evaluateAll_unsatisfied level (changedFlags ff.flags new) (fun _ => True)
    { ff with flags := new } (by
      intro c w hcw hp
      have hn : ff.flags.getLsbD w.flag = new.getLsbD w.flag := by
        have := hp.2
        simpa [changedFlags] using this
      show w.wanted ≠ new.getLsbD w.flag
      rw [← hn]
      exact h c w hcw trivial)
  exact fun c w hcw _ => this c w hcw (.inl trivial)

theorem FlagFile.register_unsatisfied (level : ChainId → Nat) (c : ChainId) (w : Waiter) (ff : FlagFile)
    (h : ff.unsatisfied) : (ff.register level c w).1.unsatisfied := by
  unfold FlagFile.register
  split
  · dsimp only
    split
    · exact FlagFile.change_unsatisfied level w.flag (!w.wanted) ff h
    · exact h
  · next hn =>
    intro d v hd _
    have hd' : (ff.waiters.set c (some w))[d] = some v := hd
    simp only [Fin.getElem_fin, Vector.getElem_set] at hd'
    split at hd'
    · simp only [Option.some.injEq] at hd'
      subst hd'
      exact fun e => hn e.symm
    · exact h d v hd' trivial

theorem State.unsatisfied_flagFile (s : State) : s.flagFile.unsatisfied ↔ s.waitersUnsatisfied :=
  ⟨fun h c w hcw => h c w hcw trivial, fun h c w hcw _ => h c w hcw⟩

end Sys2Proof.Machine
end

