-- ==== Sys2Proof/Laws/Translation.lean ====
section
/-! SUPPORT. A MAP operation carried out keeps the mapping table unambiguous (08 R150); the matching entry and
the walk of a footprint, range by range (08 R140, R143). -/

namespace Sys2Proof.Machine

theorem MapEntry.conflicts_of_matches {a b : MapEntry} {context : Fin 16} {x : Nat}
    (ha : a.matches context x = true) (hb : b.matches context x = true) : a.conflicts b = true := by
  unfold MapEntry.matches at ha hb
  unfold MapEntry.conflicts
  simp only [Bool.and_eq_true, Bool.or_eq_true, beq_iff_eq, decide_eq_true_eq] at *
  refine ⟨⟨?_, by omega⟩, by omega⟩
  rcases ha.1.1 with h | h
  · exact .inl (.inl h)
  · rcases hb.1.1 with h' | h'
    · exact .inl (.inr h')
    · exact .inr (h.trans h'.symm)

theorem not_conflicts_of_not_overlaps {entries : Vector (Option MapEntry) 32} {slot m : EntryId} {e other : MapEntry}
    (h : overlapsTable entries slot e = false) (hm : entries[m] = some other) (hne : m ≠ slot) :
    e.conflicts other = false := by
  unfold overlapsTable at h
  rw [List.any_eq_false] at h
  have := h m (List.mem_finRange m)
  rw [hm] at this
  simpa [hne] using this

theorem getElem_set_entry (entries : Vector (Option MapEntry) 32) (slot m : EntryId) (x : Option MapEntry) :
    (entries.set slot x)[m] = if slot = m then x else entries[m] := by
  simp only [Fin.getElem_fin, Vector.getElem_set, Fin.val_inj]

theorem entriesUnambiguous_clear {entries : Vector (Option MapEntry) 32} (h : entriesUnambiguous entries)
    (slot : EntryId) : entriesUnambiguous (entries.set slot none) := by
  intro context x m n a b hm hn ha hb
  rw [getElem_set_entry] at hm hn
  split at hm
  · simp at hm
  · split at hn
    · simp at hn
    · exact h context x m n a b hm hn ha hb

theorem entriesUnambiguous_load {entries : Vector (Option MapEntry) 32} (h : entriesUnambiguous entries)
    {slot : EntryId} {e : MapEntry} (ho : overlapsTable entries slot e = false) :
    entriesUnambiguous (entries.set slot (some e)) := by
  intro context x m n a b hm hn ha hb
  rw [getElem_set_entry] at hm hn
  split at hm
  · next hsm =>
    split at hn
    · next hsn => exact hsm.symm.trans hsn
    · next hsn =>
      simp only [Option.some.injEq] at hm
      subst hm
      have := MapEntry.conflicts_of_matches ha hb
      rw [not_conflicts_of_not_overlaps ho hn (Ne.symm hsn)] at this
      simp at this
  · next hsm =>
    split at hn
    · simp only [Option.some.injEq] at hn
      subst hn
      have := MapEntry.conflicts_of_matches hb ha
      rw [not_conflicts_of_not_overlaps ho hm (Ne.symm hsm)] at this
      simp at this
    · exact h context x m n a b hm hn ha hb

theorem entriesUnambiguous_mapCarriedOut {entries new : Vector (Option MapEntry) 32} {slot : EntryId}
    {e : Option MapEntry} (h : entriesUnambiguous entries) (hc : mapCarriedOut entries slot e = some new) :
    entriesUnambiguous new := by
  unfold mapCarriedOut at hc
  split at hc
  · split at hc
    · simp at hc
    · next ho =>
      simp only [Option.some.injEq] at hc
      subst hc
      exact entriesUnambiguous_load h (by simpa using ho)
  · simp only [Option.some.injEq] at hc
    subst hc
    exact entriesUnambiguous_clear h slot

/-- A page has a byte. -/
theorem PageSize.bytes_pos (p : PageSize) : 1 ≤ p.bytes := by cases p <;> decide

/-- 08 R140. -/
theorem MapEntry.matches_iff (e : MapEntry) (context : Fin 16) (x : Nat) : e.matches context x = true ↔
    (e.shared = true ∨ e.context = context) ∧ e.effectiveBase.toNat ≤ x ∧ x < e.effectiveBase.toNat + e.size.bytes := by
  have hp := e.size.bytes_pos
  have hl : e.pageLast = e.effectiveBase.toNat + e.size.bytes - 1 := rfl
  simp only [MapEntry.matches, Bool.and_eq_true, Bool.or_eq_true, beq_iff_eq, decide_eq_true_eq]
  constructor
  · rintro ⟨⟨h, k⟩, l⟩
    exact ⟨h, k, by omega⟩
  · rintro ⟨h, k, l⟩
    exact ⟨⟨h, k⟩, by omega⟩

/-- 08 R150: two pages overlap in some context exactly where some address of it is matched by both. -/
theorem MapEntry.conflicts_iff (a b : MapEntry) : a.conflicts b = true ↔
    ∃ context x, b.matches context x = true ∧ a.matches context x = true := by
  have pa := a.size.bytes_pos
  have pb := b.size.bytes_pos
  have ha : a.pageLast = a.effectiveBase.toNat + a.size.bytes - 1 := rfl
  have hb : b.pageLast = b.effectiveBase.toNat + b.size.bytes - 1 := rfl
  simp only [MapEntry.matches_iff, MapEntry.conflicts, Bool.and_eq_true, Bool.or_eq_true, beq_iff_eq, decide_eq_true_eq]
  constructor
  · rintro ⟨⟨h, k⟩, l⟩
    refine ⟨if b.shared then a.context else b.context, max a.effectiveBase.toNat b.effectiveBase.toNat,
      ⟨?_, by omega, by omega⟩, ?_, by omega, by omega⟩
    · cases hb : b.shared <;> simp
    · rcases h with (h | h) | h
      · exact .inl h
      · simp [h]
      · right; split <;> simp_all
  · rintro ⟨context, x, ⟨h, k, l⟩, h', k', l'⟩
    refine ⟨⟨?_, by omega⟩, by omega⟩
    rcases h with h | h
    · exact .inl (.inr h)
    · rcases h' with h' | h'
      · exact .inl (.inl h')
      · exact .inr (h'.trans h.symm)

/-- The entry taken is a valid one that matches. -/
theorem matchEntry_some {entries : Vector (Option MapEntry) 32} {context : Fin 16} {x : Nat} {m : EntryId} {e : MapEntry}
    (h : matchEntry entries context x = some (m, e)) : entries[m] = some e ∧ e.matches context x = true := by
  obtain ⟨n, -, hn⟩ := List.exists_of_findSome?_eq_some h
  split at hn
  · next o ho =>
    split at hn
    · next hm =>
      simp only [Option.some.injEq, Prod.mk.injEq] at hn
      obtain ⟨rfl, rfl⟩ := hn
      exact ⟨ho, hm⟩
    · cases hn
  · cases hn

/-- As much fuel as bytes is enough for a walk. -/
theorem Resolver.walk_fuel (r : Resolver) (fuel x last : Nat) (h : last + 1 - x ≤ fuel) :
    r.walk (fuel + 1) x last = r.walk fuel x last := by
  induction fuel generalizing x with
  | zero =>
    have : last < x := by omega
    simp [Resolver.walk, this]
  | succ fuel ih =>
    rw [Resolver.walk.eq_2 r x last (fuel + 1), Resolver.walk.eq_2 r x last fuel]
    split
    · rfl
    · split
      · rfl
      · next m e hm =>
        have hx := (e.matches_iff _ _).mp (matchEntry_some hm).2
        have hl : e.pageLast = e.effectiveBase.toNat + e.size.bytes - 1 := rfl
        have := ih (min last e.pageLast + 1) (by omega)
        simp only [this]

/-- More fuel than enough changes nothing. -/
theorem Resolver.walk_more_fuel (r : Resolver) {fuel n x last : Nat} (h : last + 1 - x ≤ fuel) (hn : fuel ≤ n) :
    r.walk n x last = r.walk fuel x last := by
  induction n with
  | zero => simp [Nat.le_zero.mp hn]
  | succ n ih =>
    by_cases e : fuel = n + 1
    · rw [e]
    · rw [r.walk_fuel n x last (by omega), ih (by omega)]

end Sys2Proof.Machine
end

