-- ==== Sys2Proof/Laws/Keeps.lean ====
section
/-! SUPPORT. What every shared operation of the chains leaves as it was, said once: the stores of configuration, TEN, the
soft reset, EXCHANGE_BASE, ATTENTION_MASK, the bytes written, the pass-over counts, the queue, and, while no replacement is pending, the mapping table; and the rules that
it keeps, of the mapping table (08 R150), of the waiters (02 R34) and of the discard marks (04 R82). -/

namespace Sys2Proof.Machine

/-- The operation from `s` to `t` touches none of these stores and keeps the rules of the table, of the waiters and of the
discard marks. -/
structure Keeps (s t : State) : Prop where
  surfaces : t.surfaces = s.surfaces
  lut : t.lut = s.lut
  coeffs : t.coeffs = s.coeffs
  ten : t.ten = s.ten
  softReset : t.softReset = s.softReset
  exchangeBase : t.exchangeBase = s.exchangeBase
  attentionMask : t.attentionMask = s.attentionMask
  memory : t.memory = s.memory
  passOver : t.passOver = s.passOver
  pending : t.pending = s.pending
  table : s.tableUnambiguous → t.tableUnambiguous
  waiters : s.waitersUnsatisfied → t.waitersUnsatisfied
  entries : s.pendingMark = none → t.entries = s.entries ∧ t.pendingMark = none
  discards : s.discardsFetching → t.discardsFetching

theorem Keeps.refl (s : State) : Keeps s s := ⟨rfl, rfl, rfl, rfl, rfl, rfl, rfl, rfl, rfl, rfl, id, id, fun h => ⟨rfl, h⟩, id⟩

theorem Keeps.trans {s t u : State} (h : Keeps s t) (k : Keeps t u) : Keeps s u :=
  ⟨k.surfaces.trans h.surfaces, k.lut.trans h.lut, k.coeffs.trans h.coeffs, k.ten.trans h.ten,
   k.softReset.trans h.softReset, k.exchangeBase.trans h.exchangeBase, k.attentionMask.trans h.attentionMask,
   k.memory.trans h.memory, k.passOver.trans h.passOver, k.pending.trans h.pending, k.table ∘ h.table,
   k.waiters ∘ h.waiters,
   fun hp => ⟨(k.entries (h.entries hp).2).1.trans (h.entries hp).1, (k.entries (h.entries hp).2).2⟩,
   k.discards ∘ h.discards⟩

theorem Keeps.foldl {α : Type} {f : State → α → State} (h : ∀ s a, Keeps s (f s a)) (s : State) (l : List α) :
    Keeps s (l.foldl f s) := by
  induction l generalizing s with
  | nil => exact .refl s
  | cons a rest ih => exact (h s a).trans (ih (f s a))

/-! ## Updates -/

variable (s : State) (c : ChainId)

theorem State.setChain_keeps (x : Chain) : Keeps s (s.setChain c x) :=
  ⟨rfl, rfl, rfl, rfl, rfl, rfl, rfl, rfl, rfl, rfl, id, id, fun h => ⟨rfl, h⟩, id⟩

theorem State.updChain_keeps (f : Chain → Chain) : Keeps s (s.updChain c f) := State.setChain_keeps s c _

theorem State.setJob_keeps (j : Option Job) : Keeps s (s.setJob c j) :=
  ⟨rfl, rfl, rfl, rfl, rfl, rfl, rfl, rfl, rfl, rfl, id, id, fun h => ⟨rfl, h⟩, id⟩

theorem State.updJob_keeps (f : Job → Job) : Keeps s (s.updJob c f) := State.setJob_keeps s c _

theorem State.issue_keeps (a : Access) : Keeps s (s.issue a) :=
  ⟨rfl, rfl, rfl, rfl, rfl, rfl, rfl, rfl, rfl, rfl, id, id, fun h => ⟨rfl, h⟩, id⟩

theorem State.issueRead_keeps (k : AccessKind) (a : PhysAddr) (n : Nat) : Keeps s (s.issueRead k c a n) :=
  State.issue_keeps s _

theorem State.issueWrite_keeps (k : AccessKind) (a : PhysAddr) (b : List Byte) : Keeps s (s.issueWrite k c a b) :=
  State.issue_keeps s _

theorem State.report_keeps (k : ErrorKind) : Keeps s (s.report k c) :=
  ⟨rfl, rfl, rfl, rfl, rfl, rfl, rfl, rfl, rfl, rfl, id, id, fun h => ⟨rfl, h⟩, id⟩

theorem State.accept_keeps (r : BitVec 4) : Keeps s (s.accept r c) :=
  ⟨rfl, rfl, rfl, rfl, rfl, rfl, rfl, rfl, rfl, rfl, id, id, fun h => ⟨rfl, h⟩, id⟩

theorem State.refuse_keeps (e : Reason) (r : BitVec 4) : Keeps s (s.refuse e r c) :=
  ⟨rfl, rfl, rfl, rfl, rfl, rfl, rfl, rfl, rfl, rfl, id, id, fun h => ⟨rfl, h⟩, id⟩

theorem State.setWaiter_none_keeps : Keeps s (s.setWaiter c none) := by
  refine ⟨rfl, rfl, rfl, rfl, rfl, rfl, rfl, rfl, rfl, rfl, id, ?_, fun h => ⟨rfl, h⟩, id⟩
  intro h d w hw
  have hw' : (s.waiters.set c none)[d] = some w := hw
  simp only [Fin.getElem_fin, Vector.getElem_set] at hw'
  split at hw'
  · simp at hw'
  · exact h d w hw'

theorem State.tableGate_keeps (g : TableGate) : Keeps s { s with tableGate := g } :=
  ⟨rfl, rfl, rfl, rfl, rfl, rfl, rfl, rfl, rfl, rfl, id, id, fun h => ⟨rfl, h⟩, id⟩

theorem State.replGate_keeps (g : ReplGate) : Keeps s { s with replGate := g } :=
  ⟨rfl, rfl, rfl, rfl, rfl, rfl, rfl, rfl, rfl, rfl, id, id, fun h => ⟨rfl, h⟩, id⟩

theorem State.noPendingMark_keeps : Keeps s { s with pendingMark := none } :=
  ⟨rfl, rfl, rfl, rfl, rfl, rfl, rfl, rfl, rfl, rfl, id, id, fun _ => ⟨rfl, rfl⟩, id⟩

theorem State.clearHeld_keeps : Keeps s s.clearHeld :=
  ⟨rfl, rfl, rfl, rfl, rfl, rfl, rfl, rfl, rfl, rfl, id, id, fun h => ⟨rfl, h⟩, id⟩

theorem State.lines_keeps (ls : List LineRecord) (i o : Vector (List Byte) 2) (h : ∀ l ∈ ls, l ∈ s.lines) :
    Keeps s { s with lines := ls, inBuf := i, outBuf := o } :=
  ⟨rfl, rfl, rfl, rfl, rfl, rfl, rfl, rfl, rfl, rfl, id, id, fun h => ⟨rfl, h⟩, fun hd l hl => hd l (h l hl)⟩

/-! ## The Chain Unit's writes and the end of work -/

theorem State.issueStatus_keeps (code : ChainState) (a : Nat) (n : StatusNext) : Keeps s (s.issueStatus c code a n) :=
  State.issueWrite_keeps s c _ _ _

theorem State.issueOutcome_keeps (o : OutcomeState) (b : Bool) : Keeps s (s.issueOutcome c o b) := by
  unfold State.issueOutcome
  split
  · exact .refl s
  · exact (State.setJob_keeps s c _).trans (State.issueWrite_keeps _ c _ _ _)

theorem State.issueRelease_keeps (a : PhysAddr) (n : ReleaseNext) : Keeps s (s.issueRelease c a n) :=
  (State.updChain_keeps s c _).trans (State.issueWrite_keeps _ c _ _ _)

theorem State.recordFault_keeps (code : Code) : Keeps s (s.recordFault c code) := State.updJob_keeps s c _

theorem State.beginRetire_keeps : Keeps s (s.beginRetire c) := by
  unfold State.beginRetire
  split
  · exact .refl s
  · dsimp only
    split
    · exact ((State.updChain_keeps s c _).trans (State.setJob_keeps _ c _)).trans (State.issueOutcome_keeps _ c _ _)
    · exact ((State.updChain_keeps s c _).trans (State.setJob_keeps _ c _)).trans (State.issueRead_keeps _ c _ _ _)

theorem State.afterWork_keeps : Keeps s (s.afterWork c) := by
  unfold State.afterWork
  split
  · exact .refl s
  · split
    · exact State.issueOutcome_keeps s c _ _
    · split
      · exact State.updChain_keeps s c _
      · exact State.beginRetire_keeps s c

theorem State.finishWork_keeps : Keeps s (s.finishWork c) :=
  (State.updJob_keeps s c _).trans (State.afterWork_keeps _ c)

theorem State.endUnadmitted_keeps (code : Code) : Keeps s (s.endUnadmitted c code) :=
  (State.updJob_keeps s c _).trans (State.afterWork_keeps _ c)

/-! ## Admission, gates and replacements -/

theorem State.tableResolve_keeps : Keeps s (s.tableResolve c) := by
  unfold State.tableResolve
  split
  · exact .refl s
  · split
    · split
      · exact (State.setJob_keeps s c _).trans (State.issue_keeps _ _)
      · exact State.setJob_keeps s c _
      · exact (State.recordFault_keeps s c _).trans (State.finishWork_keeps _ c)
    · exact .refl s

theorem State.claim_keeps {s t : State} {c : ChainId} {g : GateClaim} (h : s.claim c g = some t) : Keeps s t := by
  cases g <;> simp only [State.claim] at h
  · simp only [Option.some.injEq] at h
    subst h
    exact .refl s
  all_goals
    split at h
    · simp only [Option.some.injEq] at h
      subst h
      first
      | exact State.tableGate_keeps s _
      | exact State.replGate_keeps s _
    · simp at h

theorem State.waitAtGate_keeps (g : GateClaim) : Keeps s (s.waitAtGate c g) := by
  have h := (State.updChain_keeps s c fun x => { x with state := .waiting }).trans
    (State.updJob_keeps _ c fun j => { j with phase := .admitting, source := none, dest := none, coeff := none })
  cases g
  · exact h
  · exact h.trans (State.tableGate_keeps _ _)
  · exact h.trans (State.tableGate_keeps _ _)
  · exact h.trans (State.replGate_keeps _ _)

theorem State.enterRunning_keeps : Keeps s (s.enterRunning c) := by
  unfold State.enterRunning
  split
  · exact .refl s
  · next j _ =>
    dsimp only
    have h := (State.updChain_keeps s c fun x => { x with state := .active }).trans
      (State.setJob_keeps _ c (some j.admit_))
    split
    · exact h.trans (State.finishWork_keeps _ c)
    · exact h.trans (State.tableResolve_keeps _ c)
    · exact h

theorem State.admitJob_keeps : Keeps s (s.admitJob c) := by
  unfold State.admitJob
  split
  · exact .refl s
  · split
    · exact State.endUnadmitted_keeps s c _
    · split
      · exact State.endUnadmitted_keeps s c _
      · next j _ =>
        dsimp only
        have h := State.setJob_keeps s c (some j)
        split
        · exact h.trans (State.enterRunning_keeps _ c)
        · split
          · next t ht => exact h.trans ((State.claim_keeps ht).trans (State.enterRunning_keeps _ c))
          · exact h.trans (State.waitAtGate_keeps _ c _)

theorem State.grantLookups_keeps : Keeps s s.grantLookups :=
  (State.tableGate_keeps s _).trans (Keeps.foldl State.admitJob_keeps _ _)

theorem State.serveTableGate_keeps : Keeps s s.serveTableGate := by
  unfold State.serveTableGate
  split
  · split
    · split
      · exact .refl s
      · exact (State.tableGate_keeps s _).trans (State.admitJob_keeps _ _)
    · exact State.grantLookups_keeps s
  · exact .refl s

theorem State.serveReplGate_keeps : Keeps s s.serveReplGate := by
  unfold State.serveReplGate
  split
  · split
    · exact (State.replGate_keeps s _).trans (State.admitJob_keeps _ _)
    · exact .refl s
  · exact .refl s

theorem State.leaveTableGate_keeps : Keeps s (s.leaveTableGate c) := by
  unfold State.leaveTableGate
  split
  · exact (State.tableGate_keeps s _).trans (State.serveTableGate_keeps _)
  · exact .refl s

theorem State.leaveReplGate_keeps : Keeps s (s.leaveReplGate c) := by
  unfold State.leaveReplGate
  split
  · exact (State.replGate_keeps s _).trans (State.serveReplGate_keeps _)
  · exact .refl s

theorem State.releaseHeld_keeps : Keeps s s.releaseHeld :=
  (State.clearHeld_keeps s).trans (Keeps.foldl State.tableResolve_keeps _ _)

/-- A MAP operation carried out changes the mapping table alone, and keeps its rule. -/
theorem State.carryOutMap_keeps (m : EntryId) (e : Option MapEntry) :
    ∃ es, Keeps { s with entries := es } (s.carryOutMap c m e) ∧ (s.tableUnambiguous → entriesUnambiguous es) := by
  unfold State.carryOutMap
  split
  · next es h => exact ⟨es, .refl _, fun ht => entriesUnambiguous_mapCarriedOut ht h⟩
  · exact ⟨s.entries, State.recordFault_keeps s c _, id⟩

/-- An operation that changes the mapping table, where a replacement is pending. -/
theorem Keeps.of_entries {s t : State} {es : Vector (Option MapEntry) 32} {m : Option EntryId}
    (h : Keeps { s with entries := es, pendingMark := m } t) (he : s.tableUnambiguous → entriesUnambiguous es)
    (hp : s.pendingMark ≠ none) : Keeps s t :=
  ⟨h.surfaces, h.lut, h.coeffs, h.ten, h.softReset, h.exchangeBase, h.attentionMask, h.memory, h.passOver, h.pending,
   fun ht => h.table (he ht), h.waiters, fun hn => absurd hn hp, h.discards⟩

theorem State.completeReplacement_keeps (hp : s.pendingMark ≠ none) : Keeps s s.completeReplacement := by
  unfold State.completeReplacement
  split
  · exact .refl s
  · split
    · exact .refl s
    · split
      · split
        · next slot new _ =>
          obtain ⟨es, h, he⟩ := State.carryOutMap_keeps s _ slot new
          exact Keeps.of_entries (m := s.pendingMark) ((((h.trans (State.noPendingMark_keeps _)).trans
            (State.clearHeld_keeps _)).trans (State.finishWork_keeps _ _)).trans
              (Keeps.foldl State.tableResolve_keeps _ _)) he hp
        · exact .refl s
      · exact .refl s

theorem State.afterPinRelease_keeps : Keeps s s.afterPinRelease := by
  unfold State.afterPinRelease
  split
  · next h =>
    split
    · exact State.completeReplacement_keeps s (by simp [h])
    · exact .refl s
  · exact .refl s

theorem State.withdrawReplacement_keeps : Keeps s s.withdrawReplacement :=
  (State.noPendingMark_keeps s).trans (State.releaseHeld_keeps _)

theorem State.dropJob_keeps : Keeps s (s.dropJob c) := by
  unfold State.dropJob
  split
  · exact .refl s
  · exact (((State.setJob_keeps s c none).trans (State.afterPinRelease_keeps _)).trans
      (State.leaveTableGate_keeps _ c)).trans (State.leaveReplGate_keeps _ c)

/-! ## The progress of a chain -/

theorem State.reReadAnchor_keeps : Keeps s (s.reReadAnchor c) := by
  unfold State.reReadAnchor
  split
  · exact (State.updChain_keeps s c _).trans (State.issueRead_keeps _ c _ _ _)
  · exact (State.updChain_keeps s c _).trans (State.issueRead_keeps _ c _ _ _)
  · exact .refl s

theorem State.runFollowup_keeps (f : Followup) : Keeps s (s.runFollowup f) := by
  cases f
  · exact (State.updJob_keeps s _ _).trans (State.admitJob_keeps _ _)
  · exact State.reReadAnchor_keeps s _
  · exact State.dropJob_keeps s _

theorem State.settle_keeps (fs : List Followup) : Keeps s (s.settle fs) :=
  Keeps.trans (t := { s with choices := if fs.length ≤ 1 then s.choices else s.choices + fs.length })
    ⟨rfl, rfl, rfl, rfl, rfl, rfl, rfl, rfl, rfl, rfl, id, id, fun h => ⟨rfl, h⟩, id⟩ (Keeps.foldl State.runFollowup_keeps _ _)

theorem State.flagArrival_keeps (op : FlagFile → FlagFile × List Followup) (also : List Followup)
    (h : s.flagFile.unsatisfied → (op s.flagFile).1.unsatisfied) : Keeps s (s.flagArrival op also) :=
  Keeps.trans (t := { s with flags := (op s.flagFile).1.flags, waiters := (op s.flagFile).1.waiters })
    ⟨rfl, rfl, rfl, rfl, rfl, rfl, rfl, rfl, rfl, rfl, id, fun hw =>
      (State.unsatisfied_flagFile _).mp (h ((State.unsatisfied_flagFile s).mpr hw)), fun h => ⟨rfl, h⟩, id⟩
    (State.settle_keeps _ _)

theorem State.guardStep_keeps : Keeps s (s.guardStep c) := by
  unfold State.guardStep
  split
  · exact .refl s
  · split
    · exact State.admitJob_keeps s c
    · split
      · exact State.admitJob_keeps s c
      · split
        · exact State.flagArrival_keeps s _ _ (FlagFile.register_unsatisfied _ _ _ _)
        · split
          · split
            · exact State.flagArrival_keeps s _ _ (FlagFile.change_unsatisfied _ _ _ _)
            · exact State.runFollowup_keeps s _
          · exact State.endUnadmitted_keeps s c _

theorem State.readRecord_keeps : Keeps s (s.readRecord c) := by
  unfold State.readRecord
  split
  · exact .refl s
  · exact (State.updChain_keeps s c _).trans (State.issueRead_keeps _ c _ _ _)

theorem State.goOnReading_keeps : Keeps s (s.goOnReading c) := by
  unfold State.goOnReading
  split
  · exact State.updChain_keeps s c _
  · exact State.readRecord_keeps s c

theorem State.offerWake_keeps : Keeps s (s.offerWake c) :=
  State.flagArrival_keeps s _ _ (FlagFile.register_unsatisfied _ _ _ _)

theorem State.park_keeps (a : Anchor) (b : Bool) : Keeps s (s.park c a b) := by
  unfold State.park
  dsimp only
  split
  · exact (State.updChain_keeps s c _).trans (State.issueStatus_keeps _ c _ _ _)
  · exact (State.updChain_keeps s c _).trans (State.offerWake_keeps _ c)

theorem State.redirectPark_keeps (n : StatusNext) : Keeps s (s.redirectPark c n) :=
  ⟨rfl, rfl, rfl, rfl, rfl, rfl, rfl, rfl, rfl, rfl, id, id, fun h => ⟨rfl, h⟩, id⟩

theorem State.resumePark_keeps : Keeps s (s.resumePark c) := by
  unfold State.resumePark
  split
  · split
    · exact (State.updChain_keeps s c _).trans (State.redirectPark_keeps _ c _)
    · exact State.park_keeps s c _ _
  · exact .refl s

theorem State.goOnParking_keeps (a : Anchor) (b : Bool) : Keeps s (s.goOnParking c a b) := by
  unfold State.goOnParking
  split
  · exact State.updChain_keeps s c _
  · exact State.park_keeps s c a b

theorem State.breakChain_keeps (r : BreakReason) (a : Nat) : Keeps s (s.breakChain c r a) :=
  (((State.updChain_keeps s c _).trans (State.dropJob_keeps _ c)).trans (State.report_keeps _ c _)).trans
    (State.issueStatus_keeps _ c _ _ _)

theorem State.finishAbort_keeps : Keeps s (s.finishAbort c) := State.issueStatus_keeps s c _ _ _

theorem State.abortAnchor_keeps : Keeps s (s.abortAnchor c) := by
  unfold State.abortAnchor
  split
  · exact State.redirectPark_keeps s c _
  · split
    · exact State.issueRelease_keeps s c _ _
    · exact State.finishAbort_keeps s c

theorem State.endAbort_keeps : Keeps s (s.endAbort c) :=
  (State.updChain_keeps s c _).trans (State.dropJob_keeps _ c)

theorem State.readDirectory_keeps : Keeps s (s.readDirectory c) :=
  (State.updChain_keeps s c _).trans (State.issueRead_keeps _ c _ _ _)

theorem State.takeHead_keeps (v : Addr64) : Keeps s (s.takeHead c v) := by
  unfold State.takeHead
  split
  · exact State.breakChain_keeps s c _ _
  · exact State.goOnParking_keeps s c _ _
  · exact (State.updChain_keeps s c _).trans (State.goOnReading_keeps _ c)

theorem State.takeAnchorLink_keeps (a : PhysAddr) (v : Addr64) : Keeps s (s.takeAnchorLink c a v) := by
  unfold State.takeAnchorLink
  split
  · exact State.breakChain_keeps s c _ _
  · exact State.goOnParking_keeps s c _ _
  · exact (State.updChain_keeps s c _).trans (State.issueRelease_keeps _ c _ _)

theorem State.recordPassed_keeps : Keeps s (s.recordPassed c) := by
  unfold State.recordPassed
  split
  · exact State.updChain_keeps s c _
  · exact (State.updChain_keeps s c _).trans (State.guardStep_keeps _ c)

theorem State.abortRecord_keeps : Keeps s (s.abortRecord c) :=
  (State.updJob_keeps s c _).trans (State.issueOutcome_keeps _ c _ _)

end Sys2Proof.Machine
end

