-- ==== Sys2Proof/Laws/Memory.lean ====
section
/-! SUPPORT. Every memory operation keeps the canonical form, and a byte reads as the last write to it left it. -/

namespace Sys2Proof.Machine

theorem Memory.mem_write {m : List Host.Cell} {a : Nat} {b : Byte} {p : Host.Cell} (h : p ∈ Memory.write m a b) :
    p = (a, b) ∨ p ∈ m := by
  induction m with
  | nil => simp_all [Memory.write]
  | cons x rest ih =>
    obtain ⟨x, v⟩ := x
    simp only [Memory.write] at h
    split at h
    · simpa using h
    · split at h
      · rcases List.mem_cons.mp h with h | h
        · exact .inl h
        · exact .inr (List.mem_cons_of_mem _ h)
      · rcases List.mem_cons.mp h with h | h
        · exact .inr (h ▸ List.mem_cons_self)
        · rcases ih h with h | h
          · exact .inl h
          · exact .inr (List.mem_cons_of_mem _ h)

theorem Memory.wf_write {m : List Host.Cell} (h : Memory.wf m) (a : Nat) (b : Byte) : Memory.wf (Memory.write m a b) := by
  induction m with
  | nil => simp [Memory.write, Memory.wf]
  | cons x rest ih =>
    obtain ⟨x, v⟩ := x
    have hx := (List.pairwise_cons.mp h).1
    have hr := (List.pairwise_cons.mp h).2
    simp only [Memory.write]
    split
    · next hlt =>
      refine List.pairwise_cons.mpr ⟨?_, h⟩
      intro p hp
      rcases List.mem_cons.mp hp with hp | hp
      · subst hp; exact hlt
      · exact Nat.lt_trans hlt (hx p hp)
    · split
      · next hle heq => subst heq; exact List.pairwise_cons.mpr ⟨hx, hr⟩
      · next hle hne =>
        refine List.pairwise_cons.mpr ⟨?_, ih hr⟩
        intro p hp
        rcases Memory.mem_write hp with hp | hp
        · subst hp
          show x < a
          omega
        · exact hx p hp

theorem Memory.wf_writeAll {m : List Host.Cell} (h : Memory.wf m) (cells : List Host.Cell) :
    Memory.wf (Memory.writeAll m cells) := by
  unfold Memory.writeAll
  induction cells generalizing m with
  | nil => exact h
  | cons c rest ih => exact ih (Memory.wf_write h c.1 c.2)

theorem Memory.read_write (m : List Host.Cell) (a x : Nat) (b : Byte) (h : Memory.wf m) :
    Memory.read (Memory.write m a b) x = if x = a then some b else Memory.read m x := by
  induction m with
  | nil => simp [Memory.write, Memory.read]
  | cons y rest ih =>
    obtain ⟨y, v⟩ := y
    have hr := (List.pairwise_cons.mp h).2
    simp only [Memory.write]
    split
    · next hlt => simp only [Memory.read]
    · split
      · next heq =>
        subst heq
        simp only [Memory.read]
        split <;> rfl
      · next hle hne =>
        simp only [Memory.read, ih hr]
        split
        · next hxy =>
          subst hxy
          rw [if_neg (Ne.symm hne)]
        · rfl

theorem Memory.read_write_of_ne (m : List Host.Cell) (a x : Nat) (b : Byte) (h : x ≠ a) :
    Memory.read (Memory.write m a b) x = Memory.read m x := by
  induction m with
  | nil => simp [Memory.write, Memory.read, h]
  | cons y rest ih =>
    obtain ⟨y, v⟩ := y
    simp only [Memory.write]
    split
    · simp only [Memory.read, if_neg h]
    · split
      · next heq =>
        subst heq
        simp only [Memory.read, if_neg h]
      · simp only [Memory.read, ih]

/-- A byte outside the cells written reads as before. -/
theorem Memory.read_writeAll_of_not_mem {m : List Host.Cell} {cells : List Host.Cell} {x : Nat}
    (hx : x ∉ cells.map (·.1)) : Memory.read (Memory.writeAll m cells) x = Memory.read m x := by
  unfold Memory.writeAll
  induction cells generalizing m with
  | nil => rfl
  | cons c rest ih =>
    simp only [List.map_cons, List.mem_cons, not_or] at hx
    show Memory.read (rest.foldl _ (Memory.write m c.1 c.2)) x = _
    rw [ih hx.2, Memory.read_write_of_ne _ _ _ _ hx.1]

/-! ## The bytes of a store (04 R78, log 26) -/

theorem pieceByte_mem (n a : Nat) {bs : List Byte} (h : bs ≠ []) : pieceByte n a bs ∈ bs := by
  match bs, h with
  | [b], _ => exact List.mem_singleton_self b
  | b :: c :: rest, _ =>
    have hlt : Config.lastPiece n a % (b :: c :: rest).length < (b :: c :: rest).length :=
      Nat.mod_lt _ (Nat.succ_pos _)
    simp only [pieceByte, List.getElem?_eq_getElem hlt, Option.getD_some]
    exact List.getElem_mem hlt

/-- A store reaches the addresses of its ranges. -/
theorem storeCells_addresses (n : Nat) (ranges : List PhysRange) (bytes : List Byte) :
    (storeCells n ranges bytes).map (·.1) = (cellsOf ranges bytes).map (·.1) := by
  simp only [storeCells, List.map_map]
  rfl

/-- Each byte of a store is one that its footprint brings to that address. -/
theorem mem_cellsOf_of_mem_storeCells {n : Nat} {ranges : List PhysRange} {bytes : List Byte} {x : Host.Cell}
    (h : x ∈ storeCells n ranges bytes) : x ∈ cellsOf ranges bytes := by
  obtain ⟨y, hy, rfl⟩ := List.mem_map.mp h
  have hne : ((cellsOf ranges bytes).filter fun z => z.1 == y.1).map (·.2) ≠ [] :=
    List.ne_nil_of_mem (List.mem_map_of_mem (List.mem_filter.mpr ⟨hy, beq_self_eq_true y.1⟩))
  obtain ⟨z, hz, he⟩ := List.mem_map.mp (pieceByte_mem n y.1 hne)
  obtain ⟨hz, ha⟩ := List.mem_filter.mp hz
  have hc : (y.1, pieceByte n y.1 (((cellsOf ranges bytes).filter fun w => w.1 == y.1).map (·.2))) = z :=
    Prod.ext (eq_of_beq ha).symm he.symm
  exact hc ▸ hz

/-- A store leaves one byte at an address. -/
theorem storeCells_eq_of_address {n : Nat} {ranges : List PhysRange} {bytes : List Byte} {x y : Host.Cell}
    (hx : x ∈ storeCells n ranges bytes) (hy : y ∈ storeCells n ranges bytes) (h : x.1 = y.1) : x = y := by
  obtain ⟨v, _, rfl⟩ := List.mem_map.mp hx
  obtain ⟨w, _, rfl⟩ := List.mem_map.mp hy
  have h : v.1 = w.1 := h
  simp only [h]

theorem filter_address_eq {cells : List Host.Cell} (h : (cells.map (·.1)).Nodup) {x : Host.Cell} (hx : x ∈ cells) :
    (cells.filter fun y => y.1 == x.1) = [x] := by
  induction cells with
  | nil => cases hx
  | cons c rest ih =>
    obtain ⟨hc, hr⟩ := List.nodup_cons.mp h
    rcases List.mem_cons.mp hx with rfl | hx
    · have hnone : (rest.filter fun y => y.1 == x.1) = [] :=
        List.filter_eq_nil_iff.mpr fun y hy he =>
          hc (List.mem_map.mpr ⟨y, hy, eq_of_beq he⟩)
      simp [hnone]
    · have hne : (c.1 == x.1) = false := beq_eq_false_iff_ne.mpr fun he =>
        hc (List.mem_map.mpr ⟨x, hx, he.symm⟩)
      simp [hne, ih hr hx]

theorem map_fst_zip_sublist {α β : Type} (as : List α) (bs : List β) : List.Sublist ((as.zip bs).map (·.1)) as := by
  induction as generalizing bs with
  | nil => simp
  | cons a as ih =>
    cases bs with
    | nil => simp
    | cons b bs => exact (ih bs).cons_cons a

/-- Where no two ranges of a store share an address, it leaves the bytes of its footprint. -/
theorem storeCells_of_nodup (n : Nat) {ranges : List PhysRange} (bytes : List Byte)
    (h : (rangeAddresses ranges).Nodup) : storeCells n ranges bytes = cellsOf ranges bytes := by
  have hn : ((cellsOf ranges bytes).map (·.1)).Nodup := h.sublist (map_fst_zip_sublist _ _)
  refine (List.map_congr_left fun x hx => ?_).trans (List.map_id _)
  rw [filter_address_eq hn hx]
  rfl

end Sys2Proof.Machine
end

