-- ==== Sys2Proof/Laws/CommandKeeps.lean ====
section
/-! SUPPORT. What the body of each command leaves as it was (Keeps), and, for the commands that change a store of Keeps, what
they leave of the rest. -/

namespace Sys2Proof.Machine

variable (s : State) (c : ChainId)

/-! ## The accesses' answers -/

theorem State.accesses_keeps (l : List Access) : Keeps s { s with accesses := l } :=
  ⟨rfl, rfl, rfl, rfl, rfl, rfl, rfl, rfl, rfl, rfl, id, id, fun h => ⟨rfl, h⟩, id⟩

/-- A read's answer touches nothing but what `after` does. -/
theorem State.onRead_keeps (p : Access → Bool) (answer : ReadAnswer) (after : Access → State → State)
    (h : ∀ a t, Keeps t (after a t)) : Keeps s (s.onRead p answer after) := by
  unfold State.onRead
  split
  · exact .refl s
  · split
    · dsimp only
      split
      · exact State.accesses_keeps s _
      · exact (State.accesses_keeps s _).trans (h _ _)
    · exact .refl s

/-- A write's answer changes the bytes that landed, and otherwise touches nothing but what `after` does. -/
theorem State.onWrite_keeps (p : Access → Bool) (n : Nat) (answer : WriteAnswer) (after : Access → Bool → State → State)
    (h : ∀ a ok t, Keeps t (after a ok t)) :
    ∃ cells, Keeps { s with memory := Memory.writeAll s.memory cells } (s.onWrite p n answer after) := by
  unfold State.onWrite
  split
  · exact ⟨[], .refl s⟩
  · next a _ =>
    split
    · exact ⟨[], .refl s⟩
    · refine ⟨landedCells answer a, ?_⟩
      dsimp only
      split
      · exact State.accesses_keeps { s with memory := _ } _
      · exact (State.accesses_keeps { s with memory := _ } _).trans (h _ _ _)

/-- A host write that is refused leaves all of it as it was. -/
theorem State.hostWrite_keeps (r : BitVec 4) (taken : State → State) (h : Keeps s (taken s)) :
    Keeps s (s.hostWrite r c taken) := by
  unfold State.hostWrite
  split
  · exact State.refuse_keeps s c _ _
  · exact h

/-! ## Chain commands -/

theorem State.withdrawClaims_keeps : Keeps s (s.withdrawClaims c) := by
  unfold State.withdrawClaims
  dsimp only
  split
  · exact ((State.setWaiter_none_keeps s c).trans (State.leaveTableGate_keeps _ c)).trans (State.leaveReplGate_keeps _ c)
  · exact State.setWaiter_none_keeps s c

theorem State.startChain_keeps : Keeps s (s.startChain c) := by
  unfold State.startChain
  dsimp only
  split
  · unfold State.startHalted
    split
    · exact ((State.updChain_keeps s c _).trans (State.updChain_keeps _ c _)).trans (State.issueRelease_keeps _ c _ _)
    · exact (State.updChain_keeps s c _).trans (State.readDirectory_keeps _ c)
  · exact (State.updChain_keeps s c _).trans (State.readDirectory_keeps _ c)

theorem State.pauseChain_keeps : Keeps s (s.pauseChain c) := by
  unfold State.pauseChain
  split
  · exact ((State.updChain_keeps s c _).trans (State.updJob_keeps _ c _)).trans (State.withdrawClaims_keeps _ c)
  · exact ((State.updChain_keeps s c _).trans (State.setWaiter_none_keeps _ c)).trans (State.redirectPark_keeps _ c _)
  · split
    · exact State.updChain_keeps s c _
    · exact State.updChain_keeps s c _
  · exact State.updChain_keeps s c _
  all_goals exact .refl s

theorem State.resumeReadNext_keeps : Keeps s (s.resumeReadNext c) := by
  unfold State.resumeReadNext
  split
  · split
    · exact State.beginRetire_keeps s c
    · exact State.readRecord_keeps s c
  · exact State.readRecord_keeps s c

theorem State.resumeRun_keeps : Keeps s (s.resumeRun c) := by
  unfold State.resumeRun
  dsimp only
  split
  · split
    · exact (State.updChain_keeps s c _).trans (State.tableResolve_keeps _ c)
    · exact State.updChain_keeps s c _
  · exact State.updChain_keeps s c _

theorem State.resumePaused_keeps : Keeps s (s.resumePaused c) := by
  unfold State.resumePaused
  dsimp only
  have h := State.updChain_keeps s c fun x => { x with resume := none }
  split
  · exact h.trans (State.resumeReadNext_keeps _ c)
  · exact (h.trans (State.updChain_keeps _ c _)).trans (State.guardStep_keeps _ c)
  · exact h.trans (State.resumeRun_keeps _ c)
  · exact h.trans (State.resumePark_keeps _ c)
  · exact h

theorem State.resumeChain_keeps : Keeps s (s.resumeChain c) := by
  unfold State.resumeChain
  split
  · exact State.reReadAnchor_keeps s c
  · exact State.resumePaused_keeps s c

/-- A discard marks FETCHING lines alone. -/
theorem State.discardLines_discards (m : Option Nat) (h : s.discardsFetching) : (s.discardLines c m).discardsFetching := by
  intro l hl
  simp only [State.discardLines, List.mem_filterMap] at hl
  obtain ⟨k, hk, e⟩ := hl
  split at e
  · split at e
    · next hf =>
      simp only [Option.some.injEq] at e
      subst e
      exact ⟨fun _ => (h k hk).1 hf, fun _ => hf⟩
    · cases e
  · simp only [Option.some.injEq] at e
    subst e
    exact h _ hk

theorem State.discardLines_keeps (m : Option Nat) : Keeps s (s.discardLines c m) :=
  ⟨rfl, rfl, rfl, rfl, rfl, rfl, rfl, rfl, rfl, rfl, id, id, fun h => ⟨rfl, h⟩, State.discardLines_discards s c m⟩

theorem State.checkDrained_keeps : Keeps s (s.checkDrained c) := by
  unfold State.checkDrained
  split
  · split
    · exact State.finishWork_keeps s c
    · exact .refl s
  · exact .refl s

theorem State.abortLines_keeps : Keeps s (s.abortLines c) :=
  ((State.updJob_keeps s c _).trans (State.discardLines_keeps _ c _)).trans (State.checkDrained_keeps _ c)

theorem State.abortTable_keeps (j : Job) : Keeps s (s.abortTable c j) := by
  unfold State.abortTable
  split
  · exact .refl s
  · exact (State.setJob_keeps s c _).trans (State.finishWork_keeps _ c)

theorem State.abortMap_keeps : Keeps s (s.abortMap c) := by
  unfold State.abortMap
  split
  · exact (State.withdrawReplacement_keeps s).trans (State.finishWork_keeps _ c)
  · exact .refl s

theorem State.abortWork_keeps : Keeps s (s.abortWork c) := by
  unfold State.abortWork
  split
  · exact .refl s
  · split
    · exact State.abortLines_keeps s c
    · exact State.abortLines_keeps s c
    · exact State.abortTable_keeps s c _
    · exact State.abortMap_keeps s c
    · exact .refl s

theorem State.abortReadNext_keeps : Keeps s (s.abortReadNext c) := by
  unfold State.abortReadNext
  split
  · exact State.issueOutcome_keeps s c _ _
  · exact State.finishAbort_keeps s c

theorem State.abortPaused_keeps (p : Option ResumePoint) : Keeps s (s.abortPaused c p) := by
  unfold State.abortPaused
  split
  · exact State.abortReadNext_keeps s c
  · exact State.abortRecord_keeps s c
  · exact State.abortWork_keeps s c
  · exact State.abortAnchor_keeps s c
  · exact State.finishAbort_keeps s c

theorem State.enterAborting_keeps : Keeps s (s.enterAborting c) :=
  ((State.updChain_keeps s c _).trans (State.updJob_keeps _ c _)).trans (State.withdrawClaims_keeps _ c)

theorem State.abortRunning_keeps : Keeps s (s.abortRunning c) := by
  unfold State.abortRunning
  dsimp only
  have h := State.enterAborting_keeps s c
  split
  · exact h.trans (State.abortRecord_keeps _ c)
  · split
    · exact h
    · exact h.trans (State.abortWork_keeps _ c)
  · exact h.trans (State.abortAnchor_keeps _ c)
  · exact h.trans (State.abortPaused_keeps _ c _)
  · exact h.trans (State.abortAnchor_keeps _ c)
  all_goals exact h

/-! ## Answers to the Chain Unit -/

theorem State.afterDirectoryRead_keeps (a : ReadAnswer) : Keeps s (s.afterDirectoryRead c a) := by
  unfold State.afterDirectoryRead
  split
  · exact State.finishAbort_keeps s c
  · split
    · exact State.breakChain_keeps s c _ _
    · split
      · exact State.breakChain_keeps s c _ _
      · exact (State.updChain_keeps s c _).trans (State.takeHead_keeps _ c _)

theorem State.readSecondPart_keeps (j : Job) : Keeps s (s.readSecondPart c j) := by
  unfold State.readSecondPart
  split
  · exact (State.setJob_keeps s c _).trans (State.recordPassed_keeps _ c)
  · exact State.issue_keeps s _

theorem State.takeHeader_keeps (r : PhysAddr) (b : List Byte) : Keeps s (s.takeHeader c r b) := by
  unfold State.takeHeader
  dsimp only
  split
  · split
    · exact (State.setJob_keeps s c _).trans (State.readSecondPart_keeps _ c _)
    · exact (State.setJob_keeps s c _).trans (State.endUnadmitted_keeps _ c _)
  · exact (State.updChain_keeps s c _).trans (State.breakChain_keeps _ c _ _)

theorem State.afterHeaderRead_keeps (a : ReadAnswer) : Keeps s (s.afterHeaderRead c a) := by
  unfold State.afterHeaderRead
  split
  · split
    · unfold State.takeHeaderAborting
      split
      · exact (State.setJob_keeps s c _).trans (State.abortRecord_keeps _ c)
      · exact State.finishAbort_keeps s c
    · exact State.takeHeader_keeps s c _ _
  · exact State.breakChain_keeps s c _ _

theorem State.afterSecondPartRead_keeps (a : ReadAnswer) : Keeps s (s.afterSecondPartRead c a) := by
  unfold State.afterSecondPartRead
  split
  · exact State.breakChain_keeps s c _ _
  · split
    · exact State.abortRecord_keeps s c
    · unfold State.takeSecondPart
      split
      · exact .refl s
      · split
        · exact (State.setJob_keeps s c _).trans (State.recordPassed_keeps _ c)
        · exact State.endUnadmitted_keeps s c _

theorem State.takeLink_keeps (v : Addr64) : Keeps s (s.takeLink c v) := by
  unfold State.takeLink
  split
  · exact State.breakChain_keeps s c _ _
  · exact State.issueOutcome_keeps s c _ _
  · exact (State.updChain_keeps s c _).trans (State.issueOutcome_keeps _ c _ _)

theorem State.afterLinkReRead_keeps (a : ReadAnswer) : Keeps s (s.afterLinkReRead c a) := by
  unfold State.afterLinkReRead
  split
  · exact State.breakChain_keeps s c _ _
  · split
    · exact State.issueOutcome_keeps s c _ _
    · exact State.takeLink_keeps s c _

theorem State.afterAnchorReRead_keeps (a : ReadAnswer) : Keeps s (s.afterAnchorReRead c a) := by
  unfold State.afterAnchorReRead
  split
  · unfold State.afterAnchorRecord
    split
    · exact State.breakChain_keeps s c _ _
    · split
      · exact State.issueRelease_keeps s c _ _
      · exact State.takeAnchorLink_keeps s c _ _
  · unfold State.afterAnchorHead
    split
    · exact State.finishAbort_keeps s c
    · split
      · exact State.breakChain_keeps s c _ _
      · exact State.takeHead_keeps s c _

theorem State.countRetire_keeps : Keeps s (s.countRetire c) := by
  unfold State.countRetire
  split
  · exact .refl s
  · exact State.updChain_keeps s c _

theorem State.afterOutcomeWrite_keeps (o : OutcomeState) (b ok : Bool) : Keeps s (s.afterOutcomeWrite c o b ok) := by
  unfold State.afterOutcomeWrite
  split
  · dsimp only
    split
    · exact (State.countRetire_keeps s c).trans (State.finishAbort_keeps _ c)
    · exact (State.countRetire_keeps s c).trans (State.issueStatus_keeps _ c _ _ _)
  · exact State.breakChain_keeps s c _ _

theorem State.afterRelease_keeps (n : ReleaseNext) (r : PhysAddr) (ok : Bool) : Keeps s (s.afterRelease c n r ok) := by
  unfold State.afterRelease
  split
  · split
    · exact State.finishAbort_keeps s c
    · split
      · exact State.goOnReading_keeps s c
      · exact State.readDirectory_keeps s c
      · exact State.finishAbort_keeps s c
  · exact State.breakChain_keeps s c _ _

theorem State.afterRetire_keeps (o : OutcomeState) (h : Bool) : Keeps s (s.afterRetire c o h) := by
  unfold State.afterRetire
  split
  · exact .refl s
  · refine (State.updChain_keeps s c fun x => { x with inHand := none }).trans ?_
    dsimp only
    split
    · split
      · exact State.issueRelease_keeps _ c _ _
      · exact State.finishAbort_keeps _ c
    · split
      · exact State.updChain_keeps _ c _
      · split
        · exact State.goOnReading_keeps _ c
        · exact State.goOnParking_keeps _ c _ _

theorem State.endRetire_keeps (o : OutcomeState) : Keeps s (s.endRetire c o) := by
  unfold State.endRetire
  split
  · exact .refl s
  · exact (State.flagArrival_keeps s _ _ (FlagFile.applyAll_unsatisfied _ _ _)).trans (State.afterRetire_keeps _ c _ _)

theorem State.afterStatusWrite_keeps (n : StatusNext) : Keeps s (s.afterStatusWrite c n) := by
  cases n
  · exact State.endRetire_keeps s c _
  · exact State.offerWake_keeps s c
  · exact State.endAbort_keeps s c
  · unfold State.afterStatusWrite State.endBreakTail
    dsimp only
    split
    · exact State.flagArrival_keeps s _ _ (FlagFile.change_unsatisfied _ _ _ _)
    · exact .refl s
  · exact .refl s
  · exact State.resumePark_keeps s c
  · exact State.abortAnchor_keeps s c

theorem State.statusAnswered_keeps (n : StatusNext) (ok : Bool) : Keeps s (s.statusAnswered c n ok) := by
  unfold State.statusAnswered
  split
  · exact State.afterStatusWrite_keeps s c n
  · exact (State.report_keeps s c _).trans (State.afterStatusWrite_keeps _ c n)

/-! ## Lines -/

theorem State.leaveFlight_keeps (l : LineRecord) : Keeps s (s.leaveFlight l) :=
  State.lines_keeps s _ _ _ fun _ h => (List.mem_filter.mp h).1

theorem State.lineFault_keeps (m : Nat) (code : Code) : Keeps s (s.lineFault c m code) :=
  ((State.recordFault_keeps s c _).trans (State.updJob_keeps _ c _)).trans (State.discardLines_keeps _ c _)

theorem State.faultLine_keeps (l : LineRecord) (code : Code) : Keeps s (s.faultLine l code) :=
  ((State.leaveFlight_keeps s l).trans (State.lineFault_keeps _ _ _ _)).trans (State.checkDrained_keeps _ _)

/-- A line record replaced by one that keeps the rule of the discard marks. -/
theorem State.replaceLine_keeps (a b : LineRecord)
    (hb : s.discardsFetching → (b.stage = .fetching → b.outputBuffer = none) ∧ (b.discard = true → b.stage = .fetching)) :
    Keeps s (s.replaceLine a b) := by
  refine ⟨rfl, rfl, rfl, rfl, rfl, rfl, rfl, rfl, rfl, rfl, id, id, fun h => ⟨rfl, h⟩, fun hd l hl => ?_⟩
  simp only [State.replaceLine, List.mem_map] at hl
  obtain ⟨k, hk, rfl⟩ := hl
  split
  · exact hb hd
  · exact hd k hk

theorem State.endFetchCheck_keeps (b : Fin 2) : Keeps s (s.endFetchCheck b) :=
  ⟨rfl, rfl, rfl, rfl, rfl, rfl, rfl, rfl, rfl, rfl, id, id, fun h => ⟨rfl, h⟩, id⟩

theorem State.enterFetched_keeps (l : LineRecord) (b : Fin 2) (bytes : List Byte) (hl : ¬ l.discard = true) :
    Keeps s (s.enterFetched l b bytes) :=
  (State.lines_keeps s s.lines _ s.outBuf fun _ h => h).trans
    (State.replaceLine_keeps _ _ _ fun _ => ⟨nofun, fun h => absurd h hl⟩)

theorem State.fetchArrived_keeps (l : LineRecord) (j : Job) (b : Fin 2) (bytes : List Byte) (hl : ¬ l.discard = true) :
    Keeps s (s.fetchArrived l j b bytes) := by
  unfold State.fetchArrived
  split
  · dsimp only
    split
    · exact ((State.endFetchCheck_keeps s b).trans (State.setJob_keeps _ _ _)).trans (State.faultLine_keeps _ _ _)
    · exact ((State.endFetchCheck_keeps s b).trans (State.setJob_keeps _ _ _)).trans
        (State.enterFetched_keeps _ _ _ _ hl)
  · exact (State.endFetchCheck_keeps s b).trans (State.enterFetched_keeps _ _ _ _ hl)

theorem State.afterFetch_keeps (b : Fin 2) (a : ReadAnswer) : Keeps s (s.afterFetch b a) := by
  unfold State.afterFetch
  split
  · exact .refl s
  · split
    · exact ((State.endFetchCheck_keeps s b).trans (State.leaveFlight_keeps _ _)).trans (State.checkDrained_keeps _ _)
    · next hl =>
      split
      · exact (State.endFetchCheck_keeps s b).trans (State.faultLine_keeps _ _ _)
      · exact State.fetchArrived_keeps s _ _ _ _ hl
      · exact .refl s

/-- The line of a candidate that starts conversion carries no discard mark. -/
theorem State.startConversion_keeps (l : LineRecord) (j : Job) (source dest : Surface) (b : Fin 2)
    (hl : l.discard = false) : Keeps s (s.startConversion l j source dest b) :=
  Keeps.trans (t := { s with
      conversion := some { chain := l.chain, jobLine := l.jobLine }
      image := if j.transformBody.isSome then some (.empty source.layout.pixels) else none
      lineMarks := if j.transformBody.isSome then some .start else none
      packCheck := startedPack dest
      copyZero := if j.transformBody.isSome then none else some true })
    ⟨rfl, rfl, rfl, rfl, rfl, rfl, rfl, rfl, rfl, rfl, id, id, fun h => ⟨rfl, h⟩, id⟩
    (State.replaceLine_keeps _ _ _ fun _ => ⟨nofun, fun h => by simp [hl] at h⟩)

/-- The chosen candidate is a line in flight that carries no discard mark. -/
theorem State.chooseCandidate_some {s : State} {l : LineRecord} (h : s.chooseCandidate = some l) :
    l ∈ s.lines ∧ s.candidate l = true ∧ l.discard = false := by
  unfold State.chooseCandidate at h
  split at h
  · have hp := List.find?_some h
    have hm := List.mem_of_find?_eq_some h
    simp only [Bool.and_eq_true] at hp
    refine ⟨hm, hp.2, ?_⟩
    have hc := hp.2
    simp only [State.candidate, Bool.and_eq_true, Bool.not_eq_true'] at hc
    exact hc.1.2
  · cases h

theorem State.conversionStarts_keeps : Keeps s s.conversionStarts := by
  unfold State.conversionStarts
  split
  · next hl =>
    split
    · split
      · exact State.startConversion_keeps s _ _ _ _ _ (State.chooseCandidate_some hl).2.2
      · exact .refl s
    · exact .refl s
  · exact .refl s

theorem State.clearConversion_keeps : Keeps s s.clearConversion :=
  ⟨rfl, rfl, rfl, rfl, rfl, rfl, rfl, rfl, rfl, rfl, id, id, fun h => ⟨rfl, h⟩, id⟩

/-- The line that leaves conversion holds an output buffer, so it is not FETCHING and carries no discard mark. -/
theorem State.finishConversion_keeps (l : LineRecord) (j : Job) (source dest : Surface) (inB outB : Fin 2)
    (hl : l ∈ s.lines) (hb : l.outputBuffer = some outB) : Keeps s (s.finishConversion l j source dest inB outB) := by
  refine ⟨rfl, rfl, rfl, rfl, rfl, rfl, rfl, rfl, rfl, rfl, id, id, fun h => ⟨rfl, h⟩, fun hd k hk => ?_⟩
  simp only [State.finishConversion, State.issue, State.replaceLine, State.clearConversion, State.setJob,
    List.mem_map] at hk
  obtain ⟨i, hi, rfl⟩ := hk
  split
  · refine ⟨nofun, fun h => ?_⟩
    have h1 := (hd l hl).1 ((hd l hl).2 h)
    rw [hb] at h1
    cases h1
  · exact hd i hi

theorem State.conversionCompletes_keeps : Keeps s s.conversionCompletes := by
  unfold State.conversionCompletes
  split
  · exact .refl s
  · split
    · next hl _ =>
      split
      · next hb _ _ => exact State.finishConversion_keeps s _ _ _ _ _ _ (List.mem_of_find?_eq_some hl) hb
      · exact .refl s
    · exact .refl s

theorem State.afterStore_keeps (b : Fin 2) (ok : Bool) : Keeps s (s.afterStore b ok) := by
  unfold State.afterStore
  split
  · exact .refl s
  · split
    · exact ((State.leaveFlight_keeps s _).trans (State.updJob_keeps _ _ _)).trans (State.checkDrained_keeps _ _)
    · exact State.faultLine_keeps s _ _

/-- A grant changes the pass-over counts as 04 R72 says, and no other store of Keeps. -/
theorem State.grant_keeps (j : Job) (b : LineBody) (source : Surface) (buffer : Fin 2) (fetch store : List PhysRange)
    (used : BitVec 32) : Keeps { s with passOver := s.passOverAfter c } (s.grant c j b source buffer fetch store used) := by
  refine ⟨rfl, rfl, rfl, rfl, rfl, rfl, rfl, rfl, rfl, rfl, id, id, fun h => ⟨rfl, h⟩, fun hd l hl => ?_⟩
  have hl' : l ∈ s.lines ++ [grantedLine c b j.nextLine buffer fetch store] := hl
  rcases List.mem_append.mp hl' with h | h
  · exact hd l h
  · rw [List.mem_singleton.mp h]
    exact ⟨fun _ => rfl, nofun⟩

theorem State.passOverAfter_le (h : s.passOverBounded) (d : ChainId) : (s.passOverAfter c)[d] ≤ 8 := by
  have hd := h d
  unfold State.passOverAfter
  simp only [Fin.getElem_fin, Vector.getElem_ofFn, Fin.eta]
  simp only [Fin.getElem_fin] at hd
  split
  · omega
  · split
    · split <;> omega
    · exact hd

/-- A fetch grant decision changes no store of Keeps but the pass-over counts, and keeps them at most 8. -/
theorem State.grantDecision_keeps (fuel : Nat) :
    ∃ v, Keeps { s with passOver := v } (State.grantDecision fuel s) ∧
      (s.passOverBounded → ∀ d : ChainId, v[d] ≤ 8) := by
  induction fuel generalizing s with
  | zero => exact ⟨s.passOver, .refl s, fun h => h⟩
  | succ fuel ih =>
    have here : ∃ v, Keeps { s with passOver := v } s ∧ (s.passOverBounded → ∀ d : ChainId, v[d] ≤ 8) :=
      ⟨s.passOver, .refl s, fun h => h⟩
    have go : ∀ t, Keeps s t → ∃ v, Keeps { s with passOver := v } (State.grantDecision fuel t) ∧
        (s.passOverBounded → ∀ d : ChainId, v[d] ≤ 8) := by
      intro t ht
      obtain ⟨v, hv, hb⟩ := ih t
      refine ⟨v, Keeps.trans (t := { t with passOver := v }) ⟨ht.surfaces, ht.lut, ht.coeffs, ht.ten, ht.softReset, ht.exchangeBase, ht.attentionMask,
        ht.memory, rfl, ht.pending, ht.table, ht.waiters, ht.entries, ht.discards⟩ hv, fun h => hb ?_⟩
      intro d
      rw [ht.passOver]
      exact h d
    unfold State.grantDecision
    split
    · split
      · exact here
      · split
        · split
          · exact ⟨_, State.grant_keeps s _ _ _ _ _ _ _ _, fun h d => State.passOverAfter_le s _ h d⟩
          · exact go _ (State.setJob_keeps s _ _)
          · exact go _ ((State.lineFault_keeps s _ _ _).trans (State.checkDrained_keeps _ _))
        · exact here
    · exact here

/-! ## The work of non-line jobs -/

theorem State.doSurface_keeps (b : SurfaceBody) : ∃ v, Keeps { s with surfaces := v } (s.doSurface c b) := by
  unfold State.doSurface
  split
  · exact ⟨_, State.finishWork_keeps _ c⟩
  · exact ⟨s.surfaces, (State.recordFault_keeps s c _).trans (State.finishWork_keeps _ c)⟩

theorem State.doCoeff_keeps (b : CoeffBody) : ∃ v, Keeps { s with coeffs := v } (s.doCoeff c b) := by
  unfold State.doCoeff
  split
  · exact ⟨_, State.finishWork_keeps _ c⟩
  · exact ⟨s.coeffs, (State.recordFault_keeps s c _).trans (State.finishWork_keeps _ c)⟩

/-- The arrival of a MAP job changes the mapping table, keeping its rule, and may mark an entry as pending. -/
theorem State.doMap_keeps (m : EntryId) (e : Option MapEntry) :
    ∃ es pm, Keeps { s with entries := es, pendingMark := pm } (s.doMap c m e) ∧
      (s.tableUnambiguous → entriesUnambiguous es) := by
  unfold State.doMap
  split
  · exact ⟨s.entries, some m, .refl _, id⟩
  · obtain ⟨es, h, he⟩ := State.carryOutMap_keeps s c m e
    exact ⟨es, s.pendingMark, h.trans (State.finishWork_keeps _ c), he⟩

theorem State.tableAnswered_keeps (j : Job) (b : TableBody) (load : TableLoad) (o n : Nat) (a : ReadAnswer) :
    ∃ v, Keeps { s with lut := v } (s.tableAnswered c j b load o n a) := by
  unfold State.tableAnswered
  dsimp only
  split
  · exact ⟨_, ((State.setJob_keeps { s with lut := _ } c _).trans (State.accesses_keeps _ _)).trans
      (State.finishWork_keeps _ c)⟩
  · exact ⟨_, State.setJob_keeps { s with lut := _ } c _⟩

theorem State.endTableRead_keeps : Keeps s s.endTableRead := State.accesses_keeps s _

theorem State.tableDrained_keeps (j : Job) (load : TableLoad) : Keeps s (s.tableDrained c j load) := by
  unfold State.tableDrained
  dsimp only
  split
  · exact (State.setJob_keeps s c _).trans (State.endTableRead_keeps _)
  · exact State.setJob_keeps s c _

theorem State.afterTableRead_keeps (acc : Access) (o n : Nat) (a : ReadAnswer) :
    ∃ v, Keeps { s with lut := v } (s.afterTableRead acc o n a) := by
  have here : ∃ v, Keeps { s with lut := v } s := ⟨s.lut, .refl s⟩
  unfold State.afterTableRead
  split
  · split
    · split
      · split
        · exact ⟨s.lut, State.tableDrained_keeps s _ _ _⟩
        · exact State.tableAnswered_keeps s _ _ _ _ _ _ _
      · exact here
    · exact here
  · exact here

end Sys2Proof.Machine
end

