-- ==== Sys2Proof/Laws/FlagEvaluation.lean ====
section
/-! SUPPORT. The Flag File under evaluation, said once: what one flag's evaluation depends on, what it leaves alone, and so
what a host mask does to each of its flags (02 R32, R36 to R38). -/

namespace Sys2Proof.Machine

/-- The two hold the same value of the flag and the same waiters against it. -/
def FlagFile.agreesOn (f : FlagId) (a b : FlagFile) : Prop :=
  a.value f = b.value f ∧ ∀ c : ChainId, a.waiters[c].filter (·.flag = f) = b.waiters[c].filter (·.flag = f)

theorem FlagFile.agreesOn.refl (f : FlagId) (a : FlagFile) : a.agreesOn f a := ⟨rfl, fun _ => rfl⟩

theorem FlagFile.agreesOn.trans {f : FlagId} {a b c : FlagFile} (h : a.agreesOn f b) (k : b.agreesOn f c) :
    a.agreesOn f c := ⟨h.1.trans k.1, fun d => (h.2 d).trans (k.2 d)⟩

theorem FlagFile.agreesOn.waiter {f : FlagId} {a b : FlagFile} (h : a.agreesOn f b) {c : ChainId} {w : Waiter}
    (hw : a.waiters[c] = some w) (hf : w.flag = f) : b.waiters[c] = some w := by
  have := h.2 c
  rw [hw, Option.filter_some, if_pos (by simpa using hf)] at this
  exact Option.eq_some_of_filter_eq_some this.symm

theorem FlagFile.agreesOn.symm {f : FlagId} {a b : FlagFile} (h : a.agreesOn f b) : b.agreesOn f a :=
  ⟨h.1.symm, fun c => (h.2 c).symm⟩

theorem FlagFile.agreesOn.satisfied {f : FlagId} {a b : FlagFile} (h : a.agreesOn f b) (k : Bool) :
    a.satisfied f k = b.satisfied f k := by
  unfold FlagFile.satisfied
  refine List.filter_congr fun c _ => ?_
  have key : ∀ {a b : FlagFile}, a.agreesOn f b → ∀ w, a.waiters[c] = some w →
      (w.flag == f && w.consuming == k && w.wanted == a.value f) = true →
      (match b.waiters[c] with
        | some w => w.flag == f && w.consuming == k && w.wanted == b.value f
        | none => false) = true := by
    intro a b h w hw e
    simp only [Bool.and_eq_true, beq_iff_eq] at e
    rw [h.waiter hw e.1.1]
    simp [e.1.1, e.1.2, e.2, h.1]
  rw [Bool.eq_iff_iff]
  constructor
  · intro e
    split at e
    · next w hw => exact key h w hw e
    · cases e
  · intro e
    split at e
    · next w hw => exact key h.symm w hw e
    · cases e

theorem FlagFile.agreesOn.unregister {f : FlagId} {a b : FlagFile} (h : a.agreesOn f b) (cs : List ChainId) :
    (a.unregister cs).agreesOn f (b.unregister cs) := by
  refine ⟨h.1, fun c => ?_⟩
  rw [FlagFile.waiters_unregister, FlagFile.waiters_unregister]
  split
  · rfl
  · exact h.2 c

theorem FlagFile.agreesOn.put {f : FlagId} {a b : FlagFile} (h : a.agreesOn f b) (g : FlagId) (v : Bool) :
    (a.put g v).agreesOn f (b.put g v) := by
  refine ⟨?_, h.2⟩
  rw [FlagFile.value_put, FlagFile.value_put, h.1]

theorem FlagFile.agreesOn.followup {f : FlagId} {a b : FlagFile} (h : a.agreesOn f b) {k : Bool} {c : ChainId}
    (hc : c ∈ a.satisfied f k) : a.followup c = b.followup c := by
  obtain ⟨w, hw, hf, _⟩ := FlagFile.mem_satisfied.mp hc
  unfold FlagFile.followup
  rw [hw, h.waiter hw hf]

/-- What an evaluation of a flag serves, and how it leaves the flag and its waiters, depends on the flag and its waiters
alone. -/
theorem FlagFile.evaluate_agrees (level : ChainId → Nat) (f : FlagId) (fuel : Nat) {a b : FlagFile}
    (h : a.agreesOn f b) :
    (FlagFile.evaluate level f fuel a).2 = (FlagFile.evaluate level f fuel b).2 ∧
    (FlagFile.evaluate level f fuel a).1.agreesOn f (FlagFile.evaluate level f fuel b).1 := by
  induction fuel generalizing a b with
  | zero => exact ⟨rfl, h⟩
  | succ fuel ih =>
    have hserved : (a.satisfied f false).map a.followup = (b.satisfied f false).map b.followup := by
      rw [← h.satisfied false]
      exact List.map_congr_left fun c hc => h.followup hc
    have h1 : (a.unregister (a.satisfied f false)).agreesOn f (b.unregister (b.satisfied f false)) := by
      rw [← h.satisfied false]
      exact h.unregister _
    simp only [FlagFile.evaluate]
    rw [hserved, ← h1.satisfied true]
    cases hb : bestChain level ((a.unregister (a.satisfied f false)).satisfied f true) with
    | none => exact ⟨rfl, h1⟩
    | some c =>
      have h2 := ((h1.unregister [c]).put f (!(a.unregister (a.satisfied f false)).value f))
      have hv : (a.unregister (a.satisfied f false)).value f = (b.unregister (b.satisfied f false)).value f := h1.1
      have h3 := ih h2
      simp only
      rw [← hv, h1.followup (mem_bestChain hb)]
      exact ⟨by rw [h3.1], h3.2⟩

theorem FlagFile.unregister_agrees {f g : FlagId} (hne : g ≠ f) (k : Bool) (ff : FlagFile) (cs : List ChainId)
    (h : ∀ c ∈ cs, c ∈ ff.satisfied f k) : (ff.unregister cs).agreesOn g ff := by
  refine ⟨rfl, fun c => ?_⟩
  rw [FlagFile.waiters_unregister]
  split
  · next hc =>
    obtain ⟨w, hw, hf, _⟩ := FlagFile.mem_satisfied.mp (h c (by simpa using hc))
    rw [hw, Option.filter_some, if_neg (by simp [hf, Ne.symm hne])]
    rfl
  · rfl

/-- An evaluation of a flag disturbs no other flag and no waiter on another. -/
theorem FlagFile.evaluate_elsewhere (level : ChainId → Nat) {f g : FlagId} (hne : g ≠ f) (fuel : Nat) (ff : FlagFile) :
    (FlagFile.evaluate level f fuel ff).1.agreesOn g ff := by
  induction fuel generalizing ff with
  | zero => exact .refl g ff
  | succ fuel ih =>
    simp only [FlagFile.evaluate]
    have h1 := FlagFile.unregister_agrees hne false ff _ fun _ h => h
    split
    · exact h1
    · next c hb =>
      have h2 := FlagFile.unregister_agrees (g := g) hne true (ff.unregister (ff.satisfied f false)) [c] fun d hd => by
        rw [List.mem_singleton.mp hd]
        exact mem_bestChain hb
      refine (ih _).trans (.trans ?_ (h2.trans h1))
      exact ⟨by rw [FlagFile.value_put, if_neg hne], fun _ => rfl⟩

/-- Every waiter of the one stands in the other. -/
def FlagFile.within (a b : FlagFile) : Prop := ∀ (c : ChainId) (w : Waiter), a.waiters[c] = some w → b.waiters[c] = some w

theorem FlagFile.unregister_within (ff : FlagFile) (cs : List ChainId) : (ff.unregister cs).within ff := by
  intro c w h
  rw [FlagFile.waiters_unregister] at h
  split at h
  · cases h
  · exact h

/-- An evaluation only removes waiters. -/
theorem FlagFile.evaluate_within (level : ChainId → Nat) (f : FlagId) (fuel : Nat) (ff : FlagFile) :
    (FlagFile.evaluate level f fuel ff).1.within ff := by
  induction fuel generalizing ff with
  | zero => exact fun _ _ h => h
  | succ fuel ih =>
    simp only [FlagFile.evaluate]
    have h1 := ff.unregister_within (ff.satisfied f false)
    split
    · exact h1
    · next d _ =>
      exact fun c w h => h1 c w (FlagFile.unregister_within _ [d] c w
        (ih (((ff.unregister (ff.satisfied f false)).unregister [d]).put f _) c w h))

/-- The evaluations of a list of flags only remove waiters. -/
theorem FlagFile.evaluateAll_within (level : ChainId → Nat) (fs : List FlagId) (ff : FlagFile) :
    (FlagFile.evaluateAll level fs ff).1.within ff := by
  induction fs generalizing ff with
  | nil => exact fun _ _ h => h
  | cons f rest ih => exact fun c w h => FlagFile.evaluate_within level f 5 ff c w (ih _ c w h)

/-- Where two hold no waiter but those of a third and agree on its flag, they hold the same waiter of it. -/
theorem FlagFile.agreesOn.waiters_eq {f : FlagId} {a b ff : FlagFile} (h : a.agreesOn f b) (ha : a.within ff)
    (hb : b.within ff) {c : ChainId} {w : Waiter} (hw : ff.waiters[c] = some w) (hf : w.flag = f) :
    a.waiters[c] = b.waiters[c] := by
  cases hx : a.waiters[c] with
  | some x =>
    have := ha c x hx
    rw [hw] at this
    cases this
    exact (h.waiter hx hf).symm
  | none =>
    cases hy : b.waiters[c] with
    | none => rfl
    | some y =>
      have := hb c y hy
      rw [hw] at this
      cases this
      rw [h.symm.waiter hy hf] at hx
      cases hx

/-- The evaluations of different flags do not meet. -/
theorem FlagFile.evaluateAll_agrees (level : ChainId → Nat) (fs : List FlagId) (hn : fs.Nodup) (ff : FlagFile) :
    (FlagFile.evaluateAll level fs ff).2 = fs.flatMap (fun f => (FlagFile.evaluate level f 5 ff).2) ∧
    (∀ f ∈ fs, (FlagFile.evaluateAll level fs ff).1.agreesOn f (FlagFile.evaluate level f 5 ff).1) ∧
    ∀ f, f ∉ fs → (FlagFile.evaluateAll level fs ff).1.agreesOn f ff := by
  induction fs generalizing ff with
  | nil => exact ⟨rfl, by simp, fun f _ => .refl f ff⟩
  | cons x rest ih =>
    obtain ⟨hx, hr⟩ := List.nodup_cons.mp hn
    obtain ⟨h1, h2, h3⟩ := ih hr (FlagFile.evaluate level x 5 ff).1
    have away : ∀ f, f ∈ rest → (FlagFile.evaluate level x 5 ff).1.agreesOn f ff := fun f hf =>
      FlagFile.evaluate_elsewhere level (fun e : f = x => hx (e ▸ hf)) 5 ff
    simp only [FlagFile.evaluateAll, List.flatMap_cons]
    refine ⟨?_, ?_, ?_⟩
    · rw [h1]
      rw [List.flatMap_def, List.flatMap_def]
      exact congrArg (fun served => (FlagFile.evaluate level x 5 ff).2 ++ List.flatten served)
        (List.map_congr_left fun f hf => (FlagFile.evaluate_agrees level f 5 (away f hf)).1)
    · intro f hf
      rcases List.mem_cons.mp hf with rfl | hf
      · exact h3 f hx
      · exact (h2 f hf).trans (FlagFile.evaluate_agrees level f 5 (away f hf)).2
    · intro f hf
      exact (h3 f fun h => hf (List.mem_cons_of_mem _ h)).trans
        (FlagFile.evaluate_elsewhere level (fun e : f = x => hf (e ▸ List.mem_cons_self)) 5 ff)

theorem FlagFile.agreesOn_of_flags {f : FlagId} {ff : FlagFile} {new : BitVec 32} (h : new.getLsbD f = ff.value f) :
    FlagFile.agreesOn f { ff with flags := new } ff := ⟨h, fun _ => rfl⟩

/-- A host mask does to each flag, and to the waiters on it, what the change of that flag alone does, and serves whom those
changes serve (02 R32). -/
theorem FlagFile.hostWrite_each (level : ChainId → Nat) (new : BitVec 32) (ff : FlagFile) :
    (FlagFile.hostWrite level new ff).2 =
      (changedFlags ff.flags new).flatMap (fun f => (ff.change level f (new.getLsbD f)).2) ∧
    ∀ f : FlagId, (FlagFile.hostWrite level new ff).1.agreesOn f (ff.change level f (new.getLsbD f)).1 ∧
      (FlagFile.hostWrite level new ff).1.within ff ∧ (ff.change level f (new.getLsbD f)).1.within ff := by
  have hn : (changedFlags ff.flags new).Nodup := (List.nodup_finRange 32).filter _
  have hm : ∀ f : FlagId, f ∈ changedFlags ff.flags new ↔ ff.value f ≠ new.getLsbD f := by
    intro f
    simp [changedFlags, FlagFile.value]
  obtain ⟨h1, h2, h3⟩ := FlagFile.evaluateAll_agrees level _ hn { ff with flags := new }
  have hput : ∀ f : FlagId, FlagFile.agreesOn f { ff with flags := new } (ff.put f (new.getLsbD f)) := fun f =>
    ⟨by rw [FlagFile.value_put, if_pos rfl]; rfl, fun _ => rfl⟩
  refine ⟨?_, fun f => ⟨?_, ?_, ?_⟩⟩
  · refine h1.trans ?_
    rw [List.flatMap_def, List.flatMap_def]
    refine congrArg List.flatten (List.map_congr_left fun f hf => ?_)
    rw [(FlagFile.evaluate_agrees level f 5 (hput f)).1, FlagFile.change, if_neg ((hm f).mp hf)]
  · unfold FlagFile.change
    split
    · next h => exact (h3 f fun hf => (hm f).mp hf h).trans (FlagFile.agreesOn_of_flags h.symm)
    · next h => exact (h2 f ((hm f).mpr h)).trans (FlagFile.evaluate_agrees level f 5 (hput f)).2
  · exact fun c w h => FlagFile.evaluateAll_within level _ { ff with flags := new } c w h
  · unfold FlagFile.change
    split
    · exact fun _ _ h => h
    · exact fun c w h => FlagFile.evaluate_within level f 5 (ff.put f _) c w h

end Sys2Proof.Machine
end

