-- ==== Sys2Proof/Laws/State.lean ====
section
/-! SUPPORT. One lemma per field per update of State, true by computation, so that no proof unfolds a record update; and what
the homes of chains, jobs and waiters hold after an update. -/

namespace Sys2Proof.Machine

variable (s : State)

/-! ## State.setChain -/

@[simp] theorem State.setChain_chains (c : ChainId) (x : Chain) :
    (s.setChain c x).chains = s.chains.set c x := rfl
@[simp] theorem State.setChain_jobs (c : ChainId) (x : Chain) :
    (s.setChain c x).jobs = s.jobs := rfl
@[simp] theorem State.setChain_flags (c : ChainId) (x : Chain) :
    (s.setChain c x).flags = s.flags := rfl
@[simp] theorem State.setChain_waiters (c : ChainId) (x : Chain) :
    (s.setChain c x).waiters = s.waiters := rfl
@[simp] theorem State.setChain_surfaces (c : ChainId) (x : Chain) :
    (s.setChain c x).surfaces = s.surfaces := rfl
@[simp] theorem State.setChain_lines (c : ChainId) (x : Chain) :
    (s.setChain c x).lines = s.lines := rfl
@[simp] theorem State.setChain_inBuf (c : ChainId) (x : Chain) :
    (s.setChain c x).inBuf = s.inBuf := rfl
@[simp] theorem State.setChain_outBuf (c : ChainId) (x : Chain) :
    (s.setChain c x).outBuf = s.outBuf := rfl
@[simp] theorem State.setChain_passOver (c : ChainId) (x : Chain) :
    (s.setChain c x).passOver = s.passOver := rfl
@[simp] theorem State.setChain_conversion (c : ChainId) (x : Chain) :
    (s.setChain c x).conversion = s.conversion := rfl
@[simp] theorem State.setChain_image (c : ChainId) (x : Chain) :
    (s.setChain c x).image = s.image := rfl
@[simp] theorem State.setChain_lut (c : ChainId) (x : Chain) :
    (s.setChain c x).lut = s.lut := rfl
@[simp] theorem State.setChain_coeffs (c : ChainId) (x : Chain) :
    (s.setChain c x).coeffs = s.coeffs := rfl
@[simp] theorem State.setChain_tableGate (c : ChainId) (x : Chain) :
    (s.setChain c x).tableGate = s.tableGate := rfl
@[simp] theorem State.setChain_lineMarks (c : ChainId) (x : Chain) :
    (s.setChain c x).lineMarks = s.lineMarks := rfl
@[simp] theorem State.setChain_fetchChecks (c : ChainId) (x : Chain) :
    (s.setChain c x).fetchChecks = s.fetchChecks := rfl
@[simp] theorem State.setChain_packCheck (c : ChainId) (x : Chain) :
    (s.setChain c x).packCheck = s.packCheck := rfl
@[simp] theorem State.setChain_copyZero (c : ChainId) (x : Chain) :
    (s.setChain c x).copyZero = s.copyZero := rfl
@[simp] theorem State.setChain_entries (c : ChainId) (x : Chain) :
    (s.setChain c x).entries = s.entries := rfl
@[simp] theorem State.setChain_pendingMark (c : ChainId) (x : Chain) :
    (s.setChain c x).pendingMark = s.pendingMark := rfl
@[simp] theorem State.setChain_replGate (c : ChainId) (x : Chain) :
    (s.setChain c x).replGate = s.replGate := rfl
@[simp] theorem State.setChain_accesses (c : ChainId) (x : Chain) :
    (s.setChain c x).accesses = s.accesses := rfl
@[simp] theorem State.setChain_ten (c : ChainId) (x : Chain) :
    (s.setChain c x).ten = s.ten := rfl
@[simp] theorem State.setChain_softReset (c : ChainId) (x : Chain) :
    (s.setChain c x).softReset = s.softReset := rfl
@[simp] theorem State.setChain_exchangeBase (c : ChainId) (x : Chain) :
    (s.setChain c x).exchangeBase = s.exchangeBase := rfl
@[simp] theorem State.setChain_lastResult (c : ChainId) (x : Chain) :
    (s.setChain c x).lastResult = s.lastResult := rfl
@[simp] theorem State.setChain_attentionMask (c : ChainId) (x : Chain) :
    (s.setChain c x).attentionMask = s.attentionMask := rfl
@[simp] theorem State.setChain_errors (c : ChainId) (x : Chain) :
    (s.setChain c x).errors = s.errors := rfl
@[simp] theorem State.setChain_memory (c : ChainId) (x : Chain) :
    (s.setChain c x).memory = s.memory := rfl
@[simp] theorem State.setChain_choices (c : ChainId) (x : Chain) :
    (s.setChain c x).choices = s.choices := rfl
@[simp] theorem State.setChain_pending (c : ChainId) (x : Chain) :
    (s.setChain c x).pending = s.pending := rfl

/-! ## State.updChain -/

@[simp] theorem State.updChain_chains (c : ChainId) (f : Chain → Chain) :
    (s.updChain c f).chains = s.chains.set c (f (s.chain c)) := rfl
@[simp] theorem State.updChain_jobs (c : ChainId) (f : Chain → Chain) :
    (s.updChain c f).jobs = s.jobs := rfl
@[simp] theorem State.updChain_flags (c : ChainId) (f : Chain → Chain) :
    (s.updChain c f).flags = s.flags := rfl
@[simp] theorem State.updChain_waiters (c : ChainId) (f : Chain → Chain) :
    (s.updChain c f).waiters = s.waiters := rfl
@[simp] theorem State.updChain_surfaces (c : ChainId) (f : Chain → Chain) :
    (s.updChain c f).surfaces = s.surfaces := rfl
@[simp] theorem State.updChain_lines (c : ChainId) (f : Chain → Chain) :
    (s.updChain c f).lines = s.lines := rfl
@[simp] theorem State.updChain_inBuf (c : ChainId) (f : Chain → Chain) :
    (s.updChain c f).inBuf = s.inBuf := rfl
@[simp] theorem State.updChain_outBuf (c : ChainId) (f : Chain → Chain) :
    (s.updChain c f).outBuf = s.outBuf := rfl
@[simp] theorem State.updChain_passOver (c : ChainId) (f : Chain → Chain) :
    (s.updChain c f).passOver = s.passOver := rfl
@[simp] theorem State.updChain_conversion (c : ChainId) (f : Chain → Chain) :
    (s.updChain c f).conversion = s.conversion := rfl
@[simp] theorem State.updChain_image (c : ChainId) (f : Chain → Chain) :
    (s.updChain c f).image = s.image := rfl
@[simp] theorem State.updChain_lut (c : ChainId) (f : Chain → Chain) :
    (s.updChain c f).lut = s.lut := rfl
@[simp] theorem State.updChain_coeffs (c : ChainId) (f : Chain → Chain) :
    (s.updChain c f).coeffs = s.coeffs := rfl
@[simp] theorem State.updChain_tableGate (c : ChainId) (f : Chain → Chain) :
    (s.updChain c f).tableGate = s.tableGate := rfl
@[simp] theorem State.updChain_lineMarks (c : ChainId) (f : Chain → Chain) :
    (s.updChain c f).lineMarks = s.lineMarks := rfl
@[simp] theorem State.updChain_fetchChecks (c : ChainId) (f : Chain → Chain) :
    (s.updChain c f).fetchChecks = s.fetchChecks := rfl
@[simp] theorem State.updChain_packCheck (c : ChainId) (f : Chain → Chain) :
    (s.updChain c f).packCheck = s.packCheck := rfl
@[simp] theorem State.updChain_copyZero (c : ChainId) (f : Chain → Chain) :
    (s.updChain c f).copyZero = s.copyZero := rfl
@[simp] theorem State.updChain_entries (c : ChainId) (f : Chain → Chain) :
    (s.updChain c f).entries = s.entries := rfl
@[simp] theorem State.updChain_pendingMark (c : ChainId) (f : Chain → Chain) :
    (s.updChain c f).pendingMark = s.pendingMark := rfl
@[simp] theorem State.updChain_replGate (c : ChainId) (f : Chain → Chain) :
    (s.updChain c f).replGate = s.replGate := rfl
@[simp] theorem State.updChain_accesses (c : ChainId) (f : Chain → Chain) :
    (s.updChain c f).accesses = s.accesses := rfl
@[simp] theorem State.updChain_ten (c : ChainId) (f : Chain → Chain) :
    (s.updChain c f).ten = s.ten := rfl
@[simp] theorem State.updChain_softReset (c : ChainId) (f : Chain → Chain) :
    (s.updChain c f).softReset = s.softReset := rfl
@[simp] theorem State.updChain_exchangeBase (c : ChainId) (f : Chain → Chain) :
    (s.updChain c f).exchangeBase = s.exchangeBase := rfl
@[simp] theorem State.updChain_lastResult (c : ChainId) (f : Chain → Chain) :
    (s.updChain c f).lastResult = s.lastResult := rfl
@[simp] theorem State.updChain_attentionMask (c : ChainId) (f : Chain → Chain) :
    (s.updChain c f).attentionMask = s.attentionMask := rfl
@[simp] theorem State.updChain_errors (c : ChainId) (f : Chain → Chain) :
    (s.updChain c f).errors = s.errors := rfl
@[simp] theorem State.updChain_memory (c : ChainId) (f : Chain → Chain) :
    (s.updChain c f).memory = s.memory := rfl
@[simp] theorem State.updChain_choices (c : ChainId) (f : Chain → Chain) :
    (s.updChain c f).choices = s.choices := rfl
@[simp] theorem State.updChain_pending (c : ChainId) (f : Chain → Chain) :
    (s.updChain c f).pending = s.pending := rfl

/-! ## State.setJob -/

@[simp] theorem State.setJob_chains (c : ChainId) (j : Option Job) :
    (s.setJob c j).chains = s.chains := rfl
@[simp] theorem State.setJob_jobs (c : ChainId) (j : Option Job) :
    (s.setJob c j).jobs = s.jobs.set c j := rfl
@[simp] theorem State.setJob_flags (c : ChainId) (j : Option Job) :
    (s.setJob c j).flags = s.flags := rfl
@[simp] theorem State.setJob_waiters (c : ChainId) (j : Option Job) :
    (s.setJob c j).waiters = s.waiters := rfl
@[simp] theorem State.setJob_surfaces (c : ChainId) (j : Option Job) :
    (s.setJob c j).surfaces = s.surfaces := rfl
@[simp] theorem State.setJob_lines (c : ChainId) (j : Option Job) :
    (s.setJob c j).lines = s.lines := rfl
@[simp] theorem State.setJob_inBuf (c : ChainId) (j : Option Job) :
    (s.setJob c j).inBuf = s.inBuf := rfl
@[simp] theorem State.setJob_outBuf (c : ChainId) (j : Option Job) :
    (s.setJob c j).outBuf = s.outBuf := rfl
@[simp] theorem State.setJob_passOver (c : ChainId) (j : Option Job) :
    (s.setJob c j).passOver = s.passOver := rfl
@[simp] theorem State.setJob_conversion (c : ChainId) (j : Option Job) :
    (s.setJob c j).conversion = s.conversion := rfl
@[simp] theorem State.setJob_image (c : ChainId) (j : Option Job) :
    (s.setJob c j).image = s.image := rfl
@[simp] theorem State.setJob_lut (c : ChainId) (j : Option Job) :
    (s.setJob c j).lut = s.lut := rfl
@[simp] theorem State.setJob_coeffs (c : ChainId) (j : Option Job) :
    (s.setJob c j).coeffs = s.coeffs := rfl
@[simp] theorem State.setJob_tableGate (c : ChainId) (j : Option Job) :
    (s.setJob c j).tableGate = s.tableGate := rfl
@[simp] theorem State.setJob_lineMarks (c : ChainId) (j : Option Job) :
    (s.setJob c j).lineMarks = s.lineMarks := rfl
@[simp] theorem State.setJob_fetchChecks (c : ChainId) (j : Option Job) :
    (s.setJob c j).fetchChecks = s.fetchChecks := rfl
@[simp] theorem State.setJob_packCheck (c : ChainId) (j : Option Job) :
    (s.setJob c j).packCheck = s.packCheck := rfl
@[simp] theorem State.setJob_copyZero (c : ChainId) (j : Option Job) :
    (s.setJob c j).copyZero = s.copyZero := rfl
@[simp] theorem State.setJob_entries (c : ChainId) (j : Option Job) :
    (s.setJob c j).entries = s.entries := rfl
@[simp] theorem State.setJob_pendingMark (c : ChainId) (j : Option Job) :
    (s.setJob c j).pendingMark = s.pendingMark := rfl
@[simp] theorem State.setJob_replGate (c : ChainId) (j : Option Job) :
    (s.setJob c j).replGate = s.replGate := rfl
@[simp] theorem State.setJob_accesses (c : ChainId) (j : Option Job) :
    (s.setJob c j).accesses = s.accesses := rfl
@[simp] theorem State.setJob_ten (c : ChainId) (j : Option Job) :
    (s.setJob c j).ten = s.ten := rfl
@[simp] theorem State.setJob_softReset (c : ChainId) (j : Option Job) :
    (s.setJob c j).softReset = s.softReset := rfl
@[simp] theorem State.setJob_exchangeBase (c : ChainId) (j : Option Job) :
    (s.setJob c j).exchangeBase = s.exchangeBase := rfl
@[simp] theorem State.setJob_lastResult (c : ChainId) (j : Option Job) :
    (s.setJob c j).lastResult = s.lastResult := rfl
@[simp] theorem State.setJob_attentionMask (c : ChainId) (j : Option Job) :
    (s.setJob c j).attentionMask = s.attentionMask := rfl
@[simp] theorem State.setJob_errors (c : ChainId) (j : Option Job) :
    (s.setJob c j).errors = s.errors := rfl
@[simp] theorem State.setJob_memory (c : ChainId) (j : Option Job) :
    (s.setJob c j).memory = s.memory := rfl
@[simp] theorem State.setJob_choices (c : ChainId) (j : Option Job) :
    (s.setJob c j).choices = s.choices := rfl
@[simp] theorem State.setJob_pending (c : ChainId) (j : Option Job) :
    (s.setJob c j).pending = s.pending := rfl

/-! ## State.updJob -/

@[simp] theorem State.updJob_chains (c : ChainId) (f : Job → Job) :
    (s.updJob c f).chains = s.chains := rfl
@[simp] theorem State.updJob_jobs (c : ChainId) (f : Job → Job) :
    (s.updJob c f).jobs = s.jobs.set c ((s.job c).map f) := rfl
@[simp] theorem State.updJob_flags (c : ChainId) (f : Job → Job) :
    (s.updJob c f).flags = s.flags := rfl
@[simp] theorem State.updJob_waiters (c : ChainId) (f : Job → Job) :
    (s.updJob c f).waiters = s.waiters := rfl
@[simp] theorem State.updJob_surfaces (c : ChainId) (f : Job → Job) :
    (s.updJob c f).surfaces = s.surfaces := rfl
@[simp] theorem State.updJob_lines (c : ChainId) (f : Job → Job) :
    (s.updJob c f).lines = s.lines := rfl
@[simp] theorem State.updJob_inBuf (c : ChainId) (f : Job → Job) :
    (s.updJob c f).inBuf = s.inBuf := rfl
@[simp] theorem State.updJob_outBuf (c : ChainId) (f : Job → Job) :
    (s.updJob c f).outBuf = s.outBuf := rfl
@[simp] theorem State.updJob_passOver (c : ChainId) (f : Job → Job) :
    (s.updJob c f).passOver = s.passOver := rfl
@[simp] theorem State.updJob_conversion (c : ChainId) (f : Job → Job) :
    (s.updJob c f).conversion = s.conversion := rfl
@[simp] theorem State.updJob_image (c : ChainId) (f : Job → Job) :
    (s.updJob c f).image = s.image := rfl
@[simp] theorem State.updJob_lut (c : ChainId) (f : Job → Job) :
    (s.updJob c f).lut = s.lut := rfl
@[simp] theorem State.updJob_coeffs (c : ChainId) (f : Job → Job) :
    (s.updJob c f).coeffs = s.coeffs := rfl
@[simp] theorem State.updJob_tableGate (c : ChainId) (f : Job → Job) :
    (s.updJob c f).tableGate = s.tableGate := rfl
@[simp] theorem State.updJob_lineMarks (c : ChainId) (f : Job → Job) :
    (s.updJob c f).lineMarks = s.lineMarks := rfl
@[simp] theorem State.updJob_fetchChecks (c : ChainId) (f : Job → Job) :
    (s.updJob c f).fetchChecks = s.fetchChecks := rfl
@[simp] theorem State.updJob_packCheck (c : ChainId) (f : Job → Job) :
    (s.updJob c f).packCheck = s.packCheck := rfl
@[simp] theorem State.updJob_copyZero (c : ChainId) (f : Job → Job) :
    (s.updJob c f).copyZero = s.copyZero := rfl
@[simp] theorem State.updJob_entries (c : ChainId) (f : Job → Job) :
    (s.updJob c f).entries = s.entries := rfl
@[simp] theorem State.updJob_pendingMark (c : ChainId) (f : Job → Job) :
    (s.updJob c f).pendingMark = s.pendingMark := rfl
@[simp] theorem State.updJob_replGate (c : ChainId) (f : Job → Job) :
    (s.updJob c f).replGate = s.replGate := rfl
@[simp] theorem State.updJob_accesses (c : ChainId) (f : Job → Job) :
    (s.updJob c f).accesses = s.accesses := rfl
@[simp] theorem State.updJob_ten (c : ChainId) (f : Job → Job) :
    (s.updJob c f).ten = s.ten := rfl
@[simp] theorem State.updJob_softReset (c : ChainId) (f : Job → Job) :
    (s.updJob c f).softReset = s.softReset := rfl
@[simp] theorem State.updJob_exchangeBase (c : ChainId) (f : Job → Job) :
    (s.updJob c f).exchangeBase = s.exchangeBase := rfl
@[simp] theorem State.updJob_lastResult (c : ChainId) (f : Job → Job) :
    (s.updJob c f).lastResult = s.lastResult := rfl
@[simp] theorem State.updJob_attentionMask (c : ChainId) (f : Job → Job) :
    (s.updJob c f).attentionMask = s.attentionMask := rfl
@[simp] theorem State.updJob_errors (c : ChainId) (f : Job → Job) :
    (s.updJob c f).errors = s.errors := rfl
@[simp] theorem State.updJob_memory (c : ChainId) (f : Job → Job) :
    (s.updJob c f).memory = s.memory := rfl
@[simp] theorem State.updJob_choices (c : ChainId) (f : Job → Job) :
    (s.updJob c f).choices = s.choices := rfl
@[simp] theorem State.updJob_pending (c : ChainId) (f : Job → Job) :
    (s.updJob c f).pending = s.pending := rfl

/-! ## State.setWaiter -/

@[simp] theorem State.setWaiter_chains (c : ChainId) (w : Option Waiter) :
    (s.setWaiter c w).chains = s.chains := rfl
@[simp] theorem State.setWaiter_jobs (c : ChainId) (w : Option Waiter) :
    (s.setWaiter c w).jobs = s.jobs := rfl
@[simp] theorem State.setWaiter_flags (c : ChainId) (w : Option Waiter) :
    (s.setWaiter c w).flags = s.flags := rfl
@[simp] theorem State.setWaiter_waiters (c : ChainId) (w : Option Waiter) :
    (s.setWaiter c w).waiters = s.waiters.set c w := rfl
@[simp] theorem State.setWaiter_surfaces (c : ChainId) (w : Option Waiter) :
    (s.setWaiter c w).surfaces = s.surfaces := rfl
@[simp] theorem State.setWaiter_lines (c : ChainId) (w : Option Waiter) :
    (s.setWaiter c w).lines = s.lines := rfl
@[simp] theorem State.setWaiter_inBuf (c : ChainId) (w : Option Waiter) :
    (s.setWaiter c w).inBuf = s.inBuf := rfl
@[simp] theorem State.setWaiter_outBuf (c : ChainId) (w : Option Waiter) :
    (s.setWaiter c w).outBuf = s.outBuf := rfl
@[simp] theorem State.setWaiter_passOver (c : ChainId) (w : Option Waiter) :
    (s.setWaiter c w).passOver = s.passOver := rfl
@[simp] theorem State.setWaiter_conversion (c : ChainId) (w : Option Waiter) :
    (s.setWaiter c w).conversion = s.conversion := rfl
@[simp] theorem State.setWaiter_image (c : ChainId) (w : Option Waiter) :
    (s.setWaiter c w).image = s.image := rfl
@[simp] theorem State.setWaiter_lut (c : ChainId) (w : Option Waiter) :
    (s.setWaiter c w).lut = s.lut := rfl
@[simp] theorem State.setWaiter_coeffs (c : ChainId) (w : Option Waiter) :
    (s.setWaiter c w).coeffs = s.coeffs := rfl
@[simp] theorem State.setWaiter_tableGate (c : ChainId) (w : Option Waiter) :
    (s.setWaiter c w).tableGate = s.tableGate := rfl
@[simp] theorem State.setWaiter_lineMarks (c : ChainId) (w : Option Waiter) :
    (s.setWaiter c w).lineMarks = s.lineMarks := rfl
@[simp] theorem State.setWaiter_fetchChecks (c : ChainId) (w : Option Waiter) :
    (s.setWaiter c w).fetchChecks = s.fetchChecks := rfl
@[simp] theorem State.setWaiter_packCheck (c : ChainId) (w : Option Waiter) :
    (s.setWaiter c w).packCheck = s.packCheck := rfl
@[simp] theorem State.setWaiter_copyZero (c : ChainId) (w : Option Waiter) :
    (s.setWaiter c w).copyZero = s.copyZero := rfl
@[simp] theorem State.setWaiter_entries (c : ChainId) (w : Option Waiter) :
    (s.setWaiter c w).entries = s.entries := rfl
@[simp] theorem State.setWaiter_pendingMark (c : ChainId) (w : Option Waiter) :
    (s.setWaiter c w).pendingMark = s.pendingMark := rfl
@[simp] theorem State.setWaiter_replGate (c : ChainId) (w : Option Waiter) :
    (s.setWaiter c w).replGate = s.replGate := rfl
@[simp] theorem State.setWaiter_accesses (c : ChainId) (w : Option Waiter) :
    (s.setWaiter c w).accesses = s.accesses := rfl
@[simp] theorem State.setWaiter_ten (c : ChainId) (w : Option Waiter) :
    (s.setWaiter c w).ten = s.ten := rfl
@[simp] theorem State.setWaiter_softReset (c : ChainId) (w : Option Waiter) :
    (s.setWaiter c w).softReset = s.softReset := rfl
@[simp] theorem State.setWaiter_exchangeBase (c : ChainId) (w : Option Waiter) :
    (s.setWaiter c w).exchangeBase = s.exchangeBase := rfl
@[simp] theorem State.setWaiter_lastResult (c : ChainId) (w : Option Waiter) :
    (s.setWaiter c w).lastResult = s.lastResult := rfl
@[simp] theorem State.setWaiter_attentionMask (c : ChainId) (w : Option Waiter) :
    (s.setWaiter c w).attentionMask = s.attentionMask := rfl
@[simp] theorem State.setWaiter_errors (c : ChainId) (w : Option Waiter) :
    (s.setWaiter c w).errors = s.errors := rfl
@[simp] theorem State.setWaiter_memory (c : ChainId) (w : Option Waiter) :
    (s.setWaiter c w).memory = s.memory := rfl
@[simp] theorem State.setWaiter_choices (c : ChainId) (w : Option Waiter) :
    (s.setWaiter c w).choices = s.choices := rfl
@[simp] theorem State.setWaiter_pending (c : ChainId) (w : Option Waiter) :
    (s.setWaiter c w).pending = s.pending := rfl

/-! ## State.issue -/

@[simp] theorem State.issue_chains (a : Access) :
    (s.issue a).chains = s.chains := rfl
@[simp] theorem State.issue_jobs (a : Access) :
    (s.issue a).jobs = s.jobs := rfl
@[simp] theorem State.issue_flags (a : Access) :
    (s.issue a).flags = s.flags := rfl
@[simp] theorem State.issue_waiters (a : Access) :
    (s.issue a).waiters = s.waiters := rfl
@[simp] theorem State.issue_surfaces (a : Access) :
    (s.issue a).surfaces = s.surfaces := rfl
@[simp] theorem State.issue_lines (a : Access) :
    (s.issue a).lines = s.lines := rfl
@[simp] theorem State.issue_inBuf (a : Access) :
    (s.issue a).inBuf = s.inBuf := rfl
@[simp] theorem State.issue_outBuf (a : Access) :
    (s.issue a).outBuf = s.outBuf := rfl
@[simp] theorem State.issue_passOver (a : Access) :
    (s.issue a).passOver = s.passOver := rfl
@[simp] theorem State.issue_conversion (a : Access) :
    (s.issue a).conversion = s.conversion := rfl
@[simp] theorem State.issue_image (a : Access) :
    (s.issue a).image = s.image := rfl
@[simp] theorem State.issue_lut (a : Access) :
    (s.issue a).lut = s.lut := rfl
@[simp] theorem State.issue_coeffs (a : Access) :
    (s.issue a).coeffs = s.coeffs := rfl
@[simp] theorem State.issue_tableGate (a : Access) :
    (s.issue a).tableGate = s.tableGate := rfl
@[simp] theorem State.issue_lineMarks (a : Access) :
    (s.issue a).lineMarks = s.lineMarks := rfl
@[simp] theorem State.issue_fetchChecks (a : Access) :
    (s.issue a).fetchChecks = s.fetchChecks := rfl
@[simp] theorem State.issue_packCheck (a : Access) :
    (s.issue a).packCheck = s.packCheck := rfl
@[simp] theorem State.issue_copyZero (a : Access) :
    (s.issue a).copyZero = s.copyZero := rfl
@[simp] theorem State.issue_entries (a : Access) :
    (s.issue a).entries = s.entries := rfl
@[simp] theorem State.issue_pendingMark (a : Access) :
    (s.issue a).pendingMark = s.pendingMark := rfl
@[simp] theorem State.issue_replGate (a : Access) :
    (s.issue a).replGate = s.replGate := rfl
@[simp] theorem State.issue_accesses (a : Access) :
    (s.issue a).accesses = s.accesses ++ [a] := rfl
@[simp] theorem State.issue_ten (a : Access) :
    (s.issue a).ten = s.ten := rfl
@[simp] theorem State.issue_softReset (a : Access) :
    (s.issue a).softReset = s.softReset := rfl
@[simp] theorem State.issue_exchangeBase (a : Access) :
    (s.issue a).exchangeBase = s.exchangeBase := rfl
@[simp] theorem State.issue_lastResult (a : Access) :
    (s.issue a).lastResult = s.lastResult := rfl
@[simp] theorem State.issue_attentionMask (a : Access) :
    (s.issue a).attentionMask = s.attentionMask := rfl
@[simp] theorem State.issue_errors (a : Access) :
    (s.issue a).errors = s.errors := rfl
@[simp] theorem State.issue_memory (a : Access) :
    (s.issue a).memory = s.memory := rfl
@[simp] theorem State.issue_choices (a : Access) :
    (s.issue a).choices = s.choices := rfl
@[simp] theorem State.issue_pending (a : Access) :
    (s.issue a).pending = s.pending := rfl

/-! ## State.report -/

@[simp] theorem State.report_chains (k : ErrorKind) (c : ChainId) :
    (s.report k c).chains = s.chains := rfl
@[simp] theorem State.report_jobs (k : ErrorKind) (c : ChainId) :
    (s.report k c).jobs = s.jobs := rfl
@[simp] theorem State.report_flags (k : ErrorKind) (c : ChainId) :
    (s.report k c).flags = s.flags := rfl
@[simp] theorem State.report_waiters (k : ErrorKind) (c : ChainId) :
    (s.report k c).waiters = s.waiters := rfl
@[simp] theorem State.report_surfaces (k : ErrorKind) (c : ChainId) :
    (s.report k c).surfaces = s.surfaces := rfl
@[simp] theorem State.report_lines (k : ErrorKind) (c : ChainId) :
    (s.report k c).lines = s.lines := rfl
@[simp] theorem State.report_inBuf (k : ErrorKind) (c : ChainId) :
    (s.report k c).inBuf = s.inBuf := rfl
@[simp] theorem State.report_outBuf (k : ErrorKind) (c : ChainId) :
    (s.report k c).outBuf = s.outBuf := rfl
@[simp] theorem State.report_passOver (k : ErrorKind) (c : ChainId) :
    (s.report k c).passOver = s.passOver := rfl
@[simp] theorem State.report_conversion (k : ErrorKind) (c : ChainId) :
    (s.report k c).conversion = s.conversion := rfl
@[simp] theorem State.report_image (k : ErrorKind) (c : ChainId) :
    (s.report k c).image = s.image := rfl
@[simp] theorem State.report_lut (k : ErrorKind) (c : ChainId) :
    (s.report k c).lut = s.lut := rfl
@[simp] theorem State.report_coeffs (k : ErrorKind) (c : ChainId) :
    (s.report k c).coeffs = s.coeffs := rfl
@[simp] theorem State.report_tableGate (k : ErrorKind) (c : ChainId) :
    (s.report k c).tableGate = s.tableGate := rfl
@[simp] theorem State.report_lineMarks (k : ErrorKind) (c : ChainId) :
    (s.report k c).lineMarks = s.lineMarks := rfl
@[simp] theorem State.report_fetchChecks (k : ErrorKind) (c : ChainId) :
    (s.report k c).fetchChecks = s.fetchChecks := rfl
@[simp] theorem State.report_packCheck (k : ErrorKind) (c : ChainId) :
    (s.report k c).packCheck = s.packCheck := rfl
@[simp] theorem State.report_copyZero (k : ErrorKind) (c : ChainId) :
    (s.report k c).copyZero = s.copyZero := rfl
@[simp] theorem State.report_entries (k : ErrorKind) (c : ChainId) :
    (s.report k c).entries = s.entries := rfl
@[simp] theorem State.report_pendingMark (k : ErrorKind) (c : ChainId) :
    (s.report k c).pendingMark = s.pendingMark := rfl
@[simp] theorem State.report_replGate (k : ErrorKind) (c : ChainId) :
    (s.report k c).replGate = s.replGate := rfl
@[simp] theorem State.report_accesses (k : ErrorKind) (c : ChainId) :
    (s.report k c).accesses = s.accesses := rfl
@[simp] theorem State.report_ten (k : ErrorKind) (c : ChainId) :
    (s.report k c).ten = s.ten := rfl
@[simp] theorem State.report_softReset (k : ErrorKind) (c : ChainId) :
    (s.report k c).softReset = s.softReset := rfl
@[simp] theorem State.report_exchangeBase (k : ErrorKind) (c : ChainId) :
    (s.report k c).exchangeBase = s.exchangeBase := rfl
@[simp] theorem State.report_lastResult (k : ErrorKind) (c : ChainId) :
    (s.report k c).lastResult = s.lastResult := rfl
@[simp] theorem State.report_attentionMask (k : ErrorKind) (c : ChainId) :
    (s.report k c).attentionMask = s.attentionMask := rfl
@[simp] theorem State.report_errors (k : ErrorKind) (c : ChainId) :
    (s.report k c).errors = s.errors.report k c := rfl
@[simp] theorem State.report_memory (k : ErrorKind) (c : ChainId) :
    (s.report k c).memory = s.memory := rfl
@[simp] theorem State.report_choices (k : ErrorKind) (c : ChainId) :
    (s.report k c).choices = s.choices := rfl
@[simp] theorem State.report_pending (k : ErrorKind) (c : ChainId) :
    (s.report k c).pending = s.pending := rfl

/-! ## State.accept -/

@[simp] theorem State.accept_chains (r : BitVec 4) (c : ChainId) :
    (s.accept r c).chains = s.chains := rfl
@[simp] theorem State.accept_jobs (r : BitVec 4) (c : ChainId) :
    (s.accept r c).jobs = s.jobs := rfl
@[simp] theorem State.accept_flags (r : BitVec 4) (c : ChainId) :
    (s.accept r c).flags = s.flags := rfl
@[simp] theorem State.accept_waiters (r : BitVec 4) (c : ChainId) :
    (s.accept r c).waiters = s.waiters := rfl
@[simp] theorem State.accept_surfaces (r : BitVec 4) (c : ChainId) :
    (s.accept r c).surfaces = s.surfaces := rfl
@[simp] theorem State.accept_lines (r : BitVec 4) (c : ChainId) :
    (s.accept r c).lines = s.lines := rfl
@[simp] theorem State.accept_inBuf (r : BitVec 4) (c : ChainId) :
    (s.accept r c).inBuf = s.inBuf := rfl
@[simp] theorem State.accept_outBuf (r : BitVec 4) (c : ChainId) :
    (s.accept r c).outBuf = s.outBuf := rfl
@[simp] theorem State.accept_passOver (r : BitVec 4) (c : ChainId) :
    (s.accept r c).passOver = s.passOver := rfl
@[simp] theorem State.accept_conversion (r : BitVec 4) (c : ChainId) :
    (s.accept r c).conversion = s.conversion := rfl
@[simp] theorem State.accept_image (r : BitVec 4) (c : ChainId) :
    (s.accept r c).image = s.image := rfl
@[simp] theorem State.accept_lut (r : BitVec 4) (c : ChainId) :
    (s.accept r c).lut = s.lut := rfl
@[simp] theorem State.accept_coeffs (r : BitVec 4) (c : ChainId) :
    (s.accept r c).coeffs = s.coeffs := rfl
@[simp] theorem State.accept_tableGate (r : BitVec 4) (c : ChainId) :
    (s.accept r c).tableGate = s.tableGate := rfl
@[simp] theorem State.accept_lineMarks (r : BitVec 4) (c : ChainId) :
    (s.accept r c).lineMarks = s.lineMarks := rfl
@[simp] theorem State.accept_fetchChecks (r : BitVec 4) (c : ChainId) :
    (s.accept r c).fetchChecks = s.fetchChecks := rfl
@[simp] theorem State.accept_packCheck (r : BitVec 4) (c : ChainId) :
    (s.accept r c).packCheck = s.packCheck := rfl
@[simp] theorem State.accept_copyZero (r : BitVec 4) (c : ChainId) :
    (s.accept r c).copyZero = s.copyZero := rfl
@[simp] theorem State.accept_entries (r : BitVec 4) (c : ChainId) :
    (s.accept r c).entries = s.entries := rfl
@[simp] theorem State.accept_pendingMark (r : BitVec 4) (c : ChainId) :
    (s.accept r c).pendingMark = s.pendingMark := rfl
@[simp] theorem State.accept_replGate (r : BitVec 4) (c : ChainId) :
    (s.accept r c).replGate = s.replGate := rfl
@[simp] theorem State.accept_accesses (r : BitVec 4) (c : ChainId) :
    (s.accept r c).accesses = s.accesses := rfl
@[simp] theorem State.accept_ten (r : BitVec 4) (c : ChainId) :
    (s.accept r c).ten = s.ten := rfl
@[simp] theorem State.accept_softReset (r : BitVec 4) (c : ChainId) :
    (s.accept r c).softReset = s.softReset := rfl
@[simp] theorem State.accept_exchangeBase (r : BitVec 4) (c : ChainId) :
    (s.accept r c).exchangeBase = s.exchangeBase := rfl
@[simp] theorem State.accept_lastResult (r : BitVec 4) (c : ChainId) :
    (s.accept r c).lastResult = { result := .accepted, reason := .none, register := r, chain := c } := rfl
@[simp] theorem State.accept_attentionMask (r : BitVec 4) (c : ChainId) :
    (s.accept r c).attentionMask = s.attentionMask := rfl
@[simp] theorem State.accept_errors (r : BitVec 4) (c : ChainId) :
    (s.accept r c).errors = s.errors := rfl
@[simp] theorem State.accept_memory (r : BitVec 4) (c : ChainId) :
    (s.accept r c).memory = s.memory := rfl
@[simp] theorem State.accept_choices (r : BitVec 4) (c : ChainId) :
    (s.accept r c).choices = s.choices := rfl
@[simp] theorem State.accept_pending (r : BitVec 4) (c : ChainId) :
    (s.accept r c).pending = s.pending := rfl

/-! ## State.refuse -/

@[simp] theorem State.refuse_chains (e : Reason) (r : BitVec 4) (c : ChainId) :
    (s.refuse e r c).chains = s.chains := rfl
@[simp] theorem State.refuse_jobs (e : Reason) (r : BitVec 4) (c : ChainId) :
    (s.refuse e r c).jobs = s.jobs := rfl
@[simp] theorem State.refuse_flags (e : Reason) (r : BitVec 4) (c : ChainId) :
    (s.refuse e r c).flags = s.flags := rfl
@[simp] theorem State.refuse_waiters (e : Reason) (r : BitVec 4) (c : ChainId) :
    (s.refuse e r c).waiters = s.waiters := rfl
@[simp] theorem State.refuse_surfaces (e : Reason) (r : BitVec 4) (c : ChainId) :
    (s.refuse e r c).surfaces = s.surfaces := rfl
@[simp] theorem State.refuse_lines (e : Reason) (r : BitVec 4) (c : ChainId) :
    (s.refuse e r c).lines = s.lines := rfl
@[simp] theorem State.refuse_inBuf (e : Reason) (r : BitVec 4) (c : ChainId) :
    (s.refuse e r c).inBuf = s.inBuf := rfl
@[simp] theorem State.refuse_outBuf (e : Reason) (r : BitVec 4) (c : ChainId) :
    (s.refuse e r c).outBuf = s.outBuf := rfl
@[simp] theorem State.refuse_passOver (e : Reason) (r : BitVec 4) (c : ChainId) :
    (s.refuse e r c).passOver = s.passOver := rfl
@[simp] theorem State.refuse_conversion (e : Reason) (r : BitVec 4) (c : ChainId) :
    (s.refuse e r c).conversion = s.conversion := rfl
@[simp] theorem State.refuse_image (e : Reason) (r : BitVec 4) (c : ChainId) :
    (s.refuse e r c).image = s.image := rfl
@[simp] theorem State.refuse_lut (e : Reason) (r : BitVec 4) (c : ChainId) :
    (s.refuse e r c).lut = s.lut := rfl
@[simp] theorem State.refuse_coeffs (e : Reason) (r : BitVec 4) (c : ChainId) :
    (s.refuse e r c).coeffs = s.coeffs := rfl
@[simp] theorem State.refuse_tableGate (e : Reason) (r : BitVec 4) (c : ChainId) :
    (s.refuse e r c).tableGate = s.tableGate := rfl
@[simp] theorem State.refuse_lineMarks (e : Reason) (r : BitVec 4) (c : ChainId) :
    (s.refuse e r c).lineMarks = s.lineMarks := rfl
@[simp] theorem State.refuse_fetchChecks (e : Reason) (r : BitVec 4) (c : ChainId) :
    (s.refuse e r c).fetchChecks = s.fetchChecks := rfl
@[simp] theorem State.refuse_packCheck (e : Reason) (r : BitVec 4) (c : ChainId) :
    (s.refuse e r c).packCheck = s.packCheck := rfl
@[simp] theorem State.refuse_copyZero (e : Reason) (r : BitVec 4) (c : ChainId) :
    (s.refuse e r c).copyZero = s.copyZero := rfl
@[simp] theorem State.refuse_entries (e : Reason) (r : BitVec 4) (c : ChainId) :
    (s.refuse e r c).entries = s.entries := rfl
@[simp] theorem State.refuse_pendingMark (e : Reason) (r : BitVec 4) (c : ChainId) :
    (s.refuse e r c).pendingMark = s.pendingMark := rfl
@[simp] theorem State.refuse_replGate (e : Reason) (r : BitVec 4) (c : ChainId) :
    (s.refuse e r c).replGate = s.replGate := rfl
@[simp] theorem State.refuse_accesses (e : Reason) (r : BitVec 4) (c : ChainId) :
    (s.refuse e r c).accesses = s.accesses := rfl
@[simp] theorem State.refuse_ten (e : Reason) (r : BitVec 4) (c : ChainId) :
    (s.refuse e r c).ten = s.ten := rfl
@[simp] theorem State.refuse_softReset (e : Reason) (r : BitVec 4) (c : ChainId) :
    (s.refuse e r c).softReset = s.softReset := rfl
@[simp] theorem State.refuse_exchangeBase (e : Reason) (r : BitVec 4) (c : ChainId) :
    (s.refuse e r c).exchangeBase = s.exchangeBase := rfl
@[simp] theorem State.refuse_lastResult (e : Reason) (r : BitVec 4) (c : ChainId) :
    (s.refuse e r c).lastResult = { result := .refused, reason := e, register := r, chain := c } := rfl
@[simp] theorem State.refuse_attentionMask (e : Reason) (r : BitVec 4) (c : ChainId) :
    (s.refuse e r c).attentionMask = s.attentionMask := rfl
@[simp] theorem State.refuse_errors (e : Reason) (r : BitVec 4) (c : ChainId) :
    (s.refuse e r c).errors = s.errors := rfl
@[simp] theorem State.refuse_memory (e : Reason) (r : BitVec 4) (c : ChainId) :
    (s.refuse e r c).memory = s.memory := rfl
@[simp] theorem State.refuse_choices (e : Reason) (r : BitVec 4) (c : ChainId) :
    (s.refuse e r c).choices = s.choices := rfl
@[simp] theorem State.refuse_pending (e : Reason) (r : BitVec 4) (c : ChainId) :
    (s.refuse e r c).pending = s.pending := rfl

/-! ## State.issueRead -/

@[simp] theorem State.issueRead_chains (k : AccessKind) (c : ChainId) (a : PhysAddr) (n : Nat) :
    (s.issueRead k c a n).chains = s.chains := rfl
@[simp] theorem State.issueRead_jobs (k : AccessKind) (c : ChainId) (a : PhysAddr) (n : Nat) :
    (s.issueRead k c a n).jobs = s.jobs := rfl
@[simp] theorem State.issueRead_flags (k : AccessKind) (c : ChainId) (a : PhysAddr) (n : Nat) :
    (s.issueRead k c a n).flags = s.flags := rfl
@[simp] theorem State.issueRead_waiters (k : AccessKind) (c : ChainId) (a : PhysAddr) (n : Nat) :
    (s.issueRead k c a n).waiters = s.waiters := rfl
@[simp] theorem State.issueRead_surfaces (k : AccessKind) (c : ChainId) (a : PhysAddr) (n : Nat) :
    (s.issueRead k c a n).surfaces = s.surfaces := rfl
@[simp] theorem State.issueRead_lines (k : AccessKind) (c : ChainId) (a : PhysAddr) (n : Nat) :
    (s.issueRead k c a n).lines = s.lines := rfl
@[simp] theorem State.issueRead_inBuf (k : AccessKind) (c : ChainId) (a : PhysAddr) (n : Nat) :
    (s.issueRead k c a n).inBuf = s.inBuf := rfl
@[simp] theorem State.issueRead_outBuf (k : AccessKind) (c : ChainId) (a : PhysAddr) (n : Nat) :
    (s.issueRead k c a n).outBuf = s.outBuf := rfl
@[simp] theorem State.issueRead_passOver (k : AccessKind) (c : ChainId) (a : PhysAddr) (n : Nat) :
    (s.issueRead k c a n).passOver = s.passOver := rfl
@[simp] theorem State.issueRead_conversion (k : AccessKind) (c : ChainId) (a : PhysAddr) (n : Nat) :
    (s.issueRead k c a n).conversion = s.conversion := rfl
@[simp] theorem State.issueRead_image (k : AccessKind) (c : ChainId) (a : PhysAddr) (n : Nat) :
    (s.issueRead k c a n).image = s.image := rfl
@[simp] theorem State.issueRead_lut (k : AccessKind) (c : ChainId) (a : PhysAddr) (n : Nat) :
    (s.issueRead k c a n).lut = s.lut := rfl
@[simp] theorem State.issueRead_coeffs (k : AccessKind) (c : ChainId) (a : PhysAddr) (n : Nat) :
    (s.issueRead k c a n).coeffs = s.coeffs := rfl
@[simp] theorem State.issueRead_tableGate (k : AccessKind) (c : ChainId) (a : PhysAddr) (n : Nat) :
    (s.issueRead k c a n).tableGate = s.tableGate := rfl
@[simp] theorem State.issueRead_lineMarks (k : AccessKind) (c : ChainId) (a : PhysAddr) (n : Nat) :
    (s.issueRead k c a n).lineMarks = s.lineMarks := rfl
@[simp] theorem State.issueRead_fetchChecks (k : AccessKind) (c : ChainId) (a : PhysAddr) (n : Nat) :
    (s.issueRead k c a n).fetchChecks = s.fetchChecks := rfl
@[simp] theorem State.issueRead_packCheck (k : AccessKind) (c : ChainId) (a : PhysAddr) (n : Nat) :
    (s.issueRead k c a n).packCheck = s.packCheck := rfl
@[simp] theorem State.issueRead_copyZero (k : AccessKind) (c : ChainId) (a : PhysAddr) (n : Nat) :
    (s.issueRead k c a n).copyZero = s.copyZero := rfl
@[simp] theorem State.issueRead_entries (k : AccessKind) (c : ChainId) (a : PhysAddr) (n : Nat) :
    (s.issueRead k c a n).entries = s.entries := rfl
@[simp] theorem State.issueRead_pendingMark (k : AccessKind) (c : ChainId) (a : PhysAddr) (n : Nat) :
    (s.issueRead k c a n).pendingMark = s.pendingMark := rfl
@[simp] theorem State.issueRead_replGate (k : AccessKind) (c : ChainId) (a : PhysAddr) (n : Nat) :
    (s.issueRead k c a n).replGate = s.replGate := rfl
@[simp] theorem State.issueRead_accesses (k : AccessKind) (c : ChainId) (a : PhysAddr) (n : Nat) :
    (s.issueRead k c a n).accesses = s.accesses ++ [{ kind := k, chain := c, line := none, ranges := [{ start := a, bytes := n }], cells := [] }] := rfl
@[simp] theorem State.issueRead_ten (k : AccessKind) (c : ChainId) (a : PhysAddr) (n : Nat) :
    (s.issueRead k c a n).ten = s.ten := rfl
@[simp] theorem State.issueRead_softReset (k : AccessKind) (c : ChainId) (a : PhysAddr) (n : Nat) :
    (s.issueRead k c a n).softReset = s.softReset := rfl
@[simp] theorem State.issueRead_exchangeBase (k : AccessKind) (c : ChainId) (a : PhysAddr) (n : Nat) :
    (s.issueRead k c a n).exchangeBase = s.exchangeBase := rfl
@[simp] theorem State.issueRead_lastResult (k : AccessKind) (c : ChainId) (a : PhysAddr) (n : Nat) :
    (s.issueRead k c a n).lastResult = s.lastResult := rfl
@[simp] theorem State.issueRead_attentionMask (k : AccessKind) (c : ChainId) (a : PhysAddr) (n : Nat) :
    (s.issueRead k c a n).attentionMask = s.attentionMask := rfl
@[simp] theorem State.issueRead_errors (k : AccessKind) (c : ChainId) (a : PhysAddr) (n : Nat) :
    (s.issueRead k c a n).errors = s.errors := rfl
@[simp] theorem State.issueRead_memory (k : AccessKind) (c : ChainId) (a : PhysAddr) (n : Nat) :
    (s.issueRead k c a n).memory = s.memory := rfl
@[simp] theorem State.issueRead_choices (k : AccessKind) (c : ChainId) (a : PhysAddr) (n : Nat) :
    (s.issueRead k c a n).choices = s.choices := rfl
@[simp] theorem State.issueRead_pending (k : AccessKind) (c : ChainId) (a : PhysAddr) (n : Nat) :
    (s.issueRead k c a n).pending = s.pending := rfl

/-! ## State.issueWrite -/

@[simp] theorem State.issueWrite_chains (k : AccessKind) (c : ChainId) (a : PhysAddr) (b : List Byte) :
    (s.issueWrite k c a b).chains = s.chains := rfl
@[simp] theorem State.issueWrite_jobs (k : AccessKind) (c : ChainId) (a : PhysAddr) (b : List Byte) :
    (s.issueWrite k c a b).jobs = s.jobs := rfl
@[simp] theorem State.issueWrite_flags (k : AccessKind) (c : ChainId) (a : PhysAddr) (b : List Byte) :
    (s.issueWrite k c a b).flags = s.flags := rfl
@[simp] theorem State.issueWrite_waiters (k : AccessKind) (c : ChainId) (a : PhysAddr) (b : List Byte) :
    (s.issueWrite k c a b).waiters = s.waiters := rfl
@[simp] theorem State.issueWrite_surfaces (k : AccessKind) (c : ChainId) (a : PhysAddr) (b : List Byte) :
    (s.issueWrite k c a b).surfaces = s.surfaces := rfl
@[simp] theorem State.issueWrite_lines (k : AccessKind) (c : ChainId) (a : PhysAddr) (b : List Byte) :
    (s.issueWrite k c a b).lines = s.lines := rfl
@[simp] theorem State.issueWrite_inBuf (k : AccessKind) (c : ChainId) (a : PhysAddr) (b : List Byte) :
    (s.issueWrite k c a b).inBuf = s.inBuf := rfl
@[simp] theorem State.issueWrite_outBuf (k : AccessKind) (c : ChainId) (a : PhysAddr) (b : List Byte) :
    (s.issueWrite k c a b).outBuf = s.outBuf := rfl
@[simp] theorem State.issueWrite_passOver (k : AccessKind) (c : ChainId) (a : PhysAddr) (b : List Byte) :
    (s.issueWrite k c a b).passOver = s.passOver := rfl
@[simp] theorem State.issueWrite_conversion (k : AccessKind) (c : ChainId) (a : PhysAddr) (b : List Byte) :
    (s.issueWrite k c a b).conversion = s.conversion := rfl
@[simp] theorem State.issueWrite_image (k : AccessKind) (c : ChainId) (a : PhysAddr) (b : List Byte) :
    (s.issueWrite k c a b).image = s.image := rfl
@[simp] theorem State.issueWrite_lut (k : AccessKind) (c : ChainId) (a : PhysAddr) (b : List Byte) :
    (s.issueWrite k c a b).lut = s.lut := rfl
@[simp] theorem State.issueWrite_coeffs (k : AccessKind) (c : ChainId) (a : PhysAddr) (b : List Byte) :
    (s.issueWrite k c a b).coeffs = s.coeffs := rfl
@[simp] theorem State.issueWrite_tableGate (k : AccessKind) (c : ChainId) (a : PhysAddr) (b : List Byte) :
    (s.issueWrite k c a b).tableGate = s.tableGate := rfl
@[simp] theorem State.issueWrite_lineMarks (k : AccessKind) (c : ChainId) (a : PhysAddr) (b : List Byte) :
    (s.issueWrite k c a b).lineMarks = s.lineMarks := rfl
@[simp] theorem State.issueWrite_fetchChecks (k : AccessKind) (c : ChainId) (a : PhysAddr) (b : List Byte) :
    (s.issueWrite k c a b).fetchChecks = s.fetchChecks := rfl
@[simp] theorem State.issueWrite_packCheck (k : AccessKind) (c : ChainId) (a : PhysAddr) (b : List Byte) :
    (s.issueWrite k c a b).packCheck = s.packCheck := rfl
@[simp] theorem State.issueWrite_copyZero (k : AccessKind) (c : ChainId) (a : PhysAddr) (b : List Byte) :
    (s.issueWrite k c a b).copyZero = s.copyZero := rfl
@[simp] theorem State.issueWrite_entries (k : AccessKind) (c : ChainId) (a : PhysAddr) (b : List Byte) :
    (s.issueWrite k c a b).entries = s.entries := rfl
@[simp] theorem State.issueWrite_pendingMark (k : AccessKind) (c : ChainId) (a : PhysAddr) (b : List Byte) :
    (s.issueWrite k c a b).pendingMark = s.pendingMark := rfl
@[simp] theorem State.issueWrite_replGate (k : AccessKind) (c : ChainId) (a : PhysAddr) (b : List Byte) :
    (s.issueWrite k c a b).replGate = s.replGate := rfl
@[simp] theorem State.issueWrite_accesses (k : AccessKind) (c : ChainId) (a : PhysAddr) (b : List Byte) :
    (s.issueWrite k c a b).accesses = s.accesses ++ [{ kind := k, chain := c, line := none, ranges := [{ start := a, bytes := b.length }], cells := cellsOf [{ start := a, bytes := b.length }] b }] := rfl
@[simp] theorem State.issueWrite_ten (k : AccessKind) (c : ChainId) (a : PhysAddr) (b : List Byte) :
    (s.issueWrite k c a b).ten = s.ten := rfl
@[simp] theorem State.issueWrite_softReset (k : AccessKind) (c : ChainId) (a : PhysAddr) (b : List Byte) :
    (s.issueWrite k c a b).softReset = s.softReset := rfl
@[simp] theorem State.issueWrite_exchangeBase (k : AccessKind) (c : ChainId) (a : PhysAddr) (b : List Byte) :
    (s.issueWrite k c a b).exchangeBase = s.exchangeBase := rfl
@[simp] theorem State.issueWrite_lastResult (k : AccessKind) (c : ChainId) (a : PhysAddr) (b : List Byte) :
    (s.issueWrite k c a b).lastResult = s.lastResult := rfl
@[simp] theorem State.issueWrite_attentionMask (k : AccessKind) (c : ChainId) (a : PhysAddr) (b : List Byte) :
    (s.issueWrite k c a b).attentionMask = s.attentionMask := rfl
@[simp] theorem State.issueWrite_errors (k : AccessKind) (c : ChainId) (a : PhysAddr) (b : List Byte) :
    (s.issueWrite k c a b).errors = s.errors := rfl
@[simp] theorem State.issueWrite_memory (k : AccessKind) (c : ChainId) (a : PhysAddr) (b : List Byte) :
    (s.issueWrite k c a b).memory = s.memory := rfl
@[simp] theorem State.issueWrite_choices (k : AccessKind) (c : ChainId) (a : PhysAddr) (b : List Byte) :
    (s.issueWrite k c a b).choices = s.choices := rfl
@[simp] theorem State.issueWrite_pending (k : AccessKind) (c : ChainId) (a : PhysAddr) (b : List Byte) :
    (s.issueWrite k c a b).pending = s.pending := rfl

/-! ## The homes of chains, jobs and waiters -/

theorem State.chain_setChain (c d : ChainId) (x : Chain) :
    (s.setChain c x).chain d = if c = d then x else s.chain d := by
  simp only [State.chain, State.setChain_chains, Fin.getElem_fin, Vector.getElem_set, Fin.val_inj]

@[simp] theorem State.chain_setChain_self (c : ChainId) (x : Chain) : (s.setChain c x).chain c = x := by
  simp [State.chain_setChain]

@[simp] theorem State.chain_setChain_ne {c d : ChainId} (h : c ≠ d) (x : Chain) :
    (s.setChain c x).chain d = s.chain d := by
  simp [State.chain_setChain, h]

theorem State.chain_updChain (c d : ChainId) (f : Chain → Chain) :
    (s.updChain c f).chain d = if c = d then f (s.chain c) else s.chain d :=
  State.chain_setChain s c d (f (s.chain c))

@[simp] theorem State.chain_updChain_self (c : ChainId) (f : Chain → Chain) :
    (s.updChain c f).chain c = f (s.chain c) := by
  simp [State.chain_updChain]

@[simp] theorem State.chain_updChain_ne {c d : ChainId} (h : c ≠ d) (f : Chain → Chain) :
    (s.updChain c f).chain d = s.chain d := by
  simp [State.chain_updChain, h]

theorem State.job_setJob (c d : ChainId) (j : Option Job) :
    (s.setJob c j).job d = if c = d then j else s.job d := by
  simp only [State.job, State.setJob_jobs, Fin.getElem_fin, Vector.getElem_set, Fin.val_inj]

@[simp] theorem State.job_setJob_self (c : ChainId) (j : Option Job) : (s.setJob c j).job c = j := by
  simp [State.job_setJob]

@[simp] theorem State.job_setJob_ne {c d : ChainId} (h : c ≠ d) (j : Option Job) :
    (s.setJob c j).job d = s.job d := by
  simp [State.job_setJob, h]

theorem State.job_updJob (c d : ChainId) (f : Job → Job) :
    (s.updJob c f).job d = if c = d then (s.job c).map f else s.job d :=
  State.job_setJob s c d ((s.job c).map f)

@[simp] theorem State.job_updJob_self (c : ChainId) (f : Job → Job) : (s.updJob c f).job c = (s.job c).map f := by
  simp [State.job_updJob]

@[simp] theorem State.job_updJob_ne {c d : ChainId} (h : c ≠ d) (f : Job → Job) :
    (s.updJob c f).job d = s.job d := by
  simp [State.job_updJob, h]

theorem State.waiter_setWaiter (c d : ChainId) (w : Option Waiter) :
    (s.setWaiter c w).waiter d = if c = d then w else s.waiter d := by
  simp only [State.waiter, State.setWaiter_waiters, Fin.getElem_fin, Vector.getElem_set, Fin.val_inj]

@[simp] theorem State.job_setChain (c : ChainId) (x : Chain) (d : ChainId) :
    (s.setChain c x).job d = s.job d := rfl
@[simp] theorem State.waiter_setChain (c : ChainId) (x : Chain) (d : ChainId) :
    (s.setChain c x).waiter d = s.waiter d := rfl
@[simp] theorem State.job_updChain (c : ChainId) (f : Chain → Chain) (d : ChainId) :
    (s.updChain c f).job d = s.job d := rfl
@[simp] theorem State.waiter_updChain (c : ChainId) (f : Chain → Chain) (d : ChainId) :
    (s.updChain c f).waiter d = s.waiter d := rfl
@[simp] theorem State.chain_setJob (c : ChainId) (j : Option Job) (d : ChainId) :
    (s.setJob c j).chain d = s.chain d := rfl
@[simp] theorem State.waiter_setJob (c : ChainId) (j : Option Job) (d : ChainId) :
    (s.setJob c j).waiter d = s.waiter d := rfl
@[simp] theorem State.chain_updJob (c : ChainId) (f : Job → Job) (d : ChainId) :
    (s.updJob c f).chain d = s.chain d := rfl
@[simp] theorem State.waiter_updJob (c : ChainId) (f : Job → Job) (d : ChainId) :
    (s.updJob c f).waiter d = s.waiter d := rfl
@[simp] theorem State.chain_setWaiter (c : ChainId) (w : Option Waiter) (d : ChainId) :
    (s.setWaiter c w).chain d = s.chain d := rfl
@[simp] theorem State.job_setWaiter (c : ChainId) (w : Option Waiter) (d : ChainId) :
    (s.setWaiter c w).job d = s.job d := rfl
@[simp] theorem State.chain_issue (a : Access) (d : ChainId) :
    (s.issue a).chain d = s.chain d := rfl
@[simp] theorem State.job_issue (a : Access) (d : ChainId) :
    (s.issue a).job d = s.job d := rfl
@[simp] theorem State.waiter_issue (a : Access) (d : ChainId) :
    (s.issue a).waiter d = s.waiter d := rfl
@[simp] theorem State.chain_report (k : ErrorKind) (c : ChainId) (d : ChainId) :
    (s.report k c).chain d = s.chain d := rfl
@[simp] theorem State.job_report (k : ErrorKind) (c : ChainId) (d : ChainId) :
    (s.report k c).job d = s.job d := rfl
@[simp] theorem State.waiter_report (k : ErrorKind) (c : ChainId) (d : ChainId) :
    (s.report k c).waiter d = s.waiter d := rfl
@[simp] theorem State.chain_accept (r : BitVec 4) (c : ChainId) (d : ChainId) :
    (s.accept r c).chain d = s.chain d := rfl
@[simp] theorem State.job_accept (r : BitVec 4) (c : ChainId) (d : ChainId) :
    (s.accept r c).job d = s.job d := rfl
@[simp] theorem State.waiter_accept (r : BitVec 4) (c : ChainId) (d : ChainId) :
    (s.accept r c).waiter d = s.waiter d := rfl
@[simp] theorem State.chain_refuse (e : Reason) (r : BitVec 4) (c : ChainId) (d : ChainId) :
    (s.refuse e r c).chain d = s.chain d := rfl
@[simp] theorem State.job_refuse (e : Reason) (r : BitVec 4) (c : ChainId) (d : ChainId) :
    (s.refuse e r c).job d = s.job d := rfl
@[simp] theorem State.waiter_refuse (e : Reason) (r : BitVec 4) (c : ChainId) (d : ChainId) :
    (s.refuse e r c).waiter d = s.waiter d := rfl
@[simp] theorem State.chain_issueRead (k : AccessKind) (c : ChainId) (a : PhysAddr) (n : Nat) (d : ChainId) :
    (s.issueRead k c a n).chain d = s.chain d := rfl
@[simp] theorem State.job_issueRead (k : AccessKind) (c : ChainId) (a : PhysAddr) (n : Nat) (d : ChainId) :
    (s.issueRead k c a n).job d = s.job d := rfl
@[simp] theorem State.waiter_issueRead (k : AccessKind) (c : ChainId) (a : PhysAddr) (n : Nat) (d : ChainId) :
    (s.issueRead k c a n).waiter d = s.waiter d := rfl
@[simp] theorem State.chain_issueWrite (k : AccessKind) (c : ChainId) (a : PhysAddr) (b : List Byte) (d : ChainId) :
    (s.issueWrite k c a b).chain d = s.chain d := rfl
@[simp] theorem State.job_issueWrite (k : AccessKind) (c : ChainId) (a : PhysAddr) (b : List Byte) (d : ChainId) :
    (s.issueWrite k c a b).job d = s.job d := rfl
@[simp] theorem State.waiter_issueWrite (k : AccessKind) (c : ChainId) (a : PhysAddr) (b : List Byte) (d : ChainId) :
    (s.issueWrite k c a b).waiter d = s.waiter d := rfl

end Sys2Proof.Machine
end

