-- ==== Sys2Proof/Laws/Jobs.lean ====
section
/-! SUPPORT. What the operations on one chain's job leave of the other chains, and what
the drop of a job context leaves of its own chain, said once. -/

namespace Sys2Proof.Machine

/-- What an operation on one chain leaves of the others, their contexts and their jobs, and of the error summary. -/
structure OthersKept (s t : State) (c : ChainId) : Prop where
  chain : ∀ d, d ≠ c → t.chain d = s.chain d
  job : ∀ d, d ≠ c → t.job d = s.job d
  errors : t.errors = s.errors

theorem OthersKept.refl (s : State) (c : ChainId) : OthersKept s s c := ⟨fun _ _ => rfl, fun _ _ => rfl, rfl⟩

theorem OthersKept.trans {s t u : State} {c : ChainId} (h : OthersKept s t c) (k : OthersKept t u c) :
    OthersKept s u c := ⟨fun d hd => (k.chain d hd).trans (h.chain d hd),
    fun d hd => (k.job d hd).trans (h.job d hd), k.errors.trans h.errors⟩

theorem State.updChain_others (s : State) (c : ChainId) (f : Chain → Chain) : OthersKept s (s.updChain c f) c :=
  ⟨fun _ hd => State.chain_updChain_ne s (Ne.symm hd) f, fun _ _ => rfl, rfl⟩

theorem State.setJob_others (s : State) (c : ChainId) (j : Option Job) : OthersKept s (s.setJob c j) c :=
  ⟨fun _ _ => rfl, fun _ hd => State.job_setJob_ne s (Ne.symm hd) j, rfl⟩

theorem State.updJob_others (s : State) (c : ChainId) (f : Job → Job) : OthersKept s (s.updJob c f) c :=
  State.setJob_others s c _

theorem State.issue_others (s : State) (c : ChainId) (a : Access) : OthersKept s (s.issue a) c :=
  ⟨fun _ _ => rfl, fun _ _ => rfl, rfl⟩

theorem State.issueOutcome_others (s : State) (c : ChainId) (o : OutcomeState) (b : Bool) :
    OthersKept s (s.issueOutcome c o b) c := by
  unfold State.issueOutcome
  split
  · exact .refl s c
  · exact (State.setJob_others s c _).trans (State.issue_others _ c _)

theorem State.beginRetire_others (s : State) (c : ChainId) : OthersKept s (s.beginRetire c) c := by
  unfold State.beginRetire
  split
  · exact .refl s c
  · next j _ =>
    have h := (State.updChain_others s c fun x =>
      { x with state := .active, resume := none, pauseMark := false }).trans
        (State.setJob_others _ c (some { j with phase := .reporting }))
    dsimp only
    split
    · exact h.trans (State.issueOutcome_others _ c _ _)
    · exact h.trans (State.issue_others _ c _)

theorem State.afterWork_others (s : State) (c : ChainId) : OthersKept s (s.afterWork c) c := by
  unfold State.afterWork
  split
  · exact .refl s c
  · split
    · exact State.issueOutcome_others s c _ _
    · split
      · exact State.updChain_others s c _
      · exact State.beginRetire_others s c

theorem State.finishWork_others (s : State) (c : ChainId) : OthersKept s (s.finishWork c) c :=
  (State.updJob_others s c Job.finish).trans (State.afterWork_others _ c)

theorem State.endUnadmitted_others (s : State) (c : ChainId) (code : Code) : OthersKept s (s.endUnadmitted c code) c :=
  (State.updJob_others s c _).trans (State.afterWork_others _ c)

theorem State.tableResolve_others (s : State) (c : ChainId) : OthersKept s (s.tableResolve c) c := by
  unfold State.tableResolve
  split
  · exact .refl s c
  · split
    · split
      · exact (State.setJob_others s c _).trans (State.issue_others _ c _)
      · exact State.setJob_others s c _
      · exact (State.updJob_others s c _).trans (State.finishWork_others _ c)
    · exact .refl s c

theorem State.claim_others {s t : State} {c : ChainId} {g : GateClaim} (h : s.claim c g = some t) :
    OthersKept s t c := by
  cases g <;> simp only [State.claim] at h
  · simp only [Option.some.injEq] at h
    subst h
    exact .refl s c
  all_goals
    split at h
    · simp only [Option.some.injEq] at h
      subst h
      exact ⟨fun _ _ => rfl, fun _ _ => rfl, rfl⟩
    · simp at h

theorem State.waitAtGate_others (s : State) (c : ChainId) (g : GateClaim) : OthersKept s (s.waitAtGate c g) c := by
  have h := (State.updChain_others s c fun x => { x with state := .waiting }).trans
    (State.updJob_others _ c fun j => { j with phase := .admitting, source := none, dest := none, coeff := none })
  cases g <;> exact h.trans ⟨fun _ _ => rfl, fun _ _ => rfl, rfl⟩

theorem State.enterRunning_others (s : State) (c : ChainId) : OthersKept s (s.enterRunning c) c := by
  unfold State.enterRunning
  split
  · exact .refl s c
  · next j _ =>
    have h := (State.updChain_others s c fun x => { x with state := .active }).trans
      (State.setJob_others _ c (some j.admit_))
    dsimp only
    split
    · exact h.trans (State.finishWork_others _ c)
    · exact h.trans (State.tableResolve_others _ c)
    · exact h

theorem State.admitJob_others (s : State) (c : ChainId) : OthersKept s (s.admitJob c) c := by
  unfold State.admitJob
  split
  · exact .refl s c
  · split
    · exact State.endUnadmitted_others s c _
    · split
      · exact State.endUnadmitted_others s c _
      · next j _ =>
        have h := State.setJob_others s c (some j)
        dsimp only
        split
        · exact h.trans (State.enterRunning_others _ c)
        · split
          · next t ht => exact h.trans ((State.claim_others ht).trans (State.enterRunning_others _ c))
          · exact h.trans (State.waitAtGate_others _ c _)

/-! ## A chain with no job stands by -/

/-- What the operations on other chains leave of a chain with no job: it has none, its context, and the error summary. -/
structure StoodBy (s t : State) (c : ChainId) : Prop where
  job : t.job c = none
  chain : t.chain c = s.chain c
  errors : t.errors = s.errors

/-- An operation that has nothing to do for a chain without a job lets every such chain stand by. -/
theorem OthersKept.stoodBy {s t : State} {c d : ChainId} (h : OthersKept s t d) (hc : s.job c = none)
    (hd : s.job d = none → t.job d = none ∧ t.chain d = s.chain d) : StoodBy s t c := by
  by_cases e : c = d
  · subst e
    exact ⟨(hd hc).1, (hd hc).2, h.errors⟩
  · exact ⟨(h.job c e).trans hc, h.chain c e, h.errors⟩

theorem StoodBy.trans {s t u : State} {c : ChainId} (h : StoodBy s t c) (k : t.job c = none → StoodBy t u c) :
    StoodBy s u c :=
  ⟨(k h.job).job, (k h.job).chain.trans h.chain, (k h.job).errors.trans h.errors⟩

theorem StoodBy.foldl {f : State → ChainId → State} {c : ChainId} (h : ∀ s d, s.job c = none → StoodBy s (f s d) c)
    (s : State) (l : List ChainId) (hc : s.job c = none) : StoodBy s (l.foldl f s) c := by
  induction l generalizing s with
  | nil => exact ⟨hc, rfl, rfl⟩
  | cons d rest ih => exact (h s d hc).trans fun k => ih (f s d) k

theorem State.updJob_of_none {s : State} {c : ChainId} (h : s.job c = none) (f : Job → Job) :
    (s.updJob c f).job c = none := by
  unfold State.updJob
  rw [State.job_setJob_self, h]
  rfl

theorem State.finishWork_stoodBy (s : State) (d : ChainId) {c : ChainId} (hc : s.job c = none) :
    StoodBy s (s.finishWork d) c :=
  (State.finishWork_others s d).stoodBy hc fun hd => by
    have h := State.updJob_of_none hd Job.finish
    unfold State.finishWork State.afterWork
    rw [h]
    exact ⟨h, rfl⟩

theorem State.tableResolve_stoodBy (s : State) (d : ChainId) {c : ChainId} (hc : s.job c = none) :
    StoodBy s (s.tableResolve d) c :=
  (State.tableResolve_others s d).stoodBy hc fun hd => by
    unfold State.tableResolve
    rw [hd]
    exact ⟨hd, rfl⟩

theorem State.admitJob_stoodBy (s : State) (d : ChainId) {c : ChainId} (hc : s.job c = none) :
    StoodBy s (s.admitJob d) c :=
  (State.admitJob_others s d).stoodBy hc fun hd => by
    unfold State.admitJob
    rw [hd]
    exact ⟨hd, rfl⟩

theorem State.clearHeld_stoodBy (s : State) {c : ChainId} (hc : s.job c = none) : StoodBy s s.clearHeld c := by
  refine ⟨?_, rfl, rfl⟩
  have h : s.jobs[c.val] = none := hc
  simp [State.clearHeld, State.job, h]

theorem State.carryOutMap_stoodBy (s : State) (d : ChainId) (m : EntryId) (e : Option MapEntry) {c : ChainId}
    (hc : s.job c = none) : StoodBy s (s.carryOutMap d m e) c := by
  unfold State.carryOutMap
  split
  · exact ⟨hc, rfl, rfl⟩
  · exact (State.updJob_others s d _).stoodBy hc fun hd => ⟨State.updJob_of_none hd _, rfl⟩

theorem State.completeReplacement_stoodBy (s : State) {c : ChainId} (hc : s.job c = none) :
    StoodBy s s.completeReplacement c := by
  have same : StoodBy s s c := ⟨hc, rfl, rfl⟩
  unfold State.completeReplacement
  split
  · exact same
  · next d _ =>
    split
    · exact same
    · split
      · split
        · next slot new _ =>
          have h := State.carryOutMap_stoodBy s d slot new hc
          have k := State.clearHeld_stoodBy { s.carryOutMap d slot new with pendingMark := none } h.job
          exact ((⟨k.job, k.chain.trans h.chain, k.errors.trans h.errors⟩ : StoodBy s _ c).trans
            fun k => State.finishWork_stoodBy _ d k).trans
              fun k => StoodBy.foldl (fun s d hc => State.tableResolve_stoodBy s d hc) _ _ k
        · exact same
      · exact same

theorem State.afterPinRelease_stoodBy (s : State) {c : ChainId} (hc : s.job c = none) :
    StoodBy s s.afterPinRelease c := by
  unfold State.afterPinRelease
  split
  · split
    · exact State.completeReplacement_stoodBy s hc
    · exact ⟨hc, rfl, rfl⟩
  · exact ⟨hc, rfl, rfl⟩

theorem State.serveTableGate_stoodBy (s : State) {c : ChainId} (hc : s.job c = none) : StoodBy s s.serveTableGate c := by
  unfold State.serveTableGate
  split
  · split
    · split
      · exact ⟨hc, rfl, rfl⟩
      · next d _ _ =>
        have h := State.admitJob_stoodBy { s with tableGate := s.tableGate.grantTable d } d hc
        exact ⟨h.job, h.chain, h.errors⟩
    · have h := StoodBy.foldl (fun s d hc => State.admitJob_stoodBy s d hc)
        { s with tableGate := (s.tableGate.waitingFor .lookup).foldl TableGate.grantLookup s.tableGate }
        (s.tableGate.waitingFor .lookup) hc
      exact ⟨h.job, h.chain, h.errors⟩
  · exact ⟨hc, rfl, rfl⟩

theorem State.serveReplGate_stoodBy (s : State) {c : ChainId} (hc : s.job c = none) : StoodBy s s.serveReplGate c := by
  unfold State.serveReplGate
  split
  · split
    · next d _ =>
      have h := State.admitJob_stoodBy { s with replGate := s.replGate.grant d } d hc
      exact ⟨h.job, h.chain, h.errors⟩
    · exact ⟨hc, rfl, rfl⟩
  · exact ⟨hc, rfl, rfl⟩

theorem State.leaveTableGate_stoodBy (s : State) (d : ChainId) {c : ChainId} (hc : s.job c = none) :
    StoodBy s (s.leaveTableGate d) c := by
  unfold State.leaveTableGate
  split
  · have h := State.serveTableGate_stoodBy { s with tableGate := s.tableGate.without d } hc
    exact ⟨h.job, h.chain, h.errors⟩
  · exact ⟨hc, rfl, rfl⟩

theorem State.leaveReplGate_stoodBy (s : State) (d : ChainId) {c : ChainId} (hc : s.job c = none) :
    StoodBy s (s.leaveReplGate d) c := by
  unfold State.leaveReplGate
  split
  · have h := State.serveReplGate_stoodBy { s with replGate := s.replGate.without d } hc
    exact ⟨h.job, h.chain, h.errors⟩
  · exact ⟨hc, rfl, rfl⟩

/-- The drop of a chain's job context leaves the chain without a job and its context as it was, and reports nothing. -/
theorem State.dropJob_stoodBy (s : State) (c : ChainId) : StoodBy s (s.dropJob c) c := by
  unfold State.dropJob
  split
  · next h => exact ⟨h, rfl, rfl⟩
  · have h : StoodBy s (s.setJob c none) c := ⟨State.job_setJob_self s c none, rfl, rfl⟩
    exact ((h.trans fun k => State.afterPinRelease_stoodBy _ k).trans fun k => State.leaveTableGate_stoodBy _ c k).trans
      fun k => State.leaveReplGate_stoodBy _ c k

end Sys2Proof.Machine
end

