-- ==== Sys2Proof/Laws/LineEngine.lean ====
section
/-! SUPPORT. What a discard does to the lines-stored record, what the end of a job's work, the drain check and a line fault
do to the job, the lines and the buffers, and the rounds of a fetch grant decision, said once. -/

namespace Sys2Proof.Machine

/-- A line that fails moves neither the prefix nor the zero-so-far mark. -/
theorem LinesStored.recordFailed_prefixLen (m : Nat) (r : LinesStored) :
    (r.recordFailed m).prefixLen = r.prefixLen ∧ (r.recordFailed m).zeroSoFar = r.zeroSoFar := by
  unfold LinesStored.recordFailed
  split
  · exact ⟨rfl, rfl⟩
  · split <;> exact ⟨rfl, rfl⟩

/-- The same of all the lines of a discard. -/
theorem LinesStored.discarded_prefixLen (gone : List LineRecord) (r : LinesStored) :
    (gone.foldl (fun r l => r.recordFailed l.jobLine) r).prefixLen = r.prefixLen ∧
      (gone.foldl (fun r l => r.recordFailed l.jobLine) r).zeroSoFar = r.zeroSoFar := by
  induction gone generalizing r with
  | nil => exact ⟨rfl, rfl⟩
  | cons l rest ih =>
    have h := ih (r.recordFailed l.jobLine)
    have k := LinesStored.recordFailed_prefixLen l.jobLine r
    exact ⟨h.1.trans k.1, h.2.trans k.2⟩

/-- What the end of a job's work leaves of the Line Engine: every line and buffer, the fetch checks, the counts and the
bytes of memory; and of the job its first fault, its next line and its CHECK flag. -/
structure LinesKept (s t : State) (c : ChainId) (j : Job) : Prop where
  job : ∃ k, t.job c = some k ∧ k.firstFault = j.firstFault ∧ k.nextLine = j.nextLine ∧ k.flags.check = j.flags.check ∧
    k.stored = j.stored ∧ (j.phase ≠ .running → k.phase ≠ .running)
  lines : t.lines = s.lines
  inBuf : t.inBuf = s.inBuf
  outBuf : t.outBuf = s.outBuf
  fetchChecks : t.fetchChecks = s.fetchChecks
  passOver : t.passOver = s.passOver
  memory : t.memory = s.memory

theorem LinesKept.refl {s : State} {c : ChainId} {j : Job} (h : s.job c = some j) : LinesKept s s c j :=
  ⟨⟨j, h, rfl, rfl, rfl, rfl, id⟩, rfl, rfl, rfl, rfl, rfl, rfl⟩

/-- The end of a job's work. -/
theorem State.finishWork_lines {s : State} {c : ChainId} {j : Job} (h : s.job c = some j) :
    LinesKept s (s.finishWork c) c j := by
  have h' : s.jobs[c.val] = some j := h
  unfold State.finishWork State.afterWork State.updJob
  simp only [State.job, State.setJob, Fin.getElem_fin, h', Option.map_some, Vector.getElem_set_self]
  split
  · refine ⟨⟨{ j.finish with phase := .reporting }, ?_, rfl, rfl, rfl, rfl, fun _ => nofun⟩, ?_, ?_, ?_, ?_, ?_, ?_⟩ <;>
      simp [State.issueOutcome, State.job, State.setJob, State.issueWrite, State.issue]
  · split
    · refine ⟨⟨j.finish, ?_, rfl, rfl, rfl, rfl, id⟩, rfl, rfl, rfl, rfl, rfl, rfl⟩
      simp [State.updChain, State.setChain, State.job]
    · refine ⟨⟨{ j.finish with phase := .reporting }, ?_, rfl, rfl, rfl, rfl, fun _ => nofun⟩, ?_, ?_, ?_, ?_, ?_, ?_⟩ <;>
        (simp only [State.beginRetire, State.job, State.updChain, State.setChain, State.setJob, Fin.getElem_fin,
          Vector.getElem_set_self]; split <;>
          simp [State.issueOutcome, State.job, State.setJob, State.issueWrite, State.issue, State.issueRead])

/-- The drain check (04 R80). -/
theorem State.checkDrained_lines {s : State} {c : ChainId} {j : Job} (h : s.job c = some j) :
    LinesKept s (s.checkDrained c) c j := by
  unfold State.checkDrained
  simp only [h]
  split
  · exact State.finishWork_lines h
  · exact .refl h

/-- The drain check ends the work of a job in DRAINING whose last line has left flight, and otherwise does nothing. -/
theorem State.checkDrained_eq {s : State} {c : ChainId} {j : Job} (h : s.job c = some j) :
    s.checkDrained c = if j.phase = .draining ∧ j.ended = false ∧ s.hasLines c = false then s.finishWork c else s := by
  unfold State.checkDrained
  simp only [h]

/-- A line fault: the first fault is recorded and grants stop (04 R81). -/
theorem State.lineFault_job {s : State} {c : ChainId} {j : Job} (m : Nat) (code : Code) (h : s.job c = some j)
    (hf : j.firstFault = none) (ha : j.abortRequested = false) :
    ∃ k, (s.lineFault c m code).job c = some k ∧ k.firstFault = some code ∧ k.nextLine = j.nextLine ∧
      k.flags = j.flags ∧ k.phase ≠ .running := by
  have h' : s.jobs[c.val] = some j := h
  unfold State.lineFault State.discardLines
  simp only [State.recordFault, State.updJob, State.setJob, State.job, Fin.getElem_fin, h', Option.map_some,
    Job.recordFault, hf, ha, Option.isNone_none, Bool.not_false, Bool.and_self, if_true, Vector.getElem_set_self,
    Job.stopGrants]
  refine ⟨_, rfl, ?_, ?_, ?_, ?_⟩ <;> (dsimp only; split <;> simp_all)

theorem State.checkDrained_others (s : State) (c : ChainId) : OthersKept s (s.checkDrained c) c := by
  unfold State.checkDrained
  split
  · split
    · exact State.finishWork_others s c
    · exact .refl s c
  · exact .refl s c

theorem State.lineFault_others (s : State) (c : ChainId) (m : Nat) (code : Code) :
    OthersKept s (s.lineFault c m code) c := by
  refine ⟨fun _ _ => rfl, fun d hd => ?_, rfl⟩
  unfold State.lineFault State.discardLines State.recordFault
  exact (((State.updJob_others s c _).trans (State.updJob_others _ c _)).trans (State.updJob_others _ c _)).job d hd

/-- The job of a line fault, whatever was recorded before, is granted no further line (04 R81). -/
theorem State.lineFault_stops {s : State} {c : ChainId} {j : Job} (m : Nat) (code : Code) (h : s.job c = some j) :
    ∃ k, (s.lineFault c m code).job c = some k ∧ k.phase ≠ .running := by
  have h' : s.jobs[c.val] = some j := h
  unfold State.lineFault State.discardLines
  simp only [State.recordFault, State.updJob, State.setJob, State.job, Fin.getElem_fin, h', Option.map_some,
    Vector.getElem_set_self, Job.stopGrants]
  refine ⟨_, rfl, ?_⟩
  dsimp only
  split <;> simp_all

/-! ## The rounds of a fetch grant decision (04 R70) -/

/-- The number of eligible chains. -/
def State.eligibleCount (s : State) : Nat := allChains.countP s.eligible

theorem State.eligible_others {s t : State} {c : ChainId} (h : OthersKept s t c) {d : ChainId} (hd : d ≠ c) :
    t.eligible d = s.eligible d := by
  unfold State.eligible
  rw [h.job d hd, h.chain d hd]

theorem countP_lt_of {p q : ChainId → Bool} {c : ChainId} (hp : p c = true) (hq : q c = false)
    (h : ∀ d, d ≠ c → q d = p d) : allChains.countP q < allChains.countP p := by
  have e : allChains = [0, 1, 2, 3] := by decide
  rw [e]
  match c with
  | 0 => simp [List.countP_cons, hp, hq, h 1 (by decide), h 2 (by decide), h 3 (by decide)]
  | 1 => simp [List.countP_cons, hp, hq, h 0 (by decide), h 2 (by decide), h 3 (by decide)]
  | 2 => simp [List.countP_cons, hp, hq, h 0 (by decide), h 1 (by decide), h 3 (by decide)]
  | 3 => simp [List.countP_cons, hp, hq, h 0 (by decide), h 1 (by decide), h 2 (by decide)]

theorem State.mem_of_chooseChain {s : State} {c : ChainId} (h : s.chooseChain = some c) : s.eligible c = true := by
  have := mem_bestChain h
  split at this
  · exact (List.mem_filter.mp this).2
  · exact (List.mem_filter.mp (List.mem_filter.mp this).1).2

/-- A chain found held is eligible no more, and no other chain's eligibility changes. -/
theorem State.eligibleCount_held {s : State} {c : ChainId} {j : Job} (h : s.eligible c = true) :
    (s.setJob c (some { j with held := true })).eligibleCount < s.eligibleCount := by
  refine countP_lt_of h ?_ fun d hd => State.eligible_others (State.setJob_others s c _) hd
  unfold State.eligible
  rw [State.job_setJob_self]
  simp

/-- A chain whose line faulted is eligible no more, and no other chain's eligibility changes. -/
theorem State.eligibleCount_fault {s : State} {c : ChainId} {j : Job} (m : Nat) (code : Code) (hj : s.job c = some j)
    (h : s.eligible c = true) : ((s.lineFault c m code).checkDrained c).eligibleCount < s.eligibleCount := by
  refine countP_lt_of h ?_ fun d hd =>
    State.eligible_others ((State.lineFault_others s c m code).trans (State.checkDrained_others _ c)) hd
  obtain ⟨k, hk, hp⟩ := State.lineFault_stops m code hj
  obtain ⟨k', hk', _, _, _, _, hp'⟩ := (State.checkDrained_lines hk).job
  have := hp' hp
  unfold State.eligible
  rw [hk']
  simp [this]

/-- As many rounds as there are eligible chains are enough. -/
theorem State.grantDecision_fuel (fuel : Nat) (s : State) (h : s.eligibleCount ≤ fuel) :
    State.grantDecision (fuel + 1) s = State.grantDecision fuel s := by
  induction fuel generalizing s with
  | zero =>
    have hc : s.chooseChain = none := by
      cases hc : s.chooseChain with
      | none => rfl
      | some c =>
        have := List.countP_pos_iff.mpr ⟨c, mem_allChains c, State.mem_of_chooseChain hc⟩
        unfold State.eligibleCount at h
        omega
    simp only [State.grantDecision, hc]
    split <;> simp_all
  | succ fuel ih =>
    rw [State.grantDecision.eq_2 s (fuel + 1), State.grantDecision.eq_2 s fuel]
    split
    · next buffer c hb hc =>
      have he := State.mem_of_chooseChain hc
      split
      · rfl
      · next j hj =>
        split
        · split
          · rfl
          · exact ih _ (by have := State.eligibleCount_held (j := j) he; omega)
          · next code _ => exact ih _ (by have := State.eligibleCount_fault j.nextLine code hj he; omega)
        · rfl
    · rfl

/-- No line of a list is left by a discard that was not there before it (04 R82). -/
theorem State.mem_discardLines {s : State} {c : ChainId} {m : Option Nat} {l : LineRecord}
    (h : l ∈ (s.discardLines c m).lines) : ∃ k ∈ s.lines, k.chain = l.chain ∧ k.jobLine = l.jobLine := by
  simp only [State.discardLines, List.mem_filterMap] at h
  obtain ⟨k, hk, e⟩ := h
  refine ⟨k, hk, ?_⟩
  split at e
  · split at e
    · simp only [Option.some.injEq] at e
      subst e
      exact ⟨rfl, rfl⟩
    · cases e
  · simp only [Option.some.injEq] at e
    subst e
    exact ⟨rfl, rfl⟩

end Sys2Proof.Machine
end

