-- ==== Sys2Proof/Laws/Progress.lean ====
section
/-! SUPPORT. Arrivals at the Flag File that set nothing or one thing going, where no order is chosen (log 5). -/

namespace Sys2Proof.Machine

variable (s : State)

@[simp] theorem arrange_nil {α : Type} (fuel n : Nat) : arrange fuel n ([] : List α) = [] := by cases fuel <;> rfl

@[simp] theorem arrange_singleton {α : Type} (fuel n : Nat) (x : α) : arrange fuel n [x] = [x] := by cases fuel <;> rfl

theorem perm_cons_eraseIdx {α : Type} {l : List α} {i : Nat} {x : α} (h : l[i]? = some x) :
    (x :: l.eraseIdx i).Perm l := by
  induction l generalizing i with
  | nil => cases h
  | cons y rest ih =>
    cases i with
    | zero =>
      cases h
      exact .refl _
    | succ i => exact (List.Perm.swap y x _).trans ((ih h).cons y)

/-- Whatever the choice, every thing is taken once. -/
theorem arrange_perm {α : Type} (fuel n : Nat) (things : List α) : (arrange fuel n things).Perm things := by
  induction fuel generalizing n things with
  | zero => exact .refl _
  | succ fuel ih =>
    match things with
    | [] => exact .refl _
    | [x] => exact .refl _
    | x :: y :: rest =>
      simp only [arrange]
      split
      · next h => exact ((ih _ _).cons _).trans (perm_cons_eraseIdx h)
      · exact .refl _

/-- Nothing is set going. -/
@[simp] theorem State.settle_nil : s.settle [] = s := rfl

/-- One thing is set going: it is done, and no choice is made. -/
@[simp] theorem State.settle_singleton (x : Followup) : s.settle [x] = s.runFollowup x := rfl

/-- An arrival that serves nobody changes the Flag File alone. -/
theorem State.flagArrival_of_none {op : FlagFile → FlagFile × List Followup} (h : (op s.flagFile).2 = []) :
    s.flagArrival op [] = { s with flags := (op s.flagFile).1.flags, waiters := (op s.flagFile).1.waiters } := by
  unfold State.flagArrival
  simp only [h, List.append_nil, State.settle_nil]

/-- A waiter whose wanted value does not hold is registered, and nothing is set going (02 R34). -/
theorem FlagFile.register_waits {level : ChainId → Nat} {c : ChainId} {w : Waiter} {ff : FlagFile}
    (h : ff.value w.flag ≠ w.wanted) :
    FlagFile.register level c w ff = ({ ff with waiters := ff.waiters.set c (some w) }, []) := by
  unfold FlagFile.register
  rw [if_neg h]

/-- A change of a flag that no waiter stands against gives it the value and serves nobody (02 R36). -/
theorem FlagFile.change_unwaited {level : ChainId → Nat} {f : FlagId} {v : Bool} {ff : FlagFile}
    (h : ∀ (c : ChainId) (w : Waiter), ff.waiters[c] = some w → w.flag ≠ f) : ff.change level f v = (ff.put f v, []) := by
  have hnone (b : Bool) (g : FlagFile) (hg : g.waiters = ff.waiters) : g.satisfied f b = [] := by
    rw [List.eq_nil_iff_forall_not_mem]
    intro c hc
    obtain ⟨w, hw, hf, _⟩ := FlagFile.mem_satisfied.mp hc
    exact h c w (hg ▸ hw) hf
  have hu : ∀ g : FlagFile, g.unregister [] = g := by
    intro g
    unfold FlagFile.unregister
    congr 1
    ext i hi
    simp
  unfold FlagFile.change
  split
  · next e => rw [← e, FlagFile.put_value]
  · unfold FlagFile.evaluate
    simp only [hnone false (ff.put f v) rfl, hu, hnone true (ff.put f v) rfl, List.map_nil, bestChain]

end Sys2Proof.Machine
end

