-- ==== Sys2Proof/Tests/Slice0.lean ====
section
/-! SUPPORT. Tests: the refusals of WellFormed, the examples of the spec's tables, one or two steps of each command on a small
state, and a witness for the hypotheses of each statement. -/

namespace Sys2Proof.Tests

set_option Elab.async false

open Sys2Proof.Machine Sys2Proof.Statements

/-! ## WellFormed refuses an ill-formed term of each check -/

theorem test_refuses_ignored_write_that_is_not_ignored :
    (Instr.ignoredRegisterWrite 0x14 0 0xF).wellFormed = false := by decide
theorem test_refuses_short_directory_read : (Instr.directoryRead 0 (.data [])).wellFormed = false := by decide
theorem test_refuses_short_header : (Instr.recordHeaderRead 0 (.data [1])).wellFormed = false := by decide
theorem test_refuses_odd_second_part : (Instr.recordSecondPartRead 0 (.data [1, 2, 3])).wellFormed = false := by decide
theorem test_refuses_short_link : (Instr.linkReRead 0 (.data [0])).wellFormed = false := by decide
theorem test_refuses_long_anchor_link :
    (Instr.anchorLinkReRead 0 (.data [0, 0, 0, 0, 0, 0, 0, 0, 0])).wellFormed = false := by decide
theorem test_refuses_outcome_landed_past_top : (Instr.outcomeWrite 0 (.error [2 ^ 40])).wellFormed = false := by decide
theorem test_refuses_release_landed_past_top : (Instr.releaseWrite 0 (.cut [2 ^ 40])).wellFormed = false := by decide
theorem test_refuses_status_landed_past_top : (Instr.statusWrite 0 0 (.error [2 ^ 40])).wellFormed = false := by decide
theorem test_refuses_empty_fetch : (Instr.fetchComplete 0 (.data [])).wellFormed = false := by decide
theorem test_refuses_store_landed_past_top : (Instr.storeAnswered 0 (.cut [2 ^ 40])).wellFormed = false := by decide
theorem test_refuses_table_read_past_end : (Instr.tableReadAnswered 2048 1 .error).wellFormed = false := by decide
theorem test_accepts_each_kind : ([.powerOnReset, .start 3, .statusWrite 1 0 .acknowledged, .mapWork 2,
    .tableReadAnswered 2046 2 (.data [1, 2]), .ignoredRegisterWrite 0x24 0 0xF] : List Instr).all
      Instr.wellFormed = true := by decide

/-! ## Examples of the spec's tables -/

/-- 05 Table 5-1. -/
theorem test_lane_extraction :
    ((List.range 3).map (laneValue (leNat [0x12, 0x34, 0x56]) 8) = [0x12, 0x34, 0x56]) ∧
    ((List.range 2).map (laneValue (leNat [0x21, 0x43, 0x65]) 12) = [0x321, 0x654]) ∧
    ((List.range 4).map (laneValue (leNat [0x01, 0x08, 0x30, 0x00, 0x01]) 10) = [1, 2, 3, 4]) ∧
    ((List.range 2).map (laneValue (leNat [0xCD, 0xAB, 0x01, 0x00]) 16) = [0xABCD, 0x0001]) ∧
    laneValue (leNat [0x56, 0x34, 0x12]) 24 0 = 0x123456 := by decide +kernel

/-- The pixel of each lane of a line that a tap map places. -/
def pixelsOf (m : TapMap) (y lanes : Nat) : List (Option Int) := (List.range lanes).map (lanePosition m y)

/-- 05 section 5.10.1. -/
def facing : TapMap :=
  { rotation := 0, pixels := 8, taps := [⟨0, 1, .ascend⟩, ⟨7, 1, .descend⟩] }

/-- 05 Table 5-4. -/
theorem test_facing_taps : pixelsOf facing 0 8 = [0, 7, 1, 6, 2, 5, 3, 4].map some ∧
    pixelsOf { facing with rotation := 1 } 1 4 = [7, 0, 6, 1].map some := by decide +kernel

/-- 12 Table 12-1. -/
def rotated : TapMap :=
  { rotation := 1, pixels := 8, taps := [⟨0, 2, .ascend⟩, ⟨1, 2, .ascend⟩, ⟨7, 2, .descend⟩, ⟨6, 2, .descend⟩] }

theorem test_rotated_taps :
    pixelsOf rotated 100 8 = [0, 1, 7, 6, 2, 3, 5, 4].map some ∧ pixelsOf rotated 101 8 = [1, 7, 6, 0, 3, 5, 4, 2].map some ∧
    pixelsOf rotated 102 8 = [7, 6, 0, 1, 5, 4, 2, 3].map some ∧ pixelsOf rotated 103 8 = [6, 0, 1, 7, 4, 2, 3, 5].map some := by
  decide +kernel

/-- 12 Table 12-2: the twelve bytes of source line 101, and its working image. -/
theorem test_line_101_image :
    ((WorkingImage.empty 8).untangle rotated 101 (leBytes 12 0x808707606505404303202101) 12 8) =
      { pixels := [0x404, 0x101, 0x808, 0x505, 0x707, 0x606, 0x303, 0x202].map some, stray := false } := by decide +kernel

/-- A surface for the examples. -/
def plainSurface (lanes laneWidth : Nat) (tapMap : Option TapMap) : Surface where
  base := 0
  pitch := 4096
  lineCount := 480
  laneWidth := laneWidth
  lanes := lanes
  trailer := .none
  sampleKind := .plain
  chromaOrder := .uFirst
  tableBase := 0
  tapMap := tapMap
  payload := payloadBytes lanes laneWidth
  trailerOffset := trailerOffsetOf (payloadBytes lanes laneWidth)
  footprint := payloadBytes lanes laneWidth

/-- A PASS conversion. -/
def passOf (source : Surface) (container fill : Nat) : Conversion where
  transform := .pass
  policy := .replicate
  indexWidth := 10
  fill := fill
  source := source
  containerWidth := container
  coeff := .atReset
  lut := State.reset.lut

/-- 12 section 12.1: the eight destination lanes. -/
theorem test_line_101_lanes :
    outputValues ((passOf (plainSurface 8 12 (some rotated)) 16 0).outputs
      ([0x404, 0x101, 0x808, 0x505, 0x707, 0x606, 0x303, 0x202].map some)) =
      [0x4044, 0x1011, 0x8088, 0x5055, 0x7077, 0x6066, 0x3033, 0x2022] := by decide +kernel

/-- 05 section 5.10.3. -/
def overwriting : TapMap := { rotation := 0, pixels := 5, taps := [⟨0, 2, .ascend⟩, ⟨2, 3, .ascend⟩] }

/-- 05 Tables 5-5 and 5-6. -/
theorem test_overwrite_and_fill :
    convertLine (passOf (plainSurface 4 8 (some overwriting)) 8 0xFF) (.empty 5) .start 0 [0x10, 0x20, 0x30, 0x40] =
      { payload := [0x10, 0xFF, 0x30, 0xFF, 0xFF], neg := false, sat := false, stray := true, allZero := false } := by
  decide +kernel

/-- 05 section 5.10.2: two leftover lanes. -/
theorem test_leftover_lanes :
    ((WorkingImage.empty 8).untangle { rotation := 0, pixels := 8, taps := (List.range 4).map fun t => ⟨t, 4, .ascend⟩ } 0
      [0, 1, 2, 3, 4, 5, 6, 7, 8, 9] 8 10) = { pixels := (List.range 8).map some, stray := true } := by decide +kernel

/-- 05 Table 5-3. -/
theorem test_fill_values : [8, 16, 32].map (fun dw => (passOf (plainSurface 1 8 none) dw 0x12345678).uncovered.values) =
    [[0x78], [0x5678], [0x12345678]] := by decide +kernel

/-- 06 Table 6-3. -/
theorem test_fitting : fit .replicate 12 8 0xABC = 0xAB ∧ fit .zeroLow 16 8 0x1234 = 0x12 ∧
    fit .replicate 10 16 0x2C5 = 0xB16C ∧ fit .zeroLow 10 16 0x2C5 = 0xB140 ∧ fit .lowAlign 10 16 0x2C5 = 0x02C5 ∧
    fit .replicate 8 32 0xAB = 0xABABABAB ∧ fit .replicate 12 32 0xABC = 0xABCABCAB ∧
    fit .replicate 16 32 0x1234 = 0x12341234 ∧ fit .zeroLow 24 32 0x123456 = 0x12345600 ∧
    fit .lowAlign 32 32 0x89ABCDEF = 0x89ABCDEF := by decide +kernel

/-- 06 Table 6-4. -/
theorem test_lookup_entries : lookupEntry 3 12 10 0xABC = 879 ∧ lookupEntry 3 12 6 0xABC = 234 ∧
    lookupEntry 1 8 10 0xFF = 60 ∧ lookupEntry 15 16 8 0x1234 = 978 ∧ lookupEntry 0 14 1 0x2000 = 1 := by decide +kernel

/-- The coefficients of 06 section 6.4.1. -/
def fullRange (order : ComponentOrder) : CoeffSet := { k1 := 1436, k2 := 731, k3 := 352, k4 := 1815, order := order }

/-- A CHROMA conversion. -/
def chromaOn (source : Surface) (container : Nat) (order : ComponentOrder) : Conversion :=
  { passOf source container 7 with transform := .chroma, coeff := fullRange order }

/-- 06 Table 6-6, and the pair with pixel 1 uncovered. -/
theorem test_chroma_pair :
    outputValues ((chromaOn (plainSurface 2 16 none) 8 .rgb).outputs [some 0x9050, some 0x6C58]) = [52, 89, 108, 60, 97, 116] ∧
    outputValues ((chromaOn (plainSurface 2 16 none) 8 .bgr).outputs [some 0x9050, some 0x6C58]) = [108, 89, 52, 116, 97, 60] ∧
    outputValues ((chromaOn (plainSurface 2 16 none) 8 .rgb).outputs [some 0x9050, none]) = [80, 75, 108, 7, 7, 7] := by
  decide +kernel

/-- 06 section 6.4.1: the two edges of the range. -/
theorem test_chroma_edges : (components (fullRange .rgb) 8 250 250 128).2.2 = 466 ∧ saturate 8 466 = 255 ∧
    setsSat 8 466 = true ∧ setsNeg 466 = false ∧ (components (fullRange .rgb) 8 5 128 20).1 = -146 ∧
    saturate 8 (-146) = 0 ∧ setsNeg (-146) = true := by decide +kernel

/-- 12 Table 12-4. -/
theorem test_chroma_lone_pixel :
    let outputs := (chromaOn { plainSurface 3 24 none with chromaOrder := .vFirst } 16 .bgr).outputs
      [some 0x900640, some 0x7006A0, some 0xA00F80]
    outputValues outputs = [0x47A4, 0x5E15, 0x7A77, 0x4DA4, 0x6416, 0x8078, 0xF80F, 0xE13E, 0xFFFF] ∧
    outputs.map (·.sat) = [false, false, true] ∧ outputs.any (·.neg) = false := by decide +kernel

/-- 07 Table 7-2. -/
theorem test_crc_values :
    crcOf [0x31, 0x32, 0x33, 0x34, 0x35, 0x36, 0x37, 0x38, 0x39] = 0xCBF43926 ∧ crcOf [0] = 0xD202EF8D ∧
    crcOf [0, 0, 0, 0] = 0x2144DF1C ∧ crcOf [0xFF] = 0xFF000000 := by decide +kernel

/-- A surface with a trailer: one byte of payload, three pad bytes, four bytes of CRC. -/
def trailed : Surface := { plainSurface 1 8 none with trailer := .crc, footprint := 8 }

theorem test_destination_trailer :
    destFootprint trailed (some .start) [0xFF] = [0xFF, 0, 0, 0, 0x00, 0x00, 0x00, 0xFF] ∧
    destFootprint (plainSurface 1 8 none) none [0xFF] = [0xFF] := by decide +kernel

/-- A SURFACE body of 03 Table 3-4: slot 3, no tap map. -/
def loadBody (w n : Nat) (trailer : Byte) (pitch : Nat) : SurfaceBody where
  slot := 3
  operation := 1
  laneWidth := BitVec.ofNat 8 w
  trailer := trailer
  sampleKind := 0
  chromaOrder := 0
  tableBase := 0
  tapMapPresent := 0
  base := 0x1000
  pitch := BitVec.ofNat 32 pitch
  lineCount := 480
  lanes := BitVec.ofNat 16 n
  tapCount := 0
  rotation := 0
  pixels := 0
  taps := []

/-- Payload, trailer offset and footprint of a LOAD. -/
def derived (w n : Nat) (trailer : Byte) (pitch : Nat) : Option (Nat × Nat × Nat) :=
  (checkSurface (loadBody w n trailer pitch)).map fun s => (s.payload, s.trailerOffset, s.footprint)

/-- 03 Table 3-4. -/
theorem test_derived_quantities : derived 12 2048 1 4096 = some (3072, 3072, 3076) ∧
    derived 10 1003 1 1260 = some (1254, 1256, 1260) ∧ derived 14 9 1 16 = none ∧ derived 14 9 0 16 = some (16, 16, 16) ∧
    derived 24 5461 1 16388 = some (16383, 16384, 16388) ∧ derived 32 4097 0 32768 = none ∧
    derived 8 16384 0 16384 = some (16384, 16384, 16384) := by decide +kernel

/-- A body with a tap map of two taps. -/
def tappedBody : SurfaceBody :=
  { loadBody 12 8 0 4096 with
    tapMapPresent := 1, tapCount := 2, pixels := 8
    taps := [⟨0, 1, 0⟩, ⟨7, 1, 1⟩, ⟨0, 0, 9⟩] }

theorem test_tap_map_loaded : (checkSurface tappedBody).bind (·.tapMap) = some facing ∧
    checkSurface { tappedBody with rotation := 2 } = none ∧ checkSurface { tappedBody with tapCount := 3 } = none ∧
    checkSurface { tappedBody with tapMapPresent := 2 } = none := by decide +kernel

/-- 08 Table 8-3: the two entries of the walk. -/
def m4 : MapEntry where
  context := 2
  shared := false
  size := .size4K
  effectiveBase := 0x40000000
  physicalBase := 0x1234567000
  readRight := true
  writeRight := true

def m7 : MapEntry :=
  { m4 with context := 0, shared := true, effectiveBase := 0x40001000, physicalBase := 0x000AB00000, writeRight := false }

/-- The table of 08 Table 8-3. -/
def walkTable : Vector (Option MapEntry) 32 := ((Vector.replicate 32 none).set 4 (some m4)).set 7 (some m7)

/-- A resolver on that table. -/
def walker (context : Fin 16) (write : Bool) : Resolver where
  entries := walkTable
  pendingMark := none
  context := context
  pins := 0
  write := write

theorem test_walk : (walker 2 false).footprint true 0x40000E00 0xC04 =
      .ranges [({ start := 0x1234567E00, bytes := 512 }, some 4), ({ start := 0x000AB00000, bytes := 2564 }, some 7)] ∧
    (walker 2 true).footprint true 0x40001000 4 = .fault .writeDenied ∧
    (walker 3 false).footprint true 0x40000E00 0xC04 = .fault .miss := by decide +kernel

theorem test_address_forms : (walker 2 false).footprint false 0xFFFFFF8000000000 4 =
      .ranges [({ start := 0x8000000000, bytes := 4 }, none)] ∧
    (walker 2 false).footprint false 0x7FFFFFFFFE 4 = .fault .address ∧
    (walker 2 false).footprint true 0x7FFFFFFFFFFE 4 = .fault .address := by decide +kernel

/-- 04 Table 4-6: lines 0, 1 and 3 stored, then line 2 fails: the prefix stays at 2 and the record is closed. -/
theorem test_lines_stored :
    ([(0, some true), (1, some false), (3, some true), (2, none), (4, some true)].foldl hearsOf .empty) =
      { prefixLen := 2, above := [], closed := true, failed := [], zeroSoFar := false } := by decide +kernel

/-- 04 R69: a line that fails above the prefix of a closed record still becomes its lowest failed line. -/
theorem test_lowest_failed_after_close :
    ([(0, some true), (1, none), (3, none), (2, none)].foldl hearsOf .empty).lowestFailed = some 2 ∧
    ([(3, none), (0, some true), (2, none)].foldl hearsOf .empty).lowestFailed = some 2 := by decide +kernel

/-- 01 R4, log 7: a second part below the top of physical memory is one range; one that runs past it is the part below and
single bytes. -/
theorem test_record_ranges : recordRanges 0x1000 32 32 = [{ start := 0x1020, bytes := 32 }] ∧
    recordRanges 0xFFFFFFFFC0 32 32 = [{ start := 0xFFFFFFFFE0, bytes := 32 }] ∧
    (recordRanges 0xFFFFFFFFC0 32 34).map (·.bytes) = [32, 1, 1] ∧ (recordRanges 0xFFFFFFFFE0 32 32).length = 32 := by
  decide +kernel

/-- 02 Table 2-4: chains 0 and 3 are served, F7 is consumed, and chain 1 waits on. -/
theorem test_flag_set_serves_three_waiters :
    let guard (consuming : Bool) : Waiter := { flag := 7, wanted := true, consuming := consuming, kind := .guard }
    let wake : Waiter := { flag := 7, wanted := true, consuming := true, kind := .wake }
    FlagFile.change (fun c => [2, 2, 0, 1].getD c.val 0) 7 true
      { flags := 0, waiters := #v[some (guard false), some (guard true), none, some wake] } =
      ({ flags := 0, waiters := #v[none, some (guard true), none, none] }, [.passed 0, .wake 3]) := by decide +kernel

/-- 11 Table 11-15. -/
theorem test_outcome_bytes : outcomeBytes .doneFree .ok { ResultFlags.none with check := true } 480 =
    [0x03, 0x00, 0x10, 0x00, 0xE0, 0x01, 0x00, 0x00] := by decide +kernel

/-- 11 Table 11-14: the header of the record. -/
def header : List Byte :=
  leBytes 8 0 ++ [0x01, 0, 0, 0, 0, 0, 0, 0] ++ [0x07, 0x02, 0x01, 0x01, 2] ++ List.replicate 11 0

/-- 11 Table 11-14: the second part of the record. -/
def secondPart : List Byte :=
  [3, 4, 0, 0, 0, 0, 0xE0, 0x01, 0x02, 10, 0, 0x01] ++ List.replicate 20 0 ++ [5, 0x01, 0x01, 0x00, 0, 0, 0, 0] ++
    [9, 0x01, 0x01, 0, 0, 0, 0, 0] ++ [12, 0x01, 0x09, 0, 0, 0, 0, 0]

/-- The job of that record. -/
def tableJob : Job := ((jobOfHeader 0x0012340040 header).withSecondPart secondPart).getD (jobOfHeader 0 [])

theorem test_record_of_table_11_14 : headerIsPending header = true ∧ headerIsSound header = true ∧
    (jobOfHeader 0x0012340040 header).secondPartBytes = 56 ∧ tableJob.tag = 0x0207 ∧ tableJob.onFault = .continue_ ∧
    tableJob.check = .report ∧ tableJob.guard = some { flag := 5, wanted := true, mode := .wait, consume := false } ∧
    tableJob.actions = [⟨9, .set, .always⟩, ⟨12, .set, .check⟩] ∧ tableJob.gateClaim = .lookup ∧
    tableJob.lineCount = 480 := by decide +kernel

/-- 11 section 11.3: the operations of the retire's arrival set F9 and F12. -/
theorem test_retire_operations :
    retireOps { tableJob with flags := { ResultFlags.none with check := true } } .ok none = [(9, .set), (12, .set)] := by
  decide +kernel

/-! ## Small states -/

/-- The state after a command. -/
def after (i : Instr) (s : State) : State :=
  match exec i s with
  | .next t => t
  | .fault _ => s
  | .refused _ => s

/-- A chain context in this state, with a record in hand and flag F3 as fault flag. -/
def chainIn (x : ChainState) : Chain :=
  { Chain.atRest with
    state := x
    latched := { priority := 1, context := 2, wakeFlag := 20, faultFlag := some 3, privilege := .config }
    inHand := some 0x12340040 }

/-- The machine with this context in chain 1. -/
def holding (x : Chain) : State := State.reset.setChain 1 x

/-- The machine with this context, and this job, in chain 1. -/
def running (x : Chain) (j : Job) : State := (holding x).setJob 1 (some j)

/-- The machine with one access outstanding. -/
def outstanding (s : State) (a : Access) : State := { s with accesses := [a] }

/-- A read of `bytes` bytes for chain 1. -/
def reading (kind : AccessKind) (bytes : Nat) : Access := readAccess kind 1 0x2000 bytes

/-- A SIGNAL job: no body, no guard, no post action. -/
def signalJob : Job := { jobOfHeader 0x12340040 (header.take 18 ++ [7, 0, 0]) with body := .signal }

/-- A COPY job of four lines between one-byte surfaces, in RUNNING. -/
def copyJob : Job :=
  { signalJob with
    kind := some .copy
    body := .copy { sourceSlot := 0, destSlot := 1, sourceFirst := 0, destFirst := 0, lineCount := 4 }
    phase := .running
    admitted := true
    source := some trailed
    dest := some (plainSurface 1 8 none) }

/-- Job line 0 of the COPY job, in IB0. -/
def lineZero : LineRecord where
  chain := 1
  jobLine := 0
  sourceLine := 0
  destLine := 0
  stage := .fetching
  inputBuffer := some 0
  outputBuffer := none
  fetchRanges := [{ start := 0, bytes := 8 }]
  storeRanges := [{ start := 0x8000, bytes := 1 }]
  discard := false
  allZero := false

/-- The machine with the COPY job and one line in flight. -/
def lineInFlight (l : LineRecord) (j : Job) : State := { running (chainIn .active) j with lines := [l] }

/-- The fetch of line 0. -/
def fetchZero : Access :=
  { kind := .lineFetch 0, chain := 1, line := some 0, ranges := [{ start := 0, bytes := 8 }], cells := [] }

/-- The machine with line 0 being fetched. -/
def fetching (l : LineRecord) (j : Job) : State :=
  { lineInFlight l j with accesses := [fetchZero], fetchChecks := #v[some .start, none] }

/-! ## One or two steps of each command -/

theorem test_power_on_reset : (after .powerOnReset { holding (chainIn .active) with ten := true }).ten = false ∧
    ((after .powerOnReset (holding (chainIn .active))).chain 1).state = .idle := by decide +kernel

theorem test_soft_reset_with_access : (after (.softReset false) (outstanding State.reset (reading .headerRead 32))).softReset = true ∧
    (after (.start 0) (after (.softReset true) (outstanding State.reset (reading .headerRead 32)))).lastResult =
      refused .resetting 3 0 := by decide +kernel

theorem test_soft_reset_ends : (after .softResetEnd { holding (chainIn .active) with softReset := true, flags := 4 }).flags = 0 ∧
    (after .softResetEnd (outstanding { State.reset with softReset := true } (reading .headerRead 32))).softReset = true := by
  decide +kernel

theorem test_ten_write : (after (.tenWrite true) State.reset).ten = true ∧
    (after (.tenWrite true) (running (chainIn .active) copyJob)).lastResult = refused .busy 1 0 := by decide +kernel

theorem test_exchange_base_write : (after (.exchangeBaseWrite 0x80001234) State.reset).exchangeBase = 0x0001234 ∧
    (after (.exchangeBaseWrite 1) (holding (chainIn .parked))).lastResult = refused .busy 2 0 := by decide +kernel

theorem test_start : (after (.start 1) { State.reset with exchangeBase := 1 }).accesses = [readAccess .directoryRead 1 0x1020 32] ∧
    ((after (.start 1) State.reset).chain 1).state = .reading := by decide +kernel

theorem test_pause : ((after (.pause 1) (holding (chainIn .reading))).chain 1).pauseMark = true ∧
    ((after (.pause 1) (running (chainIn .active) copyJob)).chain 1).resume = some .run := by decide +kernel

theorem test_resume : ((after (.resume 1) (running { chainIn .paused with resume := some .run } copyJob)).chain 1).state =
      .active ∧
    (after (.resume 1) (holding { chainIn .halted with anchor := some (.record 0x2000), inHand := none })).accesses =
      [readAccess .anchorReRead 1 0x2000 8] := by decide +kernel

theorem test_abort : ((after (.abort 1) (holding (chainIn .broken))).chain 1).state = .idle ∧
    (after (.abort 1) (holding { chainIn .halted with anchor := some (.record 0x2000), inHand := none })).accesses =
      [writeAccess (.releaseWrite .abortEnd 0x2000) 1 0x2008 [0x03]] := by decide +kernel

theorem test_flag_set : (after (.flagSet 0x80000001) State.reset).flags = 0x80000001 ∧
    (after (.flagSet 1) { State.reset with attentionMask := 1 }).attn = true := by decide +kernel

theorem test_flag_clear : (after (.flagClear 0x80000000) { State.reset with flags := 0x80000001 }).flags = 1 := by
  decide +kernel

theorem test_attention_mask_write : (after (.attentionMaskWrite 5) State.reset).readRegister 0x1C = 5 := by decide +kernel

theorem test_error_clear : (after (.errorClear 1) (State.reset.report .badLink 2)).errors = .clear ∧
    (after (.errorClear 0) (State.reset.report .badLink 2)).readRegister 0x20 = 0x231 := by decide +kernel

theorem test_ignored_write : (after (.ignoredRegisterWrite 0x14 1 0x7) State.reset).flags = 0 := by decide +kernel

/-- A directory entry: head 0x0012340040, priority 1, context 2, wake flag 20, fault flag 3, CONFIG. -/
def directoryEntry : List Byte := leBytes 8 0x0012340040 ++ [1, 2, 20, 3, 1] ++ List.replicate 19 0

theorem test_directory_read :
    (after (.directoryRead 1 (.data directoryEntry)) (outstanding (holding { Chain.atRest with state := .reading })
      (reading .directoryRead 32))).chain 1 = chainIn .reading ∧
    ((after (.directoryRead 1 .error) (outstanding (holding (chainIn .reading)) (reading .directoryRead 32))).chain 1).breakReason =
      .directoryRead := by decide +kernel

theorem test_record_header_read :
    (after (.recordHeaderRead 1 (.data header)) (outstanding (holding (chainIn .reading)) (reading .headerRead 32))).accesses =
      [readAccess .secondPartRead 1 0x12340060 56] := by decide +kernel

/-- The machine with the job of 11 Table 11-14 whose second part is being read. -/
def readingSecondPart : State :=
  outstanding (running (chainIn .reading) (jobOfHeader 0x12340040 header)) (reading .secondPartRead 56)

theorem test_record_second_part_read :
    (after (.recordSecondPartRead 1 (.data secondPart)) readingSecondPart).waiter 1 =
      some { flag := 5, wanted := true, consuming := false, kind := .guard } ∧
    ((after (.recordSecondPartRead 1 (.data secondPart)) readingSecondPart).chain 1).state = .waiting := by decide +kernel

/-- The machine with a SIGNAL job in REPORTING. -/
def reporting (a : Access) : State :=
  outstanding (running (chainIn .active) { signalJob with phase := .reporting, ended := true, code := some .ok }) a

theorem test_link_re_read :
    (after (.linkReRead 1 (.data (leBytes 8 0))) (reporting (reading .linkReRead 8))).accesses =
      [writeAccess (.outcomeWrite .doneHeld false) 1 0x12340048 [0x02, 0, 0, 0, 0, 0, 0, 0]] := by decide +kernel

/-- The machine with chain 1 re-reading the link of its anchor record. -/
def rereading : State :=
  outstanding (holding { chainIn .reading with inHand := none, anchor := some (.record 0x2000) }) (reading .anchorReRead 8)

theorem test_anchor_link_re_read :
    (after (.anchorLinkReRead 1 (.data (leBytes 8 0x4000))) rereading).accesses =
      [writeAccess (.releaseWrite .readNext 0x2000) 1 0x2008 [0x03]] ∧
    ((after (.anchorLinkReRead 1 (.data (leBytes 8 0))) rereading).chain 1).state = .parked := by decide +kernel

/-- An outcome write of the SIGNAL job. -/
def outcomeOut : Access := writeAccess (.outcomeWrite .doneFree false) 1 0x12340048 [0x03, 0, 0, 0, 0, 0, 0, 0]

theorem test_outcome_write :
    ((after (.outcomeWrite 1 .acknowledged) (reporting outcomeOut)).chain 1).retireCount = 1 ∧
    Memory.read (after (.outcomeWrite 1 .acknowledged) (reporting outcomeOut)).memory 0x12340048 = some 0x03 := by
  decide +kernel

/-- The machine with a release write outstanding. -/
def releasing (n : ReleaseNext) : State :=
  outstanding (holding { chainIn .reading with inHand := none, next := some 0x4000 })
    (writeAccess (.releaseWrite n 0x2000) 1 0x2008 [0x03])

/-- 01 R13, R18: a failed outcome write and a failed release leave memory as it was. -/
theorem test_failed_record_writes :
    (after (.outcomeWrite 1 (.error [0x12340048, 0x12340049])) (reporting outcomeOut)).memory = [] ∧
    (after (.releaseWrite 1 (.error [0x2008])) (releasing .readNext)).memory = [] := by decide +kernel

theorem test_release_write : (after (.releaseWrite 1 .acknowledged) (releasing .readNext)).accesses =
      [readAccess .headerRead 1 0x4000 32] ∧
    ((after (.releaseWrite 1 (.error [])) (releasing .readNext)).chain 1).breakReason = .releaseWrite := by decide +kernel

/-- The machine with the status write of an entry into PARKED outstanding. -/
def parking : State :=
  outstanding (holding { chainIn .parked with inHand := none, anchor := some (.record 0x2000) })
    (writeAccess (.statusWrite .park) 1 0xA0 (List.replicate 32 0))

/-- 09 R157, log 10: an ABORT in PARKED awaits the status write of the entry, then releases the anchor. -/
theorem test_abort_awaits_park_status :
    (after (.abort 1) parking).accesses.map (·.kind) = [.statusWrite .abortAnchor] ∧
    (after (.statusWrite 1 0 .acknowledged) (after (.abort 1) parking)).accesses =
      [writeAccess (.releaseWrite .abortEnd 0x2000) 1 0x2008 [0x03]] ∧
    (after (.resume 1) (after (.pause 1) parking)).accesses.map (·.kind) = [.statusWrite .parkAgain] := by decide +kernel

theorem test_status_write : (after (.statusWrite 1 0 .acknowledged) parking).waiter 1 =
      some { flag := 20, wanted := true, consuming := true, kind := .wake } ∧
    (after (.statusWrite 1 0 (.error [])) parking).errors.firstKind = .statusWrite := by decide +kernel

theorem test_fetch_grant_decision : (after .fetchGrantDecision (running (chainIn .active) copyJob)).accesses = [fetchZero] ∧
    (after .fetchGrantDecision { running (chainIn .active) copyJob with ten := true }).lines = [] := by decide +kernel

theorem test_fetch_complete :
    ((after (.fetchComplete 0 (.data [0xFF, 9, 9, 9, 0, 0, 0, 0xFF])) (fetching lineZero copyJob)).lines.map (·.stage)) =
      [.fetched] ∧
    ((after (.fetchComplete 0 (.data [0xFF, 9, 9, 9, 1, 0, 0, 0xFF])) (fetching lineZero copyJob)).job 1).map
      (·.flags.check) = some true := by decide +kernel

/-- The machine with line 0 FETCHED. -/
def fetchedLine : State := { lineInFlight { lineZero with stage := .fetched } copyJob with inBuf := #v[[0, 9, 9, 9, 0, 0, 0, 0], []] }

theorem test_conversion_start : (after .conversionStart fetchedLine).conversion = some { chain := 1, jobLine := 0 } ∧
    (after .conversionStart fetchedLine).copyZero = some true := by decide +kernel

theorem test_conversion_complete :
    (after .conversionComplete (after .conversionStart fetchedLine)).accesses =
      [{ kind := .lineStore 0, chain := 1, line := some 0, ranges := [{ start := 0x8000, bytes := 1 }], cells := [(0x8000, 0)] }] := by
  decide +kernel

/-- The machine with line 0 being stored. -/
def storingLine (j : Job) : State :=
  { lineInFlight { lineZero with stage := .storing, inputBuffer := none, outputBuffer := some 0, allZero := true } j with
    accesses := [{ kind := .lineStore 0, chain := 1, line := some 0, ranges := [{ start := 0x8000, bytes := 1 }], cells := [(0x8000, 0)] }] }

theorem test_store_answered :
    ((after (.storeAnswered 0 .acknowledged) (storingLine copyJob)).job 1).map (·.stored.prefixLen) = some 1 ∧
    ((after (.storeAnswered 0 (.error [])) (storingLine copyJob)).job 1).map (·.firstFault) = some (some .busWrite) := by
  decide +kernel

/-- A TABLE job loading one entry into entry 1023. -/
def tableJobLoading : Job :=
  { signalJob with
    kind := some .table, phase := .running, admitted := true
    body := .table { source := 0, first := 1023, count := 1 }
    load := some { ranges := [{ start := 0, bytes := 2 }], source := [.unanswered, .unanswered], entriesLoaded := 0 } }

/-- The machine with that load under way. -/
def loading : State :=
  outstanding (running (chainIn .active) tableJobLoading)
    { kind := .tableRead, chain := 1, line := none, ranges := [{ start := 0, bytes := 2 }], cells := [] }

theorem test_table_read_answered :
    (after (.tableReadAnswered 0 2 (.data [0x34, 0x12])) loading).lut[1023] = 0x1234 ∧
    ((after (.tableReadAnswered 1 1 .error) loading).job 1).map (·.firstFault) = some (some .busRead) := by decide +kernel

/-- 09 R169: a soft reset awaits every table read. -/
theorem test_table_reads_drained :
    let half := after (.tableReadAnswered 0 1 .error) { loading with softReset := true }
    half.accesses.length = 1 ∧ (after .softResetEnd half).softReset = true ∧
    (after .softResetEnd (after (.tableReadAnswered 1 1 (.data [0])) half)).softReset = false := by decide +kernel

/-- An admitted job of this body. -/
def admitted (k : Kind) (b : Body) : Job :=
  { signalJob with kind := some k, body := b, phase := .running, admitted := true }

theorem test_surface_work :
    ((after (.surfaceWork 1) (running (chainIn .active) (admitted .surface (.surface (loadBody 12 2048 1 4096))))).surfaces[3]).map
      (·.footprint) = some 3076 ∧
    ((after (.surfaceWork 1) (running (chainIn .active) (admitted .surface (.surface (loadBody 14 9 1 16))))).job 1).map (·.code) =
      some (some .badSurface) := by decide +kernel

/-- A COEFF body. -/
def coeffBody (k1 : BitVec 16) : CoeffBody := { set := 3, order := 1, k1 := k1, k2 := 731, k3 := 352, k4 := 1815 }

theorem test_coeff_work :
    (after (.coeffWork 1) (running (chainIn .active) (admitted .coeff (.coeff (coeffBody 1436))))).coeffs[3] = fullRange .bgr ∧
    ((after (.coeffWork 1) (running (chainIn .active) (admitted .coeff (.coeff (coeffBody 4096))))).job 1).map (·.code) =
      some (some .range) := by decide +kernel

/-- A MAP LOAD of slot 4 with the fields of M4 of 08 Table 8-3. -/
def mapBody : MapBody where
  slot := 4
  operation := 1
  context := 2
  shared := 0
  size := 0
  readRight := 1
  writeRight := 1
  effectiveBase := 0x40000000
  physicalBase := 0x1234567000

/-- An admitted MAP job. -/
def mapJob : Job := admitted .map (.map mapBody)

/-- The machine with slot 4 valid and pinned by a job of chain 2. -/
def pinnedSlot (j : Job) : State :=
  { (running (chainIn .active) j).setJob 2 (some { copyJob with pins := 0x10 }) with entries := walkTable }

theorem test_map_work : (after (.mapWork 1) (running (chainIn .active) mapJob)).entries[4] = some m4 ∧
    (after (.mapWork 1) (pinnedSlot mapJob)).pendingMark = some 4 := by decide +kernel

/-- 08 R149, 01 R26: an arrival after the ABORT marks a pinned slot pending, and the job stays in RUNNING (log 8). -/
theorem test_map_work_under_abort :
    (let s := after (.mapWork 1) (pinnedSlot { mapJob with abortRequested := true })
     s.pendingMark = some 4 ∧ (s.job 1).map (·.phase) = some .running) := by decide +kernel

/-! ## Witnesses: for each statement with hypotheses, concrete states and operands that meet them together, clause by clause. -/

theorem test_witness_StepTakesFrontCommand : State.reset.pending = [] := rfl

theorem test_witness_SoftResetBeginsAndDrains :
    (outstanding State.reset (reading .headerRead 32)).softReset = false ∧
    (outstanding State.reset (reading .headerRead 32)).accesses ≠ [] := by decide +kernel

/-- The machine in a soft reset with this access outstanding. -/
def draining (a : Access) : State := outstanding { State.reset with softReset := true } a

theorem test_witness_SoftResetBeginsAndDrains_reads :
    (draining (reading .directoryRead 32)).softReset = true ∧ (ReadAnswer.error).hasLength 32 = true ∧
    (draining (reading .directoryRead 32)).hasOutstanding (Access.isFor .directoryRead 1) 0 (reading .directoryRead 32) [] [] ∧
    (draining (reading .headerRead 32)).hasOutstanding (Access.isFor .headerRead 1) 0 (reading .headerRead 32) [] [] ∧
    (draining (reading .secondPartRead 32)).hasOutstanding (Access.isFor .secondPartRead 1) 0 (reading .secondPartRead 32) [] [] ∧
    (draining (reading .linkReRead 8)).hasOutstanding (Access.isFor .linkReRead 1) 0 (reading .linkReRead 8) [] [] ∧
    (draining (reading .anchorReRead 8)).hasOutstanding (Access.isAnchorReReadFor 1) 0 (reading .anchorReRead 8) [] [] ∧
    (draining fetchZero).hasOutstanding (Access.isFetchInto 0) 0 fetchZero [] [] := by
  unfold State.hasOutstanding
  decide +kernel

/-- A release write of chain 1. -/
def releaseOut : Access := writeAccess (.releaseWrite .readNext 0x2000) 1 0x2008 [0x03]

/-- A status write of chain 1. -/
def statusOut (n : StatusNext) : Access := writeAccess (.statusWrite n) 1 0xA0 (List.replicate 32 0)

/-- The store of line 0. -/
def storeZero : Access :=
  { kind := .lineStore 0, chain := 1, line := some 0, ranges := [{ start := 0x8000, bytes := 1 }], cells := [(0x8000, 0)] }

theorem test_witness_SoftResetBeginsAndDrains_writes :
    (draining outcomeOut).hasOutstanding (Access.isOutcomeFor 1) 0 outcomeOut [] [] ∧
    (draining releaseOut).hasOutstanding (Access.isReleaseFor 1) 0 releaseOut [] [] ∧
    (draining (statusOut .park)).hasOutstanding (Access.isStatusFor 1) 0 (statusOut .park) [] [] ∧
    (draining storeZero).hasOutstanding (Access.isStoreFrom 0) 0 storeZero [] [] := by
  unfold State.hasOutstanding
  decide +kernel

theorem test_witness_SoftResetBeginsAndDrains_tables :
    (let s := { loading with softReset := true }
     s.softReset = true ∧ s.hasOutstanding Access.isTableRead 0
      { kind := .tableRead, chain := 1, line := none, ranges := [{ start := 0, bytes := 2 }], cells := [] } [] [] ∧
     s.job 1 = some tableJobLoading) ∧
    (tableJobLoading.load.map fun load => (load.awaits 0 1 && !(load.answer 0 1 .error).complete) &&
      (load.awaits 0 2 && (load.answer 0 2 .error).complete)) = some true ∧
    (ReadAnswer.error).hasLength 1 = true := by
  unfold State.hasOutstanding
  decide +kernel

theorem test_witness_SoftResetEndsAtRest :
    ({ State.reset with softReset := true } : State).softReset = true ∧ State.reset.softReset = false ∧
    State.reset.accesses = [] := by decide +kernel

theorem test_witness_WritesRefusedDuringSoftReset : ({ State.reset with softReset := true } : State).softReset = true := rfl

theorem test_witness_RegisterReadLayouts : 0x24 ≤ (0x24 : BitVec 12).toNat ∧ 0x24 ≤ (0xFFF : BitVec 12).toNat := by decide

theorem test_witness_ApbWritesAreTheirCommands : (0x7 : BitVec 4) ≠ 0xF ∧ 0x24 ≤ (0x24 : BitVec 12).toNat ∧
    ignoredWrite 0x24 0xF = true ∧ ignoredWrite 0x20 0xF = false ∧ ignoredWrite 0x14 0x7 = true := by decide

theorem test_witness_AttentionMaskSelectsFlags :
    State.reset.softReset = false ∧ ({ State.reset with softReset := true } : State).softReset = true ∧
    ({ State.reset with softReset := true } : State).accesses = [] := by decide +kernel

theorem test_witness_ErrorRegisterReadsAndClears : (1 : BitVec 32).getLsbD 0 = true ∧ (2 : BitVec 32).getLsbD 0 = false := by
  decide

theorem test_witness_ErrorSummaryKeepsFirstAndCounts : ErrorSummary.clear.pending = false ∧
    (ErrorSummary.clear.report .badLink 1).pending = true ∧
    (({ ErrorSummary.clear with pending := true, further := 255 } : ErrorSummary).report .badLink 1).further = 255 := by decide

theorem test_witness_ChainCommandAcceptance :
    (∀ x ∈ [ChainState.idle, .reading, .waiting, .active, .parked, .paused, .halted, .broken, .aborting],
      ((holding (chainIn x)).chain 1).state = x ∧ (holding (chainIn x)).softReset = false) := by decide +kernel

theorem test_witness_WrittenBytesFollowTheFormats :
    fieldAt (outcomeBytes .doneHeld .checkFail { ResultFlags.none with zero := true } (2 ^ 32 - 1)) 4 4 = 2 ^ 32 - 1 ∧
    fieldAt (statusBytes .broken .badLink .aborted 17 (2 ^ 40 - 1) 0x42) 8 8 = 2 ^ 40 - 1 := by decide +kernel

theorem test_witness_ControlWriteStartsResetOrSetsTen :
    State.reset.softReset = false ∧ true ≠ State.reset.ten ∧ false = State.reset.ten ∧
    (∀ c, State.reset.job c = none) ∧ (running (chainIn .active) copyJob).job 1 = some copyJob ∧
    copyJob.admitted = true ∧ (running (chainIn .active) copyJob).softReset = false := by decide +kernel

theorem test_witness_ExchangeBaseReplacedWhenAllIdle :
    (∀ c, (State.reset.chain c).state = .idle) ∧ (∃ c, ((holding (chainIn .parked)).chain c).state ≠ .idle) ∧
    ((holding { chainIn .reading with anchor := some .directory }).chain 1).anchor = some .directory ∧
    (let s := outstanding (holding { chainIn .idle with inHand := none }) (statusOut (.breakTail (some 3)))
     s.softReset = false ∧ (∀ d, (s.chain d).state = .idle) ∧ (∀ d, s.waiter d = none) ∧
     s.hasOutstanding (Access.isStatusFor 1) 0 (statusOut (.breakTail (some 3))) [] []) := by
  unfold State.hasOutstanding
  decide +kernel

theorem test_witness_HostMaskSetsAndClearsFlags :
    State.reset.softReset = false ∧ ∀ c w, State.reset.waiter c = some w → (0 : BitVec 32).getLsbD w.flag = false :=
  ⟨rfl, fun _ _ _ => BitVec.getLsbD_zero⟩

/-- The machine with this waiter of chain 1, its anchor the directory. -/
def waitingOn (w : Waiter) (j : Job) (flags : BitVec 32) : State :=
  { (running { chainIn .parked with anchor := some .directory } j).setWaiter 1 (some w) with flags := flags }

/-- A waiter that wants F7 to take this value. -/
def waiterOn7 (wanted consuming : Bool) (kind : WaiterKind) : Waiter :=
  { flag := 7, wanted := wanted, consuming := consuming, kind := kind }

theorem test_witness_HostMaskSetsAndClearsFlags_waiters :
    (∀ wanted : Bool, let s := waitingOn (waiterOn7 wanted true .guard) signalJob (if wanted then 0 else 0xFF)
     s.softReset = false ∧ s.waiter 1 = some (waiterOn7 wanted true .guard) ∧ (0x81 : BitVec 32).getLsbD 7 = true ∧
       s.flags.getLsbD 7 = !wanted ∧ (∀ d u, s.waiter d = some u → (0x81 : BitVec 32).getLsbD u.flag = true → d = 1) ∧
       s.job 1 = some signalJob) ∧
    (let s := waitingOn (waiterOn7 true true .wake) signalJob 0
     (s.chain 1).anchor = some .directory) ∧
    (let s := holding { chainIn .parked with anchor := some (.record 0x2000) }
     (s.chain 1).anchor = some (.record 0x2000)) := by
  refine ⟨?_, by decide +kernel, by decide +kernel⟩
  have alone : ∀ (wanted : Bool) (d : ChainId), d ≠ 1 →
      (waitingOn (waiterOn7 wanted true .guard) signalJob (if wanted then 0 else 0xFF)).waiter d = none := by decide +kernel
  intro wanted
  refine ⟨rfl, rfl, rfl, by cases wanted <;> rfl, fun d u hu _ => Decidable.byContradiction fun h => ?_, rfl⟩
  rw [alone wanted d h] at hu
  cases hu

/-- 02 R32, R36, R37: a mask that reaches a guard, consuming or not, and one that reaches a wake claim. -/
theorem test_host_mask_serves_waiter :
    (let t := after (.flagSet 0x81) (waitingOn (waiterOn7 true false .guard) signalJob 0)
     t.flags = 0x81 ∧ t.waiter 1 = none ∧ (t.job 1).map (·.guardPassed) = some true) ∧
    (let t := after (.flagSet 0x81) (waitingOn (waiterOn7 true true .guard) signalJob 0)
     t.flags = 0x01 ∧ t.waiter 1 = none ∧ (t.job 1).map (·.ended) = some true) ∧
    (let t := after (.flagClear 0x81) (waitingOn (waiterOn7 false true .guard) signalJob 0xFF)
     t.flags = 0xFE ∧ t.waiter 1 = none) ∧
    (let t := after (.flagSet 0x81) (waitingOn (waiterOn7 true true .wake) signalJob 0)
     t.flags = 0x01 ∧ (t.chain 1).state = .reading ∧ t.accesses = [readAccess .headReRead 1 0x20 8]) := by decide +kernel

/-- The Flag File of 02 Table 2-3, with chain 2 waiting on another flag. -/
def waitersOnF7 : FlagFile where
  flags := 0
  waiters := #v[some { flag := 7, wanted := true, consuming := false, kind := .guard },
    some { flag := 7, wanted := true, consuming := true, kind := .guard },
    some { flag := 8, wanted := true, consuming := true, kind := .guard },
    some { flag := 7, wanted := true, consuming := true, kind := .wake }]

theorem test_witness_FlagChangeServesWaitersByRule :
    waitersOnF7.value 7 ≠ true ∧ (waitersOnF7.waiters.toList.all fun o => match o with
      | some w => w.flag != 7 || w.wanted
      | none => true) = true ∧
    (waitersOnF7.waiters[0]).map (·.consuming) = some false ∧ (waitersOnF7.waiters[3]).map (·.consuming) = some true ∧
    [2, 2, 0, 1].getD (3 : ChainId).val 0 < [2, 2, 0, 1].getD (1 : ChainId).val 0 ∧
    (waitersOnF7.waiters[2]).map (·.flag) = some 8 := by decide +kernel

theorem test_witness_FlagChangeServesWaitersByRule_arrivals :
    waitersOnF7.value 7 ≠ (waiterOn7 true true .wake).wanted ∧ waitersOnF7.value 7 = (waiterOn7 false false .guard).wanted ∧
    waitersOnF7.value 7 = (waiterOn7 false true .guard).wanted ∧ (waitersOnF7.waiters[3]).isSome = true ∧
    (running (chainIn .waiting) signalJob).job 1 = some signalJob := by decide +kernel

/-- A code that is a fault, an action whose condition does not hold, and a job with no action. -/
theorem test_witness_PostActionsAppliedByRetire :
    tableJob.actions = [⟨9, .set, .always⟩, ⟨12, .set, .check⟩] ∧ signalJob.actions = [] ∧
    retireOps tableJob .range (some 3) = [(9, .set), (3, .set)] ∧ retireOps tableJob .badRecord (some 3) = [(3, .set)] ∧
    retireOps tableJob .skipped (some 3) = [(9, .set)] := by decide +kernel

theorem test_witness_StartReadsDirectoryOrReleasesAnchor :
    (State.reset.chain 1).state = .idle ∧ ((holding (chainIn .broken)).chain 1).state = .broken ∧
    (let s := holding { chainIn .halted with anchor := some (.record 0x2000) }
     s.softReset = false ∧ (s.chain 1).state = .halted ∧ (s.chain 1).anchor = some (.record 0x2000)) := by decide +kernel

theorem test_witness_PauseTakesChainByItsState :
    ((holding (chainIn .parked)).chain 1).state = .parked ∧
    (let s := running (chainIn .active) copyJob
     s.softReset = false ∧ (s.chain 1).state = .active ∧ s.job 1 = some copyJob ∧ copyJob.phase ≠ .reporting) ∧
    ((holding (chainIn .reading)).chain 1).state = .reading ∧
    (let j := { signalJob with phase := .reporting }
     let s := running (chainIn .active) j
     (s.chain 1).state = .active ∧ s.job 1 = some j ∧ j.phase = .reporting) ∧
    (let s := running (chainIn .waiting) signalJob
     (s.chain 1).state = .waiting ∧ s.job 1 = some signalJob ∧ signalJob.phase = .admitting ∧ signalJob.ended = false ∧
     s.tableGate.has 1 = false ∧ s.replGate.has 1 = false) := by
  decide +kernel

/-- A PAUSED chain with this resume point. -/
def pausedAt (p : ResumePoint) : Chain := { chainIn .paused with resume := some p, anchor := some .directory, next := some 0x4000 }

theorem test_witness_ResumeReturnsToResumePoint :
    (let s := holding (pausedAt .park)
     s.softReset = false ∧ (s.chain 1).state = .paused ∧ (s.chain 1).resume = some .park ∧
       (s.chain 1).anchor = some .directory ∧ s.awaitsParkStatus 1 = false ∧
       (outstanding s (statusOut .nothing)).awaitsParkStatus 1 = true) ∧
    (let j := { tableJobLoading with load := none }
     let s := running (pausedAt .run) j
     s.job 1 = some j ∧ j.kind = some .table ∧ j.load = none ∧ j.held = false ∧ j.ended = false) ∧
    (let s := running (pausedAt .run) copyJob
     (s.chain 1).resume = some .run ∧ s.job 1 = some copyJob ∧ copyJob.kind ≠ some .table) ∧
    (let s := holding (pausedAt .readNext)
     (s.chain 1).resume = some .readNext ∧ s.job 1 = none ∧ (s.chain 1).next = some 0x4000) ∧
    (let j := { signalJob with ended := true, code := some .ok }
     let s := running (pausedAt .readNext) j
     s.job 1 = some j ∧ j.ended = true ∧ j.haltsChain = false) ∧
    ((holding (pausedAt .guard)).chain 1).resume = some .guard := by decide +kernel

theorem test_witness_AbortWithoutAdmittedJob :
    (let s := holding { chainIn .parked with anchor := some (.record 0x2000) }
     s.softReset = false ∧ (s.chain 1).state = .parked ∧ s.job 1 = none ∧ (s.chain 1).anchor = some (.record 0x2000) ∧
     s.awaitsParkStatus 1 = false) ∧
    (parking.job 1 = none ∧ (parking.chain 1).state = .parked ∧ parking.awaitsParkStatus 1 = true) ∧
    (let s := holding { pausedAt .park with anchor := some (.record 0x2000) }
     (s.chain 1).resume = some .park ∧ s.job 1 = none) ∧
    (let s := holding (pausedAt .park)
     (s.chain 1).anchor = some .directory ∧ s.job 1 = none) ∧
    (let s := holding (pausedAt .readNext)
     (s.chain 1).state = .paused ∧ (s.chain 1).resume = some .readNext ∧ s.job 1 = none) ∧
    ((holding (chainIn .reading)).chain 1).state = .reading ∧ (holding (chainIn .reading)).job 1 = none := by
  decide +kernel

theorem test_witness_AbortWithoutAdmittedJob_records :
    (let s := running (chainIn .reading) signalJob
     (s.chain 1).state = .reading ∧ s.job 1 = some signalJob ∧ s.tableGate.has 1 = false ∧ s.replGate.has 1 = false) ∧
    (let j := { signalJob with phase := .reporting }
     let s := running (chainIn .active) j
     (s.chain 1).state = .active ∧ j.phase = .reporting ∧ s.job 1 = some j) ∧
    (let s := running (chainIn .waiting) signalJob
     (s.chain 1).state = .waiting ∧ s.job 1 = some signalJob ∧ s.tableGate.has 1 = false ∧ s.replGate.has 1 = false) ∧
    (let s := { running (chainIn .waiting) tableJob with tableGate := TableGate.empty.hold 1 .lookup }
     s.job 1 = some tableJob ∧ tableJob.phase = .admitting ∧ tableJob.ended = false ∧ s.tableGate.has 1 = true) ∧
    (let j := { signalJob with ended := true, code := some .ok }
     let s := running (pausedAt .readNext) j
     (s.chain 1).resume = some .readNext ∧ s.job 1 = some j ∧ j.ended = true) := by decide +kernel

theorem test_witness_AbortEndsWorkOfAdmittedJob :
    (let s := lineInFlight lineZero copyJob
     s.softReset = false ∧ (s.chain 1).state = .active ∧ s.job 1 = some copyJob ∧ copyJob.lineBody.isSome = true ∧
       copyJob.phase = .running ∧ (∃ l ∈ s.lines, l.chain = 1 ∧ (l.uncommitted = false ∨ l.stage = .fetching)) ∧
       ∀ l ∈ s.lines, l.chain = 1 → l.stage = .fetched → l.discard = false) ∧
    (copyJob.ended = false ∧ (∀ l ∈ fetchedLine.lines, l.chain = 1 → l.stage = .fetched ∧ l.discard = false) ∧
       (after (.abort 1) fetchedLine).lines = [] ∧ (after (.abort 1) fetchedLine).inputFree 0 = true) ∧
    ((running (pausedAt .run) copyJob).chain 1).resume = some .run := by
  decide +kernel

theorem test_witness_AbortEndsWorkOfAdmittedJob_others :
    (loading.job 1 = some tableJobLoading ∧ tableJobLoading.phase = .running ∧ tableJobLoading.load.isSome = true) ∧
    ({ tableJobLoading with load := none, held := true } : Job).load = none ∧
    (let s := running (chainIn .active) mapJob
     s.job 1 = some mapJob ∧ mapJob.phase = .running ∧ mapJob.body = .map mapBody ∧ s.pendingMark = none) ∧
    { pinnedSlot mapJob with pendingMark := some 4 }.pendingMark = some 4 ∧
    (admitted .coeff (.coeff (coeffBody 0))).phase = .running := by decide +kernel

theorem test_witness_ReadBytesFollowTheFormats :
    linkValue 0x10000000000 = .bad ∧ linkValue 0x10 = .bad ∧ linkValue 0 = .zero ∧
    linkValue 0xFFFFFFFFE0 = .to 0xFFFFFFFFE0 ∧ (decodeLatched directoryEntry).isSome = true ∧
    headerIsPending header = true ∧ headerIsSound header = true ∧
    (let j := jobOfHeader 0x12340040 header
     j.kind = some .convert ∧ j.guardPresent = true ∧ 1 ≤ j.actionCount ∧ (j.withSecondPart secondPart).isSome = true) ∧
    (∀ kind ∈ [Kind.table, .copy, .surface, .map, .coeff, .signal], (({ signalJob with
      kind := some kind, guardPresent := false, actionCount := 0 } : Job).withSecondPart []).isSome = true) := by
  decide +kernel

/-- The machine with a directory read outstanding. -/
def readingDirectory (mark : Bool) : State :=
  outstanding (holding { chainIn .reading with pauseMark := mark }) (reading .directoryRead 32)

theorem test_witness_DirectoryReadLatchesAndFollowsHead :
    (readingDirectory false).hasOutstanding (Access.isFor .directoryRead 1) 0 (reading .directoryRead 32) [] [] ∧
    directoryEntry.length = (reading .directoryRead 32).bytes ∧ ((readingDirectory false).chain 1).state = .reading ∧
    (readingDirectory false).softReset = false ∧ (readingDirectory false).job 1 = none ∧
    ((readingDirectory false).chain 1).pauseMark = false ∧ ((readingDirectory true).chain 1).pauseMark = true ∧
    decodeLatched (List.replicate 32 0) = none ∧ linkValue (linkField directoryEntry) = .to 0x12340040 ∧
    linkValue (linkField (leBytes 8 0 ++ directoryEntry.drop 8)) = .zero ∧
    (decodeLatched (leBytes 8 0 ++ directoryEntry.drop 8)).isSome = true := by
  unfold State.hasOutstanding
  decide +kernel

theorem test_witness_DirectoryReadLatchesAndFollowsHead_others :
    linkValue (linkField (leBytes 8 1 ++ directoryEntry.drop 8)) = .bad ∧
    (decodeLatched (leBytes 8 1 ++ directoryEntry.drop 8)).isSome = true ∧
    (let s := outstanding (holding (chainIn .aborting)) (reading .directoryRead 32)
     s.softReset = false ∧ s.hasOutstanding (Access.isFor .directoryRead 1) 0 (reading .directoryRead 32) [] [] ∧
       ReadAnswer.error.hasLength (reading .directoryRead 32).bytes = true ∧ (s.chain 1).state = .aborting) := by
  unfold State.hasOutstanding
  decide +kernel

theorem test_witness_BreakReportsAndWritesStatus :
    (holding (chainIn .reading)).job 1 = none ∧
    (let s := running (chainIn .active) signalJob
     s.job 1 = some signalJob ∧ s.pendingMark = none ∧ s.tableGate.has 1 = false ∧ s.replGate.has 1 = false) := by
  decide +kernel

/-- 09 R163: the break of a TABLE holder hands the table gate to the claim that waits. -/
theorem test_break_of_table_holder :
    (let s := { running (chainIn .active) tableJobLoading with tableGate := (TableGate.empty.grantTable 1).hold 3 .table }
     let t := State.breakChain ((s.setChain 3 (chainIn .waiting)).setJob 3
       (some { tableJobLoading with phase := .admitting, admitted := false, load := none })) 1 .outcomeWrite 0x2000
     t.tableGate.holder = some 3 ∧ (t.chain 3).state = .active ∧ t.job 1 = none) := by decide +kernel

theorem test_witness_RecordHeaderReadChecks :
    (let s := outstanding (holding (chainIn .reading)) (reading .headerRead 32)
     s.hasOutstanding (Access.isFor .headerRead 1) 0 (reading .headerRead 32) [] [] ∧
     header.length = (reading .headerRead 32).bytes ∧ s.softReset = false ∧ (s.chain 1).state = .reading ∧
     (s.chain 1).inHand = some 0x12340040 ∧ s.job 1 = none ∧ (s.chain 1).pauseMark = false) ∧
    headerIsPending (List.replicate 32 0) = false ∧
    (let bad := header.take 18 ++ [9, 0] ++ header.drop 20
     headerIsPending bad = true ∧ headerIsSound bad = false ∧ (byteAt bad 19).getLsbD 1 = false) ∧
    headerIsSound header = true ∧ (jobOfHeader 0x12340040 header).secondPartBytes ≠ 0 ∧
    (0xFFFFFFFFC0 : PhysAddr).toNat + 32 + 32 ≤ 2 ^ 40 := by
  unfold State.hasOutstanding
  decide +kernel

theorem test_witness_RecordHeaderReadChecks_others :
    (let plain := header.take 18 ++ [0x07, 0, 0] ++ header.drop 21
     headerIsPending plain = true ∧ headerIsSound plain = true ∧ (jobOfHeader 0x12340040 plain).secondPartBytes = 0) ∧
    ((holding { chainIn .reading with pauseMark := true }).chain 1).pauseMark = true ∧
    (let s := outstanding (holding (chainIn .aborting)) (reading .headerRead 32)
     s.hasOutstanding (Access.isFor .headerRead 1) 0 (reading .headerRead 32) [] [] ∧ (s.chain 1).state = .aborting ∧
       (s.chain 1).inHand = some 0x12340040) := by
  unfold State.hasOutstanding
  decide +kernel

theorem test_witness_SecondPartGoesOnToAdmission :
    readingSecondPart.hasOutstanding (Access.isFor .secondPartRead 1) 0 (reading .secondPartRead 56) [] [] ∧
    secondPart.length = (reading .secondPartRead 56).bytes ∧
    readingSecondPart.softReset = false ∧ (readingSecondPart.chain 1).state = .reading ∧
    readingSecondPart.job 1 = some (jobOfHeader 0x12340040 header) ∧ (readingSecondPart.chain 1).pauseMark = false ∧
    (jobOfHeader 0x12340040 header).onFault = .continue_ ∧
    (jobOfHeader 0x12340040 header).withSecondPart (List.replicate 56 0) = none ∧
    ((jobOfHeader 0x12340040 header).withSecondPart secondPart).isSome = true ∧
    (((jobOfHeader 0x12340040 (header.take 19 ++ [0, 0])).withSecondPart (List.replicate 32 0)).map (·.guard)) = some none := by
  unfold State.hasOutstanding
  decide +kernel

theorem test_witness_SecondPartGoesOnToAdmission_others :
    (readingSecondPart.chain 1).inHand = some 0x12340040 ∧ tableJob.guard.isSome = true ∧
    (let s := outstanding (running (chainIn .aborting) (jobOfHeader 0x12340040 header)) (reading .secondPartRead 56)
     s.hasOutstanding (Access.isFor .secondPartRead 1) 0 (reading .secondPartRead 56) [] [] ∧
       (s.chain 1).state = .aborting ∧ s.job 1 = some (jobOfHeader 0x12340040 header)) ∧
    ((running { chainIn .reading with pauseMark := true } signalJob).chain 1).pauseMark = true := by
  unfold State.hasOutstanding
  decide +kernel

/-- The job of 11 Table 11-14 with another guard. -/
def guarded (mode : GuardMode) (wanted consume : Bool) : Job :=
  { tableJob with guard := some { flag := 5, wanted := wanted, mode := mode, consume := consume } }

theorem test_witness_GuardStepAndAdmission :
    (let s := running (chainIn .waiting) (guarded .wait true false)
     s.job 1 = some (guarded .wait true false) ∧ (guarded .wait true false).guardPassed = false ∧
       s.flags.getLsbD 5 ≠ true) ∧
    (running (chainIn .waiting) (guarded .skip true true)).flags.getLsbD 5 ≠ true ∧
    (running (chainIn .waiting) (guarded .skip false false)).flags.getLsbD 5 = false ∧
    (let x := { chainIn .waiting with latched := { (chainIn .waiting).latched with privilege := .data } }
     ((running x mapJob).chain 1).latched.privilege = .data ∧ mapJob.dataMayRun = false ∧ copyJob.dataMayRun = true) ∧
    ((running (chainIn .waiting) copyJob).chain 1).latched.privilege = .config ∧
    (match (running (chainIn .waiting) copyJob).admissionChecks copyJob with
      | .error code => code == .noSurface
      | .ok _ => false) = true ∧
    (let j := admitted .coeff (.coeff (coeffBody 0))
     (match (running (chainIn .waiting) j).admissionChecks j with
      | .error _ => false
      | .ok k => k == j) = true ∧ j.gateClaim = .none ∧ j.body ≠ .signal) := by decide +kernel

theorem test_witness_GuardStepAndAdmission_guards :
    (let s := { running (chainIn .waiting) (guarded .wait true true) with flags := 0x20 }
     s.flags.getLsbD 5 = true ∧ ∀ d, s.waiter d = none) ∧
    (running (chainIn .waiting) (guarded .skip false true)).flags.getLsbD 5 = false ∧
    signalJob.guard = none ∧ ({ guarded .wait true true with guardPassed := true } : Job).guardPassed = true ∧
    tableJobLoading.gateClaim = .table ∧ mapJob.gateClaim = .replacement ∧ copyJob.gateClaim = .none := by
  decide +kernel

/-- The COPY job's body. -/
def copyLines : LineBody := { sourceSlot := 0, destSlot := 1, sourceFirst := 0, destFirst := 0, lineCount := 4 }

/-- A TABLE job not yet admitted. -/
def tableWaiting : Job := { tableJobLoading with phase := .admitting, admitted := false, load := none }

/-- A claim is granted at once, is found granted, or waits. -/
theorem test_witness_GuardStepAndAdmission_gates :
    (let s := running (chainIn .waiting) tableWaiting
     s.job 1 = some tableWaiting ∧ tableWaiting.gateClaim = .table ∧ s.gateGranted 1 .table = false ∧
     (s.claim 1 .table).isSome = true ∧ { s with tableGate := TableGate.empty.grantTable 1 }.gateGranted 1 .table = true ∧
     { s with tableGate := TableGate.empty.grantTable 2 }.gateGranted 1 .table = false ∧
     { s with tableGate := TableGate.empty.grantTable 2 }.claim 1 .table = none ∧
     { s with tableGate := TableGate.empty.grantTable 2 }.claim 1 .lookup = none ∧
     { s with replGate := ReplGate.empty.grant 2 }.claim 1 .replacement = none) ∧
    signalJob.gateClaim = .none ∧ (running (chainIn .waiting) signalJob).gateGranted 1 .none = true ∧
    (match State.reset.admissionChecks tableWaiting with
      | .error _ => false
      | .ok k => k == tableWaiting) = true := by decide +kernel

/-- The CONVERT and COPY checks on valid and invalid slots. -/
theorem test_witness_GuardStepAndAdmission_checks :
    (let s := { State.reset with
       surfaces := ((Vector.replicate 16 none).set 0 (some trailed)).set 1 (some (plainSurface 1 8 none)) }
     s.surfaces[(0 : Fin 16)] = some trailed ∧ s.surfaces[(1 : Fin 16)] = some (plainSurface 1 8 none) ∧
     copyJob.body = .copy copyLines ∧ copyLines.sourceSlot.toNat = (0 : Fin 16).val ∧
     copyLines.destSlot.toNat = (1 : Fin 16).val ∧ s.surfaces[(2 : Fin 16)] = none ∧
     (match s.admissionChecks copyJob with
      | .error _ => false
      | .ok _ => true) = true ∧
     (match s.admissionChecks { copyJob with body := (.convert copyLines
         { transform := 2, indexWidth := 11, coeffSet := 0, widen := 4, fill := 0 }) } with
      | .error code => code == .shape
      | .ok _ => false) = true) ∧
    16 ≤ ({ copyLines with sourceSlot := 16 } : LineBody).sourceSlot.toNat := by decide +kernel

theorem test_witness_EndOfWorkBeginsRetire :
    (running (chainIn .active) signalJob).job 1 = some signalJob ∧ signalJob.finish.haltsChain = false ∧
    ((running (chainIn .active) signalJob).chain 1).state = .active ∧
    ((running (chainIn .active) signalJob).chain 1).pauseMark = false ∧
    ({ signalJob with firstFault := some .range, onFault := .halt } : Job).finish.haltsChain = true ∧
    ((running (pausedAt .run) signalJob).chain 1).state = .paused ∧
    (let s := running { chainIn .active with pauseMark := true } signalJob
     (s.chain 1).state = .active ∧ (s.chain 1).pauseMark = true) ∧
    ((running (chainIn .aborting) signalJob).chain 1).state = .aborting := by decide +kernel

/-- The ends without admission: under HALT, under CONTINUE, and with the pause mark set. -/
theorem test_witness_EndOfWorkBeginsRetire_unadmitted :
    ({ signalJob with onFault := .halt } : Job).onFault = .halt ∧ signalJob.onFault ≠ .halt ∧
    ((running (chainIn .reading) signalJob).chain 1).state ≠ .aborting ∧
    ((running (chainIn .reading) signalJob).chain 1).state ≠ .paused ∧
    ((running { chainIn .reading with pauseMark := true } signalJob).chain 1).pauseMark = true := by decide +kernel

theorem test_witness_LinkReReadDecidesOutcomeState :
    (let s := reporting (reading .linkReRead 8)
     s.softReset = false ∧ s.hasOutstanding (Access.isFor .linkReRead 1) 0 (reading .linkReRead 8) [] [] ∧
     (leBytes 8 0).length = (reading .linkReRead 8).bytes ∧ (s.chain 1).state = .active ∧ (s.job 1).isSome = true ∧
     (s.chain 1).inHand = some 0x12340040) ∧
    linkValue (linkField (leBytes 8 0)) = .zero ∧ linkValue (linkField (leBytes 8 0x4000)) = .to 0x4000 ∧
    linkValue (linkField (leBytes 8 1)) = .bad := by
  unfold State.hasOutstanding
  decide +kernel

theorem test_witness_LinkReReadDecidesOutcomeState_abort :
    (let s := outstanding (running (chainIn .aborting) signalJob) (reading .linkReRead 8)
     s.hasOutstanding (Access.isFor .linkReRead 1) 0 (reading .linkReRead 8) [] [] ∧ (s.chain 1).state = .aborting ∧
       s.job 1 = some signalJob ∧ (s.chain 1).inHand = some 0x12340040) := by
  unfold State.hasOutstanding
  decide +kernel

theorem test_witness_AnchorLinkReReadParksOrReleases :
    rereading.softReset = false ∧
    rereading.hasOutstanding (Access.isAnchorReReadFor 1) 0 (reading .anchorReRead 8) [] [] ∧
    (leBytes 8 0).length = (reading .anchorReRead 8).bytes ∧ (rereading.chain 1).state = .reading ∧
    (rereading.chain 1).anchor = some (.record 0x2000) ∧ (rereading.chain 1).pauseMark = false := by
  unfold State.hasOutstanding
  decide +kernel

/-- The machine with chain 1, in this state and with this pause mark, re-reading the head of its directory entry. -/
def rereadingHead (x : ChainState) (mark : Bool) : State :=
  outstanding (holding { chainIn x with inHand := none, anchor := some .directory, pauseMark := mark }) (reading .headReRead 8)

theorem test_witness_AnchorLinkReReadParksOrReleases_others :
    (∀ x ∈ [ChainState.reading, .aborting], ∀ mark : Bool,
      (rereadingHead x mark).hasOutstanding (Access.isAnchorReReadFor 1) 0 (reading .headReRead 8) [] [] ∧
      (leBytes 8 0).length = (reading .headReRead 8).bytes ∧ ((rereadingHead x mark).chain 1).state = x ∧
      ((rereadingHead x mark).chain 1).anchor = some .directory ∧ ((rereadingHead x mark).chain 1).pauseMark = mark) ∧
    ((holding { chainIn .aborting with anchor := some (.record 0x2000) }).chain 1).anchor = some (.record 0x2000) := by
  unfold State.hasOutstanding
  decide +kernel

/-- 01 R17: what the head of the directory entry, read again, makes of the chain. -/
theorem test_head_re_read :
    (after (.anchorLinkReRead 1 (.data (leBytes 8 0x4000))) (rereadingHead .reading false)).accesses =
      [readAccess .headerRead 1 0x4000 32] ∧
    ((after (.anchorLinkReRead 1 (.data (leBytes 8 0x4000))) (rereadingHead .reading true)).chain 1).resume =
      some .readNext ∧
    ((after (.anchorLinkReRead 1 (.data (leBytes 8 1))) (rereadingHead .reading false)).chain 1).breakReason = .badLink ∧
    ((after (.anchorLinkReRead 1 .error) (rereadingHead .reading false)).chain 1).breakReason = .directoryRead := by
  decide +kernel

theorem test_witness_OutcomeWriteCountsAndWritesStatus :
    (reporting outcomeOut).softReset = false ∧
    (reporting outcomeOut).hasOutstanding (Access.isOutcomeFor 1) 0 outcomeOut [] [] ∧
    outcomeOut.kind = .outcomeWrite .doneFree false ∧ ((reporting outcomeOut).job 1).isSome = true ∧
    outcomeOut.ranges ≠ [] ∧ ({ outcomeOut with kind := .outcomeWrite .doneFree true } : Access).isOutcomeFor 1 = true ∧
    ((reporting outcomeOut).chain 1).inHand = some 0x12340040 := by
  unfold State.hasOutstanding
  decide +kernel

theorem test_witness_OutcomeWriteCountsAndWritesStatus_addresses :
    ((holding (chainIn .aborting)).chain 1).state = .aborting ∧
    ({ Chain.atRest with next := some 0x4000 } : Chain).next = some 0x4000 ∧ (chainIn .active).inHand = some 0x12340040 ∧
    Chain.atRest.inHand = none ∧ Chain.atRest.anchor = none ∧ Chain.atRest.next = none := by decide +kernel

theorem test_witness_RetireStatusCarriesPausedUnderPauseMark :
    (let j := { signalJob with phase := .reporting, ended := true, code := some .ok }
     (running (chainIn .active) j).job 1 = some j ∧ j.haltsChain = false) ∧
    ({ signalJob with code := some .range, onFault := .halt } : Job).haltsChain = true ∧
    ((holding { chainIn .active with pauseMark := true }).chain 1).pauseMark = true ∧
    ((holding (chainIn .active)).chain 1).state = .active ∧ ((holding (chainIn .active)).chain 1).inHand = some 0x12340040 := by
  decide +kernel

theorem test_witness_ReleaseWriteGoesOnToCallingStep :
    (releasing .readNext).softReset = false ∧
    (releasing .readNext).hasOutstanding (Access.isReleaseFor 1) 0 releaseOut [] [] ∧
    ((releasing .readNext).chain 1).state = .reading ∧ ((releasing .readNext).chain 1).next = some 0x4000 ∧
    ((releasing .readNext).chain 1).pauseMark = false ∧
    ((holding (chainIn .aborting)).chain 1).state = .aborting ∧
    (releasing .directory).hasOutstanding (Access.isReleaseFor 1) 0
      (writeAccess (.releaseWrite .directory 0x2000) 1 0x2008 [0x03]) [] [] := by
  unfold State.hasOutstanding
  decide +kernel

theorem test_witness_ReleaseWriteGoesOnToCallingStep_pause :
    (let s := outstanding (holding { chainIn .reading with inHand := none, next := some 0x4000, pauseMark := true }) releaseOut
     s.hasOutstanding (Access.isReleaseFor 1) 0 releaseOut [] [] ∧ (s.chain 1).state = .reading ∧
       (s.chain 1).pauseMark = true) := by
  unfold State.hasOutstanding
  decide +kernel

/-- The machine with the status write of a retire outstanding. -/
def retiring : State :=
  outstanding (running { chainIn .active with next := some 0x4000 }
    { signalJob with phase := .reporting, ended := true, code := some .ok }) (statusOut (.retire .doneFree))

theorem test_witness_StatusWriteGoesOnByItsPurpose :
    (parking.softReset = false ∧ parking.hasOutstanding (Access.isStatusFor 1) 0 (statusOut .park) [] [] ∧
      (parking.chain 1).anchor = some (.record 0x2000) ∧ parking.flags.getLsbD (parking.chain 1).latched.wakeFlag = false ∧
      ({ parking with flags := 0x100000 } : State).flags.getLsbD (parking.chain 1).latched.wakeFlag = true ∧
      ∀ d, parking.waiter d = none) ∧
    retiring.hasOutstanding (Access.isStatusFor 1) 0 (statusOut (.retire .doneFree)) [] [] ∧
    (retiring.job 1).map (·.haltsChain) = some false ∧ (retiring.chain 1).state = .active ∧
    (retiring.chain 1).pauseMark = false ∧ (retiring.chain 1).inHand = some 0x12340040 ∧
    (retiring.chain 1).next = some 0x4000 ∧ retiring.pendingMark = none ∧ retiring.tableGate.has 1 = false ∧
    retiring.replGate.has 1 = false ∧ ∀ d, retiring.waiter d = none := by
  unfold State.hasOutstanding
  decide +kernel

theorem test_witness_StatusWriteGoesOnByItsPurpose_others :
    (∀ next ∈ [StatusNext.nothing, .parkAgain, .abortAnchor, .abortEnd, .breakTail none, .breakTail (some 3)],
      (outstanding (holding { chainIn .parked with anchor := some (.record 0x2000) }) (statusOut next)).hasOutstanding
        (Access.isStatusFor 1) 0 (statusOut next) [] []) ∧
    (let j := { signalJob with code := some .range, onFault := .halt }
     j.haltsChain = true ∧ (running (chainIn .active) j).job 1 = some j) ∧
    (let s := { retiring with accesses := [statusOut (.retire .doneHeld)] }
     s.hasOutstanding (Access.isStatusFor 1) 0 (statusOut (.retire .doneHeld)) [] [] ∧
     (after (.statusWrite 1 0 .acknowledged) s).waiter 1 =
       some { flag := 20, wanted := true, consuming := true, kind := .wake }) := by
  unfold State.hasOutstanding
  decide +kernel

/-- The machine with the status write of a retire outstanding, that leaves its record in this state, with this chain state and
pause mark. -/
def retiringIn (o : OutcomeState) (x : ChainState) (mark : Bool) : State :=
  outstanding (running { chainIn x with pauseMark := mark }
    { signalJob with phase := .reporting, ended := true, code := some .ok, actions := [⟨20, .set, .always⟩] })
    (statusOut (.retire o))

theorem test_witness_StatusWriteGoesOnByItsPurpose_retires :
    (∀ o ∈ [OutcomeState.doneHeld, .doneFree], ∀ x ∈ [ChainState.active, .aborting], ∀ mark : Bool,
      let s := retiringIn o x mark
      s.hasOutstanding (Access.isStatusFor 1) 0 (statusOut (.retire o)) [] [] ∧ (s.chain 1).state = x ∧
        (s.chain 1).pauseMark = mark ∧ (s.chain 1).inHand = some 0x12340040 ∧ s.pendingMark = none ∧
        s.tableGate.has 1 = false ∧ s.replGate.has 1 = false) ∧
    (∀ d, (retiringIn .doneHeld .active false).waiter d = none) := by
  unfold State.hasOutstanding
  decide +kernel

/-- 01 R14, R16, R22, R26: the ends of a retire whose post action sets its own chain's wake flag. -/
theorem test_retire_ends :
    (let t := after (.statusWrite 1 0 .acknowledged) (retiringIn .doneHeld .active false)
     (t.chain 1).state = .reading ∧ t.flags = 0 ∧ t.accesses = [readAccess .anchorReRead 1 0x12340040 8]) ∧
    (let t := after (.statusWrite 1 0 .acknowledged) (retiringIn .doneHeld .active true)
     (t.chain 1).state = .paused ∧ (t.chain 1).resume = some .park ∧ t.flags = 0x100000) ∧
    ((after (.statusWrite 1 0 .acknowledged) (retiringIn .doneFree .active true)).chain 1).resume = some .readNext ∧
    (let t := after (.statusWrite 1 0 (.error [])) (retiringIn .doneHeld .aborting false)
     t.accesses = [writeAccess (.releaseWrite .abortEnd 0x12340040) 1 0x12340048 [0x03]] ∧ (t.chain 1).inHand = none) ∧
    ((after (.statusWrite 1 0 .acknowledged) (retiringIn .doneFree .aborting false)).chain 1).inHand = none := by
  decide +kernel

/-- The machine with slot 4 of the mapping table pending and the COPY job not holding its pin. -/
def pendingTranslation : State :=
  { running (chainIn .active) { copyJob with source := some { trailed with base := 0x40000000 } } with
    ten := true, entries := walkTable, pendingMark := some 4 }

theorem test_witness_FetchGrantIssuesNextLine :
    (let s := running (chainIn .active) copyJob
     s.softReset = false ∧ s.freeInput = some 0 ∧ s.chooseChain = some 1 ∧ s.job 1 = some copyJob ∧
     copyJob.lineBody = some copyLines ∧ copyJob.source = some trailed ∧ copyJob.dest = some (plainSurface 1 8 none) ∧
     s.resolveNext 1 copyJob copyLines trailed (plainSurface 1 8 none) =
       .resolved [{ start := 0, bytes := 8 }] [{ start := 0, bytes := 1 }] 0 ∧
     (∀ d, d ≠ 1 → s.eligible d = false) ∧
     { s with ten := true }.resolveNext 1 copyJob copyLines trailed (plainSurface 1 8 none) = .fault .miss ∧
     copyJob.firstFault = none ∧ copyJob.abortRequested = false) ∧
    pendingTranslation.resolveNext 1 copyJob copyLines { trailed with base := 0x40000000 } (plainSurface 1 8 none) = .held := by
  decide +kernel

/-- 04 R70, R72: a chain found held, the arbiter grants the next. -/
theorem test_grant_after_hold :
    (let s := (pendingTranslation.setChain 3 (chainIn .active)).setJob 3
       (some { copyJob with
         source := some { trailed with base := 0x40000000 }, pins := 0x10
         dest := some { plainSurface 1 8 none with base := 0x40000000 } })
     s.chooseChain = some 1 ∧ (∃ d, d ≠ 1 ∧ s.eligible d = true) ∧
     ((after .fetchGrantDecision s).job 1).map (·.held) = some true ∧
     (after .fetchGrantDecision s).lines.map (·.chain) = [3]) := by decide +kernel

theorem test_witness_ArbiterChoosesByPassOverAndPriority :
    (let s := (running (chainIn .active) copyJob).setChain 3 (chainIn .active) |>.setJob 3 (some copyJob)
     s.chooseChain = some 1 ∧ { s with passOver := #v[0, 7, 0, 8] }.chooseChain = some 3 ∧
     (s.passOverAfter 1)[3] = 1 ∧ ({ s with passOver := #v[0, 0, 0, 8] }.passOverAfter 1)[3] = 8) ∧
    State.reset.freeInput = some 0 ∧ (lineInFlight lineZero copyJob).freeInput = some 1 ∧
    (∀ c, State.reset.eligible c = false) := by decide +kernel

theorem test_witness_FetchCompleteByAnswer :
    (fetching lineZero copyJob).softReset = false ∧
    (fetching lineZero copyJob).hasOutstanding (Access.isFetchInto 0) 0 fetchZero [] [] ∧
    (fetching lineZero copyJob).lines.find? (fun k => k.inputBuffer == some 0 && k.stage == .fetching) = some lineZero ∧
    (fetching lineZero copyJob).job 1 = some copyJob ∧ copyJob.source = some trailed ∧ lineZero.discard = false ∧
    lineZero.outputBuffer = none ∧
    ([0xFF, 9, 9, 9, 0, 0, 0, 0xFF] : List Byte).length = fetchZero.bytes ∧ copyJob.check = .report ∧
    ({ copyJob with check := .stop } : Job).check = .stop ∧ copyJob.firstFault = none ∧ copyJob.abortRequested = false ∧
    ({ lineZero with discard := true } : LineRecord).discard = true := by
  unfold State.hasOutstanding
  decide +kernel

theorem test_witness_FetchCompleteByAnswer_mismatch :
    mismatches (fetching lineZero copyJob) 0 trailed [0xFF, 9, 9, 9, 1, 0, 0, 0xFF] ∧
    ¬ mismatches (fetching lineZero copyJob) 0 trailed [0xFF, 9, 9, 9, 0, 0, 0, 0xFF] := by
  constructor
  · exact ⟨.start, rfl, by decide +kernel⟩
  · rintro ⟨check, h, ne⟩
    have e : check = .start := (Option.some.inj h).symm
    subst e
    exact ne (by decide +kernel)

theorem test_witness_ConversionStartTakesCandidate :
    fetchedLine.softReset = false ∧ fetchedLine.conversion = none ∧ fetchedLine.freeOutput = some 0 ∧
    fetchedLine.chooseCandidate = some { lineZero with stage := .fetched } ∧ fetchedLine.job 1 = some copyJob ∧
    copyJob.source = some trailed ∧ copyJob.dest = some (plainSurface 1 8 none) ∧
    (∀ l ∈ State.reset.lines, State.reset.candidate l = false) := by decide +kernel

theorem test_witness_ConversionCompleteIssuesStore :
    (let s := after .conversionStart fetchedLine
     let l := { lineZero with stage := .converting, outputBuffer := some 0 }
     s.softReset = false ∧ s.conversion = some { chain := 1, jobLine := 0 } ∧
     s.lines.find? (LineRecord.isLine 1 0) = some l ∧ s.job 1 = some copyJob ∧ l.inputBuffer = some 0 ∧
     l.outputBuffer = some 0 ∧ copyJob.body = .copy copyLines ∧ s.copyZero = some true) ∧
    (let s := after .conversionStart { fetchedLine with
       jobs := fetchedLine.jobs.set 1 (some { copyJob with body := (.convert copyLines
         { transform := 1, indexWidth := 0, coeffSet := 0, widen := 1, fill := 0 }) }) }
     s.image = some (.empty 1) ∧ s.lineMarks = some { neg := false, sat := false, allZero := true }) ∧
    (plainSurface 8 8 (some facing)).layout = facing ∧ (plainSurface 8 8 none).tapMap = none := by decide +kernel

/-- Ranges that share no byte, and two that share the byte at 0x8001, to which a footprint brings 2 and 3. -/
theorem test_witness_ConversionCompleteIssuesStore_ranges :
    (rangeAddresses [{ start := 0x8000, bytes := 2 }, { start := 0x8002, bytes := 1 }]).Nodup ∧
    cellsOf [{ start := 0x8000, bytes := 2 }, { start := 0x8001, bytes := 1 }] [1, 2, 3] =
      [(0x8000, 1), (0x8001, 2), (0x8001, 3)] ∧
    (storeCells 0 [{ start := 0x8000, bytes := 2 }, { start := 0x8001, bytes := 1 }] [1, 2, 3])[0]? = some (0x8000, 1) := by
  decide +kernel

/-- 11 Table 11-9: the second of each encoding, with the coefficient snapshot of the job. -/
theorem test_conversion_of_body :
    (let j : Job := { copyJob with coeff := some (fullRange .bgr) }
     let v := conversionOf State.reset j { transform := 3, indexWidth := 6, coeffSet := 1, widen := 2, fill := 9 } trailed
       (plainSurface 1 16 none)
     v.transform = .chroma ∧ v.policy = .zeroLow ∧ v.indexWidth = 6 ∧ v.fill = 9 ∧ v.containerWidth = 16 ∧
       v.coeff = fullRange .bgr) := by decide +kernel

theorem test_witness_StoreAnsweredRecordsLine :
    (storingLine copyJob).softReset = false ∧
    (storingLine copyJob).hasOutstanding (Access.isStoreFrom 0) 0 storeZero [] [] ∧
    ((storingLine copyJob).lines.find? fun k => k.outputBuffer == some 0 && k.stage == .storing).isSome = true ∧
    (storingLine copyJob).job 1 = some copyJob ∧ copyJob.phase ≠ .draining ∧
    (let j := { copyJob with phase := .draining }
     j.phase = .draining ∧ j.ended = false ∧ ∀ k ∈ (storingLine j).lines, k.chain = 1 → k.jobLine = 0) := by
  unfold State.hasOutstanding
  decide +kernel

/-- A fault of line 0 discards line 1, which is FETCHED, and marks line 2, which is being fetched. -/
theorem test_witness_StoreAnsweredRecordsLine_fault :
    (let later := { lineZero with jobLine := 1, stage := .fetched, inputBuffer := some 1 }
     let s := { storingLine copyJob with lines := [later, { lineZero with jobLine := 2 }] }
     s.job 1 = some copyJob ∧ (s.lineFault 1 0 .busWrite).lines = [{ lineZero with jobLine := 2, discard := true }] ∧
     ((s.lineFault 1 0 .busWrite).job 1).map (·.firstFault) = some (some .busWrite) ∧
     ((s.lineFault 1 0 .busWrite).job 1).map (·.stored.lowestFailed) = some (some 1)) := by decide +kernel

theorem test_witness_LinesStoredPrefixCountsStoredLines :
    (([(1, some true), (0, some false), (2, none)] : List (Nat × Option Bool)).map (·.1)).Nodup := by decide

theorem test_witness_SurfaceWorkLoadsOrClearsSlot :
    (let b := loadBody 12 2048 1 4096
     let j := admitted .surface (.surface b)
     let s := running (chainIn .active) j
     s.softReset = false ∧ s.job 1 = some j ∧ j.phase = .running ∧ j.ended = false ∧ b.operation = 1 ∧
       b.slot.toNat = (3 : Fin 16).val ∧ (checkSurface b).isSome = true) ∧
    ({ loadBody 12 2048 1 4096 with operation := 2, slot := 15 } : SurfaceBody).slot.toNat = (15 : Fin 16).val ∧
    checkSurface (loadBody 14 9 1 16) = none := by decide +kernel

theorem test_witness_SurfaceLoadChecks :
    (checkSurface tappedBody).isSome = true ∧ (checkSurface { tappedBody with slot := 16 }).isSome = false ∧
    (checkSurface { tappedBody with base := 0xFFFF800000000000 }).isSome = true ∧
    (checkSurface { tappedBody with base := 0x0000800000000000 }).isSome = false := by decide +kernel

theorem test_witness_CoeffWorkReplacesSet :
    (let j := admitted .coeff (.coeff (coeffBody 4095))
     let s := running (chainIn .active) j
     s.softReset = false ∧ s.job 1 = some j ∧ j.phase = .running ∧ j.ended = false ∧ j.body = .coeff (coeffBody 4095)) ∧
    (coeffBody 4095).set.toNat = (3 : Fin 4).val ∧ (coeffBody 4095).order.toNat ≤ 1 ∧ (coeffBody 4095).k1.toNat ≤ 4095 ∧
    4096 ≤ (coeffBody 4096).k1.toNat := by decide +kernel

theorem test_witness_MapWorkChangesOrMarksEntry :
    (let s := running (chainIn .active) mapJob
     s.softReset = false ∧ s.pendingMark = none ∧ s.job 1 = some mapJob ∧ mapJob.phase = .running ∧
     mapJob.ended = false ∧ mapJob.body = .map mapBody ∧ mapEffect mapBody = some (4, some m4) ∧
     s.entries[(4 : EntryId)] = none ∧ ∀ m : EntryId, s.entries[m] = none) ∧
    (∃ context x, m7.matches context x = true ∧ ({ m4 with effectiveBase := 0x40001000 } : MapEntry).matches context x = true) ∧
    ((pinnedSlot mapJob).entries[(4 : EntryId)] ≠ none ∧ 0 < (pinnedSlot mapJob).pinCount 4) ∧
    (pinnedSlot { mapJob with abortRequested := true }).job 1 = some { mapJob with abortRequested := true } := by
  refine ⟨by decide +kernel, ⟨2, 0x40001000, by decide +kernel⟩, by decide +kernel, by decide +kernel⟩

/-- 08 R146, 11 Table 11-11: a LOAD that gives the read right alone, an INVALIDATE, and bodies that fault. -/
theorem test_witness_MapWorkChangesOrMarksEntry_bodies :
    mapEffect { mapBody with writeRight := 0, shared := 1 } = some (4, some { m4 with writeRight := false, shared := true }) ∧
    mapEffect { mapBody with readRight := 0 } = some (4, some { m4 with readRight := false }) ∧
    mapEffect { mapBody with operation := 2, context := 99 } = some (4, none) ∧
    mapEffect { mapBody with operation := 3 } = none ∧ mapEffect { mapBody with slot := 32 } = none ∧
    mapEffect { mapBody with slot := 31, size := 1, effectiveBase := 0x40010000, physicalBase := 0x30000 } =
      some (31, some { m4 with size := .size64K, effectiveBase := 0x40010000, physicalBase := 0x30000 }) := by
  decide +kernel

/-- The machine with a pending replacement of slot 4. -/
def replacing (pinned : Bool) : State :=
  let s := if pinned then pinnedSlot mapJob else { running (chainIn .active) mapJob with entries := walkTable }
  { s with
    pendingMark := some 4, replGate := ReplGate.empty.grant 1 }

theorem test_witness_PendingReplacementAndGates :
    ((replacing true).pendingMark = some 4 ∧ 0 < (replacing true).pinCount 4) ∧
    ((replacing false).pendingMark = some 4 ∧ (replacing false).pinCount 4 = 0 ∧ (replacing false).replGate.holder = some 1 ∧
     (replacing false).job 1 = some mapJob ∧ overlapsTable (replacing false).entries 4 m4 = false) ∧
    (let s := running (chainIn .active) signalJob
     s.job 1 = some signalJob ∧ s.pendingMark = none ∧ s.tableGate.has 1 = false ∧ s.replGate.has 1 = false) ∧
    (after (.mapWork 1) (replacing false)).pendingMark = some 4 ∧
    ((replacing false).afterPinRelease).pendingMark = none := by decide +kernel

/-- The replacement of slot 4 by a page that chain 3's TABLE job, held, waits for; where slot 7 holds that page, its LOAD
overlaps. -/
def replacingForTable (slot7 : Option MapEntry) : State :=
  (({ replacing false with ten := true, entries := walkTable.set 7 slot7 } : State).setChain 3
    { chainIn .active with latched := { (chainIn .active).latched with context := 2 } }).setJob 3
    (some { tableJobLoading with
      body := .table { source := 0x40000000, first := 1023, count := 1 }, load := none, held := true })

/-- 08 R153: the replacement is carried out, or faults BAD_ENTRY, and either way the held TABLE job resolves afresh. -/
theorem test_witness_PendingReplacementAndGates_held :
    (∀ e ∈ [none, some m4], heldTables (replacingForTable e) = [3] ∧
      (replacingForTable e).job 1 = some mapJob ∧ (replacingForTable e).pinCount 4 = 0) ∧
    (∃ x, m4.matches 2 x = true ∧ (replacingForTable (some m4)).entries[(7 : EntryId)] = some m4) ∧
    ((replacingForTable (some m4)).afterPinRelease.job 1).map (·.code) = some (some .badEntry) ∧
    (replacingForTable none).afterPinRelease.accesses.map (·.chain) = [1, 3] := by
  refine ⟨by decide +kernel, ⟨0x40000000, by decide +kernel⟩, by decide +kernel, by decide +kernel⟩

/-- Gates with a TABLE claim of chain 2 waiting behind a user, and with LOOKUP claims waiting. -/
theorem test_witness_PendingReplacementAndGates_service :
    (let g := TableGate.empty.hold 2 .table
     g.holder = none ∧ (∀ d : ChainId, g.users[d] = false) ∧ g.waiting[(2 : ChainId)] = some .table ∧
     (∀ d : ChainId, g.waiting[d] = some .table → d = 2) ∧ (g.grantLookup 1).users[(1 : ChainId)] = true ∧
     (g.grantTable 1).holder ≠ none) ∧
    (let g := (TableGate.empty.hold 2 .lookup).hold 3 .lookup
     g.holder = none ∧ ∀ d : ChainId, g.waiting[d] ≠ some .table) ∧
    (let g := ReplGate.empty.hold 3
     g.holder = none ∧ g.waiting[(3 : ChainId)] = true ∧ ∀ d : ChainId, g.waiting[d] = true → d = 3) ∧
    (∀ d : ChainId, ReplGate.empty.waiting[d] = false) := by decide +kernel

/-- The three answers to a table resolution. -/
theorem test_witness_TableReadsLoadEntriesInOrder_resolution :
    (let b : TableBody := { source := 0x40000000, first := 1023, count := 1 }
     let j := { tableJobLoading with body := .table b, load := none }
     let s := { running (chainIn .active) j with ten := true, entries := walkTable }
     s.job 1 = some j ∧ s.resolveTable 1 j b = .resolved [{ start := 0x1234567000, bytes := 2 }] [] 0x10 ∧
     { s with pendingMark := some 4 }.resolveTable 1 j b = .held ∧
     { s with entries := State.reset.entries }.resolveTable 1 j b = .fault .miss ∧ j.firstFault = none ∧
     j.abortRequested = false) := by decide +kernel

theorem test_witness_TableReadsLoadEntriesInOrder :
    loading.softReset = false ∧
    loading.hasOutstanding Access.isTableRead 0
      { kind := .tableRead, chain := 1, line := none, ranges := [{ start := 0, bytes := 2 }], cells := [] } [] [] ∧
    loading.job 1 = some tableJobLoading ∧ tableJobLoading.load.isSome = true ∧
    (ReadAnswer.data [0x34, 0x12]).hasLength 2 = true ∧
    (tableJobLoading.load.map fun load => load.awaits 0 2 && load.awaits 1 1) = some true ∧
    (tableJobLoading.load.map fun load => decide (0 + 2 ≤ load.source.length)) = some true := by
  unfold State.hasOutstanding
  decide +kernel

theorem test_witness_AddressFormsAndOrderOfChecks :
    ((walker 2 false).footprint true 0x40002000 4 = .fault .miss) ∧
    (let r := { walker 2 true with pendingMark := some 7 }
     matchEntry r.entries r.context 0x40001000 = some (7, m7) ∧ r.footprint true 0x40001000 4 = .held) ∧
    ({ walker 2 true with pendingMark := some 7, pins := 0x80 }.footprint true 0x40001000 4 = .fault .writeDenied) ∧
    (let r := walker 2 false
     matchEntry r.entries r.context 0x40000E00 = some (4, m4) ∧ m4.readRight = true ∧ r.pendingMark ≠ some 4 ∧
     0x40000000 + m4.size.bytes - 0x40000E00 < 0xC04 ∧ r.footprint true 0x40001000 0xA04 ≠ .held) ∧
    ((walker 2 false).footprint false (2 ^ 39 - 4) 4 = .ranges [({ start := 0x7FFFFFFFFC, bytes := 4 }, none)]) ∧
    ((walker 2 false).footprint false (2 ^ 64 - 4) 5 = .fault .address) := by decide +kernel

/-- The store footprint of a line whose fetch footprint resolves: denied, missing, held; and a table source likewise. -/
theorem test_witness_AddressFormsAndOrderOfChecks_resolutions :
    (let s : State := { pendingTranslation with pendingMark := some 7 }
     s.resolveLine 1 copyJob 0x40000000 4 0x40002000 4 = .fault .miss ∧
     s.resolveLine 1 copyJob 0x40000000 4 0x40001000 4 = .held ∧
     { s with pendingMark := none }.resolveLine 1 copyJob 0x40000000 4 0x40001000 4 = .fault .writeDenied ∧
     s.resolveTable 1 copyJob { source := 0x40002000, first := 0, count := 2 } = .fault .miss ∧
     s.resolveTable 1 copyJob { source := 0x40001000, first := 0, count := 2 } = .held) := by decide +kernel

theorem test_witness_FootprintThroughPermittingEntries :
    (1 ≤ 0xC04) ∧ (match (walker 2 false).footprint true 0x40000E00 0xC04 with
      | .ranges found => found.length
      | _ => 0) = 2 ∧ m7.physicalBase.toNat + m7.size.bytes ≤ 2 ^ 40 ∧
    (let s : State := { pendingTranslation with pendingMark := none }
     s.resolveLine 1 copyJob 0x40000E00 0xC04 0x40000000 1 = .resolved
       [{ start := 0x1234567E00, bytes := 512 }, { start := 0x000AB00000, bytes := 2564 }]
       [{ start := 0x1234567000, bytes := 1 }] 0x90 ∧
     s.resolveTable 1 copyJob { source := 0x40001000, first := 0, count := 2 } =
       .resolved [{ start := 0x000AB00000, bytes := 4 }] [] 0x80) := by decide +kernel

theorem test_witness_ContainerFitting : (0x2C5 < 2 ^ 10) ∧ (1 ≤ 10) ∧ (10 < 16) ∧ (8 < 10) ∧
    fit .replicate 10 16 (2 ^ 10 - 1) = 2 ^ 16 - 1 := by decide +kernel

theorem test_witness_PixelOutputs :
    ([some 0x9050, none] : List (Option Nat))[0]? = some (some 0x9050) ∧
    ([some 0x9050, none] : List (Option Nat))[1]? = some none ∧ (passOf (plainSurface 2 16 none) 8 0).transform = .pass ∧
    (chromaOn (plainSurface 2 16 none) 8 .rgb).transform = .chroma ∧
    ({ passOf (plainSurface 2 16 none) 8 0 with transform := .lookup } : Conversion).transform = .lookup ∧
    chromaOf 8 [some 0x9050, none] 0 = 144 ∧ chromaOf 8 [some 0x9050, none] 1 = 128 := by decide +kernel

theorem test_witness_LanesPlacedByTaps :
    (1 ≤ facing.taps.length) ∧ (8 = 8 / facing.taps.length * facing.taps.length) ∧
    lanePosition facing 0 1 = some 7 ∧ laneValue (leNat (outputPayload 16 [{ values := [1, 0x4044], neg := false, sat := false }])) 16 1 = 0x4044 := by
  decide +kernel

theorem test_witness_TrailersOfDestinationLines :
    ([0xFF] : List Byte).length = trailed.payload ∧ trailed.trailerOffset = (trailed.payload + 3) / 4 * 4 := by
  decide +kernel

/-- The reset state meets the invariants, and it takes a step. -/
theorem test_witness_invariants :
    State.reset.memoryCanonical ∧ (∀ c : ChainId, State.reset.passOver[c] ≤ 8) ∧ (∀ m : EntryId, State.reset.entries[m] = none) ∧
    (∀ c, State.reset.waiter c = none) ∧ State.reset.discardsFetching ∧ step State.reset = .next State.reset :=
  ⟨List.Pairwise.nil, by decide +kernel, by decide +kernel, by decide +kernel, nofun, rfl⟩

/-- Every command answers a next state; here the one that the frame is stated of. -/
theorem test_witness_StoresChangeByTheirOwnCommands :
    (∃ t, exec .fetchGrantDecision State.reset = .next t) ∧ Instr.fetchGrantDecision.mayChangeMemory = false ∧
    Instr.conversionStart.mayChangePassOver = false ∧ State.reset.pendingMark = none ∧
    Instr.fetchGrantDecision.mayChangeEntries = false := ⟨⟨_, rfl⟩, rfl, rfl, rfl, rfl⟩

end Sys2Proof.Tests
end

