-- ==== Sys2Proof/Proofs/Retire.lean ====
section
/-! PROOFS. The end of a retire (01 R14, R15, R23): the state code that its status write carries, and what the retire of a
job that halts its chain leaves of the chain. -/

namespace Sys2Proof.Machine

/-- Two updates of one chain's context are one update. -/
theorem State.updChain_updChain (s : State) (c : ChainId) (f g : Chain → Chain) :
    (s.updChain c f).updChain c g = s.updChain c (g ∘ f) := by
  have hself : (s.updChain c f).chain c = f (s.chain c) := State.chain_updChain_self s c f
  calc (s.updChain c f).updChain c g
      = { s with chains := (s.chains.set c (f (s.chain c))).set c (g ((s.updChain c f).chain c)) } := rfl
    _ = { s with chains := s.chains.set c (g (f (s.chain c))) } := by rw [hself, Vector.set_set]
    _ = s.updChain c (g ∘ f) := rfl

theorem State.jobHalts_of_job {s : State} {c : ChainId} {j : Job} (hj : s.job c = some j) :
    s.jobHalts c = j.haltsChain := by
  unfold State.jobHalts
  rw [hj]

/-! ## The state code of the status write -/

section
variable {s : State} {c : ChainId}

theorem State.retireStateCode_of_halts (o : OutcomeState) (hnoAbort : (s.chain c).state ≠ .aborting)
    (hhalts : s.jobHalts c = true) : s.retireStateCode c o = .halted := by
  unfold State.retireStateCode
  rw [if_neg hnoAbort, if_pos hhalts]

/-- Outside an abort and the HALT policy the pause mark alone decides between PAUSED and the state of the next step. -/
theorem State.retireStateCode_of_not_halts (o : OutcomeState) (hnoAbort : (s.chain c).state ≠ .aborting)
    (hhalts : s.jobHalts c = false) :
    s.retireStateCode c o =
      if (s.chain c).pauseMark then .paused else if o = .doneFree then .reading else .parked := by
  unfold State.retireStateCode
  rw [if_neg hnoAbort, if_neg (Bool.eq_false_iff.mp hhalts)]

/-! ## The chain after the retire -/

/-- 01 R15: the retire of a job that halts its chain changes that chain's context and nothing else. -/
theorem State.afterRetire_of_halts {r : PhysAddr} (o : OutcomeState) (hnoAbort : (s.chain c).state ≠ .aborting)
    (hand : (s.chain c).inHand = some r) :
    s.afterRetire c o true = s.updChain c fun x =>
      { x with state := .halted, inHand := none, anchor := some (.record r), pauseMark := false } := by
  have hstate : ((s.updChain c fun x => { x with inHand := none }).chain c).state ≠ .aborting := by
    rw [State.chain_updChain_self]
    exact hnoAbort
  unfold State.afterRetire
  rw [hand]
  dsimp only
  rw [if_neg hstate, if_pos rfl, State.updChain_updChain]
  rfl

end

/-! ## The obligation -/

/-- Settles O33: the state code by the two branches of R15 and R23, and the halted chain by R15's retire. -/
theorem retireStatusCarriesPausedUnderPauseMark : Obligations.RetireStatusCarriesPausedUnderPauseMark := by
  unfold Obligations.RetireStatusCarriesPausedUnderPauseMark
  intro c j o s hjob hstate
  have hnoAbort : (s.chain c).state ≠ .aborting := by simp [hstate]
  have hjobHalts : s.jobHalts c = j.haltsChain := State.jobHalts_of_job hjob
  refine ⟨fun hhalts hmark => ?paused, fun hhalts hmark => ?nextStep, fun hhalts => ?halted, fun r hand => ?afterHalt⟩
  case paused =>
    rw [State.retireStateCode_of_not_halts o hnoAbort (hjobHalts.trans hhalts), if_pos hmark]
  case nextStep =>
    rw [State.retireStateCode_of_not_halts o hnoAbort (hjobHalts.trans hhalts), if_neg (Bool.eq_false_iff.mp hmark)]
  case halted =>
    exact State.retireStateCode_of_halts o hnoAbort (hjobHalts.trans hhalts)
  case afterHalt =>
    rw [State.afterRetire_of_halts o hnoAbort hand, State.chain_updChain_self]

end Sys2Proof.Machine
end

