-- ==== Sys2Proof/Proofs/Untangle.lean ====
section
/-! PROOFS. Lanes and taps (05): the bits of a lane (R90), the working image after a number of lanes (R94, R95), and the
output values as lanes of the output payload (R100). -/

namespace Sys2Proof.Machine

/-! ## Little-endian numbers as bit strings -/

/-- 05 section 5.2: bit b of a payload's bit string is bit (b mod 8) of byte floor(b / 8). -/
theorem testBit_leNat (bytes : List Byte) (b : Nat) :
    (leNat bytes).testBit b = ((bytes[b / 8]?).getD 0).getLsbD (b % 8) := by
  induction bytes generalizing b with
  | nil => simp [leNat]
  | cons byte rest ih =>
    have hsplit : leNat (byte :: rest) = 2 ^ 8 * leNat rest + byte.toNat := by
      simp only [leNat]
      omega
    rw [hsplit, Nat.testBit_two_pow_mul_add _ byte.isLt]
    split
    · next hlow =>
      rw [Nat.div_eq_of_lt hlow, Nat.mod_eq_of_lt hlow]
      rfl
    · next hhigh =>
      have hdiv : b / 8 = (b - 8) / 8 + 1 := by omega
      have hmod : b % 8 = (b - 8) % 8 := by omega
      rw [ih, hdiv, hmod, List.getElem?_cons_succ]

theorem leNat_leBytes_append (n v : Nat) (rest : List Byte) :
    leNat (leBytes n v ++ rest) = v % 2 ^ (8 * n) + 2 ^ (8 * n) * leNat rest := by
  induction n generalizing v with
  | zero => simp [leBytes, Nat.mod_one]
  | succ n ih =>
    have hpow : 2 ^ (8 * (n + 1)) = 256 * 2 ^ (8 * n) := by rw [Nat.mul_succ, Nat.pow_add, Nat.mul_comm]
    simp only [leBytes, List.cons_append, leNat, ih, BitVec.toNat_ofNat, hpow, Nat.mod_mul, Nat.reducePow]
    rw [Nat.mul_add, Nat.mul_assoc, Nat.add_assoc]

/-! ## Lanes (R90, R100) -/

theorem testBit_laneValue (string w i k : Nat) :
    (laneValue string w i).testBit k = (decide (k < w) && string.testBit (i * w + k)) := by
  rw [laneValue, Nat.testBit_mod_two_pow, Nat.testBit_shiftRight]

theorem laneValue_zero (low rest w : Nat) : laneValue (low % 2 ^ w + 2 ^ w * rest) w 0 = low % 2 ^ w := by
  simp [laneValue]

/-- The lanes after the first one are the lanes of the rest of the string. -/
theorem laneValue_succ (low rest w i : Nat) :
    laneValue (low % 2 ^ w + 2 ^ w * rest) w (i + 1) = laneValue rest w i := by
  have hrest : (low % 2 ^ w + 2 ^ w * rest) >>> w = rest := by
    rw [Nat.shiftRight_eq_div_pow, Nat.add_mul_div_left _ _ (Nat.two_pow_pos w),
      Nat.div_eq_of_lt (Nat.mod_lt _ (Nat.two_pow_pos w)), Nat.zero_add]
  rw [laneValue, Nat.succ_mul, Nat.add_comm (i * w) w, Nat.shiftRight_add, hrest, laneValue]

/-- Values written one after the other in `n` bytes each stand in the string as its lanes of 8 × n bits. -/
theorem laneValue_leNat_flatMap_leBytes {values : List Nat} {n q x : Nat} (hq : values[q]? = some x) :
    laneValue (leNat (values.flatMap (leBytes n))) (8 * n) q = x % 2 ^ (8 * n) := by
  induction values generalizing q with
  | nil => cases hq
  | cons v rest ih =>
    rw [List.flatMap_cons, leNat_leBytes_append]
    cases q with
    | zero =>
      obtain rfl : v = x := Option.some.inj hq
      exact laneValue_zero ..
    | succ q => rw [laneValue_succ, ih hq]

/-! ## One placement (R94, R95) -/

section
variable (img : WorkingImage) (p : Int) (v : Nat)

@[simp] theorem WorkingImage.place_pixels_length : (img.place p v).pixels.length = img.pixels.length := by
  unfold WorkingImage.place
  split
  · exact List.length_set
  · rfl

/-- A placement changes the pixel it falls on and no other. -/
theorem WorkingImage.place_pixels_getElem? {q : Nat} (hq : q < img.pixels.length) :
    (img.place p v).pixels[q]? = if p = (q : Int) then some (some v) else img.pixels[q]? := by
  unfold WorkingImage.place
  split
  · next hin =>
    have hnat : p.toNat = q ↔ p = (q : Int) := by omega
    simp only [List.getElem?_set, hnat]
    split
    · next heq => simp [heq, hq]
    · rfl
  · next hout => rw [if_neg (by omega)]

theorem WorkingImage.place_stray_of_outside (hout : p < 0 ∨ (img.pixels.length : Int) ≤ p) :
    (img.place p v).stray = true := by
  rw [WorkingImage.place, if_neg (by omega)]

theorem WorkingImage.place_stray_of_pixel {q : Nat} (hq : q < img.pixels.length) :
    (img.place q v).stray = (img.stray || (img.pixels[q]?.getD none).isSome) := by
  rw [WorkingImage.place, if_pos (by omega)]
  rfl

end

/-! ## The lanes of a line in order (R95)

`pos i` is the position that lane `i` falls on and `value i` the lane's value. -/

/-- The image of a line of `pixels` pixels after its first `n` lanes. -/
def placedLanes (pos : Nat → Int) (value : Nat → Nat) (pixels n : Nat) : WorkingImage :=
  (List.range n).foldl (fun img i => img.place (pos i) (value i)) (WorkingImage.empty pixels)

/-- The highest of the first `n` lanes whose position is `p`. -/
def highestLaneOn (pos : Nat → Int) (p : Int) : Nat → Option Nat
  | 0 => none
  | n + 1 => if pos n = p then some n else highestLaneOn pos p n

/-- Lane `k` falls outside the line, or on the pixel of an earlier lane. -/
def laneStrays (pos : Nat → Int) (pixels k : Nat) : Prop :=
  (pos k < 0 ∨ (pixels : Int) ≤ pos k) ∨ ∃ i < k, pos i = pos k

section
variable (pos : Nat → Int) (value : Nat → Nat) (pixels : Nat)

theorem highestLaneOn_eq_none_iff (p : Int) (n : Nat) : highestLaneOn pos p n = none ↔ ∀ i < n, pos i ≠ p := by
  induction n with
  | zero => simp [highestLaneOn]
  | succ n ih =>
    rw [highestLaneOn, Nat.forall_lt_succ_right]
    split
    · next hon => simp [hon]
    · next hoff => simp [hoff, ih]

theorem highestLaneOn_eq_some {p : Int} {n i : Nat} (hi : i < n) (hon : pos i = p)
    (hlast : ∀ k, i < k → k < n → pos k ≠ p) : highestLaneOn pos p n = some i := by
  induction n with
  | zero => omega
  | succ n ih =>
    rw [highestLaneOn]
    obtain hlt | rfl := Nat.lt_succ_iff_lt_or_eq.mp hi
    · rw [if_neg (hlast n hlt n.lt_succ_self)]
      exact ih hlt fun k hik hkn => hlast k hik (Nat.lt_succ_of_lt hkn)
    · rw [if_pos hon]

theorem placedLanes_succ (n : Nat) :
    placedLanes pos value pixels (n + 1) = (placedLanes pos value pixels n).place (pos n) (value n) := by
  simp [placedLanes, List.range_succ]

@[simp] theorem placedLanes_pixels_length (n : Nat) : (placedLanes pos value pixels n).pixels.length = pixels := by
  induction n with
  | zero => exact List.length_replicate
  | succ n ih => rw [placedLanes_succ, WorkingImage.place_pixels_length, ih]

/-- Each pixel holds the sample of the highest lane whose position fell on it, or none. -/
theorem placedLanes_pixels_getElem? {p : Nat} (hp : p < pixels) (n : Nat) :
    (placedLanes pos value pixels n).pixels[p]? = some ((highestLaneOn pos p n).map value) := by
  induction n with
  | zero => exact List.getElem?_replicate_of_lt hp
  | succ n ih =>
    rw [placedLanes_succ, WorkingImage.place_pixels_getElem? _ _ _ (by simpa using hp), ih, highestLaneOn]
    split <;> rfl

theorem placedLanes_covered_iff {p : Nat} (hp : p < pixels) (n : Nat) :
    ((placedLanes pos value pixels n).pixels[p]?.getD none).isSome = true ↔ ∃ i < n, pos i = p := by
  rw [placedLanes_pixels_getElem? pos value pixels hp, Option.getD_some, Option.isSome_map, Option.isSome_iff_ne_none,
    ne_eq, highestLaneOn_eq_none_iff]
  simp only [ne_eq, Classical.not_forall, Classical.not_not, exists_prop]

theorem placedLanes_succ_stray_iff (n : Nat) :
    (placedLanes pos value pixels (n + 1)).stray = true ↔
      (placedLanes pos value pixels n).stray = true ∨ laneStrays pos pixels n := by
  rw [placedLanes_succ, laneStrays]
  by_cases hout : pos n < 0 ∨ (pixels : Int) ≤ pos n
  · have hstray := WorkingImage.place_stray_of_outside (placedLanes pos value pixels n) (pos n) (value n) (by simpa using hout)
    simp [hstray, hout]
  · obtain ⟨p, hp⟩ : ∃ p : Nat, pos n = p := Int.eq_ofNat_of_zero_le (by omega)
    have hlt : p < pixels := by omega
    rw [hp, WorkingImage.place_stray_of_pixel _ _ (by simpa using hlt), Bool.or_eq_true,
      placedLanes_covered_iff pos value pixels hlt, ← hp]
    simp [hout]

theorem placedLanes_stray_iff (n : Nat) :
    (placedLanes pos value pixels n).stray = true ↔ ∃ k < n, laneStrays pos pixels k := by
  induction n with
  | zero => simp [placedLanes, WorkingImage.empty]
  | succ n ih => rw [placedLanes_succ_stray_iff, ih, Nat.exists_lt_succ_right]

theorem exists_laneStrays_iff (n : Nat) :
    (∃ k < n, laneStrays pos pixels k) ↔
      (∃ i < n, pos i < 0 ∨ (pixels : Int) ≤ pos i) ∨ ∃ i k, i < k ∧ k < n ∧ pos i = pos k := by
  constructor
  · rintro ⟨k, hk, hout | ⟨i, hi, heq⟩⟩
    · exact .inl ⟨k, hk, hout⟩
    · exact .inr ⟨i, k, hi, hk, heq⟩
  · rintro (⟨k, hk, hout⟩ | ⟨i, k, hi, hk, heq⟩)
    · exact ⟨k, hk, .inl hout⟩
    · exact ⟨k, hk, .inr ⟨i, hi, heq⟩⟩

end

/-! ## The positions that the taps give (R92 to R94) -/

section
variable {m : TapMap} {y : Nat}

theorem lanePosition_eq (i : Nat) :
    Statements.lanePosition m y i =
      (m.taps[(i % m.taps.length + y * m.rotation) % m.taps.length]?).map (·.position (i / m.taps.length)) := by
  unfold Statements.lanePosition Tap.position
  refine congrArg (Option.map · _) (funext fun t => ?_)
  cases t.direction <;> simp

/-- With at least one tap every lane carries a tap. -/
theorem exists_lanePosition (hT : 1 ≤ m.taps.length) (i : Nat) : ∃ x, Statements.lanePosition m y i = some x := by
  rw [lanePosition_eq, List.getElem?_eq_getElem (Nat.mod_lt _ hT)]
  exact ⟨_, rfl⟩

theorem WorkingImage.placeLane_of_lanePosition {i : Nat} {x : Int} (h : Statements.lanePosition m y i = some x)
    (string w : Nat) (img : WorkingImage) : placeLane m y string w img i = img.place x (laneValue string w i) := by
  rw [lanePosition_eq, Option.map_eq_some_iff] at h
  obtain ⟨t, ht, rfl⟩ := h
  simp only [placeLane, ht]

theorem WorkingImage.untangle_empty {pos : Nat → Int} (hpos : ∀ i, Statements.lanePosition m y i = some (pos i))
    (payload : List Byte) (w lanes pixels : Nat) :
    (empty pixels).untangle m y payload w lanes =
      let placed := placedLanes pos (laneValue (leNat payload) w) pixels (lanes / m.taps.length * m.taps.length)
      { placed with stray := placed.stray || hasLeftover m lanes } := by
  have hstep : placeLane m y (leNat payload) w = fun img i => img.place (pos i) (laneValue (leNat payload) w i) :=
    funext fun img => funext fun i => placeLane_of_lanePosition (hpos i) _ _ img
  rw [untangle, hstep, placedLanes]

end

/-! ## The obligation -/

/-- Settles O53: lanes by the payload's bit string, the image by the highest lane on each pixel, the stray mark lane by
lane, and the output payload value by value. -/
theorem lanesPlacedByTaps : Obligations.LanesPlacedByTaps := by
  unfold Obligations.LanesPlacedByTaps
  refine ⟨fun payload w i k => ?laneBits, ?image, fun outputs dw q x hdw hq hx => ?outputLanes⟩
  case laneBits =>
    rw [testBit_laneValue, testBit_leNat]
  case image =>
    intro m y payload w lanes count pixels image hT hcount himage
    obtain ⟨pos, hpos⟩ := Classical.skolem.mp (exists_lanePosition (m := m) (y := y) hT)
    rw [WorkingImage.untangle_empty hpos, ← hcount] at himage
    subst himage
    simp only [hpos, ne_eq, Option.some.injEq, exists_eq_left']
    refine ⟨placedLanes_pixels_length .., fun p hp i hi hon hlast => ?covered, fun p hp hoff => ?uncovered, ?stray⟩
    case covered =>
      rw [placedLanes_pixels_getElem? _ _ _ hp, highestLaneOn_eq_some pos hi hon hlast, Option.map_some]
    case uncovered =>
      rw [placedLanes_pixels_getElem? _ _ _ hp, (highestLaneOn_eq_none_iff pos p count).mpr hoff, Option.map_none]
    case stray =>
      rw [Bool.or_eq_true, placedLanes_stray_iff, exists_laneStrays_iff, hasLeftover, bne_iff_ne, or_comm]
  case outputLanes =>
    have hbits : dw = 8 * (dw / 8) := by omega
    rw [outputPayload]
    generalize dw / 8 = n at hbits
    subst hbits
    rw [laneValue_leNat_flatMap_leBytes hq, Nat.mod_eq_of_lt hx]

end Sys2Proof.Machine
end

