-- ==== Sys2Proof/Proofs/Transform.lean ====
section
/-! PROOFS. Value transforms (06): a produced value fitted to its container (R105), and the output of a pixel under PASS,
LOOKUP and CHROMA and of an uncovered pixel (R103 to R111, 05 R98). -/

namespace Sys2Proof.Machine

/-! ## REPLICATE: the container filled from its top bit down (R105) -/

section
variable (pw dw x : Nat)

theorem replicateBits_succ :
    replicateBits pw (dw + 1) x = 2 * replicateBits pw dw x + bitOf x (pw - 1 - dw % pw) := by
  simp only [replicateBits, List.range_succ, List.foldl_append, List.foldl_cons, List.foldl_nil]

theorem bitOf_le_one (i : Nat) : bitOf x i ≤ 1 := Bool.toNat_le _

theorem replicateBits_lt : replicateBits pw dw x < 2 ^ dw := by
  induction dw with
  | zero => simp [replicateBits]
  | succ dw ih =>
    have hbit := bitOf_le_one x (pw - 1 - dw % pw)
    rw [replicateBits_succ, Nat.pow_succ]
    omega

theorem testBit_replicateBits {i : Nat} (hi : i < dw) :
    (replicateBits pw dw x).testBit (dw - 1 - i) = x.testBit (pw - 1 - i % pw) := by
  induction dw with
  | zero => omega
  | succ dw ih =>
    have hbit := bitOf_le_one x (pw - 1 - dw % pw)
    rw [replicateBits_succ]
    obtain hlt | rfl := Nat.lt_succ_iff_lt_or_eq.mp hi
    · have hplace : dw + 1 - 1 - i = dw - 1 - i + 1 := by omega
      have hhalf : (2 * replicateBits pw dw x + bitOf x (pw - 1 - dw % pw)) / 2 = replicateBits pw dw x := by omega
      rw [hplace, Nat.testBit_succ, hhalf, ih hlt]
    · rw [Nat.add_sub_cancel, Nat.sub_self, Nat.testBit_zero, Nat.mul_add_mod, Nat.mod_eq_of_lt (Nat.lt_succ_of_le hbit)]
      cases h : x.testBit (pw - 1 - i % pw) <;> simp [bitOf, h]

theorem replicateBits_zero : replicateBits pw dw 0 = 0 := by
  induction dw with
  | zero => rfl
  | succ dw ih => simp [replicateBits_succ, ih, bitOf]

theorem replicateBits_allOnes (hpw : 1 ≤ pw) : replicateBits pw dw (2 ^ pw - 1) = 2 ^ dw - 1 := by
  induction dw with
  | zero => rfl
  | succ dw ih =>
    have hbit : bitOf (2 ^ pw - 1) (pw - 1 - dw % pw) = 1 := by
      rw [bitOf, Nat.testBit_two_pow_sub_one, decide_eq_true (by omega), Bool.toNat_true]
    have hpos := Nat.two_pow_pos dw
    rw [replicateBits_succ, ih, hbit, Nat.pow_succ]
    omega

end

/-! ## Fitting, case by case (R105) -/

section
variable {pw dw : Nat} (x : Nat)

theorem fit_of_eq (policy : WidenPolicy) (h : pw = dw) : fit policy pw dw x = x := if_pos h

theorem fit_of_narrower (policy : WidenPolicy) (h : dw < pw) : fit policy pw dw x = x >>> (pw - dw) := by
  unfold fit
  rw [if_neg (by omega), if_pos h]

theorem fit_replicate (h : pw < dw) : fit .replicate pw dw x = replicateBits pw dw x := by
  rw [fit, if_neg (by omega), if_neg (by omega)]

theorem fit_zeroLow (h : pw < dw) : fit .zeroLow pw dw x = x * 2 ^ (dw - pw) := by
  rw [fit, if_neg (by omega), if_neg (by omega), Nat.shiftLeft_eq]

theorem fit_lowAlign (h : pw < dw) : fit .lowAlign pw dw x = x := by
  rw [fit, if_neg (by omega), if_neg (by omega)]

variable {x}

theorem fit_lt (policy : WidenPolicy) (hx : x < 2 ^ pw) : fit policy pw dw x < 2 ^ dw := by
  obtain hwider | rfl | hnarrower := Nat.lt_trichotomy pw dw
  · have hpow : 2 ^ dw = 2 ^ pw * 2 ^ (dw - pw) := by rw [← Nat.pow_add, Nat.add_sub_cancel' (Nat.le_of_lt hwider)]
    cases policy with
    | replicate =>
      rw [fit_replicate x hwider]
      exact replicateBits_lt pw dw x
    | zeroLow =>
      rw [fit_zeroLow x hwider, hpow]
      exact Nat.mul_lt_mul_of_pos_right hx (Nat.two_pow_pos _)
    | lowAlign =>
      rw [fit_lowAlign x hwider]
      exact Nat.lt_trans hx (Nat.pow_lt_pow_right (by decide) hwider)
  · rwa [fit_of_eq x policy rfl]
  · have hpow : 2 ^ pw = 2 ^ (pw - dw) * 2 ^ dw := by rw [← Nat.pow_add, Nat.sub_add_cancel (Nat.le_of_lt hnarrower)]
    rw [fit_of_narrower x policy hnarrower, Nat.shiftRight_eq_div_pow]
    exact Nat.div_lt_of_lt_mul (hpow ▸ hx)

theorem testBit_fit_of_narrower (policy : WidenPolicy) (h : dw < pw) {i : Nat} (hi : i < dw) :
    (fit policy pw dw x).testBit (dw - 1 - i) = x.testBit (pw - 1 - i) := by
  have hplace : pw - dw + (dw - 1 - i) = pw - 1 - i := by omega
  rw [fit_of_narrower x policy h, Nat.testBit_shiftRight, hplace]

/-- The widen policy acts only where the produced value is narrower than its container. -/
theorem fit_policy_irrelevant (p q : WidenPolicy) (h : dw ≤ pw) : fit p pw dw x = fit q pw dw x := by
  obtain heq | hnarrower := Nat.eq_or_lt_of_le h
  · rw [fit_of_eq x p heq.symm, fit_of_eq x q heq.symm]
  · rw [fit_of_narrower x p hnarrower, fit_of_narrower x q hnarrower]

end

/-! ## The output of a pixel, covered and uncovered (R103, 05 R98, R99) -/

section
variable {v : Conversion} {pixels : List (Option Nat)} {p s : Nat}

theorem Conversion.pixel_of_covered (h : pixels[p]? = some (some s)) : v.pixel pixels p = v.covered pixels p s := by
  simp only [pixel, h]

theorem Conversion.pixel_of_not_covered (h : ∀ s, pixels[p]? ≠ some (some s)) : v.pixel pixels p = v.uncovered := by
  unfold pixel
  split
  · next s hs => exact absurd hs (h s)
  · rfl

theorem Conversion.covered_pass (h : v.transform = .pass) :
    v.covered pixels p s =
      { values := [fit v.policy v.source.laneWidth v.containerWidth s], neg := false, sat := false } := by
  simp only [covered, h]

theorem Conversion.covered_lookup (h : v.transform = .lookup) :
    v.covered pixels p s =
      { values := [fit v.policy 16 v.containerWidth
          (lookupValue v.lut v.source.tableBase v.source.laneWidth v.indexWidth s)]
        neg := false, sat := false } := by
  simp only [covered, h]

/-- R109, R110: the three rounded components of a covered pixel under CHROMA, red, green and blue. -/
def Conversion.rgb (v : Conversion) (pixels : List (Option Nat)) (p s : Nat) : Int × Int × Int :=
  let cw := v.source.laneWidth / 2
  components v.coeff cw (luma cw s) (chromaAt cw pixels (uCarrier v.source.chromaOrder p))
    (chromaAt cw pixels (vCarrier v.source.chromaOrder p))

theorem Conversion.covered_chroma {cw : Nat} {r g b : Int} (h : v.transform = .chroma)
    (hcw : cw = v.source.laneWidth / 2) (hrgb : v.rgb pixels p s = (r, g, b)) :
    v.covered pixels p s =
      { values := (ordered v.coeff.order (saturate cw r) (saturate cw g) (saturate cw b)).map
          (fit v.policy cw v.containerWidth)
        neg := setsNeg r || setsNeg g || setsNeg b
        sat := setsSat cw r || setsSat cw g || setsSat cw b } := by
  subst hcw
  unfold rgb at hrgb
  simp only [covered, h, hrgb]

/-- The marks of a covered pixel do not depend on the fitting. -/
theorem Conversion.covered_marks_refit (policy : WidenPolicy) (dw : Nat) :
    (({ v with policy := policy, containerWidth := dw } : Conversion).covered pixels p s).neg =
      (v.covered pixels p s).neg ∧
    (({ v with policy := policy, containerWidth := dw } : Conversion).covered pixels p s).sat =
      (v.covered pixels p s).sat := by
  simp only [covered]
  cases v.transform with
  | pass | lookup | chroma => exact ⟨rfl, rfl⟩

/-- The marks that a pixel sets do not depend on the fitting. -/
theorem Conversion.pixel_marks_refit (policy : WidenPolicy) (dw : Nat) :
    (({ v with policy := policy, containerWidth := dw } : Conversion).pixel pixels p).neg = (v.pixel pixels p).neg ∧
    (({ v with policy := policy, containerWidth := dw } : Conversion).pixel pixels p).sat = (v.pixel pixels p).sat := by
  by_cases h : ∃ s, pixels[p]? = some (some s)
  · obtain ⟨s, hs⟩ := h
    rw [pixel_of_covered hs, pixel_of_covered hs]
    exact covered_marks_refit policy dw
  · have hnone : ∀ s, pixels[p]? ≠ some (some s) := not_exists.mp h
    rw [pixel_of_not_covered hnone, pixel_of_not_covered hnone]
    exact ⟨rfl, rfl⟩

theorem valuesPerPixel_eq (t : Transform) : t.valuesPerPixel = if t = .chroma then 3 else 1 := by
  cases t <;> rfl

theorem Conversion.length_outputs : (v.outputs pixels).length = pixels.length := by
  rw [outputs, List.length_map, List.length_range]

end

/-- Settles O51: the cases of R105 by the two widths and the policy, and the marks by the cases of the pixel. -/
theorem containerFitting : Obligations.ContainerFitting := by
  unfold Obligations.ContainerFitting
  refine ⟨fun policy pw dw x hpw hx => ?bits, fun pw dw hpw h => ?extremes,
    fun p q pw dw x h => fit_policy_irrelevant p q h, fun v policy dw pixels p => Conversion.pixel_marks_refit policy dw⟩
  case bits =>
    refine ⟨fit_lt policy hx, fit_of_eq x policy, fun h i hi => testBit_fit_of_narrower policy h hi, ?_, ?_, ?_⟩
    · rintro h rfl i hi
      rw [fit_replicate x h, testBit_replicateBits pw dw x hi]
    · rintro h rfl
      exact fit_zeroLow x h
    · rintro h rfl
      exact fit_lowAlign x h
  case extremes =>
    rw [fit_replicate _ h, fit_replicate _ h]
    exact ⟨replicateBits_zero pw dw, replicateBits_allOnes pw dw hpw⟩

/-! ## LOOKUP (R106) -/

theorem lookupIndex_eq (w li s : Nat) :
    lookupIndex w li s = if li ≤ w then s / 2 ^ (w - li) else s * 2 ^ (li - w) := by
  rw [lookupIndex, Nat.shiftRight_eq_div_pow, Nat.shiftLeft_eq]

theorem lookupValue_of_entry {lut : Vector (BitVec 16) 1024} {tableBase w li s : Nat} {e : Fin 1024}
    (he : e.val = lookupEntry tableBase w li s) : lookupValue lut tableBase w li s = (lut[e]).toNat := by
  simp only [lookupValue, ← he, Fin.getElem_fin]

/-! ## CHROMA (R108 to R111) -/

theorem cast_two_pow (n : Nat) : ((2 ^ n : Nat) : Int) = 2 ^ n := Int.natCast_pow 2 n

theorem cast_neutral (cw : Nat) : (neutral cw : Int) = 2 ^ (cw - 1) := cast_two_pow (cw - 1)

theorem cast_chromaHalf (cw s : Nat) : (chromaHalf cw s : Int) = s / 2 ^ cw := by
  rw [chromaHalf, Nat.shiftRight_eq_div_pow, Int.natCast_ediv, cast_two_pow]

theorem cast_chromaAt (cw : Nat) (pixels : List (Option Nat)) (p : Nat) :
    (chromaAt cw pixels p : Int) = Statements.chromaOf cw pixels p := by
  unfold chromaAt Statements.chromaOf
  cases pixels[p]? with
  | none => exact cast_neutral cw
  | some sample =>
    cases sample with
    | none => exact cast_neutral cw
    | some s => exact cast_chromaHalf cw s

theorem uCarrier_eq (order : ChromaOrder) (p : Nat) :
    uCarrier order p = if order = .uFirst then p / 2 * 2 else p / 2 * 2 + 1 := by
  cases order <;> rfl

theorem vCarrier_eq (order : ChromaOrder) (p : Nat) :
    vCarrier order p = if order = .uFirst then p / 2 * 2 + 1 else p / 2 * 2 := by
  cases order <;> rfl

/-- R110's floor, the divisor being positive. -/
theorem roundComponent_eq (x : Int) : roundComponent x = (x + 512) / 1024 :=
  Int.fdiv_eq_ediv_of_nonneg (x + 512) (by decide)

theorem ordered_eq (order : ComponentOrder) (r g b : Nat) :
    ordered order r g b = if order = .rgb then [r, g, b] else [b, g, r] := by
  cases order <;> rfl

/-- R111's saturation is the clamp to 0 to 2^cw - 1. -/
theorem saturate_eq_clamp (cw : Nat) (r : Int) : saturate cw r = Statements.clamp cw r := by
  have hpos := Nat.two_pow_pos cw
  rw [saturate, Statements.clamp, ← cast_two_pow]
  generalize 2 ^ cw = n at hpos
  split
  · next hbelow => omega
  · next hnonneg =>
    split
    · next habove => omega
    · next hwithin => omega

theorem map_ordered_saturate (order : ComponentOrder) (f : Nat → Nat) (cw : Nat) (r g b : Int) :
    (ordered order (saturate cw r) (saturate cw g) (saturate cw b)).map f =
      (if order = .rgb then [r, g, b] else [b, g, r]).map fun y => f (Statements.clamp cw y) := by
  simp only [ordered_eq, saturate_eq_clamp]
  split <;> rfl

theorem setsNeg_or (r g b : Int) : (setsNeg r || setsNeg g || setsNeg b) = decide (r < 0 ∨ g < 0 ∨ b < 0) := by
  simp only [setsNeg, Bool.decide_or, Bool.or_assoc]

theorem setsSat_or (cw : Nat) (r g b : Int) :
    (setsSat cw r || setsSat cw g || setsSat cw b) =
      decide ((r < 0 ∨ g < 0 ∨ b < 0) ∨ (2 ^ cw - 1 < r ∨ 2 ^ cw - 1 < g ∨ 2 ^ cw - 1 < b)) := by
  simp only [setsSat, Bool.decide_or]
  ac_rfl

/-- R110's sums and rounding over the chroma that the pixel's pair carries. -/
theorem Conversion.rgb_eq {v : Conversion} {pixels : List (Option Nat)} {p s cw : Nat} {u w : Int}
    (hcw : cw = v.source.laneWidth / 2)
    (hu : u = Statements.chromaOf cw pixels (if v.source.chromaOrder = .uFirst then p / 2 * 2 else p / 2 * 2 + 1))
    (hw : w = Statements.chromaOf cw pixels (if v.source.chromaOrder = .uFirst then p / 2 * 2 + 1 else p / 2 * 2)) :
    v.rgb pixels p s =
      ((1024 * ((s % 2 ^ cw : Nat) : Int) + v.coeff.k1 * (w - 2 ^ (cw - 1)) + 512) / 1024,
       (1024 * ((s % 2 ^ cw : Nat) : Int) - v.coeff.k2 * (w - 2 ^ (cw - 1)) - v.coeff.k3 * (u - 2 ^ (cw - 1)) + 512) / 1024,
       (1024 * ((s % 2 ^ cw : Nat) : Int) + v.coeff.k4 * (u - 2 ^ (cw - 1)) + 512) / 1024) := by
  rw [← uCarrier_eq, ← cast_chromaAt] at hu
  rw [← vCarrier_eq, ← cast_chromaAt] at hw
  subst hcw hu hw
  simp only [rgb, components, roundComponent_eq, cast_neutral, luma]

/-! ## The obligation -/

/-- Settles O52, transform by transform. -/
theorem pixelOutputs : Obligations.PixelOutputs := by
  unfold Obligations.PixelOutputs
  intro v pixels p
  refine ⟨fun x hx ht => ?pass, fun x e hx ht he => ?lookup, ?chroma, fun hnone => ?fill, Conversion.length_outputs⟩
  case pass =>
    rw [Conversion.pixel_of_covered hx, Conversion.covered_pass ht]
  case lookup =>
    rw [← lookupIndex_eq] at he
    rw [Conversion.pixel_of_covered hx, Conversion.covered_lookup ht, lookupValue_of_entry he]
  case chroma =>
    rintro x cw off luma u w r g b hx ht hcw rfl rfl hu hw hr hg hb
    have hrgb : v.rgb pixels p x = (r, g, b) := by rw [Conversion.rgb_eq hcw hu hw, hr, hg, hb]
    rw [Conversion.pixel_of_covered hx, Conversion.covered_chroma ht hcw hrgb, map_ordered_saturate, setsNeg_or,
      setsSat_or]
  case fill =>
    rw [Conversion.pixel_of_not_covered (by simp [hnone]), Conversion.uncovered, valuesPerPixel_eq]

end Sys2Proof.Machine
end

