-- ==== Sys2Proof/Proofs/ControlPort.lean ====
section
/-! PROOFS. The Control Port (10): what the registers read (R171, R172, R177, R178), what a write to CONTROL, ATTENTION_MASK
and ERROR does, and the writes refused during a soft reset (R181). -/

namespace Sys2Proof.Machine

open Sys2Proof.Statements

/-! ## Fields packed into a register -/

/-- The number that the fields make before it is cut to 32 bits. -/
def packedSum (fields : List (Nat × Nat)) : Nat := (fields.map fun f => f.1 * 2 ^ f.2).sum

@[simp] theorem packedSum_nil : packedSum [] = 0 := rfl

@[simp] theorem packedSum_cons (value position : Nat) (rest : List (Nat × Nat)) :
    packedSum ((value, position) :: rest) = value * 2 ^ position + packedSum rest := by
  rw [packedSum, List.map_cons, List.sum_cons, packedSum]

/-- Fields whose number stays below 2^32 are read back as that number: no field is cut off. -/
theorem packFields_toNat {fields : List (Nat × Nat)} {n : Nat} (hsum : packedSum fields = n) (hfits : n < 2 ^ 32) :
    (packFields fields).toNat = n := by
  subst hsum
  exact (BitVec.toNat_ofNat _ _).trans (Nat.mod_eq_of_lt hfits)

theorem ChainState.code_le (x : ChainState) : x.code ≤ 8 := by cases x <;> decide

theorem Result.code_le (x : Result) : x.code ≤ 2 := by cases x <;> decide

theorem Reason.code_le (x : Reason) : x.code ≤ 4 := by cases x <;> decide

theorem ErrorKind.code_le (x : ErrorKind) : x.code ≤ 6 := by cases x <;> decide

section
variable (s : State)

/-! ## Register reads -/

@[simp] theorem State.readRegister_ident : s.readRegister 0x00 = 0x93D20001#32 := rfl
@[simp] theorem State.readRegister_control : s.readRegister 0x04 = s.controlValue := rfl
@[simp] theorem State.readRegister_exchangeBase : s.readRegister 0x08 = s.exchangeBase.setWidth 32 := rfl
@[simp] theorem State.readRegister_chainCommand : s.readRegister 0x0C = 0 := rfl
@[simp] theorem State.readRegister_commandStatus : s.readRegister 0x10 = s.commandStatusValue := rfl
@[simp] theorem State.readRegister_flagSet : s.readRegister 0x14 = s.flags := rfl
@[simp] theorem State.readRegister_flagClear : s.readRegister 0x18 = s.flags := rfl
@[simp] theorem State.readRegister_attentionMask : s.readRegister 0x1C = s.attentionMask := rfl
@[simp] theorem State.readRegister_error : s.readRegister 0x20 = s.errorValue := rfl

/-- 10 Table 10-2: TEN in bit 0 and SOFT_RESET in bit 1 of CONTROL. -/
theorem State.readRegister_control_toNat : (s.readRegister 0x04).toNat = s.ten.toNat + 2 * s.softReset.toNat := by
  have hten := Bool.toNat_le s.ten
  have hreset := Bool.toNat_le s.softReset
  rw [State.readRegister_control, State.controlValue, packFields_toNat ?sum ?fits]
  case sum =>
    simp only [packedSum_cons, packedSum_nil]
    omega
  case fits => omega

/-- 10 Table 10-2, R175: the four chain states and the last result in COMMAND_STATUS. -/
theorem State.readRegister_commandStatus_toNat : (s.readRegister 0x10).toNat =
    (s.chain 0).state.code + 2 ^ 4 * (s.chain 1).state.code + 2 ^ 8 * (s.chain 2).state.code +
      2 ^ 12 * (s.chain 3).state.code + 2 ^ 16 * s.lastResult.result.code + 2 ^ 18 * s.lastResult.reason.code +
      2 ^ 24 * s.lastResult.register.toNat + 2 ^ 28 * s.lastResult.chain.val := by
  have hchain0 := (s.chain 0).state.code_le
  have hchain1 := (s.chain 1).state.code_le
  have hchain2 := (s.chain 2).state.code_le
  have hchain3 := (s.chain 3).state.code_le
  have hresult := s.lastResult.result.code_le
  have hreason := s.lastResult.reason.code_le
  have hregister := s.lastResult.register.isLt
  have hof := s.lastResult.chain.isLt
  rw [State.readRegister_commandStatus, State.commandStatusValue, packFields_toNat ?sum ?fits]
  case sum =>
    simp only [packedSum_cons, packedSum_nil]
    omega
  case fits => omega

/-- 10 Table 10-2, R178: the pending bit, the first error and the count of further ones in ERROR. -/
theorem State.readRegister_error_toNat : (s.readRegister 0x20).toNat =
    s.errors.pending.toNat + 2 ^ 4 * s.errors.firstKind.code + 2 ^ 8 * s.errors.firstChain.val +
      2 ^ 16 * s.errors.further.toNat := by
  have hpending := Bool.toNat_le s.errors.pending
  have hkind := s.errors.firstKind.code_le
  have hchain := s.errors.firstChain.isLt
  have hfurther := s.errors.further.isLt
  rw [State.readRegister_error, State.errorValue, packFields_toNat ?sum ?fits]
  case sum =>
    simp only [packedSum_cons, packedSum_nil]
    omega
  case fits => omega

/-- 10 R170: from 0x24 upward no register answers. -/
theorem State.readRegister_of_unused {offset : BitVec 12} (h : 0x24 ≤ offset.toNat) : s.readRegister offset = 0 := by
  unfold State.readRegister
  split
  case h_10 => rfl
  all_goals omega

/-- 10 R181: of the registers only CONTROL shows whether a soft reset is in progress. -/
theorem State.readRegister_withSoftReset (b : Bool) {offset : BitVec 12} (h : offset ≠ 0x04) :
    ({ s with softReset := b } : State).readRegister offset = s.readRegister offset := by
  unfold State.readRegister
  split
  case h_2 hcontrol => exact absurd (BitVec.eq_of_toNat_eq hcontrol) h
  all_goals rfl

/-! ## The attention output (10 R177) -/

/-- Two words share a bit where their conjunction is not 0. -/
theorem and_bne_zero_iff (x y : BitVec 32) :
    (x &&& y != 0) = true ↔ ∃ f : FlagId, x.getLsbD f = true ∧ y.getLsbD f = true := by
  simp only [bne_iff_ne, ne_eq, BitVec.eq_of_getLsbD_eq_iff, Classical.not_forall, Fin.exists_iff,
    BitVec.getLsbD_and, BitVec.ofNat_eq_ofNat, BitVec.getLsbD_zero, Bool.not_eq_false, Bool.and_eq_true]

theorem State.attn_iff : s.attn = true ↔
    (∃ f : FlagId, s.flags.getLsbD f = true ∧ s.attentionMask.getLsbD f = true) ∨ s.errors.pending = true := by
  rw [State.attn, Bool.or_eq_true, and_bne_zero_iff]

/-! ## Admitted jobs (08 R138) -/

theorem State.hasAdmitted_iff (c : ChainId) :
    s.hasAdmitted c = true ↔ ∃ j, s.job c = some j ∧ j.admitted = true := by
  unfold State.hasAdmitted
  cases s.job c with
  | none => simp
  | some j => simp

theorem State.anyAdmitted_iff : s.anyAdmitted = true ↔ ∃ c j, s.job c = some j ∧ j.admitted = true := by
  simp only [State.anyAdmitted, List.any_eq_true, mem_allChains, true_and, State.hasAdmitted_iff]

theorem State.anyAdmitted_eq_false_iff : s.anyAdmitted = false ↔ ∀ c j, s.job c = some j → j.admitted = false := by
  simp only [← Bool.not_eq_true, State.anyAdmitted_iff, not_exists, not_and]

end

/-! ## Register writes -/

section
variable {s : State}

/-- 10 R181: in a soft reset a register write leaves its last result and nothing else. -/
theorem State.hostWrite_resetting (h : s.softReset = true) (r : BitVec 4) (c : ChainId) (taken : State → State) :
    s.hostWrite r c taken = { s with lastResult := refused .resetting r c } := if_pos h

theorem State.hostWrite_taken (h : s.softReset = false) (r : BitVec 4) (c : ChainId) (taken : State → State) :
    s.hostWrite r c taken = taken s := if_neg (Bool.eq_false_iff.mp h)

/-- The register and chain that COMMAND_STATUS names for a command that is a write to a register other than ERROR. -/
def hostWriteTarget : Instr → Option (BitVec 4 × ChainId)
  | .softReset _ | .tenWrite _ => some (regControl, 0)
  | .exchangeBaseWrite _ => some (regExchangeBase, 0)
  | .start c | .pause c | .resume c | .abort c => some (regChainCommand, c)
  | .flagSet _ => some (regFlagSet, 0)
  | .flagClear _ => some (regFlagClear, 0)
  | .attentionMaskWrite _ => some (regAttentionMask, 0)
  | _ => none

/-- Each of these commands goes through `State.hostWrite` with its own register and chain. -/
theorem exec_hostWrite {i : Instr} {r : BitVec 4} {c : ChainId} (h : hostWriteTarget i = some (r, c)) :
    ∃ taken, ∀ s, exec i s = .next (s.hostWrite r c taken) := by
  unfold hostWriteTarget at h
  split at h
  case h_11 => cases h
  all_goals
    obtain ⟨rfl, rfl⟩ := Prod.mk.inj (Option.some.inj h)
    exact ⟨_, fun _ => rfl⟩

/-- 10 R181: during a soft reset every register write but one to ERROR is refused with RESETTING. -/
theorem exec_resetting {i : Instr} {r : BitVec 4} {c : ChainId} (hs : s.softReset = true)
    (hi : hostWriteTarget i = some (r, c)) : exec i s = .next { s with lastResult := refused .resetting r c } := by
  obtain ⟨taken, htaken⟩ := exec_hostWrite hi
  rw [htaken, State.hostWrite_resetting hs]

/-! ### CONTROL and the end of a soft reset (10 R172, R180) -/

/-- 10 R180: a soft reset that begins with nothing outstanding ends at once (log 12), at rest. -/
theorem exec_softReset_of_drained (hs : s.softReset = false) (ha : s.accesses = []) (ten : Bool) :
    exec (.softReset ten) s = .next { atRest s with lastResult := .none } :=
  congrArg Host.Outcome.next ((State.hostWrite_taken hs _ _ _).trans (if_pos ha))

theorem exec_softReset_of_outstanding (hs : s.softReset = false) (ha : s.accesses ≠ []) (ten : Bool) :
    exec (.softReset ten) s = .next s.beginSoftReset :=
  congrArg Host.Outcome.next ((State.hostWrite_taken hs _ _ _).trans (if_neg ha))

theorem exec_softResetEnd_of_drained (hs : s.softReset = true) (ha : s.accesses = []) :
    exec .softResetEnd s = .next (atRest s) :=
  congrArg Host.Outcome.next (if_pos ⟨hs, ha⟩)

/-- 10 R172: outside a soft reset a CONTROL write with SOFT_RESET 0 is refused only where it would change TEN under an
admitted job. -/
theorem exec_tenWrite (hs : s.softReset = false) (ten : Bool) :
    exec (.tenWrite ten) s = .next
      (if ten ≠ s.ten ∧ s.anyAdmitted = true then { s with lastResult := refused .busy 1 0 }
       else { s with ten := ten, lastResult := accepted 1 0 }) := by
  refine congrArg Host.Outcome.next ((State.hostWrite_taken hs _ _ _).trans ?_)
  by_cases hten : ten = s.ten
  · subst hten
    rw [if_pos rfl, if_neg fun h => h.1 rfl]
    rfl
  · rw [if_neg hten]
    by_cases hadmitted : s.anyAdmitted = true
    · rw [if_pos hadmitted, if_pos ⟨hten, hadmitted⟩]
      rfl
    · rw [if_neg hadmitted, if_neg fun h => hadmitted h.2]
      rfl

/-! ### ATTENTION_MASK, ERROR and power-on reset (10 R177, R178, R182) -/

theorem exec_attentionMaskWrite (hs : s.softReset = false) (v : BitVec 32) :
    exec (.attentionMaskWrite v) s = .next { s with attentionMask := v, lastResult := accepted 7 0 } :=
  congrArg Host.Outcome.next (State.hostWrite_taken hs _ _ _)

end

section
variable (s : State)

/-- 10 R182: the queue, the bytes written and the count of choices are no state of the part (log 14). -/
theorem exec_powerOnReset : exec .powerOnReset s =
    .next { State.reset with memory := s.memory, choices := s.choices, pending := s.pending } := rfl

/-- 10 R178: an ERROR write is accepted in every state; its bit 0 says whether it clears the summary. -/
theorem exec_errorClear (v : BitVec 32) :
    exec (.errorClear v) s = .next { s with
      errors := if v.getLsbD 0 then .clear else s.errors, lastResult := accepted 8 0 } := by
  refine congrArg Host.Outcome.next ?_
  cases v.getLsbD 0 with
  | true => rfl
  | false => rfl

theorem exec_errorClear_of_set {v : BitVec 32} (hv : v.getLsbD 0 = true) :
    exec (.errorClear v) s = .next { s with errors := .clear, lastResult := accepted 8 0 } := by
  rw [exec_errorClear, if_pos hv]

theorem exec_errorClear_of_not_set {v : BitVec 32} (hv : v.getLsbD 0 = false) :
    exec (.errorClear v) s = .next { s with lastResult := accepted 8 0 } := by
  rw [exec_errorClear, if_neg (Bool.eq_false_iff.mp hv)]

/-! ## TEN in a resolution (10 R172, 08 R136) -/

/-- A job's resolver holds nothing of CONTROL: TEN is asked for by the resolution itself. -/
@[simp] theorem State.resolver_withTen (ten : Bool) (c : ChainId) (j : Job) (write : Bool) :
    ({ s with ten := ten } : State).resolver c j write = s.resolver c j write := rfl

end

/-! ## The obligations -/

/-- Settles O5: the ten refused writes go through `State.hostWrite`, the ERROR write does not, and no register read but
CONTROL depends on SOFT_RESET. -/
theorem writesRefusedDuringSoftReset : Obligations.WritesRefusedDuringSoftReset := by
  unfold Obligations.WritesRefusedDuringSoftReset
  intro s hs
  refine ⟨fun _ => exec_resetting hs rfl, fun _ => exec_resetting hs rfl, fun _ => exec_resetting hs rfl,
    fun _ => exec_resetting hs rfl, fun _ => exec_resetting hs rfl, fun _ => exec_resetting hs rfl,
    fun _ => exec_resetting hs rfl, fun _ => exec_resetting hs rfl, fun _ => exec_resetting hs rfl,
    fun _ => exec_resetting hs rfl, exec_errorClear s, fun offset hoffset => ?reads⟩
  case reads => exact (s.readRegister_withSoftReset false hoffset).symm

/-- Settles O6: the two outcomes of SOFT_RESET by whether an access is outstanding, TEN by whether a job is admitted, and the
resolutions by the answers of their footprints. -/
theorem controlWriteStartsResetOrSetsTen : Obligations.ControlWriteStartsResetOrSetsTen := by
  unfold Obligations.ControlWriteStartsResetOrSetsTen
  refine ⟨fun ten s hs => ⟨?softReset, fun h => ?tenTaken, fun ⟨hten, hbusy⟩ => ?tenBusy⟩,
    State.readRegister_control_toNat, fun ten s hs => ⟨exec_resetting hs rfl, exec_resetting hs rfl⟩,
    fun ten c j p n q k s => ?line, fun ten c j b s => ?table⟩
  case softReset =>
    by_cases ha : s.accesses = []
    · exact ⟨_, exec_softReset_of_drained hs ha ten, rfl, rfl, .inr ⟨ha, rfl⟩⟩
    · exact ⟨_, exec_softReset_of_outstanding hs ha ten, rfl, rfl, .inl rfl⟩
  case tenTaken =>
    rw [exec_tenWrite hs, if_neg]
    rintro ⟨hten, hadmitted⟩
    have hnone := s.anyAdmitted_eq_false_iff.mpr (h.resolve_left hten)
    exact Bool.false_ne_true (hnone.symm.trans hadmitted)
  case tenBusy =>
    rw [exec_tenWrite hs, if_pos ⟨hten, s.anyAdmitted_iff.mpr hbusy⟩]
  case line =>
    cases hfetch : (s.resolver c j false).footprint ten p n with
    | held => simp only [State.resolveLine, State.resolver_withTen, hfetch]
    | fault code => simp only [State.resolveLine, State.resolver_withTen, hfetch]
    | ranges fetch =>
      cases hstore : (s.resolver c j true).footprint ten q k <;>
        simp only [State.resolveLine, State.resolver_withTen, hfetch, hstore]
  case table =>
    cases hfound : (s.resolver c j false).footprint ten b.source.toNat (b.count.toNat * 2) <;>
      simp only [State.resolveTable, State.resolver_withTen, hfound]

/-- Settles O8, register by register; the packed ones by the bounds of their fields. -/
theorem registerReadLayouts : Obligations.RegisterReadLayouts := by
  unfold Obligations.RegisterReadLayouts
  intro s
  refine ⟨s.readRegister_ident, by decide, s.readRegister_control_toNat, ?exchangeBase, s.readRegister_chainCommand,
    s.readRegister_commandStatus_toNat, s.readRegister_flagSet, s.readRegister_flagClear, s.readRegister_attentionMask,
    fun offset => s.readRegister_of_unused⟩
  case exchangeBase =>
    rw [s.readRegister_exchangeBase, BitVec.toNat_setWidth_of_le (by decide)]

/-- Settles O10: the write by its own rule and by R181's refusal, the read and ATTN from the state, and both resets. -/
theorem attentionMaskSelectsFlags : Obligations.AttentionMaskSelectsFlags := by
  unfold Obligations.AttentionMaskSelectsFlags
  exact ⟨fun v s hs => exec_attentionMaskWrite hs v, State.readRegister_attentionMask, State.attn_iff,
    fun s => ⟨_, exec_powerOnReset s, rfl⟩, fun s hs ha => ⟨_, exec_softResetEnd_of_drained hs ha, rfl⟩,
    fun v s hs => exec_resetting hs rfl⟩

/-- Settles O11: the write's rule asks nothing of SOFT_RESET, and a cleared summary leaves ATTN to the flags. -/
theorem errorRegisterReadsAndClears : Obligations.ErrorRegisterReadsAndClears := by
  unfold Obligations.ErrorRegisterReadsAndClears
  refine ⟨State.readRegister_error_toNat, fun v s hv => exec_errorClear_of_set s hv,
    fun v s hv => exec_errorClear_of_not_set s hv, fun v s hv => ⟨_, exec_errorClear_of_set s hv, ?attn⟩⟩
  case attn => exact Bool.or_false _

end Sys2Proof.Machine
end

section
/-! PROOFS. What every command keeps: one inversion of `exec` (`exec_changes`), from which the invariants of every step
(04 R65, R82, 08 R150, 02 R34, log 4) and the frame of every command follow. -/

namespace Sys2Proof.Machine

/-! ## What a command may change -/

/-- From `s` to `t` the command `i` has changed no store but its own, and kept the rules of the pass-over counts, the mapping
table, the waiters and the discard marks. The bytes written are those of outstanding writes. -/
structure Changes (i : Instr) (s t : State) : Prop where
  surfaces : i.mayChangeSurfaces = false → t.surfaces = s.surfaces
  coeffs : i.mayChangeCoeffs = false → t.coeffs = s.coeffs
  lut : i.mayChangeLut = false → t.lut = s.lut
  ten : i.mayChangeTen = false → t.ten = s.ten
  exchangeBase : i.mayChangeExchangeBase = false → t.exchangeBase = s.exchangeBase
  attentionMask : i.mayChangeMask = false → t.attentionMask = s.attentionMask
  passOver : i.mayChangePassOver = false → t.passOver = s.passOver
  entries : s.pendingMark = none → i.mayChangeEntries = false → t.entries = s.entries
  pending : t.pending = s.pending
  memory : ∃ cells, t.memory = Memory.writeAll s.memory cells ∧ (i.mayChangeMemory = false → cells = []) ∧
    ∀ x ∈ cells, ∃ a ∈ s.accesses, x ∈ a.cells
  bounded : s.passOverBounded → t.passOverBounded
  table : s.tableUnambiguous → t.tableUnambiguous
  waiters : s.waitersUnsatisfied → t.waitersUnsatisfied
  discards : s.discardsFetching → t.discardsFetching

/-- Nothing is written. -/
theorem exists_no_cells (s : State) {p : Prop} : ∃ cells, s.memory = Memory.writeAll s.memory cells ∧ (p → cells = []) ∧
    ∀ x ∈ cells, ∃ a ∈ s.accesses, x ∈ a.cells :=
  ⟨[], rfl, fun _ => rfl, fun _ hx => absurd hx List.not_mem_nil⟩

theorem Keeps.bounded {s t : State} (h : Keeps s t) (hb : s.passOverBounded) : t.passOverBounded := by
  intro c
  rw [h.passOver]
  exact hb c

section
variable {i : Instr} {s t u : State}

/-- A command whose body keeps every store keeps them all. -/
theorem Keeps.changes (h : Keeps s t) : Changes i s t where
  surfaces _ := h.surfaces
  coeffs _ := h.coeffs
  lut _ := h.lut
  ten _ := h.ten
  exchangeBase _ := h.exchangeBase
  attentionMask _ := h.attentionMask
  passOver _ := h.passOver
  entries hp _ := (h.entries hp).1
  pending := h.pending
  memory := h.memory ▸ exists_no_cells s
  bounded := h.bounded
  table := h.table
  waiters := h.waiters
  discards := h.discards

/-- What follows the change of a command's own store keeps it. -/
theorem Changes.keeps (h : Changes i s u) (hm : s.pendingMark = none → i.mayChangeEntries = false → u.pendingMark = none)
    (k : Keeps u t) : Changes i s t where
  surfaces hi := k.surfaces.trans (h.surfaces hi)
  coeffs hi := k.coeffs.trans (h.coeffs hi)
  lut hi := k.lut.trans (h.lut hi)
  ten hi := k.ten.trans (h.ten hi)
  exchangeBase hi := k.exchangeBase.trans (h.exchangeBase hi)
  attentionMask hi := k.attentionMask.trans (h.attentionMask hi)
  passOver hi := k.passOver.trans (h.passOver hi)
  entries hp hi := (k.entries (hm hp hi)).1.trans (h.entries hp hi)
  pending := k.pending.trans h.pending
  memory := k.memory ▸ h.memory
  bounded := k.bounded ∘ h.bounded
  table := k.table ∘ h.table
  waiters := k.waiters ∘ h.waiters
  discards := k.discards ∘ h.discards

end

/-! ## The commands that change a store -/

section
variable (s : State)

theorem mem_of_nthAccess {p : Access → Bool} {l : List Access} {n : Nat} {a : Access} (h : nthAccess p l n = some a) :
    a ∈ l := by
  induction l generalizing n with
  | nil => cases h
  | cons x rest ih =>
    unfold nthAccess at h
    split at h
    · cases n with
      | zero =>
        obtain rfl : x = a := Option.some.inj h
        exact List.mem_cons_self
      | succ n => exact List.mem_cons_of_mem _ (ih h)
    · exact List.mem_cons_of_mem _ (ih h)

theorem mem_of_mem_landedCells {answer : WriteAnswer} {a : Access} {x : Host.Cell} (h : x ∈ landedCells answer a) :
    x ∈ a.cells := by
  cases answer with
  | acknowledged => exact h
  | error landed =>
    simp only [landedCells] at h
    split at h
    · exact absurd h List.not_mem_nil
    · exact (List.mem_filter.mp h).1
  | cut landed => exact (List.mem_filter.mp h).1

/-- 09 R158: the answer of a write changes bytes of that write alone. -/
theorem State.onWrite_changes {i : Instr} (hi : i.mayChangeMemory = true) (p : Access → Bool) (n : Nat)
    (answer : WriteAnswer) (after : Access → Bool → State → State) (h : ∀ a ok t, Keeps t (after a ok t)) :
    Changes i s (s.onWrite p n answer after) := by
  have written {a : Access} (ha : a ∈ s.accesses) (l : List Access) : Changes i s { s with
      accesses := l, memory := Memory.writeAll s.memory (landedCells answer a) } :=
    { (Keeps.refl s).changes (i := i) with
      memory := ⟨_, rfl, fun hf => absurd (hi.symm.trans hf) (by decide), fun _ hx => ⟨a, ha, mem_of_mem_landedCells hx⟩⟩ }
  unfold State.onWrite
  split
  · exact (Keeps.refl s).changes
  · next a ha =>
    split
    · exact (Keeps.refl s).changes
    · dsimp only
      split
      · exact written (mem_of_nthAccess ha) _
      · exact (written (mem_of_nthAccess ha) _).keeps (fun hp _ => hp) (h _ _ _)

theorem State.hostWrite_changes {i : Instr} (r : BitVec 4) (c : ChainId) (taken : State → State)
    (h : Changes i s (taken s)) : Changes i s (s.hostWrite r c taken) := by
  unfold State.hostWrite
  split
  · exact (State.refuse_keeps s c _ _).changes
  · exact h

/-- With no waiter registered the rule of 02 R34 holds. -/
theorem State.waitersUnsatisfied_of_none {s : State} (h : s.waiters = Vector.replicate 4 none) :
    s.waitersUnsatisfied := by
  intro c w hw
  simp [State.waiter, h] at hw

/-- The state after power-on reset meets the rule of 08 R150: no entry is valid. -/
theorem reset_tableUnambiguous : State.reset.tableUnambiguous := by
  intro context x m n a b ha
  simp [State.reset] at ha

theorem reset_passOverBounded : State.reset.passOverBounded := by
  intro c
  simp [State.reset]

theorem reset_discardsFetching : State.reset.discardsFetching := fun _ hl => absurd hl List.not_mem_nil

/-- Power-on reset changes every configuration store, and the reset values meet the rules. -/
theorem reset_changes : Changes .powerOnReset s
    { State.reset with memory := s.memory, choices := s.choices, pending := s.pending } where
  surfaces := nofun
  coeffs := nofun
  lut := nofun
  ten := nofun
  exchangeBase := nofun
  attentionMask := nofun
  passOver := nofun
  entries _ := nofun
  pending := rfl
  memory := exists_no_cells s
  bounded _ := reset_passOverBounded
  table _ := reset_tableUnambiguous
  waiters _ := State.waitersUnsatisfied_of_none rfl
  discards _ := reset_discardsFetching

/-- A reset of the blocks to rest changes ATTENTION_MASK and the pass-over counts alone of the stores (10 R180). -/
theorem State.endSoftReset_changes {i : Instr} (hm : i.mayChangeMask = true) (hp : i.mayChangePassOver = true) :
    Changes i s s.endSoftReset :=
  { (Keeps.refl s).changes (i := i) with
    attentionMask := fun hf => absurd (hm.symm.trans hf) (by decide)
    passOver := fun hf => absurd (hp.symm.trans hf) (by decide)
    bounded := fun _ => reset_passOverBounded
    waiters := fun _ => State.waitersUnsatisfied_of_none rfl
    discards := fun _ => reset_discardsFetching }

/-- The start of a soft reset withdraws the waiters (02 R48), and touches no store. -/
theorem State.beginSoftReset_changes {i : Instr} : Changes i s s.beginSoftReset :=
  { (Keeps.refl s).changes (i := i) with waiters := fun _ => State.waitersUnsatisfied_of_none rfl }

/-- 04 R72: a fetch grant decision changes the pass-over counts, each within its bound. -/
theorem State.grantDecision_changes (fuel : Nat) : Changes .fetchGrantDecision s (State.grantDecision fuel s) := by
  obtain ⟨v, hv, hb⟩ := State.grantDecision_keeps s fuel
  have own : Changes .fetchGrantDecision s { s with passOver := v } :=
    { (Keeps.refl s).changes with passOver := nofun, bounded := hb }
  exact own.keeps (fun hp _ => hp) hv

/-! ## One inversion of `exec` -/

/-- A flag arrival of the host goes through the Flag File, which leaves no waiter satisfied. -/
theorem State.flagWrite_keeps (new : BitVec 32) (r : BitVec 4) :
    Keeps s ((s.flagArrival (FlagFile.hostWrite s.level new) []).accept r 0) :=
  (State.flagArrival_keeps s _ _ (FlagFile.hostWrite_unsatisfied _ _ _)).trans (State.accept_keeps _ 0 r)

/-- The work of a SURFACE job changes the slots. -/
theorem State.doSurface_changes (c d : ChainId) (b : SurfaceBody) : Changes (.surfaceWork c) s (s.doSurface d b) := by
  obtain ⟨v, hv⟩ := State.doSurface_keeps s d b
  have own : Changes (.surfaceWork c) s { s with surfaces := v } := { (Keeps.refl s).changes with surfaces := nofun }
  exact own.keeps (fun hp _ => hp) hv

/-- The work of a COEFF job changes the coefficient sets. -/
theorem State.doCoeff_changes (c d : ChainId) (b : CoeffBody) : Changes (.coeffWork c) s (s.doCoeff d b) := by
  obtain ⟨v, hv⟩ := State.doCoeff_keeps s d b
  have own : Changes (.coeffWork c) s { s with coeffs := v } := { (Keeps.refl s).changes with coeffs := nofun }
  exact own.keeps (fun hp _ => hp) hv

/-- The arrival of a MAP job changes the mapping table, and keeps its rule. -/
theorem State.doMap_changes (c d : ChainId) (m : EntryId) (e : Option MapEntry) :
    Changes (.mapWork c) s (s.doMap d m e) := by
  obtain ⟨es, pm, hv, ht⟩ := State.doMap_keeps s d m e
  have own : Changes (.mapWork c) s { s with entries := es, pendingMark := pm } :=
    { (Keeps.refl s).changes with entries := fun _ => nofun, table := ht }
  exact own.keeps (fun _ => nofun) hv

/-- An answered table read changes the lookup table. -/
theorem State.afterTableRead_changes (o n o' n' : Nat) (r r' : ReadAnswer) (a : Access) :
    Changes (.tableReadAnswered o n r) s (s.afterTableRead a o' n' r') := by
  obtain ⟨v, hv⟩ := State.afterTableRead_keeps s a o' n' r'
  have own : Changes (.tableReadAnswered o n r) s { s with lut := v } := { (Keeps.refl s).changes with lut := nofun }
  exact own.keeps (fun hp _ => hp) hv

/-- Every command has a next state, and changes no store but its own. -/
theorem exec_changes (i : Instr) : ∃ t, exec i s = .next t ∧ Changes i s t := by
  cases i with
  | powerOnReset => exact ⟨_, rfl, reset_changes s⟩
  | softReset ten =>
    refine ⟨_, rfl, State.hostWrite_changes s _ _ _ ?_⟩
    split
    · have hlast : Keeps s.endSoftReset s.beginSoftReset.endSoftReset := { Keeps.refl s.endSoftReset with }
      exact (State.endSoftReset_changes s rfl rfl).keeps (fun _ _ => rfl) hlast
    · exact State.beginSoftReset_changes s
  | softResetEnd =>
    refine ⟨_, rfl, ?_⟩
    split
    · exact State.endSoftReset_changes s rfl rfl
    · exact (Keeps.refl s).changes
  | tenWrite ten =>
    refine ⟨_, rfl, State.hostWrite_changes s _ _ _ ?_⟩
    split
    · exact (State.accept_keeps s 0 _).changes
    · split
      · exact (State.refuse_keeps s 0 _ _).changes
      · exact { (State.accept_keeps s 0 regControl).changes (i := .tenWrite ten) with ten := nofun }
  | exchangeBaseWrite value =>
    refine ⟨_, rfl, State.hostWrite_changes s _ _ _ ?_⟩
    split
    · exact { (State.accept_keeps s 0 regExchangeBase).changes (i := .exchangeBaseWrite value) with exchangeBase := nofun }
    · exact (State.refuse_keeps s 0 _ _).changes
  | start c =>
    refine ⟨_, rfl, (State.hostWrite_keeps s c _ _ ?_).changes⟩
    split
    · exact (State.startChain_keeps s c).trans (State.accept_keeps _ c _)
    · exact State.refuse_keeps s c _ _
  | pause c =>
    refine ⟨_, rfl, (State.hostWrite_keeps s c _ _ ?_).changes⟩
    split
    · exact (State.pauseChain_keeps s c).trans (State.accept_keeps _ c _)
    · exact State.refuse_keeps s c _ _
  | resume c =>
    refine ⟨_, rfl, (State.hostWrite_keeps s c _ _ ?_).changes⟩
    split
    · exact (State.resumeChain_keeps s c).trans (State.accept_keeps _ c _)
    · exact State.refuse_keeps s c _ _
  | abort c =>
    refine ⟨_, rfl, (State.hostWrite_keeps s c _ _ ?_).changes⟩
    split
    · refine Keeps.trans ?_ (State.accept_keeps _ c _)
      split
      · exact State.updChain_keeps s c _
      · exact State.abortRunning_keeps s c
    · exact State.refuse_keeps s c _ _
  | flagSet mask => exact ⟨_, rfl, (State.hostWrite_keeps s 0 _ _ (State.flagWrite_keeps s _ _)).changes⟩
  | flagClear mask => exact ⟨_, rfl, (State.hostWrite_keeps s 0 _ _ (State.flagWrite_keeps s _ _)).changes⟩
  | attentionMaskWrite value =>
    exact ⟨_, rfl, State.hostWrite_changes s _ _ _
      { (State.accept_keeps s 0 regAttentionMask).changes (i := .attentionMaskWrite value) with attentionMask := nofun }⟩
  | errorClear value =>
    refine ⟨_, rfl, Keeps.changes (Keeps.trans ?_ (State.accept_keeps _ 0 _))⟩
    split
    · exact { Keeps.refl s with }
    · exact .refl s
  | ignoredRegisterWrite offset value strobes => exact ⟨_, rfl, (Keeps.refl s).changes⟩
  | directoryRead c answer =>
    exact ⟨_, rfl, (State.onRead_keeps s _ _ _ fun _ t => State.afterDirectoryRead_keeps t c answer).changes⟩
  | recordHeaderRead c answer =>
    exact ⟨_, rfl, (State.onRead_keeps s _ _ _ fun _ t => State.afterHeaderRead_keeps t c answer).changes⟩
  | recordSecondPartRead c answer =>
    exact ⟨_, rfl, (State.onRead_keeps s _ _ _ fun _ t => State.afterSecondPartRead_keeps t c answer).changes⟩
  | linkReRead c answer =>
    exact ⟨_, rfl, (State.onRead_keeps s _ _ _ fun _ t => State.afterLinkReRead_keeps t c answer).changes⟩
  | anchorLinkReRead c answer =>
    exact ⟨_, rfl, (State.onRead_keeps s _ _ _ fun _ t => State.afterAnchorReRead_keeps t c answer).changes⟩
  | outcomeWrite c answer =>
    refine ⟨_, rfl, State.onWrite_changes s rfl _ _ _ _ fun a ok t => ?_⟩
    split
    · exact State.afterOutcomeWrite_keeps t c _ _ ok
    · exact .refl t
  | releaseWrite c answer =>
    refine ⟨_, rfl, State.onWrite_changes s rfl _ _ _ _ fun a ok t => ?_⟩
    split
    · exact State.afterRelease_keeps t c _ _ ok
    · exact .refl t
  | statusWrite c nth answer =>
    refine ⟨_, rfl, State.onWrite_changes s rfl _ _ _ _ fun a ok t => ?_⟩
    split
    · exact State.statusAnswered_keeps t c _ ok
    · exact .refl t
  | fetchGrantDecision =>
    refine ⟨_, rfl, ?_⟩
    split
    · exact (Keeps.refl s).changes
    · exact State.grantDecision_changes s 5
  | fetchComplete b answer =>
    exact ⟨_, rfl, (State.onRead_keeps s _ _ _ fun _ t => State.afterFetch_keeps t b answer).changes⟩
  | conversionStart =>
    refine ⟨_, rfl, Keeps.changes ?_⟩
    split
    · exact .refl s
    · exact State.conversionStarts_keeps s
  | conversionComplete =>
    refine ⟨_, rfl, Keeps.changes ?_⟩
    split
    · exact .refl s
    · exact State.conversionCompletes_keeps s
  | storeAnswered b answer =>
    exact ⟨_, rfl, State.onWrite_changes s rfl _ _ _ _ fun _ ok t => State.afterStore_keeps t b ok⟩
  | tableReadAnswered offset length answer =>
    refine ⟨_, rfl, ?_⟩
    split
    · exact State.afterTableRead_changes s _ _ _ _ _ _ _
    · exact (Keeps.refl s).changes
  | surfaceWork c =>
    refine ⟨_, rfl, ?_⟩
    split
    · split
      · exact State.doSurface_changes s c c _
      · exact (Keeps.refl s).changes
    · exact (Keeps.refl s).changes
  | coeffWork c =>
    refine ⟨_, rfl, ?_⟩
    split
    · split
      · exact State.doCoeff_changes s c c _
      · exact (Keeps.refl s).changes
    · exact (Keeps.refl s).changes
  | mapWork c =>
    refine ⟨_, rfl, ?_⟩
    split
    · split
      · split
        · exact State.doMap_changes s c c _ _
        · exact (Keeps.refl s).changes
      · exact (Keeps.refl s).changes
    · exact (Keeps.refl s).changes

theorem changes_of_exec {i : Instr} {s t : State} (h : exec i s = .next t) : Changes i s t := by
  obtain ⟨u, hu, hc⟩ := exec_changes s i
  obtain rfl : u = t := Host.Outcome.next.inj (hu.symm.trans h)
  exact hc

end

/-! ## A step -/

/-- A step idles, or runs the command at the front of the queue on the state with the queue's rest (log 1). -/
theorem step_cases {s t : State} (h : step s = .next t) :
    t = s ∨ ∃ i rest, s.pending = i :: rest ∧ exec i { s with pending := rest } = .next t := by
  unfold step at h
  split at h
  · exact .inl (Host.Outcome.next.inj h).symm
  · next i rest hp => exact .inr ⟨i, rest, hp, h⟩

/-- A property that the queue does not enter, and that every command keeps, is kept by every step. -/
theorem step_keeps_of_changes {P : State → Prop} (hq : ∀ (s : State) (l : List Instr), P s → P { s with pending := l })
    (hc : ∀ i s t, Changes i s t → P s → P t) (s t : State) (hs : P s) (h : step s = .next t) : P t := by
  obtain rfl | ⟨i, rest, _, hexec⟩ := step_cases h
  · exact hs
  · exact hc i _ t (changes_of_exec hexec) (hq s rest hs)

/-! ## The obligations -/

/-- Settles O55: bytes are written by `Memory.writeAll` alone, which keeps the order of the addresses. -/
theorem memoryStaysCanonical : Obligations.MemoryStaysCanonical := by
  unfold Obligations.MemoryStaysCanonical
  refine step_keeps_of_changes (P := State.memoryCanonical) (fun _ _ hs => hs) fun i s t hc hs => ?_
  obtain ⟨cells, hmem, -⟩ := hc.memory
  unfold State.memoryCanonical
  rw [hmem]
  exact Memory.wf_writeAll hs cells

/-- Settles O56: the bound by the counts after a grant, the discard marks by what each line event does to a line. -/
theorem lineEngineRulesStay : Obligations.LineEngineRulesStay := by
  unfold Obligations.LineEngineRulesStay
  exact ⟨step_keeps_of_changes (P := State.passOverBounded) (fun _ _ hs => hs) fun _ _ _ hc => hc.bounded,
    step_keeps_of_changes (P := State.discardsFetching) (fun _ _ hs => hs) fun _ _ _ hc => hc.discards⟩

/-- Settles O57: the table changes by MAP operations carried out, each checked for overlaps first. -/
theorem tableStaysUnambiguous : Obligations.TableStaysUnambiguous := by
  unfold Obligations.TableStaysUnambiguous
  exact step_keeps_of_changes (P := State.tableUnambiguous) (fun _ _ hs => hs) fun _ _ _ hc => hc.table

/-- Settles O58: flags and waiters change by arrivals at the Flag File and withdrawals alone. -/
theorem waitersStayUnsatisfied : Obligations.WaitersStayUnsatisfied := by
  unfold Obligations.WaitersStayUnsatisfied
  exact step_keeps_of_changes (P := State.waitersUnsatisfied) (fun _ _ hs => hs) fun _ _ _ hc => hc.waiters

/-- Settles O59: the inversion of `exec`, and for a byte of memory that it is no byte of the cells that landed. -/
theorem storesChangeByTheirOwnCommands : Obligations.StoresChangeByTheirOwnCommands := by
  unfold Obligations.StoresChangeByTheirOwnCommands
  intro i s t h
  have hc := changes_of_exec h
  obtain ⟨cells, hmem, hnone, hout⟩ := hc.memory
  refine ⟨hc.surfaces, hc.coeffs, hc.lut, hc.ten, hc.exchangeBase, hc.attentionMask, hc.passOver, hc.entries, hc.pending,
    fun hi => ?unwritten, fun address hfree => ?elsewhere⟩
  case unwritten => rw [hmem, hnone hi, Memory.writeAll, List.foldl_nil]
  case elsewhere =>
    rw [hmem]
    refine Memory.read_writeAll_of_not_mem fun hx => ?_
    obtain ⟨x, hcell, rfl⟩ := List.mem_map.mp hx
    obtain ⟨a, ha, hxa⟩ := hout x hcell
    exact hfree a ha (List.mem_map_of_mem hxa)

/-- Settles O60. -/
theorem resetIsSafe : Obligations.ResetIsSafe := by
  unfold Obligations.ResetIsSafe
  exact ⟨List.Pairwise.nil, reset_passOverBounded, reset_tableUnambiguous,
    State.waitersUnsatisfied_of_none rfl, reset_discardsFetching⟩

end Sys2Proof.Machine
end

section
/-! PROOFS. The step, the resets and the Control Port (00, 09 section 9.4, 10): what an answer does in a soft reset, the rest
state, EXCHANGE_BASE, the APB writes and the error summary. -/

namespace Sys2Proof.Machine

open Sys2Proof.Statements

/-! ## The step (log 1) and power-on reset (10 R182) -/

/-- Settles O1. -/
theorem stepTakesFrontCommand : Obligations.StepTakesFrontCommand := by
  unfold Obligations.StepTakesFrontCommand
  refine ⟨fun i rest s => rfl, fun s hs => ?_⟩
  unfold step
  rw [hs]

@[simp] theorem reset_chain (c : ChainId) : State.reset.chain c = .atRest := Vector.getElem_replicate ..

@[simp] theorem reset_job (c : ChainId) : State.reset.job c = none := Vector.getElem_replicate ..

theorem reset_pinCount (m : EntryId) : State.reset.pinCount m = 0 := by
  simp [State.pinCount]

/-- Settles O2, field by field. -/
theorem resetHoldsPowerOnValues : Obligations.ResetHoldsPowerOnValues := by
  unfold Obligations.ResetHoldsPowerOnValues
  exact ⟨exec_powerOnReset, reset_chain, reset_job, rfl, fun _ => Vector.getElem_replicate .., fun _ => Vector.getElem_replicate ..,
    rfl, fun _ => rfl, fun _ => rfl, fun _ => Vector.getElem_replicate .., rfl, rfl, fun _ => Vector.getElem_replicate ..,
    fun _ => Vector.getElem_replicate .., rfl, rfl, fun _ => Vector.getElem_replicate .., rfl, rfl,
    fun _ => Vector.getElem_replicate .., reset_pinCount, rfl, by decide, rfl, rfl, rfl, rfl, rfl, rfl, rfl, rfl, by decide,
    rfl⟩

/-! ## Answers during a soft reset (09 R169, log 13) -/

section
variable {s : State} {p : Access → Bool} {n : Nat} {a : Access} {before later : List Access}

/-- A read answered in a soft reset only leaves the list. -/
theorem State.onRead_draining (h : s.hasOutstanding p 0 a before later) {answer : ReadAnswer}
    (after : Access → State → State) (hl : answer.hasLength a.bytes = true) (hr : s.softReset = true) :
    s.onRead p answer after = { s with accesses := before ++ later } := by
  obtain ⟨hacc, hp, hn⟩ := h
  unfold State.onRead
  simp only [hacc, nthAccess_append p a before later 0 hp hn, removeNth_append_nil p a before later 0 hp hn, hl, hr, if_true]

/-- A write answered in a soft reset leaves the list, with the bytes that landed in memory. -/
theorem State.onWrite_draining (h : s.hasOutstanding p n a before later) (answer : WriteAnswer)
    (after : Access → Bool → State → State) (hr : s.softReset = true) :
    s.onWrite p n answer after = { s with
      memory := Memory.writeAll s.memory (landedCells answer a)
      accesses := before.map (Access.without ((landedCells answer a).map (·.1))) ++ later } := by
  obtain ⟨hacc, hp, hn⟩ := h
  unfold State.onWrite
  simp only [hacc, nthAccess_append p a before later n hp hn, removeNth_append _ _ a before later n hp hn, hr, Bool.not_true,
    Bool.and_false, Bool.false_eq_true, if_false, if_true]

theorem State.workingJob_draining (hr : s.softReset = true) (c : ChainId) : s.workingJob c = none := if_pos hr

/-- A table load awaits a span of unanswered bytes within its source, at least one. -/
theorem TableLoad.awaits_of_unanswered {load : TableLoad} {offset length : Nat} (h1 : 1 ≤ length)
    (hin : offset + length ≤ load.source.length)
    (hun : ∀ k, offset ≤ k → k < offset + length → load.source[k]? = some .unanswered) :
    load.awaits offset length = true := by
  have hall : ((load.source.drop offset).take length).all (· == .unanswered) = true := by
    rw [List.all_eq_true]
    intro x hx
    obtain ⟨k, hk, rfl⟩ := List.mem_iff_getElem.mp hx
    have hk' := hun (offset + k) (Nat.le_add_right ..) (by simp at hk; omega)
    simp [(List.getElem?_eq_some_iff.mp hk').2]
  simp [TableLoad.awaits, h1, hin, hall]

/-- The outstanding table read is the one that an answer of its chain's load reaches. -/
theorem exec_tableReadAnswered_outstanding (h : s.hasOutstanding Access.isTableRead 0 a before later) (offset length : Nat)
    (answer : ReadAnswer) :
    exec (.tableReadAnswered offset length answer) s = .next (s.afterTableRead a offset length answer) := by
  obtain ⟨hacc, hp, hn⟩ := h
  refine congrArg Host.Outcome.next ?_
  rw [hacc, nthAccess_append _ a before later 0 hp hn]

theorem State.endTableRead_outstanding (h : s.hasOutstanding Access.isTableRead 0 a before later) :
    s.endTableRead = { s with accesses := before ++ later } := by
  obtain ⟨hacc, hp, hn⟩ := h
  unfold State.endTableRead
  rw [hacc, removeNth_append_nil _ a before later 0 hp hn]

/-- A load is complete when no byte of its source is unanswered. -/
theorem TableLoad.complete_iff (load : TableLoad) : load.complete = true ↔ ∀ x ∈ load.source, x ≠ .unanswered := by
  simp [TableLoad.complete]

/-- A table read answered while its job's load awaits it reaches the load, in a soft reset and out of one. -/
theorem State.afterTableRead_awaited {j : Job} {b : TableBody} {load : TableLoad} {offset length : Nat} {answer : ReadAnswer}
    (hj : s.job a.chain = some j) (hb : j.body = .table b) (hload : j.load = some load)
    (haw : load.awaits offset length = true) (hlen : answer.hasLength length = true) :
    s.afterTableRead a offset length answer =
      if s.softReset then s.tableDrained a.chain j (load.answer offset length answer)
      else s.tableAnswered a.chain j b load offset length answer := by
  unfold State.afterTableRead
  simp only [hj, hb, hload, haw, hlen, Bool.and_self, if_true]

end

/-- Settles O3: each answer by its drain lemma, each event by R87 and R57, and the table reads by whether the load is
complete. -/
theorem softResetBeginsAndDrains : Obligations.SoftResetBeginsAndDrains := by
  unfold Obligations.SoftResetBeginsAndDrains
  refine ⟨fun ten s hs ha => exec_softReset_of_outstanding hs ha ten, fun s hr => ⟨?grant, ?starts, ?completes, fun c => ?works⟩,
    fun c answer a before after s hr hl => ?reads, fun c n answer a before after s hr => ?writes,
    fun offset length answer j b load a before after s hr h hj hb hload h1 hin hlen hun => ?tables⟩
  case grant => exact congrArg Host.Outcome.next (if_pos hr)
  case starts => exact congrArg Host.Outcome.next (if_pos hr)
  case completes => exact congrArg Host.Outcome.next (if_pos hr)
  case works =>
    have hnone := State.workingJob_draining hr c
    refine ⟨congrArg Host.Outcome.next ?_, congrArg Host.Outcome.next ?_, congrArg Host.Outcome.next ?_⟩ <;> rw [hnone]
  case reads =>
    have answered {p : Access → Bool} (after' : Access → State → State) (h : s.hasOutstanding p 0 a before after) :=
      congrArg (Host.Outcome.next (φ := Fault) (ρ := Refusal)) (State.onRead_draining h after' hl hr)
    exact ⟨answered _, answered _, answered _, answered _, answered _, fun b => answered _⟩
  case writes =>
    have answered {p : Access → Bool} {n : Nat} (after' : Access → Bool → State → State)
        (h : s.hasOutstanding p n a before after) :=
      congrArg (Host.Outcome.next (φ := Fault) (ρ := Refusal)) (State.onWrite_draining h answer after' hr)
    exact ⟨answered _, answered _, answered _, fun b => answered _⟩
  case tables =>
    have hexec : exec (.tableReadAnswered offset length answer) s =
        .next (s.tableDrained a.chain j (load.answer offset length answer)) := by
      rw [exec_tableReadAnswered_outstanding h,
        State.afterTableRead_awaited hj hb hload (TableLoad.awaits_of_unanswered h1 hin hun) hlen, if_pos hr]
    refine ⟨fun ⟨x, hx, hxu⟩ => ?_, fun hall => ?_⟩
    · refine hexec.trans (congrArg Host.Outcome.next (if_neg fun hc => ?_))
      exact (TableLoad.complete_iff _).mp hc x hx hxu
    · refine hexec.trans (congrArg Host.Outcome.next ((if_pos ((TableLoad.complete_iff _).mpr hall)).trans ?_))
      exact State.endTableRead_outstanding (s := s.setJob a.chain (some { j with load := some _ })) h

/-! ## The rest state (10 R180) -/

theorem packFields_and_one : ∀ ten reset : Bool, packFields [(ten.toNat, 0), (false.toNat, 1)] =
    packFields [(ten.toNat, 0), (reset.toNat, 1)] &&& 1 := by decide

theorem State.atRest_control (s : State) : (atRest s).readRegister 0x04 = s.readRegister 0x04 &&& 1 :=
  packFields_and_one s.ten s.softReset

/-- Settles O4. -/
theorem softResetEndsAtRest : Obligations.SoftResetEndsAtRest := by
  unfold Obligations.SoftResetEndsAtRest
  refine ⟨fun s hr ha => exec_softResetEnd_of_drained hr ha, fun ten s hs ha => exec_softReset_of_drained hs ha ten,
    fun s => ⟨s.atRest_control, ?_⟩⟩
  simp [State.attn, atRest, ErrorSummary.clear]

/-! ## EXCHANGE_BASE (10 R173) -/

section
variable (s : State)

theorem State.allIdle_iff : s.allIdle = true ↔ ∀ c, (s.chain c).state = .idle := by
  simp [State.allIdle, allChains, Fin.forall_fin_succ]

/-- 10 R173: a write to EXCHANGE_BASE outside a soft reset. -/
theorem exec_exchangeBaseWrite {s : State} (hs : s.softReset = false) (v : BitVec 32) :
    exec (.exchangeBaseWrite v) s = .next (if s.allIdle then
      { s with exchangeBase := v.extractLsb' 0 28, lastResult := accepted 2 0 }
      else { s with lastResult := refused .busy 2 0 }) :=
  congrArg Host.Outcome.next (State.hostWrite_taken hs _ _ _)

/-- The exchange area and 256 bytes above it lie below 2^40. -/
theorem State.exchangeArea_add_toNat {n : Nat} (hn : n < 4096) :
    (s.exchangeArea + BitVec.ofNat 40 n).toNat = s.exchangeBase.toNat * 4096 + n := by
  have hbase := s.exchangeBase.isLt
  have harea : s.exchangeArea.toNat = s.exchangeBase.toNat * 4096 := by
    change (s.exchangeBase ++ 0#12).toNat = _
    rw [BitVec.toNat_append, BitVec.toNat_ofNat, Nat.zero_mod, Nat.or_zero, Nat.shiftLeft_eq]
  rw [BitVec.toNat_add, harea, BitVec.toNat_ofNat]
  omega

theorem State.directoryAddress_toNat (c : ChainId) :
    (s.directoryAddress c).toNat = s.exchangeBase.toNat * 4096 + 32 * c.val :=
  s.exchangeArea_add_toNat (by omega)

theorem State.statusAddress_toNat (c : ChainId) :
    (s.statusAddress c).toNat = s.exchangeBase.toNat * 4096 + 128 + 32 * c.val :=
  (s.exchangeArea_add_toNat (by omega)).trans (Nat.add_assoc ..).symm

/-- 01 R17: a chain whose anchor is the directory re-reads its head field. -/
theorem State.reReadAnchor_directory {s : State} {c : ChainId} (h : (s.chain c).anchor = some .directory) :
    s.reReadAnchor c = { s with
      chains := s.chains.set c { s.chain c with state := .reading }
      accesses := s.accesses ++ [readAccess .headReRead c (s.directoryAddress c) 8] } := by
  unfold State.reReadAnchor
  rw [h]
  rfl

/-- 01 R17: a chain whose anchor is a record re-reads its link. -/
theorem State.reReadAnchor_record {s : State} {c : ChainId} {r : PhysAddr} (h : (s.chain c).anchor = some (.record r)) :
    s.reReadAnchor c = { s with
      chains := s.chains.set c { s.chain c with state := .reading }
      accesses := s.accesses ++ [readAccess .anchorReRead c r 8] } := by
  unfold State.reReadAnchor
  rw [h]
  rfl

/-- Neither the start nor the end of a soft reset changes EXCHANGE_BASE. -/
theorem exec_softResets_exchangeBase (ten : Bool) : ∃ t u, exec (.softReset ten) s = .next t ∧
    t.exchangeBase = s.exchangeBase ∧ exec .softResetEnd s = .next u ∧ u.exchangeBase = s.exchangeBase := by
  obtain ⟨t, ht, hct⟩ := exec_changes s (.softReset ten)
  obtain ⟨u, hu, hcu⟩ := exec_changes s .softResetEnd
  exact ⟨t, u, ht, hct.exchangeBase rfl, hu, hcu.exchangeBase rfl⟩

/-- A change of a flag to 1 that no waiter stands against sets the flag and nothing else (02 R36). -/
theorem State.flagArrival_set_unwaited {s : State} {f : FlagId} (h : ∀ d w, s.waiter d = some w → w.flag ≠ f) :
    s.flagArrival (FlagFile.change s.level f true) [] = { s with flags := s.flags ||| BitVec.twoPow 32 f } := by
  have hchange : FlagFile.change s.level f true s.flagFile = (s.flagFile.put f true, []) := FlagFile.change_unwaited h
  rw [State.flagArrival_of_none s (congrArg Prod.snd hchange), hchange]
  rfl

/-- 09 R164: the acknowledged status write of a break tail sets its fault flag. -/
theorem exec_statusWrite_breakTail {s : State} {c : ChainId} {n : Nat} {f : FlagId} {a : Access} {before later : List Access}
    (hs : s.softReset = false) (h : s.hasOutstanding (Access.isStatusFor c) n a before later)
    (hk : a.kind = .statusWrite (.breakTail (some f))) (hw : ∀ d w, s.waiter d = some w → w.flag ≠ f) :
    exec (.statusWrite c n .acknowledged) s = .next { s with
      memory := Memory.writeAll s.memory a.cells, flags := s.flags ||| BitVec.twoPow 32 f
      accesses := before.map (Access.without (a.cells.map (·.1))) ++ later } := by
  refine congrArg Host.Outcome.next ((State.onWrite_outstanding h .acknowledged _ rfl hs).trans ?_)
  rw [hk]
  exact State.flagArrival_set_unwaited (s := { s with accesses := _, memory := _ }) hw

end

/-- Settles O7. -/
theorem exchangeBaseReplacedWhenAllIdle : Obligations.ExchangeBaseReplacedWhenAllIdle := by
  unfold Obligations.ExchangeBaseReplacedWhenAllIdle
  refine ⟨fun v s hs => ⟨fun h => ?allIdle, fun ⟨c, hc⟩ => ?busy⟩,
    fun s c => ⟨s.directoryAddress_toNat c, s.statusAddress_toNat c, rfl, fun h => ?head, fun x a n => ⟨_, rfl⟩⟩,
    fun s => ⟨_, exec_powerOnReset s, rfl⟩, fun ten s => exec_softResets_exchangeBase s ten,
    fun c n v f a before after s hs hidle h hk hw => ?tail⟩
  case allIdle => rw [exec_exchangeBaseWrite hs, if_pos (s.allIdle_iff.mpr h)]
  case busy => rw [exec_exchangeBaseWrite hs, if_neg fun h => hc (s.allIdle_iff.mp h c)]
  case head => rw [State.reReadAnchor_directory h]
  case tail =>
    refine ⟨{ s with exchangeBase := v.extractLsb' 0 28, lastResult := accepted 2 0 }, ?_, rfl, rfl, ?_⟩
    · rw [exec_exchangeBaseWrite hs, if_pos (s.allIdle_iff.mpr hidle)]
    · exact exec_statusWrite_breakTail hs h hk hw

/-! ## APB writes (10 R170, R174) -/

theorem Instr.ofApbWrite_ignored {o : BitVec 12} {b : BitVec 4} (h : ignoredWrite o b = true) (v : BitVec 32) :
    Instr.ofApbWrite o v b = .ignoredRegisterWrite o v b := if_pos h

/-- Settles O9: register by register; the ignored writes by the port's own test. -/
theorem apbWritesAreTheirCommands : Obligations.ApbWritesAreTheirCommands := by
  unfold Obligations.ApbWritesAreTheirCommands
  refine ⟨fun v => rfl, fun v => rfl, fun v => ⟨Fin.ofNat 4 v.toNat, rfl, ?chain⟩, fun v => rfl, fun v => rfl, fun v => rfl,
    fun v => rfl, fun o v b h => Instr.ofApbWrite_ignored ?ignored v, fun o v b s _ => rfl⟩
  case chain => exact rfl
  case ignored =>
    obtain hb | rfl | rfl | ho := h
    · have hne : (b != 0xF#4) = true := bne_iff_ne.mpr hb
      simp [ignoredWrite, hne]
    · simp [ignoredWrite]
    · simp [ignoredWrite]
    · simp [ignoredWrite, ho]

/-! ## The error summary (09 R167) -/

theorem ErrorSummary.report_of_clear {e : ErrorSummary} (h : e.pending = false) (k : ErrorKind) (c : ChainId) :
    e.report k c = { pending := true, firstKind := k, firstChain := c, further := 0 } := by
  unfold ErrorSummary.report
  rw [if_neg (Bool.eq_false_iff.mp h)]

theorem ErrorSummary.report_of_pending {e : ErrorSummary} (h : e.pending = true) (k : ErrorKind) (c : ChainId) :
    e.report k c = { e with further := if e.further = 255 then 255 else e.further + 1 } := if_pos h

/-- The count of further errors stops at 255. -/
theorem toNat_countUpTo255 (n : BitVec 8) : (if n = 255 then 255 else n + 1).toNat = min 255 (n.toNat + 1) := by
  have hn := n.isLt
  by_cases h : n = 255
  · subst h
    rfl
  · have hne : n.toNat ≠ 255 := fun he => h (BitVec.eq_of_toNat_eq he)
    rw [if_neg h, BitVec.toNat_add]
    change (n.toNat + 1) % 256 = _
    omega

/-- Settles O12. -/
theorem errorSummaryKeepsFirstAndCounts : Obligations.ErrorSummaryKeepsFirstAndCounts := by
  unfold Obligations.ErrorSummaryKeepsFirstAndCounts
  refine fun e k c => ⟨fun h => e.report_of_clear h k c, fun h => ?_⟩
  rw [e.report_of_pending h k c]
  exact ⟨h, rfl, rfl, toNat_countUpTo255 e.further⟩

end Sys2Proof.Machine
end

section
/-! PROOFS. The Flag File (02): a change by its rule (R36 to R38), the host's masks (R32), and what a retire hands over
(R42 to R45). -/

namespace Sys2Proof.Machine

open Sys2Proof.Statements

section
variable {level : ChainId → Nat} {f : FlagId} {ff : FlagFile}

/-! ## Evaluations that serve nobody, and one waiter -/

@[simp] theorem FlagFile.unregister_nil (ff : FlagFile) : ff.unregister [] = ff := by
  unfold FlagFile.unregister
  congr 1
  ext i hi
  simp

/-- Unregistering one chain clears its place. -/
theorem FlagFile.unregister_singleton (ff : FlagFile) (c : ChainId) :
    ff.unregister [c] = { ff with waiters := ff.waiters.set c none } := by
  unfold FlagFile.unregister
  congr 1
  ext i hi
  simp [Vector.getElem_set, Fin.ext_iff, eq_comm]

/-- No satisfied waiter: nothing is served and nothing changes. -/
theorem FlagFile.evaluate_of_satisfied_nil (hfree : ff.satisfied f false = []) (htake : ff.satisfied f true = [])
    (fuel : Nat) : FlagFile.evaluate level f fuel ff = (ff, []) := by
  cases fuel with
  | zero => rfl
  | succ fuel =>
    unfold FlagFile.evaluate
    simp only [hfree, FlagFile.unregister_nil, htake, List.map_nil, bestChain]

theorem FlagFile.satisfied_eq_nil (h : ∀ (c : ChainId) (w : Waiter), ff.waiters[c] = some w → w.flag = f →
    w.wanted ≠ ff.value f) (k : Bool) : ff.satisfied f k = [] := by
  rw [List.eq_nil_iff_forall_not_mem]
  intro c hc
  obtain ⟨w, hw, hf, -, hv⟩ := FlagFile.mem_satisfied.mp hc
  exact h c w hw hf hv

theorem FlagFile.evaluate_unwaited (h : ∀ (c : ChainId) (w : Waiter), ff.waiters[c] = some w → w.flag ≠ f) (fuel : Nat) :
    FlagFile.evaluate level f fuel ff = (ff, []) := by
  have hnil := FlagFile.satisfied_eq_nil (f := f) fun c w hw hf => absurd hf (h c w hw)
  exact FlagFile.evaluate_of_satisfied_nil (hnil false) (hnil true) fuel

theorem FlagFile.evaluateAll_unwaited (fs : List FlagId)
    (h : ∀ (c : ChainId) (w : Waiter), ff.waiters[c] = some w → w.flag ∉ fs) :
    FlagFile.evaluateAll level fs ff = (ff, []) := by
  induction fs with
  | nil => rfl
  | cons f rest ih =>
    unfold FlagFile.evaluateAll
    rw [FlagFile.evaluate_unwaited fun c w hw hf => h c w hw (hf ▸ List.mem_cons_self)]
    simp only [ih fun c w hw hf => h c w hw (List.mem_cons_of_mem _ hf), List.append_nil]

theorem FlagFile.evaluateAll_append (fs gs : List FlagId) (ff : FlagFile) :
    FlagFile.evaluateAll level (fs ++ gs) ff =
      ((FlagFile.evaluateAll level gs (FlagFile.evaluateAll level fs ff).1).1,
        (FlagFile.evaluateAll level fs ff).2 ++ (FlagFile.evaluateAll level gs (FlagFile.evaluateAll level fs ff).1).2) := by
  induction fs generalizing ff with
  | nil => rfl
  | cons f rest ih =>
    simp only [List.cons_append, FlagFile.evaluateAll, ih, List.append_assoc]

/-- The Flag File after the service of the one waiter of chain `c` on flag `f`. -/
def FlagFile.served (ff : FlagFile) (f : FlagId) (c : ChainId) (consuming : Bool) : FlagFile :=
  if consuming then (ff.unregister [c]).put f (!ff.value f) else ff.unregister [c]

theorem FlagFile.served_waiters (ff : FlagFile) (f : FlagId) (c : ChainId) (k : Bool) :
    (ff.served f c k).waiters = ff.waiters.set c none := by
  have hgone : (ff.unregister [c]).waiters = ff.waiters.set c none := congrArg FlagFile.waiters (ff.unregister_singleton c)
  cases k with
  | false => exact hgone
  | true => exact hgone

theorem filter_allChains_eq_singleton {p : ChainId → Bool} {c : ChainId} (h : ∀ d, p d = true ↔ d = c) :
    allChains.filter p = [c] := by
  obtain rfl : p = fun d => d == c := by
    funext d
    rw [Bool.eq_iff_iff, h d, beq_iff_eq]
  revert c
  decide

/-- One waiter alone stands on the flag and wants its value: it is served, and a consuming one takes the flag back. -/
theorem FlagFile.evaluate_single {c : ChainId} {w : Waiter} (hw : ff.waiters[c] = some w) (hf : w.flag = f)
    (hv : w.wanted = ff.value f) (hone : ∀ (d : ChainId) (u : Waiter), ff.waiters[d] = some u → u.flag = f → d = c)
    (fuel : Nat) :
    FlagFile.evaluate level f (fuel + 2) ff = (ff.served f c w.consuming, [ff.followup c]) := by
  have hsat (k : Bool) : ff.satisfied f k = if w.consuming = k then [c] else [] := by
    split
    · next hk =>
      refine filter_allChains_eq_singleton fun d => ⟨fun hd => ?_, fun hd => ?_⟩
      · obtain ⟨u, hu, hfu, -⟩ := FlagFile.mem_satisfied.mp (List.mem_filter.mpr ⟨mem_allChains d, hd⟩)
        exact hone d u hu hfu
      · subst hd
        exact (List.mem_filter.mp (FlagFile.mem_satisfied.mpr ⟨w, hw, hf, hk, hv⟩)).2
    · next hk =>
      rw [List.eq_nil_iff_forall_not_mem]
      intro d hd
      obtain ⟨u, hu, hfu, hku, -⟩ := FlagFile.mem_satisfied.mp hd
      obtain rfl := hone d u hu hfu
      obtain rfl : w = u := Option.some.inj (hw.symm.trans hu)
      exact hk hku
  have hgone (g : FlagFile) (hg : g.waiters = (ff.unregister [c]).waiters) (d : ChainId) (u : Waiter)
      (hu : g.waiters[d] = some u) : u.flag ≠ f := by
    intro hfu
    rw [hg, FlagFile.waiters_unregister] at hu
    split at hu
    · cases hu
    · next hd => exact hd (by simp [hone d u hu hfu])
  have hnil (g : FlagFile) (hg : g.waiters = (ff.unregister [c]).waiters) (k : Bool) : g.satisfied f k = [] :=
    FlagFile.satisfied_eq_nil (fun d u hu hfu => absurd hfu (hgone g hg d u hu)) k
  rw [FlagFile.evaluate]
  cases hk : w.consuming with
  | false =>
    have h0 : ff.satisfied f false = [c] := by rw [hsat, if_pos hk]
    simp only [h0, hnil _ rfl true, bestChain]
    rfl
  | true =>
    have h0 : ff.satisfied f false = [] := by rw [hsat, if_neg (by simp [hk])]
    have h1 : ff.satisfied f true = [c] := by rw [hsat, if_pos hk]
    simp only [h0, FlagFile.unregister_nil, h1, bestChain,
      FlagFile.evaluate_unwaited (hgone ((ff.unregister [c]).put f (!ff.value f)) rfl)]
    rfl

/-! ## The host's masks (02 R32) -/

theorem mem_changedFlags {old new : BitVec 32} {g : FlagId} :
    g ∈ changedFlags old new ↔ old.getLsbD g ≠ new.getLsbD g := by
  simp [changedFlags]

/-- A mask that reaches no waiter's flag changes the flags alone. -/
theorem FlagFile.hostWrite_unwaited {new : BitVec 32}
    (h : ∀ (c : ChainId) (w : Waiter), ff.waiters[c] = some w → new.getLsbD w.flag = ff.value w.flag) :
    FlagFile.hostWrite level new ff = ({ ff with flags := new }, []) :=
  FlagFile.evaluateAll_unwaited _ fun c w hw hmem => mem_changedFlags.mp hmem (h c w hw).symm

/-- A mask that satisfies one waiter, and reaches no other's flag, serves it. -/
theorem FlagFile.hostWrite_single {new : BitVec 32} {c : ChainId} {w : Waiter} (hw : ff.waiters[c] = some w)
    (hold : w.wanted ≠ ff.value w.flag) (hnew : w.wanted = new.getLsbD w.flag)
    (hone : ∀ (d : ChainId) (u : Waiter), ff.waiters[d] = some u → ff.value u.flag ≠ new.getLsbD u.flag → d = c) :
    FlagFile.hostWrite level new ff =
      (FlagFile.served { ff with flags := new } w.flag c w.consuming, [ff.followup c]) := by
  have hmem : w.flag ∈ changedFlags ff.flags new := mem_changedFlags.mpr fun h => hold (hnew.trans h.symm)
  obtain ⟨front, back, hsplit⟩ := List.append_of_mem hmem
  have hfront : w.flag ∉ front := by
    have hn : (changedFlags ff.flags new).Nodup := (List.nodup_finRange 32).filter _
    rw [hsplit, List.nodup_append] at hn
    obtain ⟨-, -, hdisjoint⟩ := hn
    exact fun hx => hdisjoint _ hx _ List.mem_cons_self rfl
  have hchanged {g : FlagId} (hg : g ∈ front ++ w.flag :: back) : ff.value g ≠ new.getLsbD g :=
    mem_changedFlags.mp (hsplit ▸ hg)
  unfold FlagFile.hostWrite
  rw [hsplit, FlagFile.evaluateAll_append, FlagFile.evaluateAll_unwaited front, FlagFile.evaluateAll,
    FlagFile.evaluate_single (ff := { ff with flags := new }) hw rfl hnew]
  · dsimp only
    rw [FlagFile.evaluateAll_unwaited back]
    · rfl
    · intro d u hu hb
      rw [FlagFile.served_waiters] at hu
      by_cases hd : c = d
      · subst hd
        simp at hu
      · have hu' : ff.waiters[d] = some u := by
          rwa [Fin.getElem_fin, Vector.getElem_set_ne _ _ (fun h => hd (Fin.ext h))] at hu
        exact hd (hone d u hu' (hchanged (by simp [hb]))).symm
  · exact fun d u hu hf => hone d u hu (hchanged (by simp [hf]))
  · intro d u hu hx
    obtain rfl := hone d u hu (hchanged (by simp [hx]))
    obtain rfl : w = u := Option.some.inj (hw.symm.trans hu)
    exact hfront hx

end

/-! ## What a service tells a chain (02 R37) -/

/-- The state with this Flag File. -/
def State.withFlagFile (s : State) (ff : FlagFile) : State := { s with flags := ff.flags, waiters := ff.waiters }

@[simp] theorem State.job_withFlagFile (s : State) (ff : FlagFile) (c : ChainId) : (s.withFlagFile ff).job c = s.job c := rfl

@[simp] theorem State.chain_withFlagFile (s : State) (ff : FlagFile) (c : ChainId) :
    (s.withFlagFile ff).chain c = s.chain c := rfl

/-- An arrival that serves one chain: what the service tells it follows at once. -/
theorem State.flagArrival_of_one {s : State} {op : FlagFile → FlagFile × List Followup} {ff : FlagFile} {x : Followup}
    (h : op s.flagFile = (ff, [x])) : s.flagArrival op [] = (s.withFlagFile ff).runFollowup x := by
  unfold State.flagArrival
  simp only [h, List.append_nil, State.settle_singleton]
  rfl

theorem FlagFile.followup_eq {ff : FlagFile} {c : ChainId} {w : Waiter} (h : ff.waiters[c] = some w) :
    ff.followup c = if w.kind = .wake then .wake c else .passed c := by
  obtain ⟨_, _, _, k⟩ := w
  unfold FlagFile.followup
  rw [h]
  cases k <;> rfl

theorem State.runFollowup_passed {s : State} {c : ChainId} {j : Job} (hj : s.job c = some j) :
    s.runFollowup (.passed c) = State.admitJob { s with jobs := s.jobs.set c (some { j with guardPassed := true }) } c := by
  have hupd : s.updJob c (fun k => { k with guardPassed := true }) =
      { s with jobs := s.jobs.set c (some { j with guardPassed := true }) } := by
    unfold State.updJob
    rw [hj]
    rfl
  rw [State.runFollowup, hupd]

/-! ## The host's masks at the port (10 R176) -/

/-- The mask register that sets (`true`) or clears (`false`) flags: its command, the flags it leaves, and its number. -/
def maskCommand (v : Bool) (mask : BitVec 32) : Instr := if v then .flagSet mask else .flagClear mask
/-- The flags after a mask write. -/
def maskedFlags (v : Bool) (flags mask : BitVec 32) : BitVec 32 := if v then flags ||| mask else flags &&& ~~~mask
/-- The number of the mask register. -/
def maskRegister (v : Bool) : BitVec 4 := if v then 5 else 6

theorem getLsbD_maskedFlags (v : Bool) (flags mask : BitVec 32) (f : FlagId) :
    (maskedFlags v flags mask).getLsbD f = if mask.getLsbD f then v else flags.getLsbD f := by
  have hf := f.isLt
  cases v <;> cases hm : mask.getLsbD f <;> simp [maskedFlags, BitVec.getLsbD_or, BitVec.getLsbD_and, BitVec.getLsbD_not,
    hm, hf, -BitVec.getLsbD_eq_getElem]

section
variable {s : State} {v : Bool} {mask : BitVec 32}

/-- Outside a soft reset a mask write is one arrival at the Flag File, and is accepted. -/
theorem exec_maskCommand (hs : s.softReset = false) : exec (maskCommand v mask) s = .next
    { (s.flagArrival (FlagFile.hostWrite s.level (maskedFlags v s.flags mask)) []) with
      lastResult := accepted (maskRegister v) 0 } := by
  cases v <;> exact congrArg Host.Outcome.next (State.hostWrite_taken hs _ _ _)

/-- A mask that reaches no waiter's flag. -/
theorem exec_maskCommand_unwaited (hs : s.softReset = false)
    (hfree : ∀ c w, s.waiter c = some w → mask.getLsbD w.flag = false) :
    exec (maskCommand v mask) s = .next
      { s with flags := maskedFlags v s.flags mask, lastResult := accepted (maskRegister v) 0 } := by
  have hwrite : FlagFile.hostWrite s.level (maskedFlags v s.flags mask) s.flagFile =
      ({ s.flagFile with flags := maskedFlags v s.flags mask }, []) := by
    refine FlagFile.hostWrite_unwaited fun c w hw => ?_
    rw [getLsbD_maskedFlags, hfree c w hw]
    rfl
  rw [exec_maskCommand hs, State.flagArrival_of_none s (congrArg Prod.snd hwrite), hwrite]
  rfl

/-- The flags after a mask write that one waiter takes back, where it consumes. -/
def takenBack (v : Bool) (w : Waiter) (flags : BitVec 32) : BitVec 32 :=
  if w.consuming then (if v then flags &&& ~~~BitVec.twoPow 32 w.flag else flags ||| BitVec.twoPow 32 w.flag) else flags

/-- A mask that satisfies one waiter: what its service sets going follows on the flags it leaves. -/
theorem exec_maskCommand_single {c : ChainId} {w : Waiter} (hs : s.softReset = false) (hw : s.waiter c = some w)
    (hmask : mask.getLsbD w.flag = true) (hwant : w.wanted = v) (hval : s.flags.getLsbD w.flag = !v)
    (hone : ∀ d u, s.waiter d = some u → mask.getLsbD u.flag = true → d = c) :
    exec (maskCommand v mask) s = .next (((s.withFlagFile
      { flags := takenBack v w (maskedFlags v s.flags mask), waiters := s.waiters.set c none }).runFollowup
        (if w.kind = .wake then .wake c else .passed c)).accept (maskRegister v) 0) := by
  have hnew : (maskedFlags v s.flags mask).getLsbD w.flag = v := by rw [getLsbD_maskedFlags, if_pos hmask]
  have hwrite : FlagFile.hostWrite s.level (maskedFlags v s.flags mask) s.flagFile =
      (FlagFile.served { s.flagFile with flags := maskedFlags v s.flags mask } w.flag c w.consuming,
        [s.flagFile.followup c]) := by
    refine FlagFile.hostWrite_single hw (fun h => ?_) (hwant.trans hnew.symm) fun d u hu hne => hone d u hu ?_
    · have hold : w.wanted = !v := h.trans hval
      simp [hwant] at hold
    · refine Decidable.byContradiction fun hm => hne ?_
      rw [getLsbD_maskedFlags, if_neg hm]
      rfl
  have hserved : FlagFile.served { s.flagFile with flags := maskedFlags v s.flags mask } w.flag c w.consuming =
      { flags := takenBack v w (maskedFlags v s.flags mask), waiters := s.waiters.set c none } := by
    have hvalue : FlagFile.value { s.flagFile with flags := maskedFlags v s.flags mask } w.flag = v := hnew
    unfold FlagFile.served takenBack
    rw [hvalue, FlagFile.unregister_singleton]
    cases w.consuming <;> cases v <;> rfl
  rw [FlagFile.followup_eq hw, hserved] at hwrite
  rw [exec_maskCommand hs, State.flagArrival_of_one hwrite]
  rfl

end

/-- Settles O13: the mask that reaches no waiter, the one that serves one waiter by what its service tells the chain, and
the evaluation of each flag as a change of it alone. -/
theorem hostMaskSetsAndClearsFlags : Obligations.HostMaskSetsAndClearsFlags := by
  unfold Obligations.HostMaskSetsAndClearsFlags
  refine ⟨fun mask s hs hfree => ⟨exec_maskCommand_unwaited (v := true) hs hfree, exec_maskCommand_unwaited (v := false) hs hfree⟩,
    fun v mask c w s hs hw hmask hwant hval hone => ?served,
    fun mask s hs => ⟨exec_maskCommand (v := true) hs, exec_maskCommand (v := false) hs⟩, fun level new ff => ?each⟩
  case served =>
    have hexec := exec_maskCommand_single hs hw hmask hwant hval hone
    refine ⟨fun j hk hj => hexec.trans ?_, fun r hk hcons ha => hexec.trans ?_, fun hk hcons ha => hexec.trans ?_⟩
    · rw [if_neg (by simp [hk]), State.runFollowup_passed (s := s.withFlagFile _) hj]
      rfl
    · rw [if_pos hk, State.runFollowup, State.reReadAnchor_record (s := s.withFlagFile _) ha, takenBack, if_pos hcons]
      rfl
    · rw [if_pos hk, State.runFollowup, State.reReadAnchor_directory (s := s.withFlagFile _) ha, takenBack, if_pos hcons]
      rfl
  case each =>
    obtain ⟨hserved, hflags⟩ := FlagFile.hostWrite_each level new ff
    refine ⟨hserved, fun f => ⟨(hflags f).1.1, fun c w hw hf => ?_⟩⟩
    obtain ⟨hagree, hin, hin'⟩ := hflags f
    exact hagree.waiters_eq hin hin' hw hf

/-! ## One change of a flag (02 R36 to R38) -/

section
variable {level : ChainId → Nat} {f : FlagId} {v : Bool} {ff : FlagFile}

/-- The chains whose waiter stands on the flag, with this consuming field. -/
def FlagFile.standing (ff : FlagFile) (f : FlagId) (k : Bool) : List ChainId :=
  allChains.filter fun d => match ff.waiters[d] with
    | some w => w.flag == f && w.consuming == k
    | none => false

theorem FlagFile.mem_standing {k : Bool} {c : ChainId} :
    c ∈ ff.standing f k ↔ ∃ w, ff.waiters[c] = some w ∧ w.flag = f ∧ w.consuming = k := by
  unfold FlagFile.standing
  rw [List.mem_filter]
  cases h : ff.waiters[c] <;> simp [mem_allChains]

/-- Where every waiter on the flag wants the value it gets, the satisfied ones are those that stand on it. -/
theorem FlagFile.satisfied_put (hall : ∀ (c : ChainId) (w : Waiter), ff.waiters[c] = some w → w.flag = f → w.wanted = v)
    (k : Bool) : (ff.put f v).satisfied f k = ff.standing f k := by
  refine List.filter_congr fun c _ => ?_
  change (match ff.waiters[c] with
    | some w => w.flag == f && w.consuming == k && w.wanted == (ff.put f v).value f
    | none => false) = _
  rw [FlagFile.value_put, if_pos rfl]
  cases hw : ff.waiters[c] with
  | none => rfl
  | some w =>
    by_cases hf : w.flag = f
    · simp [hall c w hw hf]
    · simp [hf]

/-- The Flag File once the non-consuming waiters of the flag have been served. -/
def FlagFile.afterFree (ff : FlagFile) (f : FlagId) (v : Bool) : FlagFile :=
  (ff.put f v).unregister (ff.standing f false)

theorem FlagFile.afterFree_waiters (f : FlagId) (v : Bool) (c : ChainId) :
    (ff.afterFree f v).waiters[c] = if c ∈ ff.standing f false then none else ff.waiters[c] := by
  unfold FlagFile.afterFree
  rw [FlagFile.waiters_unregister]
  simp only [List.contains_iff_mem]
  rfl

/-- A consuming waiter does not stand among the non-consuming ones. -/
theorem FlagFile.not_mem_standing_free {c : ChainId} (h : c ∈ ff.standing f true) : c ∉ ff.standing f false := by
  intro hc
  obtain ⟨w, hw, -, hk⟩ := FlagFile.mem_standing.mp h
  obtain ⟨u, hu, -, hk'⟩ := FlagFile.mem_standing.mp hc
  obtain rfl : w = u := Option.some.inj (hw.symm.trans hu)
  exact absurd (hk.symm.trans hk') (by decide)

theorem FlagFile.afterFree_value (f : FlagId) (v : Bool) : (ff.afterFree f v).value f = v := by
  change (ff.put f v).value f = v
  rw [FlagFile.value_put, if_pos rfl]

theorem FlagFile.afterFree_satisfied
    (hall : ∀ (c : ChainId) (w : Waiter), ff.waiters[c] = some w → w.flag = f → w.wanted = v) :
    (ff.afterFree f v).satisfied f true = ff.standing f true := by
  rw [← FlagFile.satisfied_put hall true]
  refine List.filter_congr fun c _ => ?_
  change (match (ff.afterFree f v).waiters[c] with
    | some w => w.flag == f && w.consuming == true && w.wanted == (ff.afterFree f v).value f
    | none => false) = (match ff.waiters[c] with
    | some w => w.flag == f && w.consuming == true && w.wanted == (ff.put f v).value f
    | none => false)
  rw [FlagFile.afterFree_waiters, FlagFile.afterFree_value, FlagFile.value_put, if_pos rfl]
  by_cases hc : c ∈ ff.standing f false
  · obtain ⟨w, hw, -, hk⟩ := FlagFile.mem_standing.mp hc
    rw [if_pos hc, hw]
    simp [hk]
  · rw [if_neg hc]

/-- A consuming service takes the flag back, and every waiter left on it wants the value it had: nobody else is served. -/
theorem FlagFile.evaluate_takenBack
    (hall : ∀ (c : ChainId) (w : Waiter), ff.waiters[c] = some w → w.flag = f → w.wanted = v) (c : ChainId) (fuel : Nat) :
    FlagFile.evaluate level f fuel (((ff.afterFree f v).unregister [c]).put f (!v)) =
      (((ff.afterFree f v).unregister [c]).put f (!v), []) := by
  have hnil := FlagFile.satisfied_eq_nil (f := f) (ff := ((ff.afterFree f v).unregister [c]).put f (!v)) ?_
  · exact FlagFile.evaluate_of_satisfied_nil (hnil false) (hnil true) fuel
  · intro d u hu hf
    have hu' : ff.waiters[d] = some u := by
      change ((ff.afterFree f v).unregister [c]).waiters[d] = some u at hu
      exact FlagFile.unregister_within (ff.put f v) _ d u (FlagFile.unregister_within _ _ d u hu)
    rw [FlagFile.value_put, if_pos rfl, hall d u hu' hf]
    cases v <;> decide

/-- 02 R36 to R38, where every waiter on the flag wants its new value: the non-consuming ones are served, and then one
consuming one by priority. -/
theorem FlagFile.change_eq (hv : ff.value f ≠ v)
    (hall : ∀ (c : ChainId) (w : Waiter), ff.waiters[c] = some w → w.flag = f → w.wanted = v) :
    ff.change level f v = match bestChain level (ff.standing f true) with
      | none => (ff.afterFree f v, (ff.standing f false).map ff.followup)
      | some c => (((ff.afterFree f v).unregister [c]).put f (!v), (ff.standing f false).map ff.followup ++ [ff.followup c]) := by
  unfold FlagFile.change
  rw [if_neg hv, FlagFile.evaluate]
  simp only [FlagFile.satisfied_put hall false]
  change (match bestChain level ((ff.afterFree f v).satisfied f true) with
    | none => _
    | some c => _) = _
  rw [FlagFile.afterFree_satisfied hall]
  cases hbest : bestChain level (ff.standing f true) with
  | none => rfl
  | some c =>
    have hfollow : (ff.afterFree f v).followup c = ff.followup c := by
      unfold FlagFile.followup
      rw [FlagFile.afterFree_waiters, if_neg (FlagFile.not_mem_standing_free (mem_bestChain hbest))]
    change ((FlagFile.evaluate level f 4 (((ff.afterFree f v).unregister [c]).put f (!(ff.afterFree f v).value f))).1,
      (ff.standing f false).map ff.followup ++ (ff.afterFree f v).followup c ::
        (FlagFile.evaluate level f 4 (((ff.afterFree f v).unregister [c]).put f (!(ff.afterFree f v).value f))).2) = _
    rw [FlagFile.afterFree_value, FlagFile.evaluate_takenBack hall, hfollow]

/-- A change of one flag leaves every other flag, and the waiters on it, alone. -/
theorem FlagFile.change_elsewhere {g : FlagId} (hne : g ≠ f) (v : Bool) (ff : FlagFile) :
    (ff.change level f v).1.agreesOn g ff := by
  unfold FlagFile.change
  split
  · exact .refl g ff
  · refine (FlagFile.evaluate_elsewhere level hne 5 _).trans ⟨?_, fun _ => rfl⟩
    rw [FlagFile.value_put, if_neg hne]

/-- Every waiter that stands on the flag without consuming it is served. -/
theorem FlagFile.change_serves_free (hv : ff.value f ≠ v)
    (hall : ∀ (c : ChainId) (w : Waiter), ff.waiters[c] = some w → w.flag = f → w.wanted = v) {c : ChainId}
    (hc : c ∈ ff.standing f false) :
    (ff.change level f v).1.waiters[c] = none ∧ ff.followup c ∈ (ff.change level f v).2 := by
  have hmem : ff.followup c ∈ (ff.standing f false).map ff.followup := List.mem_map_of_mem hc
  have hgone : (ff.afterFree f v).waiters[c] = none := by rw [FlagFile.afterFree_waiters, if_pos hc]
  rw [FlagFile.change_eq hv hall]
  cases bestChain level (ff.standing f true) with
  | none => exact ⟨hgone, hmem⟩
  | some d =>
    refine ⟨?_, List.mem_append_left _ hmem⟩
    change ((ff.afterFree f v).unregister [d]).waiters[c] = none
    rw [FlagFile.waiters_unregister, hgone, ite_self]

/-- With no consuming waiter on the flag it keeps its new value. -/
theorem FlagFile.change_of_no_taker (hv : ff.value f ≠ v)
    (hall : ∀ (c : ChainId) (w : Waiter), ff.waiters[c] = some w → w.flag = f → w.wanted = v)
    (hfree : ff.standing f true = []) :
    ff.change level f v = (ff.afterFree f v, (ff.standing f false).map ff.followup) := by
  rw [FlagFile.change_eq hv hall, hfree]
  rfl

/-- With consuming waiters on the flag the one of the chain of highest priority is served, and takes the flag back. -/
theorem FlagFile.change_of_taker (hv : ff.value f ≠ v)
    (hall : ∀ (c : ChainId) (w : Waiter), ff.waiters[c] = some w → w.flag = f → w.wanted = v) {c : ChainId}
    (hc : c ∈ ff.standing f true)
    (hbest : ∀ d ∈ ff.standing f true, d ≠ c → level c < level d ∨ (level c = level d ∧ c < d)) :
    ff.change level f v =
      (((ff.afterFree f v).unregister [c]).put f (!v), (ff.standing f false).map ff.followup ++ [ff.followup c]) := by
  have hfirst : bestChain level (ff.standing f true) = some c :=
    bestChain_eq_some (allChains_filter_increasing _) hc hbest
  rw [FlagFile.change_eq hv hall, hfirst]

end

/-- The chains that O14 calls served. -/
theorem FlagFile.standing_free_eq (ff : FlagFile) (f : FlagId) :
    (allChains.filter fun d => match ff.waiters[d] with
      | some w => w.flag == f && !w.consuming
      | none => false) = ff.standing f false := by
  refine List.filter_congr fun d _ => ?_
  cases ff.waiters[d] with
  | none => rfl
  | some w => cases hk : w.consuming <;> simp [hk]

/-- 02 R34: a registered waiter whose wanted value holds is served at once. -/
theorem FlagFile.register_of_satisfied {ff : FlagFile} {w : Waiter} (level : ChainId → Nat) (c : ChainId)
    (h : ff.value w.flag = w.wanted) :
    FlagFile.register level c w ff =
      (if w.consuming then ((ff.change level w.flag (!w.wanted)).1,
        (if w.kind = .wake then Followup.wake c else .passed c) :: (ff.change level w.flag (!w.wanted)).2)
       else (ff, [if w.kind = .wake then Followup.wake c else .passed c])) := by
  unfold FlagFile.register
  rw [if_pos h]

/-- Settles O14: the change by the two cases of a consuming waiter, the registration by whether the value holds, and the
arrivals by a permutation of what they serve. -/
theorem flagChangeServesWaitersByRule : Obligations.FlagChangeServesWaitersByRule := by
  unfold Obligations.FlagChangeServesWaitersByRule
  refine ⟨fun level f v ff hv hall => ?change, fun level f ff => if_pos rfl, fun c w ff hw => FlagFile.followup_eq hw,
    fun level c w ff => ⟨FlagFile.register_waits, fun h hk => ?keeps, fun h hk => ?consumes⟩,
    fun op also s => ⟨_, _, arrange_perm _ _ _, rfl⟩,
    fun c s => ⟨fun j => State.runFollowup_passed, fun r => State.reReadAnchor_record, State.reReadAnchor_directory, rfl⟩⟩
  case keeps => rw [FlagFile.register_of_satisfied level c h, if_neg (by simp [hk])]
  case consumes => rw [FlagFile.register_of_satisfied level c h, if_pos hk]
  case change =>
    have serves : (allChains.filter fun d => match ff.waiters[d] with
        | some w => w.flag == f && !w.consuming
        | none => false).map ff.followup = (ff.standing f false).map ff.followup :=
      congrArg (List.map ff.followup) (ff.standing_free_eq f)
    refine ⟨fun c w hw hf hk => ?free, fun hfree => ?noTaker, fun c w hw hf hk hbest => ?taker, fun g hg => ?value,
      fun c w hw hf => ?waiter⟩
    case free => exact FlagFile.change_serves_free hv hall (FlagFile.mem_standing.mpr ⟨w, hw, hf, hk⟩)
    case noTaker =>
      have hnone : ff.standing f true = [] := by
        rw [List.eq_nil_iff_forall_not_mem]
        intro c hc
        obtain ⟨w, hw, hf, hk⟩ := FlagFile.mem_standing.mp hc
        exact absurd (hk.symm.trans (hfree c w hw hf)) (by decide)
      rw [FlagFile.change_of_no_taker hv hall hnone]
      exact ⟨FlagFile.afterFree_value f v, serves.symm⟩
    case taker =>
      have hchange := FlagFile.change_of_taker hv hall (FlagFile.mem_standing.mpr ⟨w, hw, hf, hk⟩) fun d hd hne => by
        obtain ⟨u, hu, hfu, hku⟩ := FlagFile.mem_standing.mp hd
        exact hbest d u hu hfu hku hne
      rw [hchange]
      refine ⟨?_, ?_, congrArg (· ++ [ff.followup c]) serves.symm, fun d u hu hfu hku hne => ?_⟩
      · rw [FlagFile.value_put, if_pos rfl]
      · change ((ff.afterFree f v).unregister [c]).waiters[c] = none
        simp [FlagFile.waiters_unregister, -Fin.getElem_fin]
      · change ((ff.afterFree f v).unregister [c]).waiters[d] = some u
        rw [FlagFile.waiters_unregister, if_neg (by simp [hne]), FlagFile.afterFree_waiters,
          if_neg (FlagFile.not_mem_standing_free (FlagFile.mem_standing.mpr ⟨u, hu, hfu, hku⟩)), hu]
    case value => exact (FlagFile.change_elsewhere hg v ff).1
    case waiter => exact (FlagFile.change_elsewhere hf v ff).symm.waiter hw rfl

/-! ## Post actions (02 R42 to R45) -/

theorem Code.isFault_iff (code : Code) : code.isFault = true ↔ code ≠ .ok ∧ code ≠ .skipped ∧ code ≠ .aborted := by
  cases code <;> decide

/-- The operations of the fault flag, after those of the post actions (02 R45). -/
theorem faultFlagOps_eq (code : Code) (faultFlag : Option FlagId) :
    (if code.isFault then (faultFlag.toList.map fun f => (f, FlagOp.set)) else []) =
      (match faultFlag with
        | some f => if code = .ok ∨ code = .skipped ∨ code = .aborted then [] else [(f, .set)]
        | none => []) := by
  cases faultFlag with
  | none => exact ite_self _
  | some f => cases code <;> rfl

theorem retireOps_of_none {j : Job} {code : Code} (h : code = .badRecord ∨ j.actions = []) (faultFlag : Option FlagId) :
    retireOps j code faultFlag = if code.isFault then (faultFlag.toList.map fun f => (f, FlagOp.set)) else [] := by
  unfold retireOps
  obtain h | h := h
  · rw [if_pos h, List.nil_append]
  · rw [h, List.filter_nil, List.map_nil, ite_self, List.nil_append]

theorem retireOps_cons {j : Job} {code : Code} {a : PostAction} {rest : List PostAction} (hc : code ≠ .badRecord)
    (ha : j.actions = a :: rest) (faultFlag : Option FlagId) :
    retireOps j code faultFlag = (if a.condition.holds code j.flags then [(a.flag, a.op)] else []) ++
      retireOps { j with actions := rest } code faultFlag := by
  unfold retireOps
  rw [if_neg hc, if_neg hc, ha, List.filter_cons, ← List.append_assoc]
  cases a.condition.holds code j.flags <;> rfl

theorem FlagFile.apply_eq_change (level : ChainId → Nat) (f : FlagId) (op : FlagOp) (ff : FlagFile) :
    ff.apply level f op = ff.change level f (match op with
      | .set => true
      | .clear => false
      | .toggle => !ff.value f) := by
  cases op <;> rfl

/-- Settles O15: the conditions code by code, the operations along the list of post actions. -/
theorem postActionsAppliedByRetire : Obligations.PostActionsAppliedByRetire := by
  unfold Obligations.PostActionsAppliedByRetire
  refine ⟨fun code r => ⟨rfl, beq_iff_eq, beq_iff_eq, code.isFault_iff, rfl, rfl, rfl, rfl, rfl⟩,
    fun j code faultFlag => ⟨fun a rest hc ha => retireOps_cons hc ha faultFlag, fun h => ?ends⟩, fun level ff => rfl,
    fun level f op rest ff => ?each⟩
  case ends => exact (retireOps_of_none h faultFlag).trans (faultFlagOps_eq code faultFlag)
  case each =>
    exact congrArg (fun one => ((FlagFile.applyAll level rest one.1).1, one.2 ++ (FlagFile.applyAll level rest one.1).2))
      (FlagFile.apply_eq_change level f op ff)

end Sys2Proof.Machine
end

section
/-! PROOFS. The end of a job's work and the start of its retire (01 R10 to R12, R15, R24, log 6): one equation for each outcome
of `State.afterWork`. -/

namespace Sys2Proof.Machine

open Sys2Proof.Statements

section
variable {s : State} {c : ChainId} {j : Job}

/-! ## The homes of chains and jobs -/

/-- A change of a job context that is there. -/
theorem State.updJob_of_job (hj : s.job c = some j) (f : Job → Job) : s.updJob c f = s.setJob c (some (f j)) := by
  unfold State.updJob
  rw [hj]
  rfl

theorem State.setJob_setJob (s : State) (c : ChainId) (j k : Option Job) : (s.setJob c j).setJob c k = s.setJob c k :=
  congrArg (fun v => { s with jobs := v }) (Vector.set_set ..)

/-! ## The writes of the Chain Unit -/

/-- 01 R13: the outcome write of a chain's job, which enters REPORTING. -/
theorem State.issueOutcome_of_job (hj : s.job c = some j) (o : OutcomeState) (byAbort : Bool) :
    s.issueOutcome c o byAbort = { s with
      jobs := s.jobs.set c (some { j with phase := .reporting })
      accesses := s.accesses ++ [writeAccess (.outcomeWrite o byAbort) c (j.record + 8)
        (outcomeBytes o (j.code.getD .ok) j.flags j.linesDone)] } := by
  unfold State.issueOutcome
  rw [hj]
  rfl

/-! ## The start of a retire (01 R11, R12, R15) -/

/-- A job that halts its chain writes its outcome at once. -/
theorem State.beginRetire_of_halts (hj : s.job c = some j) (hh : j.haltsChain = true) :
    s.beginRetire c = { s with
      chains := s.chains.set c { s.chain c with state := .active, resume := none, pauseMark := false }
      jobs := s.jobs.set c (some { j with phase := .reporting })
      accesses := s.accesses ++ [writeAccess (.outcomeWrite .doneHeld false) c (j.record + 8)
        (outcomeBytes .doneHeld (j.code.getD .ok) j.flags j.linesDone)] } := by
  unfold State.beginRetire
  rw [hj]
  dsimp only
  rw [if_pos hh, State.issueOutcome_of_job (State.job_setJob_self _ _ _)]
  rw [State.setJob_jobs, Vector.set_set]
  rfl

/-- Any other job re-reads the link of its record. -/
theorem State.beginRetire_of_not_halts (hj : s.job c = some j) (hh : j.haltsChain = false) :
    s.beginRetire c = { s with
      chains := s.chains.set c { s.chain c with state := .active, resume := none, pauseMark := false }
      jobs := s.jobs.set c (some { j with phase := .reporting })
      accesses := s.accesses ++ [readAccess .linkReRead c j.record 8] } := by
  unfold State.beginRetire
  rw [hj]
  dsimp only
  rw [if_neg (Bool.eq_false_iff.mp hh)]
  rfl

/-! ## What follows the end of work (01 R11, R24, R26) -/

theorem State.afterWork_of_aborting (hj : s.job c = some j) (ha : (s.chain c).state = .aborting) :
    s.afterWork c = s.issueOutcome c .doneFree true := by
  unfold State.afterWork
  rw [hj]
  exact if_pos ha

theorem State.afterWork_of_paused (hj : s.job c = some j) (ha : (s.chain c).state ≠ .aborting)
    (hp : (s.chain c).state = .paused ∨ (s.chain c).pauseMark = true) (hh : j.haltsChain = false) :
    s.afterWork c = { s with
      chains := s.chains.set c { s.chain c with state := .paused, resume := some .readNext, pauseMark := false } } := by
  unfold State.afterWork
  rw [hj]
  dsimp only
  rw [if_neg ha, if_pos ⟨hp, hh⟩]
  rfl

/-- The retire begins for a job that halts its chain, and for any job of a chain that no pause holds. -/
theorem State.afterWork_of_retire (hj : s.job c = some j) (ha : (s.chain c).state ≠ .aborting)
    (h : j.haltsChain = true ∨ ((s.chain c).state ≠ .paused ∧ (s.chain c).pauseMark = false)) :
    s.afterWork c = s.beginRetire c := by
  unfold State.afterWork
  rw [hj]
  dsimp only
  rw [if_neg ha, if_neg]
  rintro ⟨hp, hh⟩
  obtain h | ⟨hn, hm⟩ := h
  · exact Bool.false_ne_true (hh.symm.trans h)
  · obtain hp | hp := hp
    · exact hn hp
    · exact Bool.false_ne_true (hm.symm.trans hp)

/-! ## The ends of a job's work, the job having become `k` -/

theorem State.afterWork_setJob_aborting (s : State) (c : ChainId) (k : Job) (ha : (s.chain c).state = .aborting) :
    (s.setJob c (some k)).afterWork c = { s with
      jobs := s.jobs.set c (some { k with phase := .reporting })
      accesses := s.accesses ++ [writeAccess (.outcomeWrite .doneFree true) c (k.record + 8)
        (outcomeBytes .doneFree (k.code.getD .ok) k.flags k.linesDone)] } := by
  have hk := State.job_setJob_self s c (some k)
  rw [State.afterWork_of_aborting hk ha, State.issueOutcome_of_job hk, State.setJob_jobs, Vector.set_set]
  rfl

theorem State.afterWork_setJob_paused (s : State) (c : ChainId) (k : Job) (ha : (s.chain c).state ≠ .aborting)
    (hp : (s.chain c).state = .paused ∨ (s.chain c).pauseMark = true) (hh : k.haltsChain = false) :
    (s.setJob c (some k)).afterWork c = { s with
      chains := s.chains.set c { s.chain c with state := .paused, resume := some .readNext, pauseMark := false }
      jobs := s.jobs.set c (some k) } :=
  State.afterWork_of_paused (State.job_setJob_self s c (some k)) ha hp hh

theorem State.afterWork_setJob_halts (s : State) (c : ChainId) (k : Job) (ha : (s.chain c).state ≠ .aborting)
    (hh : k.haltsChain = true) :
    (s.setJob c (some k)).afterWork c = { s with
      chains := s.chains.set c { s.chain c with state := .active, resume := none, pauseMark := false }
      jobs := s.jobs.set c (some { k with phase := .reporting })
      accesses := s.accesses ++ [writeAccess (.outcomeWrite .doneHeld false) c (k.record + 8)
        (outcomeBytes .doneHeld (k.code.getD .ok) k.flags k.linesDone)] } := by
  have hk := State.job_setJob_self s c (some k)
  rw [State.afterWork_of_retire hk ha (.inl hh), State.beginRetire_of_halts hk hh, State.setJob_jobs, Vector.set_set]
  rfl

theorem State.afterWork_setJob_relinks (s : State) (c : ChainId) (k : Job) (ha : (s.chain c).state ≠ .aborting)
    (hp : (s.chain c).state ≠ .paused) (hm : (s.chain c).pauseMark = false) (hh : k.haltsChain = false) :
    (s.setJob c (some k)).afterWork c = { s with
      chains := s.chains.set c { s.chain c with state := .active, resume := none, pauseMark := false }
      jobs := s.jobs.set c (some { k with phase := .reporting })
      accesses := s.accesses ++ [readAccess .linkReRead c k.record 8] } := by
  have hk := State.job_setJob_self s c (some k)
  rw [State.afterWork_of_retire hk ha (.inr ⟨hp, hm⟩), State.beginRetire_of_not_halts hk hh, State.setJob_jobs,
    Vector.set_set]
  rfl

theorem State.finishWork_of_job (hj : s.job c = some j) : s.finishWork c = (s.setJob c (some j.finish)).afterWork c := by
  unfold State.finishWork
  rw [State.updJob_of_job hj]

theorem State.endUnadmitted_of_job (hj : s.job c = some j) (code : Code) :
    s.endUnadmitted c code = (s.setJob c (some (j.finishUnadmitted code))).afterWork c := by
  unfold State.endUnadmitted
  rw [State.updJob_of_job hj]

end

/-! ## The job at the end of its work (01 Table 1-5, R11, R28) -/

theorem Job.finish_linesDone (j : Job) : j.finish.linesDone = (match j.kind, j.load with
    | some .convert, _ => j.stored.prefixLen
    | some .copy, _ => j.stored.prefixLen
    | some .table, some load => load.entriesLoaded
    | _, _ => 0) := by
  change j.workLines = _
  unfold Job.workLines
  cases j.kind with
  | none => rfl
  | some k => cases k <;> cases j.load <;> rfl

/-- Only a line job has lines, and ZERO asks for one at the front. -/
theorem Job.finish_flags (j : Job) : j.finish.flags = { j.flags with
    zero := decide ((j.kind = some .convert ∨ j.kind = some .copy) ∧ 1 ≤ j.stored.prefixLen ∧
      j.stored.zeroSoFar = true) } := by
  change { j.flags with zero := j.isLine && decide (1 ≤ j.workLines) && j.stored.zeroSoFar } = _
  unfold Job.isLine Job.workLines
  cases j.kind with
  | none => rfl
  | some k => cases k <;> simp [Bool.decide_and]

theorem Job.finish_code (j : Job) : j.finish.code = some (match j.firstFault with
    | some code => code
    | none => if j.abortRequested then .aborted else .ok) := rfl

/-- A job halts its chain when its code is a fault and its policy HALT. -/
theorem Job.haltsChain_iff {k : Job} {code : Code} (h : k.code = some code) :
    k.haltsChain = true ↔ k.onFault = .halt ∧ code ∉ [Code.ok, .skipped, .aborted] := by
  unfold Job.haltsChain Job.faulted
  rw [h]
  simp [Code.isFault_iff, and_comm]

theorem Job.finish_haltsChain_iff (j : Job) : j.finish.haltsChain = true ↔ j.onFault = .halt ∧
    ∃ code, j.firstFault = some code ∧ code ∉ [Code.ok, .skipped, .aborted] := by
  rw [Job.haltsChain_iff j.finish_code]
  refine and_congr_right fun _ => ?_
  cases j.firstFault with
  | some code => simp
  | none => cases j.abortRequested <;> simp

/-- A job retired without admission, but for an ABORT: its code is its first fault where it is a fault. -/
theorem Job.finishUnadmitted_eq (j : Job) {code : Code} (h : code ≠ .aborted) :
    j.finishUnadmitted code = { j with
      ended := true, code := some code, linesDone := 0, flags := .none
      firstFault := if code = .ok ∨ code = .skipped then j.firstFault else some code } := by
  have hfault : (if code.isFault then some code else j.firstFault) =
      if code = .ok ∨ code = .skipped then j.firstFault else some code := by
    by_cases hc : code = .ok ∨ code = .skipped
    · rw [if_pos hc, if_neg]
      obtain rfl | rfl := hc <;> decide
    · rw [if_neg hc, if_pos (code.isFault_iff.mpr ⟨fun e => hc (.inl e), fun e => hc (.inr e), h⟩)]
  unfold Job.finishUnadmitted
  rw [hfault]

/-- Settles O28: the job at its end field by field, and each end by the outcome of `State.afterWork` it meets. -/
theorem endOfWorkBeginsRetire : Obligations.EndOfWorkBeginsRetire := by
  unfold Obligations.EndOfWorkBeginsRetire
  intro c j s hj
  have hfinish := State.finishWork_of_job hj
  refine ⟨rfl, j.finish_linesDone, j.finish_flags, j.finish_code, fun ha hm hh => ?retire, j.finish_haltsChain_iff,
    fun ha hh => ?halts, fun hp hh => ?paused, fun ha => ?aborting, fun code hcode => ?unadmitted⟩
  case retire => exact hfinish.trans (s.afterWork_setJob_relinks c _ (by simp [ha]) (by simp [ha]) hm hh)
  case halts =>
    refine hfinish.trans (s.afterWork_setJob_halts c _ (fun h => ?_) hh)
    obtain ha | ha := ha <;> cases ha.symm.trans h
  case paused =>
    refine hfinish.trans (s.afterWork_setJob_paused c _ (fun h => ?_) (hp.imp_right And.right) hh)
    obtain ha | ⟨ha, -⟩ := hp <;> cases ha.symm.trans h
  case aborting => exact hfinish.trans (s.afterWork_setJob_aborting c _ ha)
  case unadmitted =>
    have hend := State.endUnadmitted_of_job hj code
    rw [j.finishUnadmitted_eq hcode] at hend
    intro k halts
    have hiff : k.haltsChain = true ↔ halts := by
      have hmem : code ∉ [Code.ok, .skipped, .aborted] ↔ code ≠ .ok ∧ code ≠ .skipped := by simp [hcode]
      rw [Job.haltsChain_iff (k := k) (code := code) rfl, hmem, and_comm, and_assoc]
    refine ⟨fun ha hh => ?_, fun ha hp hm hh => ?_, fun ha hp hh => ?_⟩
    · exact hend.trans (s.afterWork_setJob_halts c k ha (hiff.mpr hh))
    · exact hend.trans (s.afterWork_setJob_relinks c k ha hp hm (Bool.eq_false_iff.mpr (hh ∘ hiff.mp)))
    · exact hend.trans (s.afterWork_setJob_paused c k ha hp (Bool.eq_false_iff.mpr (hh ∘ hiff.mp)))

end Sys2Proof.Machine
end

section
/-! PROOFS. The chain commands (01 section 1.9): what START, PAUSE, RESUME and ABORT do to a chain that has no admitted job at
work, and the operations of the Chain Unit that they share with the answers to its accesses. -/

namespace Sys2Proof.Machine

open Sys2Proof.Statements

section
variable {s : State} {c : ChainId}

/-! ## Writing out an update of the chain context -/

/-- Two updates of one chain's context, written out. -/
theorem State.updChain_twice (s : State) (c : ChainId) (f g : Chain → Chain) :
    (s.updChain c f).updChain c g = { s with chains := s.chains.set c (g (f (s.chain c))) } :=
  State.updChain_updChain s c f g

/-- A job context that is not there is not changed. -/
theorem State.updJob_of_no_job (hj : s.job c = none) (f : Job → Job) : s.updJob c f = s := by
  have hself : s.jobs.set c (s.job c) = s.jobs := Vector.set_getElem_self ..
  unfold State.updJob State.setJob
  rw [hj, Option.map_none, ← hj, hself]

/-! ## Shared operations of the Chain Unit -/

/-- 01 R18: a release is written and its anchor becomes absent. -/
theorem State.issueRelease_eq (s : State) (c : ChainId) (r : PhysAddr) (n : ReleaseNext) :
    s.issueRelease c r n = { s with
      chains := s.chains.set c { s.chain c with anchor := none }
      accesses := s.accesses ++ [writeAccess (.releaseWrite n r) c (r + 8) [0x03]] } := rfl

/-- 01 R27: the status write of the end of an abort. -/
theorem State.finishAbort_eq (s : State) (c : ChainId) :
    s.finishAbort c = { s with accesses := s.accesses ++ [statusAccess s c .abortEnd .idle 0] } := rfl

/-- 01 R16: an entry into PARKED that writes the status entry. -/
theorem State.park_writing (s : State) (c : ChainId) (a : Anchor) :
    s.park c a true = { s with
      chains := s.chains.set c { s.chain c with state := .parked, inHand := none, anchor := some a }
      accesses := s.accesses ++ [statusAccess s c .park .parked (anchorAddress a)] } := by
  unfold State.park State.issueStatus
  rw [if_pos rfl, State.chain_updChain_self]
  cases a with
  | directory => rfl
  | record r => rfl

/-- 01 R4: the record at the next record address is read. -/
theorem State.readRecord_of_next {a : PhysAddr} (h : (s.chain c).next = some a) :
    s.readRecord c = { s with
      chains := s.chains.set c { s.chain c with state := .reading, inHand := some a, anchor := none, next := none }
      accesses := s.accesses ++ [readAccess .headerRead c a 32] } := by
  unfold State.readRecord
  rw [h]
  rfl

/-- An anchor that stands in the chain context is not changed by setting it again. -/
theorem Chain.withAnchor_self {x : Chain} {a : Option Anchor} (h : x.anchor = a) : { x with anchor := a } = x := by
  subst h
  rfl

/-! ## Claims withdrawn (01 R21, R26) -/

theorem State.leaveTableGate_of_not_has (h : s.tableGate.has c = false) : s.leaveTableGate c = s :=
  if_neg (Bool.eq_false_iff.mp h)

theorem State.leaveReplGate_of_not_has (h : s.replGate.has c = false) : s.leaveReplGate c = s :=
  if_neg (Bool.eq_false_iff.mp h)

theorem State.awaitsAdmission_of_job {j : Job} (hj : s.job c = some j) :
    s.awaitsAdmission c = (j.phase == .admitting && !j.ended) := by
  unfold State.awaitsAdmission
  rw [hj]

theorem State.awaitsAdmission_of_no_job (hj : s.job c = none) : s.awaitsAdmission c = false := by
  unfold State.awaitsAdmission
  rw [hj]

/-- A chain with no claim to withdraw withdraws its waiter alone. -/
theorem State.withdrawClaims_of_no_claim
    (h : s.awaitsAdmission c = false ∨ (s.tableGate.has c = false ∧ s.replGate.has c = false)) :
    s.withdrawClaims c = s.setWaiter c none := by
  unfold State.withdrawClaims
  dsimp only
  split
  · next ha =>
    obtain ⟨ht, hr⟩ := h.resolve_left fun hf => Bool.false_ne_true (hf.symm.trans ha)
    rw [State.leaveTableGate_of_not_has (s := s.setWaiter c none) ht,
      State.leaveReplGate_of_not_has (s := s.setWaiter c none) hr]
  · rfl

/-- A job not yet admitted leaves the gates. -/
theorem State.withdrawClaims_of_claim (h : s.awaitsAdmission c = true) :
    s.withdrawClaims c = ((s.setWaiter c none).leaveTableGate c).leaveReplGate c := if_pos h

/-! ## Which command each chain state takes (01 Table 1-6) -/

theorem ChainState.takesStart_iff (x : ChainState) : x.takesStart = true ↔ x ∈ [.idle, .halted, .broken] := by
  cases x <;> decide

theorem ChainState.takesPause_iff (x : ChainState) :
    x.takesPause = true ↔ x ∈ [.reading, .waiting, .active, .parked, .paused] := by
  cases x <;> decide

theorem ChainState.takesPause_eq_false_iff (x : ChainState) :
    x.takesPause = false ↔ x ∈ [.idle, .halted, .broken, .aborting] := by
  cases x <;> decide

theorem ChainState.takesResume_iff (x : ChainState) : x.takesResume = true ↔ x ∈ [.paused, .halted] := by
  cases x <;> decide

theorem ChainState.takesAbort_iff (x : ChainState) : x.takesAbort = true ↔ x ∉ [.idle, .aborting] := by
  cases x <;> decide

theorem exec_start (hs : s.softReset = false) (c : ChainId) : exec (.start c) s = .next
    (if (s.chain c).state.takesStart then (s.startChain c).accept 3 c else s.refuse .busy 3 c) :=
  congrArg Host.Outcome.next (State.hostWrite_taken hs _ _ _)

theorem exec_pause (hs : s.softReset = false) (c : ChainId) : exec (.pause c) s = .next
    (if (s.chain c).state.takesPause then (s.pauseChain c).accept 3 c else s.refuse .notRunning 3 c) :=
  congrArg Host.Outcome.next (State.hostWrite_taken hs _ _ _)

theorem exec_resume (hs : s.softReset = false) (c : ChainId) : exec (.resume c) s = .next
    (if (s.chain c).state.takesResume then (s.resumeChain c).accept 3 c else s.refuse .notPaused 3 c) :=
  congrArg Host.Outcome.next (State.hostWrite_taken hs _ _ _)

theorem exec_abort (hs : s.softReset = false) (c : ChainId) : exec (.abort c) s = .next
    (if (s.chain c).state.takesAbort then
      (if (s.chain c).state = .broken then s.abortBroken c else s.abortRunning c).accept 3 c
     else s.refuse .notRunning 3 c) :=
  congrArg Host.Outcome.next (State.hostWrite_taken hs _ _ _)

/-- A command whose outcome is chosen by a condition has the last result that the condition names. -/
theorem exists_lastResult {o : Host.Outcome State Fault Refusal} {b : Prop} [Decidable b] {t u : State} {r r' : LastResult}
    (ho : o = .next (if b then t else u)) (ht : t.lastResult = r) (hu : u.lastResult = r') :
    ∃ v, o = .next v ∧ v.lastResult = if b then r else r' := by
  refine ⟨_, ho, ?_⟩
  split
  · exact ht
  · exact hu

/-- Settles O16: each command by the states that take it. -/
theorem chainCommandAcceptance : Obligations.ChainCommandAcceptance := by
  unfold Obligations.ChainCommandAcceptance
  intro c s hs
  have hstart := exec_start hs c
  have hpause := exec_pause hs c
  have hresume := exec_resume hs c
  have habort := exec_abort hs c
  simp only [ChainState.takesStart_iff, ChainState.takesPause_iff, ChainState.takesResume_iff, ChainState.takesAbort_iff,
    ite_not] at hstart hpause hresume habort
  refine ⟨exists_lastResult hstart rfl rfl, exists_lastResult hpause rfl rfl, exists_lastResult hresume rfl rfl,
    exists_lastResult habort rfl rfl, fun h => ?_, fun h => ?_, fun h => ?_, fun h => ?_, fun h => ?_⟩
  · rw [hstart, if_neg h]
    rfl
  · rw [exec_pause hs, if_neg (Bool.eq_false_iff.mp ((ChainState.takesPause_eq_false_iff _).mpr h))]
    rfl
  · rw [exec_pause hs, State.pauseChain, h]
    rfl
  · rw [hresume, if_neg h]
    rfl
  · rw [habort, if_pos h]
    rfl

/-! ## START (01 R20) -/

theorem exec_start_of_takes (hs : s.softReset = false) (h : (s.chain c).state.takesStart = true) :
    exec (.start c) s = .next ((s.startChain c).accept 3 c) := by
  rw [exec_start hs, if_pos h]

theorem State.startChain_of_not_halted (h : (s.chain c).state ≠ .halted) :
    s.startChain c = { s with
      chains := s.chains.set c { s.chain c with state := .reading, breakReason := .none }
      accesses := s.accesses ++ [readAccess .directoryRead c (s.directoryAddress c) 32] } := by
  unfold State.startChain State.readDirectory
  dsimp only
  rw [if_neg h, State.updChain_twice]
  rfl

theorem State.startChain_of_halted {a : PhysAddr} (h : (s.chain c).state = .halted)
    (ha : (s.chain c).anchor = some (.record a)) :
    s.startChain c = { s with
      chains := s.chains.set c { s.chain c with state := .reading, breakReason := .none, anchor := none }
      accesses := s.accesses ++ [writeAccess (.releaseWrite .directory a) c (a + 8) [0x03]] } := by
  have hanchor : ((s.updChain c fun x => { x with breakReason := .none }).chain c).anchor = some (.record a) := by
    rw [State.chain_updChain_self]
    exact ha
  unfold State.startChain State.startHalted State.issueRelease
  dsimp only
  rw [if_pos h, hanchor]
  dsimp only
  rw [State.updChain_updChain, State.updChain_updChain]
  rfl

/-- Settles O17. -/
theorem startReadsDirectoryOrReleasesAnchor : Obligations.StartReadsDirectoryOrReleasesAnchor := by
  unfold Obligations.StartReadsDirectoryOrReleasesAnchor
  intro c s hs
  refine ⟨fun h => ?fresh, fun a h ha => ?halted⟩
  case fresh =>
    have hstate : (s.chain c).state.takesStart = true ∧ (s.chain c).state ≠ .halted := by
      obtain h | h := h <;> rw [h] <;> decide
    rw [exec_start_of_takes hs hstate.1, State.startChain_of_not_halted hstate.2]
    rfl
  case halted =>
    rw [exec_start_of_takes hs (by rw [h]; rfl), State.startChain_of_halted h ha]
    rfl

/-! ## PAUSE (01 R21, R22) -/

theorem exec_pause_of_takes (hs : s.softReset = false) (h : (s.chain c).state.takesPause = true) :
    exec (.pause c) s = .next ((s.pauseChain c).accept 3 c) := by
  rw [exec_pause hs, if_pos h]

theorem State.pauseChain_parked (h : (s.chain c).state = .parked) :
    s.pauseChain c = { s with
      chains := s.chains.set c { s.chain c with state := .paused, resume := some .park }
      waiters := s.waiters.set c none, accesses := s.accesses.map (redirected .nothing c) } := by
  unfold State.pauseChain
  rw [h]
  rfl

theorem State.isReporting_of_job {j : Job} (hj : s.job c = some j) : s.isReporting c = (j.phase == .reporting) := by
  unfold State.isReporting
  rw [hj]

theorem State.pauseChain_running {j : Job} (h : (s.chain c).state = .active) (hj : s.job c = some j)
    (hp : j.phase ≠ .reporting) : s.pauseChain c = s.enterPaused c .run := by
  unfold State.pauseChain
  rw [h]
  dsimp only
  rw [State.isReporting_of_job hj, if_neg (by simpa using hp)]

/-- READING, and REPORTING of an ACTIVE chain: the pause is deferred (01 R22). -/
theorem State.pauseChain_deferred {j : Job} (h : (s.chain c).state = .reading ∨
    (s.chain c).state = .active ∧ s.job c = some j ∧ j.phase = .reporting) :
    s.pauseChain c = s.updChain c fun x => { x with pauseMark := true } := by
  unfold State.pauseChain
  obtain h | ⟨h, hj, hp⟩ := h
  · rw [h]
  · rw [h]
    dsimp only
    rw [State.isReporting_of_job hj, hp, if_pos (beq_self_eq_true _)]

/-- A PAUSE in WAITING up to the withdrawal of the claims: the snapshots are discarded. -/
theorem State.pauseChain_waiting {j : Job} (h : (s.chain c).state = .waiting) (hj : s.job c = some j) :
    s.pauseChain c = ((s.enterPaused c .guard).setJob c
      (some { j with source := none, dest := none, coeff := none })).withdrawClaims c := by
  unfold State.pauseChain
  rw [h]
  dsimp only
  rw [State.pauseWaiting, State.updJob_of_job (s := s.enterPaused c .guard) hj]

/-- Settles O18: each chain state by its equation, WAITING by whether there is a claim to withdraw. -/
theorem pauseTakesChainByItsState : Obligations.PauseTakesChainByItsState := by
  unfold Obligations.PauseTakesChainByItsState
  intro c s hs
  refine ⟨fun h => ?parked, fun j h hj hp => ?running, fun j h => ?deferred, fun j h hj ht hr => ?noPlace,
    fun j h hj hp he => ?claim⟩
  case parked =>
    rw [exec_pause_of_takes hs (by rw [h]; rfl), State.pauseChain_parked h]
    rfl
  case running =>
    rw [exec_pause_of_takes hs (by rw [h]; rfl), State.pauseChain_running h hj hp]
    rfl
  case deferred =>
    have htakes : (s.chain c).state.takesPause = true := by obtain h | ⟨h, -⟩ := h <;> rw [h] <;> rfl
    rw [exec_pause_of_takes hs htakes, State.pauseChain_deferred h]
    rfl
  case noPlace =>
    rw [exec_pause_of_takes hs (by rw [h]; rfl), State.pauseChain_waiting h hj,
      State.withdrawClaims_of_no_claim (by exact .inr ⟨ht, hr⟩)]
    rfl
  case claim =>
    have hawaits : ((s.enterPaused c .guard).setJob c
        (some { j with source := none, dest := none, coeff := none })).awaitsAdmission c = true := by
      rw [State.awaitsAdmission_of_job (State.job_setJob_self _ _ _), hp, he]
      rfl
    rw [exec_pause_of_takes hs (by rw [h]; rfl), State.pauseChain_waiting h hj, State.withdrawClaims_of_claim hawaits]
    rfl

/-! ## RESUME (01 R25) -/

theorem exec_resume_of_halted (hs : s.softReset = false) (h : (s.chain c).state = .halted) :
    exec (.resume c) s = .next ((s.reReadAnchor c).accept 3 c) := by
  rw [exec_resume hs, if_pos (by rw [h]; rfl), State.resumeChain, if_pos h]

/-- A PAUSED chain leaves its resume point. -/
theorem exec_resume_of_paused (hs : s.softReset = false) (h : (s.chain c).state = .paused) :
    exec (.resume c) s = .next ((s.resumePaused c).accept 3 c) := by
  rw [exec_resume hs, if_pos (by rw [h]; rfl), State.resumeChain, if_neg (by rw [h]; decide)]

/-- The chain with its resume point dropped. -/
def State.unpaused (s : State) (c : ChainId) : State := s.updChain c fun x => { x with resume := none }

@[simp] theorem State.chain_unpaused (s : State) (c : ChainId) :
    (s.unpaused c).chain c = { s.chain c with resume := none } := State.chain_updChain_self ..

theorem State.resumePaused_readNext (h : (s.chain c).resume = some .readNext) :
    s.resumePaused c = (s.unpaused c).resumeReadNext c := by
  unfold State.resumePaused
  rw [h]
  rfl

theorem State.resumePaused_guard (h : (s.chain c).resume = some .guard) :
    s.resumePaused c = State.guardStep { s with
      chains := s.chains.set c { s.chain c with state := .waiting, resume := none } } c := by
  unfold State.resumePaused
  rw [h]
  dsimp only
  rw [State.updChain_twice]

theorem State.resumePaused_run (h : (s.chain c).resume = some .run) :
    s.resumePaused c = (s.unpaused c).resumeRun c := by
  unfold State.resumePaused
  rw [h]
  rfl

theorem State.resumePaused_park (h : (s.chain c).resume = some .park) :
    s.resumePaused c = (s.unpaused c).resumePark c := by
  unfold State.resumePaused
  rw [h]
  rfl

/-- RESUME at RUN: a TABLE job that awaits its resolution makes it. -/
theorem State.resumeRun_of_job {j : Job} (hj : s.job c = some j) :
    s.resumeRun c = if j.awaitsResolution then (s.updChain c fun x => { x with state := .active }).tableResolve c
      else s.updChain c fun x => { x with state := .active } := by
  unfold State.resumeRun
  dsimp only
  rw [State.job_updChain, hj]

theorem Job.awaitsResolution_iff (j : Job) : j.awaitsResolution = true ↔
    j.kind = some .table ∧ j.load = none ∧ j.held = false ∧ j.ended = false := by
  simp [Job.awaitsResolution, and_assoc]

/-- RESUME at PARK with no status write awaited. -/
theorem State.resumePark_writing {a : Anchor} (ha : (s.chain c).anchor = some a) (hw : s.awaitsParkStatus c = false) :
    s.resumePark c = s.park c a true := by
  unfold State.resumePark
  rw [ha]
  exact if_neg (Bool.eq_false_iff.mp hw)

/-- RESUME at PARK with a status write awaited (log 10). -/
theorem State.resumePark_awaiting {a : Anchor} (ha : (s.chain c).anchor = some a) (hw : s.awaitsParkStatus c = true) :
    s.resumePark c = { s with
      chains := s.chains.set c { s.chain c with state := .parked, inHand := none }
      accesses := s.accesses.map (redirected .parkAgain c) } := by
  unfold State.resumePark
  rw [ha]
  dsimp only
  rw [if_pos hw, ← ha]
  rfl

/-- Settles O19: each resume point by its equation, on the chain with its resume point dropped. -/
theorem resumeReturnsToResumePoint : Obligations.ResumeReturnsToResumePoint := by
  unfold Obligations.ResumeReturnsToResumePoint
  intro c s hs
  refine ⟨fun a h ha => ?halted, fun a h hp ha hw => ?park, fun a h hp ha hw => ?parkAgain, fun j h hp hj hk hl hh he => ?table,
    fun j h hp hj hk => ?run, fun a h hp hj hn => ?readNext, fun j h hp hj he hh => ?ended, fun h hp => ?guard⟩
  case halted =>
    rw [exec_resume_of_halted hs h, State.reReadAnchor_record ha]
    rfl
  case park =>
    have ha' : ((s.unpaused c).chain c).anchor = some a := by rw [State.chain_unpaused]; exact ha
    rw [exec_resume_of_paused hs h, State.resumePaused_park hp, State.resumePark_writing ha' hw, State.park_writing,
      State.unpaused, State.updChain_chains, Vector.set_set, statusAccess, State.chain_updChain_self, ← ha]
    rfl
  case parkAgain =>
    have ha' : ((s.unpaused c).chain c).anchor = some a := by rw [State.chain_unpaused]; exact ha
    rw [exec_resume_of_paused hs h, State.resumePaused_park hp, State.resumePark_awaiting ha' hw, State.chain_unpaused,
      State.unpaused, State.updChain_chains, Vector.set_set]
    rfl
  case table =>
    rw [exec_resume_of_paused hs h, State.resumePaused_run hp, State.resumeRun_of_job (s := s.unpaused c) hj,
      if_pos (j.awaitsResolution_iff.mpr ⟨hk, hl, hh, he⟩), State.unpaused, State.updChain_twice]
    rfl
  case run =>
    have hno : ¬ j.awaitsResolution = true := by
      intro haw
      obtain ⟨hkind, hl, hh, he⟩ := j.awaitsResolution_iff.mp haw
      have := hk hkind
      simp [hl, hh, he] at this
    rw [exec_resume_of_paused hs h, State.resumePaused_run hp, State.resumeRun_of_job (s := s.unpaused c) hj, if_neg hno,
      State.unpaused, State.updChain_twice]
    rfl
  case readNext =>
    have hn' : ((s.unpaused c).chain c).next = some a := by rw [State.chain_unpaused]; exact hn
    rw [exec_resume_of_paused hs h, State.resumePaused_readNext hp, State.resumeReadNext]
    change Host.Outcome.next (State.accept (match s.job c with
      | some j => _
      | none => _) 3 c) = _
    rw [hj]
    dsimp only
    rw [State.readRecord_of_next hn', State.chain_unpaused, State.unpaused, State.updChain_chains, Vector.set_set]
    rfl
  case ended =>
    rw [exec_resume_of_paused hs h, State.resumePaused_readNext hp, State.resumeReadNext]
    change Host.Outcome.next (State.accept (match s.job c with
      | some j => if j.ended then (s.unpaused c).beginRetire c else _
      | none => _) 3 c) = _
    rw [hj]
    dsimp only
    rw [if_pos he, State.beginRetire_of_not_halts (s := s.unpaused c) hj hh, State.chain_unpaused, State.unpaused,
      State.updChain_chains, Vector.set_set]
    rfl
  case guard =>
    rw [exec_resume_of_paused hs h, State.resumePaused_guard hp]
    rfl

end

end Sys2Proof.Machine
end

section
/-! PROOFS. ABORT (01 R26): what every abort does first, the abort of a chain with no admitted job at work, and the end of the
work of an admitted job (04 R85, 06 R117, 08 R154). -/

namespace Sys2Proof.Machine

open Sys2Proof.Statements

section
variable {s : State} {c : ChainId} {j : Job}

/-! ## What every abort does first -/

/-- The chain context of an abort as it begins. -/
def Chain.toAborting (x : Chain) : Chain := { x with state := .aborting, pauseMark := false, resume := none }

/-- The chain ABORTING with its waiter withdrawn. -/
def State.aborting (s : State) (c : ChainId) : State := (s.updChain c Chain.toAborting).setWaiter c none

@[simp] theorem State.chain_aborting (s : State) (c : ChainId) : (s.aborting c).chain c = (s.chain c).toAborting :=
  State.chain_updChain_self ..

@[simp] theorem State.job_aborting (s : State) (c d : ChainId) : (s.aborting c).job d = s.job d := rfl

/-- The job of a chain that has taken ABORT. -/
def Job.toAborted (j : Job) : Job := { j with abortRequested := true }

theorem State.enterAborting_of_no_job (hj : s.job c = none) : s.enterAborting c = s.aborting c := by
  have hj' : (s.updChain c Chain.toAborting).job c = none := hj
  unfold State.enterAborting
  change ((s.updChain c Chain.toAborting).updJob c Job.toAborted).withdrawClaims c = _
  rw [State.updJob_of_no_job hj', State.withdrawClaims_of_no_claim (.inl (State.awaitsAdmission_of_no_job hj'))]
  rfl

/-- A job that has no claim to withdraw keeps its places. -/
theorem State.enterAborting_of_no_claim (hj : s.job c = some j)
    (h : (j.phase ≠ .admitting ∨ j.ended = true) ∨ (s.tableGate.has c = false ∧ s.replGate.has c = false)) :
    s.enterAborting c = (s.aborting c).setJob c (some j.toAborted) := by
  have hj' : (s.updChain c Chain.toAborting).job c = some j := hj
  have hclaim : (j.toAborted.phase == .admitting && !j.toAborted.ended) = false ∨
      (s.tableGate.has c = false ∧ s.replGate.has c = false) := by
    refine h.imp_left fun h => ?_
    obtain h | h := h
    · simp [Job.toAborted, h]
    · simp [Job.toAborted, h]
  unfold State.enterAborting
  change ((s.updChain c Chain.toAborting).updJob c Job.toAborted).withdrawClaims c = _
  rw [State.updJob_of_job hj', State.withdrawClaims_of_no_claim]
  · rfl
  · rw [State.awaitsAdmission_of_job (State.job_setJob_self _ _ _)]
    exact hclaim

/-- A job not yet admitted leaves the gates. -/
theorem State.enterAborting_of_claim (hj : s.job c = some j) (hp : j.phase = .admitting) (he : j.ended = false) :
    s.enterAborting c = (((s.aborting c).setJob c (some j.toAborted)).leaveTableGate c).leaveReplGate c := by
  have hj' : (s.updChain c Chain.toAborting).job c = some j := hj
  unfold State.enterAborting
  change ((s.updChain c Chain.toAborting).updJob c Job.toAborted).withdrawClaims c = _
  rw [State.updJob_of_job hj', State.withdrawClaims_of_claim]
  · rfl
  · rw [State.awaitsAdmission_of_job (State.job_setJob_self _ _ _)]
    simp [Job.toAborted, hp, he]

/-! ## ABORT by chain state -/

theorem exec_abort_of_broken (hs : s.softReset = false) (h : (s.chain c).state = .broken) :
    exec (.abort c) s = .next ((s.abortBroken c).accept 3 c) := by
  rw [exec_abort hs, if_pos (by rw [h]; rfl), if_pos h]

theorem exec_abort_of_running (hs : s.softReset = false)
    (h : (s.chain c).state ∉ [.idle, .aborting, .broken]) :
    exec (.abort c) s = .next ((s.abortRunning c).accept 3 c) := by
  have htakes : (s.chain c).state ∉ [.idle, .aborting] := fun hm => h (by
    simp only [List.mem_cons, List.not_mem_nil, or_false] at hm ⊢
    exact hm.imp_right .inl)
  have hbroken : (s.chain c).state ≠ .broken := fun hb => h (by simp [hb])
  rw [exec_abort hs, if_pos ((ChainState.takesAbort_iff _).mpr htakes), if_neg hbroken]

theorem State.abortRunning_waiting (h : (s.chain c).state = .waiting) :
    s.abortRunning c = (s.enterAborting c).abortRecord c := by
  unfold State.abortRunning
  dsimp only
  rw [h]

theorem State.abortRunning_reading (h : (s.chain c).state = .reading) : s.abortRunning c = s.enterAborting c := by
  unfold State.abortRunning
  dsimp only
  rw [h]

/-- PARKED and HALTED chains are at rest on their anchor. -/
theorem State.abortRunning_resting (h : (s.chain c).state = .parked ∨ (s.chain c).state = .halted) :
    s.abortRunning c = (s.enterAborting c).abortAnchor c := by
  unfold State.abortRunning
  dsimp only
  obtain h | h := h
  · rw [h]
  · rw [h]

theorem State.abortRunning_paused {p : Option ResumePoint} (h : (s.chain c).state = .paused)
    (hp : (s.chain c).resume = p) : s.abortRunning c = (s.enterAborting c).abortPaused c p := by
  unfold State.abortRunning
  dsimp only
  rw [h]
  dsimp only
  rw [hp]

theorem State.abortRunning_active (h : (s.chain c).state = .active) :
    s.abortRunning c = if (s.enterAborting c).isReporting c then s.enterAborting c else (s.enterAborting c).abortWork c := by
  unfold State.abortRunning
  dsimp only
  rw [h]

/-! ## The anchor of an abort (01 R26, log 10) -/

theorem State.abortAnchor_record {r : PhysAddr} (hw : s.awaitsParkStatus c = false)
    (ha : (s.chain c).anchor = some (.record r)) : s.abortAnchor c = s.issueRelease c r .abortEnd := by
  unfold State.abortAnchor
  rw [if_neg (Bool.eq_false_iff.mp hw), ha]

theorem State.abortAnchor_directory (hw : s.awaitsParkStatus c = false)
    (ha : (s.chain c).anchor = some .directory) : s.abortAnchor c = s.finishAbort c := by
  unfold State.abortAnchor
  rw [if_neg (Bool.eq_false_iff.mp hw), ha]

theorem State.abortAnchor_awaiting (hw : s.awaitsParkStatus c = true) :
    s.abortAnchor c = { s with accesses := s.accesses.map (redirected .abortAnchor c) } := if_pos hw

/-- ABORT of a chain at rest on its anchor: PARKED, HALTED, or PAUSED with PARK. -/
theorem exec_abort_of_resting (hs : s.softReset = false) (h : (s.chain c).state = .parked ∨ (s.chain c).state = .halted ∨
    ((s.chain c).state = .paused ∧ (s.chain c).resume = some .park)) (hj : s.job c = none) :
    exec (.abort c) s = .next (((s.aborting c).abortAnchor c).accept 3 c) := by
  have hrun : (s.chain c).state ∉ [.idle, .aborting, .broken] := by
    obtain h | h | ⟨h, -⟩ := h <;> simp [h]
  rw [exec_abort_of_running hs hrun]
  obtain h | h | ⟨h, hp⟩ := h
  · rw [State.abortRunning_resting (.inl h), State.enterAborting_of_no_job hj]
  · rw [State.abortRunning_resting (.inr h), State.enterAborting_of_no_job hj]
  · rw [State.abortRunning_paused h hp, State.enterAborting_of_no_job hj]
    rfl

/-- The end of an abort writes the status entry with the codes of the chain as the abort found it. -/
theorem State.finishAbort_aborting (s : State) (c : ChainId) : (s.aborting c).finishAbort c = { s with
    chains := s.chains.set c (s.chain c).toAborting, waiters := s.waiters.set c none
    accesses := s.accesses ++ [statusAccess s c .abortEnd .idle 0] } := by
  rw [State.finishAbort_eq, statusAccess, State.chain_aborting]
  rfl

/-- A record ended ABORTED has no lines done and no flags. -/
theorem Job.finishUnadmitted_aborted (k : Job) :
    k.finishUnadmitted .aborted = { k with ended := true, code := some .aborted, linesDone := 0, flags := .none } := by
  unfold Job.finishUnadmitted
  rw [if_neg (by decide)]

/-- The record of an abort that is not admitted (01 R26): its outcome is written. -/
theorem State.abortRecord_setJob (s : State) (c : ChainId) (k : Job) : (s.setJob c (some k)).abortRecord c = { s with
    jobs := s.jobs.set c (some { k with
      ended := true, code := some .aborted, linesDone := 0, flags := .none, phase := .reporting })
    accesses := s.accesses ++ [writeAccess (.outcomeWrite .doneFree true) c (k.record + 8)
      [0x03, 0x02, 0x00, 0x00, 0x00, 0x00, 0x00, 0x00]] } := by
  unfold State.abortRecord
  rw [State.updJob_of_job (State.job_setJob_self _ _ _), State.setJob_setJob,
    State.issueOutcome_of_job (State.job_setJob_self _ _ _), State.setJob_jobs, Vector.set_set,
    Job.finishUnadmitted_aborted]
  dsimp only [State.setJob]
  rw [show outcomeBytes .doneFree ((some Code.aborted).getD .ok) .none 0 = [0x03, 0x02, 0x00, 0x00, 0x00, 0x00, 0x00, 0x00]
    by decide]

end

/-- Settles O20: each chain state by what its abort does after the shared beginning. -/
theorem abortWithoutAdmittedJob : Obligations.AbortWithoutAdmittedJob := by
  unfold Obligations.AbortWithoutAdmittedJob
  intro c s hs aborting
  refine ⟨fun h => ?broken, fun a h hj ha hw => ?release, fun h hj => ?status, fun h hj hw => ?awaited, fun h hj => ?reading,
    fun j h hj => ?inFlight, fun j h hj => ⟨fun ht hr => ?noPlace, fun hp he => ?claim⟩, fun j h hp hj he => ?ended⟩
  case broken =>
    rw [exec_abort_of_broken hs h]
    rfl
  case release =>
    have ha' : ((s.aborting c).chain c).anchor = some (.record a) := by rw [State.chain_aborting]; exact ha
    rw [exec_abort_of_resting hs h hj, State.abortAnchor_record (by exact hw) ha', State.issueRelease_eq,
      State.chain_aborting, State.aborting, State.setWaiter_chains, State.updChain_chains, Vector.set_set]
    rfl
  case status =>
    obtain ⟨h, ha, hw⟩ | ⟨h, hp⟩ := h
    · have ha' : ((s.aborting c).chain c).anchor = some .directory := by rw [State.chain_aborting]; exact ha
      rw [exec_abort_of_resting hs (h.imp_right .inr) hj, State.abortAnchor_directory (by exact hw) ha',
        State.finishAbort_aborting]
      rfl
    · have hnone : (s.aborting c).abortPaused c (some .readNext) = (s.aborting c).finishAbort c := by
        change (s.aborting c).abortReadNext c = _
        unfold State.abortReadNext
        rw [State.job_aborting, hj]
      rw [exec_abort_of_running hs (by simp [h]), State.abortRunning_paused h hp, State.enterAborting_of_no_job hj, hnone,
        State.finishAbort_aborting]
      rfl
  case awaited =>
    rw [exec_abort_of_resting hs (h.imp_right .inr) hj, State.abortAnchor_awaiting (by exact hw)]
    rfl
  case reading =>
    rw [exec_abort_of_running hs (by simp [h]), State.abortRunning_reading h, State.enterAborting_of_no_job hj]
    rfl
  case inFlight =>
    obtain ⟨h, hplace⟩ | ⟨h, hp⟩ := h
    · rw [exec_abort_of_running hs (by simp [h]), State.abortRunning_reading h,
        State.enterAborting_of_no_claim hj (.inr hplace)]
      rfl
    · rw [exec_abort_of_running hs (by simp [h]), State.abortRunning_active h,
        State.enterAborting_of_no_claim hj (.inl (.inl (by simp [hp]))),
        State.isReporting_of_job (State.job_setJob_self _ _ _), if_pos (by simp [Job.toAborted, hp])]
      rfl
  case noPlace =>
    have hexec : exec (.abort c) s = .next (((s.enterAborting c).abortRecord c).accept 3 c) := by
      obtain h | ⟨h, hp⟩ := h
      · rw [exec_abort_of_running hs (by simp [h]), State.abortRunning_waiting h]
      · rw [exec_abort_of_running hs (by simp [h]), State.abortRunning_paused h hp]
        rfl
    rw [hexec, State.enterAborting_of_no_claim hj (.inr ⟨ht, hr⟩), State.abortRecord_setJob]
    rfl
  case claim =>
    have hexec : exec (.abort c) s = .next (((s.enterAborting c).abortRecord c).accept 3 c) := by
      obtain h | ⟨h, hp⟩ := h
      · rw [exec_abort_of_running hs (by simp [h]), State.abortRunning_waiting h]
      · rw [exec_abort_of_running hs (by simp [h]), State.abortRunning_paused h hp]
        rfl
    rw [hexec, State.enterAborting_of_claim hj hp he]
    rfl
  case ended =>
    have hnone : ((s.aborting c).setJob c (some j.toAborted)).abortPaused c (some .readNext) =
        ((s.aborting c).setJob c (some j.toAborted)).issueOutcome c .doneFree true := by
      change State.abortReadNext _ c = _
      unfold State.abortReadNext
      rw [State.job_setJob_self]
    rw [exec_abort_of_running hs (by simp [h]), State.abortRunning_paused h hp,
      State.enterAborting_of_no_claim hj (.inl (.inr he)), hnone, State.issueOutcome_of_job (State.job_setJob_self _ _ _),
      State.setJob_jobs, Vector.set_set]
    rfl

end Sys2Proof.Machine
end

section
/-! PROOFS. ABORT of an admitted job (04 R82, R85, 06 R117, 08 R154). -/

namespace Sys2Proof.Machine

open Sys2Proof.Statements

section
variable {s : State} {c : ChainId} {j : Job}

/-! ## The lines of a discard (04 R82) -/

theorem State.mem_discarded {l : LineRecord} : l ∈ s.discarded c none ↔
    l ∈ s.lines ∧ l.chain = c ∧ l.uncommitted = true ∧ l.discard = false := by
  simp [State.discarded, and_assoc]

theorem State.mem_lines_of_mem_discarded {m : Option Nat} {l : LineRecord} (h : l ∈ s.discarded c m) : l ∈ s.lines :=
  (List.mem_filter.mp h).1

/-- The lines after a discard: those it does not reach, and the FETCHING ones it reaches, now marked. -/
theorem State.mem_lines_discardLines {m : Option Nat} {l : LineRecord} : l ∈ (s.discardLines c m).lines ↔
    (l ∈ s.lines ∧ l ∉ s.discarded c m) ∨ ∃ k ∈ s.discarded c m, k.stage = .fetching ∧ l = { k with discard := true } := by
  simp only [State.discardLines, List.mem_filterMap, List.contains_iff_mem]
  constructor
  · rintro ⟨k, hk, e⟩
    by_cases hg : k ∈ s.discarded c m
    · rw [if_pos hg] at e
      by_cases hf : k.stage = .fetching
      · rw [if_pos hf] at e
        exact .inr ⟨k, hg, hf, (Option.some.inj e).symm⟩
      · rw [if_neg hf] at e
        cases e
    · rw [if_neg hg] at e
      obtain rfl := Option.some.inj e
      exact .inl ⟨hk, hg⟩
  · rintro (⟨hl, hg⟩ | ⟨k, hg, hf, rfl⟩)
    · exact ⟨l, hl, if_neg hg⟩
    · exact ⟨k, State.mem_lines_of_mem_discarded hg, by rw [if_pos hg, if_pos hf]⟩

theorem State.discardLines_of_job (m : Option Nat) (hj : s.job c = some j) : (s.discardLines c m).job c =
    some { j with stored := (s.discarded c m).foldl (fun r l => r.recordFailed l.jobLine) j.stored } := by
  change (s.updJob c _).job c = _
  rw [State.updJob_of_job hj]
  exact State.job_setJob_self ..

theorem getElem_freedInputs (gone : List LineRecord) (bufs : Vector (List Byte) 2) (b : Fin 2) :
    (freedInputs gone bufs)[b] = if ∃ l ∈ gone, l.inputBuffer = some b then [] else bufs[b] := by
  simp [freedInputs]

/-- An input buffer held by FETCHED lines that a discard reaches is emptied. -/
theorem State.inBuf_discardLines {m : Option Nat} {l : LineRecord} {b : Fin 2} (hl : l ∈ s.discarded c m)
    (hf : l.stage = .fetched) (hb : l.inputBuffer = some b) : (s.discardLines c m).inBuf[b] = [] := by
  unfold State.discardLines
  dsimp only
  rw [getElem_freedInputs, if_pos ⟨l, List.mem_filter.mpr ⟨hl, by simp [hf]⟩, hb⟩]

theorem State.inputFree_iff (b : Fin 2) : s.inputFree b = true ↔ ∀ l ∈ s.lines, l.inputBuffer ≠ some b := by
  simp [State.inputFree]

theorem State.hasLines_iff : s.hasLines c = true ↔ ∃ l ∈ s.lines, l.chain = c := by
  simp [State.hasLines]

/-! ## The lines of an abort (04 R85) -/

/-- The job of an aborted chain that has left RUNNING. -/
def Job.toDrained (j : Job) : Job := { j.toAborted with phase := .draining }

theorem Job.stopGrants_toAborted (h : j.phase = .running ∨ j.phase = .draining) : j.toAborted.stopGrants = j.toDrained := by
  have hphase : j.toAborted.phase = j.phase := rfl
  unfold Job.stopGrants Job.toDrained
  rw [hphase]
  obtain h | h := h
  · rw [if_pos h]
  · rw [if_neg (by simp [h]), ← h, ← hphase]

/-- The aborted chain whose job has left RUNNING, its lines ended. -/
def State.discarding (s : State) (c : ChainId) (j : Job) : State :=
  ((s.aborting c).setJob c (some j.toDrained)).discardLines c none

theorem State.discarded_aborting : ((s.aborting c).setJob c (some j.toDrained)).discarded c none = s.discarded c none := rfl

theorem State.job_discarding (s : State) (c : ChainId) (j : Job) : (s.discarding c j).job c = some { j.toDrained with
    stored := (s.discarded c none).foldl (fun r l => r.recordFailed l.jobLine) j.stored } :=
  State.discardLines_of_job none (State.job_setJob_self ..)

@[simp] theorem State.discarding_accesses (s : State) (c : ChainId) (j : Job) :
    (s.discarding c j).accesses = s.accesses := rfl

@[simp] theorem State.discarding_memory (s : State) (c : ChainId) (j : Job) : (s.discarding c j).memory = s.memory := rfl

@[simp] theorem State.discarding_passOver (s : State) (c : ChainId) (j : Job) :
    (s.discarding c j).passOver = s.passOver := rfl

@[simp] theorem State.discarding_chain (s : State) (c : ChainId) (j : Job) :
    ((s.discarding c j).chain c).state = .aborting :=
  congrArg Chain.state (State.chain_aborting s c)

theorem State.mem_lines_discarding {l : LineRecord} : l ∈ (s.discarding c j).lines ↔
    (l ∈ s.lines ∧ l ∉ s.discarded c none) ∨ ∃ k ∈ s.discarded c none, k.stage = .fetching ∧ l = { k with discard := true } :=
  State.mem_lines_discardLines

theorem State.discarded_none (s : State) (c : ChainId) :
    s.discarded c none = s.lines.filter fun l => l.chain == c && l.uncommitted && !l.discard :=
  List.filter_congr fun _ _ => Bool.and_true _

/-- A line of another chain, or committed, is not discarded. -/
theorem State.not_mem_discarded {k : LineRecord} (h : k.chain ≠ c ∨ k.uncommitted = false) : k ∉ s.discarded c none := by
  intro hk
  obtain ⟨-, hc, hu, -⟩ := State.mem_discarded.mp hk
  obtain h | h := h
  · exact h hc
  · exact absurd (h.symm.trans hu) (by decide)

/-- A FETCHING line stays, with the discard mark. -/
theorem State.fetching_mem_discarding {k : LineRecord} (hk : k ∈ s.lines) (hc : k.chain = c) (hf : k.stage = .fetching) :
    { k with discard := true } ∈ (s.discarding c j).lines := by
  by_cases hd : k.discard = true
  · have hsame : { k with discard := true } = k := by rw [← hd]
    rw [hsame]
    exact State.mem_lines_discarding.mpr (.inl ⟨hk, fun hg => by simp [(State.mem_discarded.mp hg).2.2.2] at hd⟩)
  · have hg : k ∈ s.discarded c none :=
      State.mem_discarded.mpr ⟨hk, hc, by simp [LineRecord.uncommitted, hf], by simpa using hd⟩
    exact State.mem_lines_discarding.mpr (.inr ⟨k, hg, hf, rfl⟩)

/-- No FETCHED line of the chain is left, and every uncommitted one is marked. -/
theorem State.discarding_uncommitted (hfetched : ∀ l ∈ s.lines, l.chain = c → l.stage = .fetched → l.discard = false)
    {l : LineRecord} (hl : l ∈ (s.discarding c j).lines) (hc : l.chain = c) :
    l.stage ≠ .fetched ∧ (l.uncommitted = true → l.discard = true) := by
  obtain ⟨hl, hg⟩ | ⟨k, -, hf, rfl⟩ := State.mem_lines_discarding.mp hl
  · have hmark : l.uncommitted = true → l.discard = true := by
      intro hu
      refine Decidable.byContradiction fun hd => hg (State.mem_discarded.mpr ⟨hl, hc, hu, by simpa using hd⟩)
    refine ⟨fun hst => ?_, hmark⟩
    have hset := hmark (by simp [LineRecord.uncommitted, hst])
    rw [hfetched l hl hc hst] at hset
    exact absurd hset (by decide)
  · exact ⟨by simp [hf], fun _ => rfl⟩

/-- The lines of a chain that keeps one in flight: a committed line, or a FETCHING one. -/
theorem State.hasLines_discarding (h : ∃ l ∈ s.lines, l.chain = c ∧ (l.uncommitted = false ∨ l.stage = .fetching)) :
    (s.discarding c j).hasLines c = true := by
  obtain ⟨l, hl, hc, hkept⟩ := h
  obtain hu | hf := hkept
  · exact State.hasLines_iff.mpr ⟨l, State.mem_lines_discarding.mpr (.inl ⟨hl, State.not_mem_discarded (.inr hu)⟩), hc⟩
  · exact State.hasLines_iff.mpr ⟨_, State.fetching_mem_discarding hl hc hf, hc⟩

/-- A chain with only FETCHED lines has none left. -/
theorem State.not_hasLines_discarding (h : ∀ l ∈ s.lines, l.chain = c → l.stage = .fetched ∧ l.discard = false)
    {l : LineRecord} (hl : l ∈ (s.discarding c j).lines) : l.chain ≠ c := by
  intro hc
  obtain ⟨hl, hg⟩ | ⟨k, hk, hf, -⟩ := State.mem_lines_discarding.mp hl
  · obtain ⟨hst, hd⟩ := h l hl hc
    exact hg (State.mem_discarded.mpr ⟨hl, hc, by simp [LineRecord.uncommitted, hst], hd⟩)
  · obtain ⟨hk, hkc, -, -⟩ := State.mem_discarded.mp hk
    exact absurd (hf.symm.trans (h k hk hkc).1) (by decide)

/-- An input buffer that only FETCHED lines of the chain held is free. -/
theorem State.inputFree_discarding {b : Fin 2}
    (hfetched : ∀ l ∈ s.lines, l.chain = c → l.stage = .fetched → l.discard = false)
    (h : ∀ k ∈ s.lines, k.inputBuffer = some b → k.chain = c ∧ k.stage = .fetched) :
    (s.discarding c j).inputFree b = true := by
  refine (State.inputFree_iff b).mpr fun l hl hb => ?_
  obtain ⟨hl, hg⟩ | ⟨k, hk, hf, rfl⟩ := State.mem_lines_discarding.mp hl
  · obtain ⟨hc, hst⟩ := h l hl hb
    exact hg (State.mem_discarded.mpr ⟨hl, hc, by simp [LineRecord.uncommitted, hst], hfetched l hl hc hst⟩)
  · exact absurd (hf.symm.trans (h k (State.mem_lines_of_mem_discarded hk) hb).2) (by decide)

/-! ## The work of an abort -/

theorem exec_abort_of_work (hs : s.softReset = false)
    (h : (s.chain c).state = .active ∨ ((s.chain c).state = .paused ∧ (s.chain c).resume = some .run))
    (hj : s.job c = some j) (hp : j.phase = .running ∨ j.phase = .draining) :
    exec (.abort c) s = .next ((((s.aborting c).setJob c (some j.toAborted)).abortWork c).accept 3 c) := by
  have hadmitted : j.phase ≠ .admitting := by obtain hp | hp := hp <;> simp [hp]
  have hworking : (j.toAborted.phase == .reporting) = false := by obtain hp | hp := hp <;> simp [Job.toAborted, hp]
  obtain h | ⟨h, hr⟩ := h
  · rw [exec_abort_of_running hs (by simp [h]), State.abortRunning_active h,
      State.enterAborting_of_no_claim hj (.inl (.inl hadmitted)), State.isReporting_of_job (State.job_setJob_self _ _ _),
      if_neg (by simp [hworking])]
  · rw [exec_abort_of_running hs (by simp [h]), State.abortRunning_paused h hr,
      State.enterAborting_of_no_claim hj (.inl (.inl hadmitted))]
    rfl

theorem State.abortWork_of_lines (hj : s.job c = some j) (hb : j.lineBody.isSome = true) :
    s.abortWork c = s.abortLines c := by
  unfold State.abortWork
  rw [hj]
  dsimp only
  unfold Job.lineBody at hb
  cases hbody : j.body <;> simp_all

theorem exec_abort_of_lines (hs : s.softReset = false)
    (h : (s.chain c).state = .active ∨ ((s.chain c).state = .paused ∧ (s.chain c).resume = some .run))
    (hj : s.job c = some j) (hp : j.phase = .running ∨ j.phase = .draining) (hb : j.lineBody.isSome = true) :
    exec (.abort c) s = .next (((s.discarding c j).checkDrained c).accept 3 c) := by
  have hj' : ((s.aborting c).setJob c (some j.toAborted)).job c = some j.toAborted := State.job_setJob_self ..
  rw [exec_abort_of_work hs h hj hp, State.abortWork_of_lines hj' hb, State.abortLines, State.updJob_of_job hj',
    State.setJob_setJob, Job.stopGrants_toAborted hp, State.discarding]

/-- Lines left in flight run on. -/
theorem State.checkDrained_discarding_of_lines
    (h : ∃ l ∈ s.lines, l.chain = c ∧ (l.uncommitted = false ∨ l.stage = .fetching)) :
    (s.discarding c j).checkDrained c = s.discarding c j := by
  rw [State.checkDrained_eq (s.job_discarding c j), if_neg (by simp [State.hasLines_discarding h])]

/-- With no line left in flight the work ends. -/
theorem State.checkDrained_discarding_of_none (he : j.ended = false)
    (h : ∀ l ∈ s.lines, l.chain = c → l.stage = .fetched ∧ l.discard = false) :
    (s.discarding c j).checkDrained c = (s.discarding c j).finishWork c := by
  have hnone : (s.discarding c j).hasLines c = false := by
    refine Bool.eq_false_iff.mpr fun hl => ?_
    obtain ⟨l, hl, hc⟩ := State.hasLines_iff.mp hl
    exact State.not_hasLines_discarding h hl hc
  rw [State.checkDrained_eq (s.job_discarding c j), if_pos ⟨rfl, he, hnone⟩]

/-! ## The other work of an abort -/

theorem State.abortWork_of_table (hj : s.job c = some j) {b : TableBody} (hb : j.body = .table b) :
    s.abortWork c = s.abortTable c j := by
  unfold State.abortWork
  rw [hj]
  dsimp only
  rw [hb]

theorem State.abortWork_of_map (hj : s.job c = some j) {b : MapBody} (hb : j.body = .map b) :
    s.abortWork c = s.abortMap c := by
  unfold State.abortWork
  rw [hj]
  dsimp only
  rw [hb]

/-- 06 R117: with no load begun the work of a TABLE job ends at once. -/
theorem State.abortTable_of_no_load (hl : j.load = none) :
    s.abortTable c j = (s.setJob c (some { j with held := false })).finishWork c := by
  unfold State.abortTable
  rw [hl]

/-- The work that an abort lets run to its end. -/
theorem State.abortWork_runs_on (hj : s.job c = some j)
    (h : (∃ b load, j.body = .table b ∧ j.load = some load) ∨ ((∃ b, j.body = .map b) ∧ s.pendingMark = none) ∨
      (∃ b, j.body = .surface b) ∨ ∃ b, j.body = .coeff b) : s.abortWork c = s := by
  obtain ⟨b, load, hb, hl⟩ | ⟨⟨b, hb⟩, hm⟩ | ⟨b, hb⟩ | ⟨b, hb⟩ := h
  · rw [State.abortWork_of_table hj hb, State.abortTable, hl]
  · rw [State.abortWork_of_map hj hb, State.abortMap, hm]
    rfl
  · unfold State.abortWork
    rw [hj]
    dsimp only
    rw [hb]
  · unfold State.abortWork
    rw [hj]
    dsimp only
    rw [hb]

/-- The held TABLE jobs of the other ACTIVE chains resolve afresh. -/
theorem State.afresh_aborting (s : State) (c : ChainId) (m : Option EntryId) (j' : Option Job) :
    State.afresh { (s.aborting c).setJob c j' with pendingMark := m } = (heldTables s).filter fun d => d != c := by
  unfold State.afresh heldTables
  rw [List.filter_filter]
  refine List.filter_congr fun d _ => ?_
  by_cases hd : d = c
  · subst hd
    have hc : (State.chain { (s.aborting d).setJob d j' with pendingMark := m } d).state = .aborting :=
      congrArg Chain.state (State.chain_aborting s d)
    unfold State.resolvesAfresh
    rw [hc]
    cases State.job { (s.aborting d).setJob d j' with pendingMark := m } d <;> simp
  · have hjob : State.job { (s.aborting c).setJob c j' with pendingMark := m } d = s.job d :=
      State.job_setJob_ne _ (Ne.symm hd) _
    have hchain : State.chain { (s.aborting c).setJob c j' with pendingMark := m } d = s.chain d :=
      State.chain_updChain_ne _ (Ne.symm hd) _
    unfold State.resolvesAfresh
    rw [hjob, hchain]
    cases s.job d <;> simp [bne, hd]

theorem State.abortMap_pending {m : EntryId} (hm : s.pendingMark = some m) (j' : Option Job) :
    ((s.aborting c).setJob c j').abortMap c = (((heldTables s).filter fun d => d != c).foldl State.tableResolve
      (State.clearHeld { (s.aborting c).setJob c j' with pendingMark := none })).finishWork c := by
  have hm' : ((s.aborting c).setJob c j').pendingMark = some m := hm
  unfold State.abortMap State.withdrawReplacement State.releaseHeld
  rw [hm', State.afresh_aborting]
  rfl

end

/-- Settles O21: the lines of the chain by the discard, the other work by its body. -/
theorem abortEndsWorkOfAdmittedJob : Obligations.AbortEndsWorkOfAdmittedJob := by
  unfold Obligations.AbortEndsWorkOfAdmittedJob
  intro c j s hs hstate hj hphase aborting gone
  have hgone : s.discarded c none = gone := State.discarded_none s c
  refine ⟨fun hb hline hfetched => ?lines, fun hb he hall => ?drained, fun h => ?runsOn, fun b hb hl => ?held,
    fun b m hb hm => ?replacement⟩
  case lines =>
    have hexec := (exec_abort_of_lines hs hstate hj hphase hb).trans
      (congrArg (fun t : State => Host.Outcome.next (t.accept 3 c)) (State.checkDrained_discarding_of_lines hline))
    refine ⟨_, hexec, s.discarding_chain c j, ?_, fun k hk hkept => ?_, fun k hk hc hf => ?_, fun l hl hc => ?_, ?_, rfl, rfl, rfl⟩
    · rw [← hgone]
      exact s.job_discarding c j
    · exact State.mem_lines_discarding.mpr (.inl ⟨hk, State.not_mem_discarded hkept⟩)
    · exact State.fetching_mem_discarding hk hc hf
    · exact State.discarding_uncommitted hfetched hl hc
    · rintro b ⟨k, hk, hc, hst, hkb⟩
      have hmem : k ∈ s.discarded c none :=
        State.mem_discarded.mpr ⟨hk, hc, by simp [LineRecord.uncommitted, hst], hfetched k hk hc hst⟩
      exact ⟨State.inBuf_discardLines (s := (s.aborting c).setJob c (some j.toDrained)) hmem hst hkb,
        fun honly => State.inputFree_discarding hfetched honly⟩
  case drained =>
    have hexec := (exec_abort_of_lines hs hstate hj hphase hb).trans
      (congrArg (fun t : State => Host.Outcome.next (t.accept 3 c)) (State.checkDrained_discarding_of_none he hall))
    rw [State.finishWork_of_job (s.job_discarding c j), State.afterWork_setJob_aborting _ _ _ (s.discarding_chain c j)]
      at hexec
    have hcode : (Job.finish { j.toDrained with
        stored := (s.discarded c none).foldl (fun r l => r.recordFailed l.jobLine) j.stored }).code =
          some (j.firstFault.getD .aborted) := by
      rw [Job.finish_code]
      cases hff : j.firstFault <;> simp [Job.toDrained, Job.toAborted, hff]
    refine ⟨_, _, hexec, s.discarding_chain c j, State.job_setJob_self _ _ _, rfl, rfl, rfl, hcode, fun hkind => ?_,
      fun l hl => State.not_hasLines_discarding hall hl,
      fun l hl hc => State.mem_lines_discarding.mpr (.inl ⟨hl, State.not_mem_discarded (.inl hc)⟩), ?_, rfl, rfl⟩
    · refine (Job.finish_linesDone _).trans ?_
      have hkept := (LinesStored.discarded_prefixLen (s.discarded c none) j.stored).1
      obtain hkind | hkind := hkind <;> simpa [Job.toDrained, Job.toAborted, hkind] using hkept
    · dsimp only [State.accept]
      rw [hcode]
      rfl
  case runsOn =>
    rw [exec_abort_of_work hs hstate hj hphase, State.abortWork_runs_on (State.job_setJob_self _ _ _) (by exact h)]
    rfl
  case held =>
    have hload : j.toAborted.load = none := hl
    rw [exec_abort_of_work hs hstate hj hphase, State.abortWork_of_table (State.job_setJob_self _ _ _) (by exact hb),
      
      State.abortTable_of_no_load hload, State.setJob_setJob]
    rfl
  case replacement =>
    rw [exec_abort_of_work hs hstate hj hphase, State.abortWork_of_map (State.job_setJob_self _ _ _) (by exact hb),
      State.abortMap_pending hm]
    rfl

end Sys2Proof.Machine
end

section
/-! PROOFS. The answers to the Chain Unit's reads (01 R2 to R6, R12, R17), and breakage (09 R162 to R164). -/

namespace Sys2Proof.Machine

open Sys2Proof.Statements

section
variable {s : State} {c : ChainId} {j : Job}

/-! ## Breakage -/

/-- A chain with no job has none to drop. -/
theorem State.setJob_none_of_no_job (hj : s.job c = none) : s.setJob c none = s := by
  have hself : s.jobs.set c (s.job c) = s.jobs := Vector.set_getElem_self ..
  unfold State.setJob
  rw [← hj, hself]

/-- The drop of a job with no place at a gate, with no replacement pending, drops its context alone. -/
theorem State.dropJob_of_placeless (h : s.job c = none ∨
    (s.pendingMark = none ∧ s.tableGate.has c = false ∧ s.replGate.has c = false)) : s.dropJob c = s.setJob c none := by
  unfold State.dropJob
  split
  · next hj => exact (State.setJob_none_of_no_job hj).symm
  · next j hj =>
    obtain ⟨hm, ht, hr⟩ := h.resolve_left (by simp [hj])
    have hpin : (s.setJob c none).afterPinRelease = s.setJob c none := by
      have hm' : (s.setJob c none).pendingMark = none := hm
      unfold State.afterPinRelease
      rw [hm']
    rw [hpin, State.leaveTableGate_of_not_has (s := s.setJob c none) ht,
      State.leaveReplGate_of_not_has (s := s.setJob c none) hr]

/-- The chain context of a chain that breaks. -/
def Chain.toBroken (reason : BreakReason) (x : Chain) : Chain :=
  { x with
    state := .broken, breakReason := reason, inHand := none, anchor := none, next := none, resume := none, pauseMark := false }

theorem State.statusAddress_congr {t : State} (h : t.exchangeBase = s.exchangeBase) (c : ChainId) :
    t.statusAddress c = s.statusAddress c := by
  unfold State.statusAddress State.exchangeArea
  rw [h]

/-- What a break writes, by the state that the drop of the chain's job leaves. -/
theorem State.breakChain_of_dropped {t : State} {reason : BreakReason} {address : Nat}
    (h : (s.updChain c (Chain.toBroken reason)).dropJob c = t) (hchain : t.chain c = (s.chain c).toBroken reason)
    (herrors : t.errors = s.errors) (hbase : t.exchangeBase = s.exchangeBase) :
    s.breakChain c reason address = { t with
      errors := s.errors.report reason.errorKind c
      accesses := t.accesses ++ [writeAccess (.statusWrite (.breakTail (s.chain c).latched.faultFlag)) c
        (s.statusAddress c)
        (statusBytes .broken reason (s.chain c).lastCode (s.chain c).retireCount address (s.chain c).lastTag)] } := by
  have hbreak : s.breakChain c reason address = (((s.updChain c (Chain.toBroken reason)).dropJob c).report reason.errorKind
      c).issueStatus c .broken address (.breakTail (s.chain c).latched.faultFlag) := rfl
  have hchain' : (t.report reason.errorKind c).chain c = (s.chain c).toBroken reason := hchain
  have haddress : (t.report reason.errorKind c).statusAddress c = s.statusAddress c := State.statusAddress_congr hbase c
  rw [hbreak, h, State.issueStatus, hchain', haddress, State.report, herrors]
  rfl

/-! ## The directory head and links -/

/-- 01 R22: the chain pauses before its next record. -/
theorem State.goOnReading_of_mark (hm : (s.chain c).pauseMark = true) : s.goOnReading c = { s with
    chains := s.chains.set c { s.chain c with
      state := .paused, resume := some .readNext, pauseMark := false, inHand := none, anchor := none } } := if_pos hm

theorem State.goOnReading_of_next {r : PhysAddr} (hm : (s.chain c).pauseMark = false) (hn : (s.chain c).next = some r) :
    s.goOnReading c = { s with
      chains := s.chains.set c { s.chain c with state := .reading, inHand := some r, anchor := none, next := none }
      accesses := s.accesses ++ [readAccess .headerRead c r 32] } := by
  rw [← State.readRecord_of_next hn]
  exact if_neg (Bool.eq_false_iff.mp hm)

/-- 01 R22: the chain pauses before it parks. -/
theorem State.goOnParking_of_mark (hm : (s.chain c).pauseMark = true) (anchor : Anchor) (w : Bool) :
    s.goOnParking c anchor w = { s with
      chains := s.chains.set c { s.chain c with
        state := .paused, resume := some .park, pauseMark := false, inHand := none, anchor := some anchor } } := if_pos hm

theorem State.goOnParking_of_no_mark (hm : (s.chain c).pauseMark = false) (anchor : Anchor) (w : Bool) :
    s.goOnParking c anchor w = s.park c anchor w := if_neg (Bool.eq_false_iff.mp hm)

theorem State.takeHead_bad {link : Addr64} (h : linkValue link = .bad) : s.takeHead c link = s.breakChain c .badLink 0 := by
  unfold State.takeHead
  rw [h]

theorem State.takeHead_zero {link : Addr64} (h : linkValue link = .zero) :
    s.takeHead c link = s.goOnParking c .directory true := by
  unfold State.takeHead
  rw [h]

/-- The head's record is read. -/
theorem State.takeHead_reads {link : Addr64} {r : PhysAddr} (h : linkValue link = .to r)
    (hm : (s.chain c).pauseMark = false) : s.takeHead c link = { s with
      chains := s.chains.set c { s.chain c with state := .reading, inHand := some r, anchor := none, next := none }
      accesses := s.accesses ++ [readAccess .headerRead c r 32] } := by
  have hchain := s.chain_updChain_self c fun x => { x with next := some r, anchor := none }
  unfold State.takeHead
  rw [h]
  refine (State.goOnReading_of_next (r := r) ?_ ?_).trans ?_
  · rw [hchain, hm]
  · rw [hchain]
  · rw [hchain, State.updChain_chains, Vector.set_set]
    rfl

/-- The chain pauses before the head's record. -/
theorem State.takeHead_pauses {link : Addr64} {r : PhysAddr} (h : linkValue link = .to r)
    (hm : (s.chain c).pauseMark = true) : s.takeHead c link = { s with
      chains := s.chains.set c { s.chain c with
        state := .paused, resume := some .readNext, pauseMark := false, inHand := none, anchor := none, next := some r } } := by
  have hchain := s.chain_updChain_self c fun x => { x with next := some r, anchor := none }
  unfold State.takeHead
  rw [h]
  refine (State.goOnReading_of_mark ?_).trans ?_
  · rw [hchain, hm]
  · rw [hchain, State.updChain_chains, Vector.set_set]
    rfl

/-! ## The directory read -/

theorem exec_directoryRead {a : Access} {before later : List Access} {answer : ReadAnswer} (hs : s.softReset = false)
    (h : s.hasOutstanding (Access.isFor .directoryRead c) 0 a before later) (hl : answer.hasLength a.bytes = true) :
    exec (.directoryRead c answer) s =
      .next (State.afterDirectoryRead { s with accesses := before ++ later } c answer) :=
  congrArg Host.Outcome.next (State.onRead_outstanding h answer _ hl hs)

theorem State.afterDirectoryRead_of_aborting (h : (s.chain c).state = .aborting) (answer : ReadAnswer) :
    s.afterDirectoryRead c answer = s.finishAbort c := if_pos h

theorem State.afterDirectoryRead_error (h : (s.chain c).state ≠ .aborting) :
    s.afterDirectoryRead c .error = s.breakChain c .directoryRead 0 := if_neg h

theorem State.afterDirectoryRead_undefined (h : (s.chain c).state ≠ .aborting) {bytes : List Byte}
    (hd : decodeLatched bytes = none) : s.afterDirectoryRead c (.data bytes) = s.breakChain c .directoryRead 0 := by
  unfold State.afterDirectoryRead
  rw [if_neg h]
  dsimp only
  rw [hd]

/-- A defined entry is latched and its head taken. -/
theorem State.afterDirectoryRead_latched (h : (s.chain c).state ≠ .aborting) {bytes : List Byte} {p : Latched}
    (hd : decodeLatched bytes = some p) : s.afterDirectoryRead c (.data bytes) =
      (s.updChain c fun x => { x with latched := p }).takeHead c (linkField bytes) := by
  unfold State.afterDirectoryRead
  rw [if_neg h]
  dsimp only
  rw [hd]

/-! ## The header of a record -/

theorem exec_recordHeaderRead {a : Access} {before later : List Access} {answer : ReadAnswer} (hs : s.softReset = false)
    (h : s.hasOutstanding (Access.isFor .headerRead c) 0 a before later) (hl : answer.hasLength a.bytes = true) :
    exec (.recordHeaderRead c answer) s =
      .next (State.afterHeaderRead { s with accesses := before ++ later } c answer) :=
  congrArg Host.Outcome.next (State.onRead_outstanding h answer _ hl hs)

section
variable {record : PhysAddr} {bytes : List Byte}

theorem Chain.handAddress_of_inHand {x : Chain} (h : x.inHand = some record) : x.handAddress = record.toNat := by
  unfold Chain.handAddress
  rw [h]

theorem State.afterHeaderRead_error (hr : (s.chain c).inHand = some record) :
    s.afterHeaderRead c .error = s.breakChain c .recordRead record.toNat := by
  unfold State.afterHeaderRead
  rw [Chain.handAddress_of_inHand hr]
  split
  · next h => cases h
  · rfl

theorem State.afterHeaderRead_data (hr : (s.chain c).inHand = some record) (h : (s.chain c).state ≠ .aborting) :
    s.afterHeaderRead c (.data bytes) = s.takeHeader c record bytes := by
  unfold State.afterHeaderRead
  rw [hr]
  exact if_neg h

theorem State.afterHeaderRead_aborting (hr : (s.chain c).inHand = some record) (h : (s.chain c).state = .aborting) :
    s.afterHeaderRead c (.data bytes) = s.takeHeaderAborting c record bytes := by
  unfold State.afterHeaderRead
  rw [hr]
  exact if_pos h

theorem State.takeHeader_not_pending (hp : headerIsPending bytes = false) (hr : (s.chain c).inHand = some record) :
    s.takeHeader c record bytes = (s.updChain c fun x => { x with lastCode := .badRecord }).breakChain c .recordRead
      record.toNat := by
  unfold State.takeHeader State.breakOnRecordState
  rw [Chain.handAddress_of_inHand hr]
  exact if_neg (Bool.eq_false_iff.mp hp)

theorem State.takeHeader_unsound (hp : headerIsPending bytes = true) (hk : headerIsSound bytes = false) :
    s.takeHeader c record bytes = (s.setJob c (some (jobOfHeader record bytes))).endUnadmitted c .badRecord :=
  (if_pos hp).trans (if_neg (Bool.eq_false_iff.mp hk))

theorem State.takeHeader_sound (hp : headerIsPending bytes = true) (hk : headerIsSound bytes = true) :
    s.takeHeader c record bytes =
      (s.setJob c (some (jobOfHeader record bytes))).readSecondPart c (jobOfHeader record bytes) :=
  (if_pos hp).trans (if_pos hk)

end

/-! ## A record that has passed its checks -/

theorem State.recordPassed_of_mark (hm : (s.chain c).pauseMark = true) : s.recordPassed c = { s with
    chains := s.chains.set c { s.chain c with state := .paused, resume := some .guard, pauseMark := false } } := if_pos hm

theorem State.recordPassed_of_no_mark (hm : (s.chain c).pauseMark = false) :
    s.recordPassed c = (s.updChain c fun x => { x with state := .waiting }).guardStep c := if_neg (Bool.eq_false_iff.mp hm)

theorem State.guardStep_of_no_guard (hj : s.job c = some j) (hg : j.guard = none) : s.guardStep c = s.admitJob c := by
  unfold State.guardStep
  rw [hj]
  dsimp only
  rw [hg]

/-! ## The second part of a record -/

theorem exec_recordSecondPartRead {a : Access} {before later : List Access} {answer : ReadAnswer}
    (hs : s.softReset = false) (h : s.hasOutstanding (Access.isFor .secondPartRead c) 0 a before later)
    (hl : answer.hasLength a.bytes = true) : exec (.recordSecondPartRead c answer) s =
      .next (State.afterSecondPartRead { s with accesses := before ++ later } c answer) :=
  congrArg Host.Outcome.next (State.onRead_outstanding h answer _ hl hs)

theorem State.afterSecondPartRead_data {bytes : List Byte} (h : (s.chain c).state ≠ .aborting) :
    s.afterSecondPartRead c (.data bytes) = s.takeSecondPart c bytes := if_neg h

theorem State.takeSecondPart_bad {bytes : List Byte} (hj : s.job c = some j) (hb : j.withSecondPart bytes = none) :
    s.takeSecondPart c bytes = s.endUnadmitted c .badRecord := by
  unfold State.takeSecondPart
  rw [hj]
  dsimp only
  rw [hb]

theorem State.takeSecondPart_good {bytes : List Byte} {k : Job} (hj : s.job c = some j)
    (hb : j.withSecondPart bytes = some k) : s.takeSecondPart c bytes = (s.setJob c (some k)).recordPassed c := by
  unfold State.takeSecondPart
  rw [hj]
  dsimp only
  rw [hb]

/-- A job retired BAD_RECORD that does not halt its chain re-reads its link. -/
theorem State.endUnadmitted_badRecord (hj : s.job c = some j) (hst : (s.chain c).state = .reading)
    (hm : (s.chain c).pauseMark = false) (hf : j.onFault = .continue_) :
    s.endUnadmitted c .badRecord = { s with
      chains := s.chains.set c { s.chain c with state := .active, resume := none, pauseMark := false }
      jobs := s.jobs.set c (some { j with
        phase := .reporting, ended := true, code := some .badRecord, linesDone := 0, flags := .none
        firstFault := some .badRecord })
      accesses := s.accesses ++ [readAccess .linkReRead c j.record 8] } := by
  have hhalts : (j.finishUnadmitted .badRecord).haltsChain = false := by
    have hpolicy : (j.finishUnadmitted .badRecord).onFault = .continue_ := hf
    simp [Job.haltsChain, hpolicy]
  rw [State.endUnadmitted_of_job hj,
    State.afterWork_setJob_relinks _ _ _ (by simp [hst]) (by simp [hst]) hm hhalts]
  rfl

/-! ## The link re-read of a retire -/

theorem exec_linkReRead {a : Access} {before later : List Access} {answer : ReadAnswer} (hs : s.softReset = false)
    (h : s.hasOutstanding (Access.isFor .linkReRead c) 0 a before later) (hl : answer.hasLength a.bytes = true) :
    exec (.linkReRead c answer) s = .next (State.afterLinkReRead { s with accesses := before ++ later } c answer) :=
  congrArg Host.Outcome.next (State.onRead_outstanding h answer _ hl hs)

theorem State.afterLinkReRead_aborting {bytes : List Byte} (h : (s.chain c).state = .aborting) :
    s.afterLinkReRead c (.data bytes) = s.issueOutcome c .doneFree true := if_pos h

theorem State.afterLinkReRead_data {bytes : List Byte} (h : (s.chain c).state ≠ .aborting) :
    s.afterLinkReRead c (.data bytes) = s.takeLink c (linkField bytes) := if_neg h

/-! ## The re-read of an anchor -/

theorem exec_anchorLinkReRead {a : Access} {before later : List Access} {answer : ReadAnswer} (hs : s.softReset = false)
    (h : s.hasOutstanding (Access.isAnchorReReadFor c) 0 a before later) (hl : answer.hasLength a.bytes = true) :
    exec (.anchorLinkReRead c answer) s =
      .next (State.afterAnchorReRead { s with accesses := before ++ later } c answer) :=
  congrArg Host.Outcome.next (State.onRead_outstanding h answer _ hl hs)

theorem State.afterAnchorReRead_record {r : PhysAddr} (ha : (s.chain c).anchor = some (.record r)) (answer : ReadAnswer) :
    s.afterAnchorReRead c answer = s.afterAnchorRecord c r answer := by
  unfold State.afterAnchorReRead
  rw [ha]

theorem State.afterAnchorReRead_directory (ha : (s.chain c).anchor = some .directory) (answer : ReadAnswer) :
    s.afterAnchorReRead c answer = s.afterAnchorHead c answer := by
  unfold State.afterAnchorReRead
  rw [ha]

theorem State.afterAnchorRecord_data {r : PhysAddr} {bytes : List Byte} (h : (s.chain c).state ≠ .aborting) :
    s.afterAnchorRecord c r (.data bytes) = s.takeAnchorLink c r (linkField bytes) := if_neg h

theorem State.afterAnchorHead_data {bytes : List Byte} (h : (s.chain c).state ≠ .aborting) :
    s.afterAnchorHead c (.data bytes) = s.takeHead c (linkField bytes) := if_neg h

theorem State.takeAnchorLink_bad {r : PhysAddr} {link : Addr64} (h : linkValue link = .bad) :
    s.takeAnchorLink c r link = s.breakChain c .badLink r.toNat := by
  unfold State.takeAnchorLink
  rw [h]

theorem State.takeAnchorLink_zero {r : PhysAddr} {link : Addr64} (h : linkValue link = .zero) :
    s.takeAnchorLink c r link = s.goOnParking c (.record r) true := by
  unfold State.takeAnchorLink
  rw [h]

theorem State.takeAnchorLink_to {r a : PhysAddr} {link : Addr64} (h : linkValue link = .to a) :
    s.takeAnchorLink c r link = { s with
      chains := s.chains.set c { s.chain c with next := some a, anchor := none }
      accesses := s.accesses ++ [writeAccess (.releaseWrite .readNext r) c (r + 8) [0x03]] } := by
  unfold State.takeAnchorLink
  rw [h]
  dsimp only
  rw [State.issueRelease_eq, State.chain_updChain_self, State.updChain_chains, Vector.set_set]
  rfl

end

/-- Settles O24: the drop of the chain's job, then the report and the status write. -/
theorem breakReportsAndWritesStatus : Obligations.BreakReportsAndWritesStatus := by
  unfold Obligations.BreakReportsAndWritesStatus
  refine ⟨?any, fun c reason address s h => ?placeless⟩
  case any =>
    intro c reason address s broken dropped
    have hstood : StoodBy (s.updChain c (Chain.toBroken reason)) dropped c := State.dropJob_stoodBy _ c
    have hkeeps : Keeps (s.updChain c (Chain.toBroken reason)) dropped := State.dropJob_keeps _ c
    have hchain : dropped.chain c = broken := hstood.chain.trans (State.chain_updChain_self ..)
    exact ⟨hchain, hstood.job, hstood.errors, State.breakChain_of_dropped rfl hchain hstood.errors hkeeps.exchangeBase⟩
  case placeless =>
    refine State.breakChain_of_dropped (t := (s.updChain c (Chain.toBroken reason)).setJob c none)
      (State.dropJob_of_placeless (by exact h)) (State.chain_updChain_self ..) rfl rfl

/-- Settles O23: the answer latched, then the head taken. -/
theorem directoryReadLatchesAndFollowsHead : Obligations.DirectoryReadLatchesAndFollowsHead := by
  unfold Obligations.DirectoryReadLatchesAndFollowsHead
  refine ⟨fun c a before after bytes s hs hout hlen hst hj => ?reading, fun c a before after answer s hs hout hlen hst => ?aborting⟩
  case aborting =>
    rw [exec_directoryRead hs hout hlen, State.afterDirectoryRead_of_aborting (by exact hst)]
    rfl
  case reading =>
    have hna : (State.chain { s with accesses := before ++ after } c).state ≠ .aborting := by
      rw [show State.chain { s with accesses := before ++ after } c = s.chain c from rfl, hst]
      decide
    have hlen' : (ReadAnswer.data bytes).hasLength a.bytes = true := beq_iff_eq.mpr hlen
    have hexec := exec_directoryRead hs hout hlen'
    have hchain : ∀ p, (State.updChain { s with accesses := before ++ after } c fun x => { x with latched := p }).chain c =
        { s.chain c with latched := p } := fun p => State.chain_updChain_self ..
    refine ⟨fun hd => ?undefined, fun p r hd hl hm => ?reads, fun p r hd hl hm => ?pauses, fun p hd hl hm => ?parks,
      fun p hd hl hm => ?pausesParking, fun p hd hl => ?bad, ?failed⟩
    case undefined =>
      have hstood := State.dropJob_stoodBy
        (State.updChain { s with accesses := before ++ after } c (Chain.toBroken .directoryRead)) c
      have hbroken := hstood.chain.trans (State.chain_updChain_self ..)
      refine ⟨_, hexec.trans (congrArg _ (State.afterDirectoryRead_undefined hna hd)), ?_⟩
      have hafter : (State.breakChain { s with accesses := before ++ after } c .directoryRead 0).chain c =
          (s.chain c).toBroken .directoryRead := hbroken
      rw [hafter]
      exact ⟨rfl, rfl, rfl⟩
    case reads =>
      rw [hexec, State.afterDirectoryRead_latched hna hd, State.takeHead_reads hl (by rw [hchain, hm]), hchain,
        State.updChain_chains, Vector.set_set, ← hst]
      rfl
    case pauses =>
      rw [hexec, State.afterDirectoryRead_latched hna hd, State.takeHead_pauses hl (by rw [hchain, hm]), hchain,
        State.updChain_chains, Vector.set_set]
      rfl
    case parks =>
      rw [hexec, State.afterDirectoryRead_latched hna hd, State.takeHead_zero hl,
        State.goOnParking_of_no_mark (by rw [hchain, hm]), State.park_writing, statusAccess, hchain,
        State.updChain_chains, Vector.set_set]
      rfl
    case pausesParking =>
      rw [hexec, State.afterDirectoryRead_latched hna hd, State.takeHead_zero hl,
        State.goOnParking_of_mark (by rw [hchain, hm]), hchain, State.updChain_chains, Vector.set_set]
      rfl
    case bad =>
      rw [hexec, State.afterDirectoryRead_latched hna hd, State.takeHead_bad hl]
      rfl
    case failed =>
      rw [exec_directoryRead hs hout rfl, State.afterDirectoryRead_error hna]

/-- Settles O25: the header by its state and its soundness. -/
theorem recordHeaderReadChecks : Obligations.RecordHeaderReadChecks := by
  unfold Obligations.RecordHeaderReadChecks
  refine ⟨fun c record a before after bytes s hs hout hlen hst hr hj => ?reading,
    fun c record a before after bytes s hs hout hlen hst hr => ?aborting, fun record offset n h => ?ranges⟩
  case reading =>
    have hna : (State.chain { s with accesses := before ++ after } c).state ≠ .aborting := by
      rw [show State.chain { s with accesses := before ++ after } c = s.chain c from rfl, hst]
      decide
    have hexec := (exec_recordHeaderRead (answer := .data bytes) hs hout (beq_iff_eq.mpr hlen)).trans
      (congrArg _ (State.afterHeaderRead_data hr hna))
    refine ⟨fun hp => ?notPending, ?failed, fun hp hk => ?unsound, fun hp hk hz => ⟨fun hm => ?admitted, fun hm => ?paused⟩,
      fun hp hk hf hm => ?relinks, fun hp hk hz => ?secondPart⟩
    case notPending =>
      rw [hexec, State.takeHeader_not_pending hp (by exact hr)]
      rfl
    case failed =>
      rw [exec_recordHeaderRead hs hout rfl, State.afterHeaderRead_error (by exact hr)]
    case unsound =>
      rw [hexec, State.takeHeader_unsound hp hk]
      rfl
    case admitted =>
      rw [hexec, State.takeHeader_sound hp hk, State.readSecondPart, if_pos hz, State.setJob_setJob,
        State.recordPassed_of_no_mark (by exact hm),
        State.guardStep_of_no_guard (j := { jobOfHeader record bytes with body := .signal })
          (by exact State.job_setJob_self ..) rfl]
      rfl
    case paused =>
      rw [hexec, State.takeHeader_sound hp hk, State.readSecondPart, if_pos hz, State.setJob_setJob,
        State.recordPassed_of_mark (by exact hm)]
      rfl
    case relinks =>
      rw [hexec, State.takeHeader_unsound hp hk, State.endUnadmitted_badRecord (State.job_setJob_self ..) (by exact hst)
        (by exact hm) (if_neg (Bool.eq_false_iff.mp hf)), State.setJob_jobs, Vector.set_set]
      rfl
    case secondPart =>
      rw [hexec, State.takeHeader_sound hp hk, State.readSecondPart, if_neg hz]
      rfl
  case aborting =>
    have hexec := (exec_recordHeaderRead (answer := .data bytes) hs hout (beq_iff_eq.mpr hlen)).trans
      (congrArg _ (State.afterHeaderRead_aborting hr hst))
    refine ⟨fun hp => ?pending, fun hp => ?unwritten, ?failed⟩
    case pending =>
      rw [hexec, State.takeHeaderAborting, if_pos hp, State.abortRecord_setJob]
      rfl
    case unwritten =>
      rw [hexec, State.takeHeaderAborting, if_neg (Bool.eq_false_iff.mp hp)]
      rfl
    case failed =>
      rw [exec_recordHeaderRead hs hout rfl, State.afterHeaderRead_error (by exact hr)]
  case ranges =>
    have hstart : BitVec.ofNat 40 (record.toNat + offset) = record + BitVec.ofNat 40 offset := by
      rw [← BitVec.ofNat_add_ofNat, BitVec.ofNat_toNat, BitVec.setWidth_eq]
    unfold recordRanges
    dsimp only
    rw [if_pos h, hstart]

/-- Settles O26: the second part by its decoding. -/
theorem secondPartGoesOnToAdmission : Obligations.SecondPartGoesOnToAdmission := by
  unfold Obligations.SecondPartGoesOnToAdmission
  intro c j a before after bytes s hs hout hlen hj
  have hexec := exec_recordSecondPartRead (answer := .data bytes) hs hout (beq_iff_eq.mpr hlen)
  have hjob : State.job { s with accesses := before ++ after } c = some j := hj
  have hreading : (s.chain c).state = .reading → exec (.recordSecondPartRead c (.data bytes)) s =
      .next (State.takeSecondPart { s with accesses := before ++ after } c bytes) := fun hst =>
    hexec.trans (congrArg _ (State.afterSecondPartRead_data (fun h => by cases hst.symm.trans h)))
  refine ⟨fun hst hb hm hf => ?relinks, fun hst hb => ?bad, fun k hst hb hm => ⟨?guard, fun hg => ?admitted⟩,
    fun k hst hb hm => ?paused, fun hst => ?aborting, fun record hr => ?failed⟩
  case relinks =>
    rw [hreading hst, State.takeSecondPart_bad hjob hb, State.endUnadmitted_badRecord hjob hst hm hf]
    rfl
  case bad =>
    rw [hreading hst, State.takeSecondPart_bad hjob hb]
  case guard =>
    rw [hreading hst, State.takeSecondPart_good hjob hb, State.recordPassed_of_no_mark (by exact hm)]
    rfl
  case admitted =>
    rw [hreading hst, State.takeSecondPart_good hjob hb, State.recordPassed_of_no_mark (by exact hm),
      State.guardStep_of_no_guard (j := k) (by exact State.job_setJob_self ..) hg]
    rfl
  case paused =>
    rw [hreading hst, State.takeSecondPart_good hjob hb, State.recordPassed_of_mark (by exact hm)]
    rfl
  case aborting =>
    have habort : State.afterSecondPartRead { s with accesses := before ++ after } c (.data bytes) =
        State.abortRecord { s with accesses := before ++ after } c := if_pos hst
    have hself : State.setJob { s with accesses := before ++ after } c (some j) = { s with accesses := before ++ after } := by
      have hset : s.jobs.set c (s.job c) = s.jobs := Vector.set_getElem_self ..
      unfold State.setJob
      rw [← hj, hset]
    rw [hexec, habort, ← hself, State.abortRecord_setJob]
    rfl
  case failed =>
    have hbreak : State.afterSecondPartRead { s with accesses := before ++ after } c .error =
        State.breakChain { s with accesses := before ++ after } c .recordRead (s.chain c).handAddress := rfl
    rw [exec_recordSecondPartRead hs hout rfl, hbreak, Chain.handAddress_of_inHand hr]

/-- Settles O29: the link by its value. -/
theorem linkReReadDecidesOutcomeState : Obligations.LinkReReadDecidesOutcomeState := by
  unfold Obligations.LinkReReadDecidesOutcomeState
  intro c j record a before after bytes s hs hout hlen hj hr
  have hexec := exec_linkReRead (answer := .data bytes) hs hout (beq_iff_eq.mpr hlen)
  have hjob : State.job { s with accesses := before ++ after } c = some j := hj
  have hactive : (s.chain c).state = .active → exec (.linkReRead c (.data bytes)) s =
      .next (State.takeLink { s with accesses := before ++ after } c (linkField bytes)) := fun hst =>
    hexec.trans (congrArg _ (State.afterLinkReRead_data (fun h => by cases hst.symm.trans h)))
  refine ⟨?failed, fun hst => ?aborting, fun hst hl => ?zero, fun r hst hl => ?good, fun hst hl => ?bad⟩
  case failed =>
    have hbreak : State.afterLinkReRead { s with accesses := before ++ after } c .error =
        State.breakChain { s with accesses := before ++ after } c .recordRead (s.chain c).handAddress := rfl
    rw [exec_linkReRead hs hout rfl, hbreak, Chain.handAddress_of_inHand hr]
  case aborting =>
    rw [hexec, State.afterLinkReRead_aborting (by exact hst), State.issueOutcome_of_job hjob]
  case zero =>
    rw [hactive hst, State.takeLink, hl]
    exact congrArg _ (State.issueOutcome_of_job hjob _ _)
  case good =>
    rw [hactive hst, State.takeLink, hl]
    exact congrArg _ (State.issueOutcome_of_job (by exact hjob) _ _)
  case bad =>
    rw [hactive hst, State.takeLink, hl]
    exact congrArg (fun n => Host.Outcome.next (State.breakChain { s with accesses := before ++ after } c .badLink n))
      (Chain.handAddress_of_inHand hr)

/-- Settles O31: the record anchor and the directory anchor, each by the value of its link. -/
theorem anchorLinkReReadParksOrReleases : Obligations.AnchorLinkReReadParksOrReleases := by
  unfold Obligations.AnchorLinkReReadParksOrReleases
  intro c a before after s hs hout x taken
  have hdata : ∀ bytes : List Byte, bytes.length = a.bytes → exec (.anchorLinkReRead c (.data bytes)) s =
      .next (taken.afterAnchorReRead c (.data bytes)) := fun bytes hlen =>
    exec_anchorLinkReRead hs hout (beq_iff_eq.mpr hlen)
  have herror : exec (.anchorLinkReRead c .error) s = .next (taken.afterAnchorReRead c .error) :=
    exec_anchorLinkReRead hs hout rfl
  have hreading : x.state = .reading → (taken.chain c).state ≠ .aborting := fun hst h => by cases hst.symm.trans h
  refine ⟨fun anchor bytes hst ha hlen => ?record, fun anchor ha => ?recordFailed, fun bytes hst ha hlen => ?directory,
    fun hst ha => ?directoryFailed, fun anchor bytes hst ha hlen => ?recordAborting,
    fun answer hst ha hlen => ?directoryAborting⟩
  case record =>
    have hexec : exec (.anchorLinkReRead c (.data bytes)) s = .next (taken.takeAnchorLink c anchor (linkField bytes)) := by
      rw [hdata bytes hlen, State.afterAnchorReRead_record (by exact ha), State.afterAnchorRecord_data (hreading hst)]
    refine ⟨fun hl hm => ?parks, fun hl hm => ?pauses, fun r hl => ?releases, fun hl => ?bad⟩
    case parks =>
      rw [hexec, State.takeAnchorLink_zero hl, State.goOnParking_of_no_mark (by exact hm), State.park_writing, ← ha]
      rfl
    case pauses =>
      rw [hexec, State.takeAnchorLink_zero hl, State.goOnParking_of_mark (by exact hm), ← ha]
      rfl
    case releases =>
      rw [hexec, State.takeAnchorLink_to hl]
      rfl
    case bad =>
      rw [hexec, State.takeAnchorLink_bad hl]
  case recordFailed =>
    rw [herror, State.afterAnchorReRead_record (by exact ha)]
    rfl
  case directory =>
    have hexec : exec (.anchorLinkReRead c (.data bytes)) s = .next (taken.takeHead c (linkField bytes)) := by
      rw [hdata bytes hlen, State.afterAnchorReRead_directory (by exact ha), State.afterAnchorHead_data (hreading hst)]
    refine ⟨fun hl hm => ?parks, fun hl hm => ?pausesParking, fun r hl hm => ?reads, fun r hl hm => ?pauses,
      fun hl => ?bad⟩
    case parks =>
      rw [hexec, State.takeHead_zero hl, State.goOnParking_of_no_mark (by exact hm), State.park_writing, ← ha]
      rfl
    case pausesParking =>
      rw [hexec, State.takeHead_zero hl, State.goOnParking_of_mark (by exact hm), ← ha]
      rfl
    case reads =>
      rw [hexec, State.takeHead_reads hl (by exact hm), ← hst]
      rfl
    case pauses =>
      rw [hexec, State.takeHead_pauses hl (by exact hm)]
      rfl
    case bad =>
      rw [hexec, State.takeHead_bad hl]
  case directoryFailed =>
    rw [herror, State.afterAnchorReRead_directory (by exact ha)]
    exact congrArg _ (if_neg (hreading hst))
  case recordAborting =>
    rw [hdata bytes hlen, State.afterAnchorReRead_record (by exact ha)]
    exact congrArg _ (if_pos hst)
  case directoryAborting =>
    rw [exec_anchorLinkReRead hs hout hlen, State.afterAnchorReRead_directory (by exact ha)]
    exact congrArg _ (if_pos hst)

end Sys2Proof.Machine
end

section
/-! PROOFS. The answers to the Chain Unit's writes (01 R13 to R18, R27). -/

namespace Sys2Proof.Machine

open Sys2Proof.Statements

section
variable {s : State} {c : ChainId} {j : Job}

/-! ## The accesses that stay -/

theorem map_without_nil (l : List Access) : l.map (Access.without []) = l := by
  rw [show Access.without [] = id from funext Access.without_nil, List.map_id]

@[simp] theorem Access.isParkStatusFor_without (gone : List Nat) (a : Access) :
    (a.without gone).isParkStatusFor c = a.isParkStatusFor c := rfl

/-- A write that carries an outcome state lands nothing when it fails. -/
theorem landedCells_error_of_outcome {a : Access} {o : OutcomeState} {byAbort : Bool}
    (h : a.kind = .outcomeWrite o byAbort) (hr : a.ranges ≠ []) (landed : List Nat) : landedCells (.error landed) a = [] := by
  obtain ⟨r, rest, hranges⟩ := List.exists_cons_of_ne_nil hr
  refine landedCells_error_of_stateByte (x := r.start.toNat) ?_ landed
  unfold Access.stateByte
  rw [h, hranges]
  rfl

theorem landedCells_error_of_release (n : ReleaseNext) (r : PhysAddr) (c : ChainId) (start : PhysAddr) (bytes : List Byte)
    (landed : List Nat) : landedCells (.error landed) (writeAccess (.releaseWrite n r) c start bytes) = [] :=
  landedCells_error_of_stateByte (x := start.toNat) rfl landed

theorem landedCells_error_of_status {a : Access} {n : StatusNext} (h : a.kind = .statusWrite n) (landed : List Nat) :
    landedCells (.error landed) a = a.cells.filter fun x => landed.contains x.1 := by
  refine landedCells_error_of_none ?_ landed
  unfold Access.stateByte
  rw [h]

/-- An access that a status command picks is a status write. -/
theorem Access.kind_of_isStatusFor {a : Access} (h : a.isStatusFor c = true) : ∃ n, a.kind = .statusWrite n := by
  unfold Access.isStatusFor at h
  split at h
  · next n hn => exact ⟨n, hn⟩
  · cases h

/-! ## The outcome write -/

theorem exec_outcomeWrite_acknowledged {a : Access} {before later : List Access} {o : OutcomeState} {byAbort : Bool}
    (hs : s.softReset = false) (h : s.hasOutstanding (Access.isOutcomeFor c) 0 a before later)
    (hk : a.kind = .outcomeWrite o byAbort) : exec (.outcomeWrite c .acknowledged) s = .next (State.afterOutcomeWrite { s with
      accesses := before.map (Access.without (a.cells.map (·.1))) ++ later
      memory := Memory.writeAll s.memory a.cells } c o byAbort true) := by
  refine congrArg Host.Outcome.next ((State.onWrite_outstanding h .acknowledged _ rfl hs).trans ?_)
  rw [hk]
  rfl

theorem exec_outcomeWrite_error {a : Access} {before later : List Access} {o : OutcomeState} {byAbort : Bool}
    (hs : s.softReset = false) (h : s.hasOutstanding (Access.isOutcomeFor c) 0 a before later)
    (hk : a.kind = .outcomeWrite o byAbort) (hr : a.ranges ≠ []) (landed : List Nat) :
    exec (.outcomeWrite c (.error landed)) s =
      .next (State.afterOutcomeWrite { s with accesses := before ++ later } c o byAbort false) := by
  refine congrArg Host.Outcome.next ((State.onWrite_outstanding h (.error landed) _ rfl hs).trans ?_)
  rw [hk, landedCells_error_of_outcome hk hr, List.map_nil, map_without_nil]
  rfl

/-- The chain context after a retire is counted (01 R13). -/
def Chain.counted (x : Chain) (j : Job) : Chain :=
  { x with retireCount := x.retireCount + 1, lastCode := j.code.getD .ok, lastTag := j.tag }

theorem State.countRetire_of_job (hj : s.job c = some j) : s.countRetire c = s.updChain c fun x => x.counted j := by
  unfold State.countRetire
  rw [hj]
  rfl

theorem State.retireStateCode_counted (c : ChainId) (j : Job) (o : OutcomeState) :
    (s.updChain c fun x => x.counted j).retireStateCode c o = s.retireStateCode c o := by
  unfold State.retireStateCode
  rw [State.chain_updChain_self]
  rfl

theorem State.afterOutcomeWrite_acknowledged (hj : s.job c = some j) (o : OutcomeState) (byAbort : Bool) :
    s.afterOutcomeWrite c o byAbort true = { s with
      chains := s.chains.set c ((s.chain c).counted j)
      accesses := s.accesses ++ [writeAccess (.statusWrite (if byAbort then .abortEnd else .retire o)) c (s.statusAddress c)
        (statusBytes (if byAbort then .idle else s.retireStateCode c o) (s.chain c).breakReason (j.code.getD .ok)
          ((s.chain c).retireCount + 1) (if byAbort then 0 else (s.chain c).currentAddress (o == .doneFree)) j.tag)] } := by
  unfold State.afterOutcomeWrite
  rw [if_pos rfl, State.countRetire_of_job hj]
  cases byAbort with
  | true =>
    dsimp only
    rw [if_pos rfl, State.finishAbort_eq, statusAccess, State.chain_updChain_self]
    rfl
  | false =>
    dsimp only
    rw [if_neg (by decide), State.retireStatus, State.issueStatus, State.retireStateCode_counted,
      State.chain_updChain_self]
    rfl

/-! ## The release write -/

theorem exec_releaseWrite_acknowledged {a : Access} {before later : List Access} {n : ReleaseNext} {record : PhysAddr}
    (hs : s.softReset = false) (h : s.hasOutstanding (Access.isReleaseFor c) 0 a before later)
    (ha : a = writeAccess (.releaseWrite n record) c (record + 8) [0x03]) :
    exec (.releaseWrite c .acknowledged) s = .next (State.afterRelease { s with
      accesses := before.map (Access.without [(record + 8).toNat]) ++ later
      memory := Memory.write s.memory (record + 8).toNat 0x03 } c n record true) := by
  subst ha
  exact congrArg Host.Outcome.next (State.onWrite_outstanding h .acknowledged _ rfl hs)

theorem exec_releaseWrite_error {a : Access} {before later : List Access} {n : ReleaseNext} {record : PhysAddr}
    (hs : s.softReset = false) (h : s.hasOutstanding (Access.isReleaseFor c) 0 a before later)
    (ha : a = writeAccess (.releaseWrite n record) c (record + 8) [0x03]) (landed : List Nat) :
    exec (.releaseWrite c (.error landed)) s =
      .next (State.afterRelease { s with accesses := before ++ later } c n record false) := by
  subst ha
  refine congrArg Host.Outcome.next ((State.onWrite_outstanding h (.error landed) _ rfl hs).trans ?_)
  rw [landedCells_error_of_release, List.map_nil, map_without_nil]
  rfl

theorem State.afterRelease_readNext (record : PhysAddr) (h : (s.chain c).state = .reading) :
    s.afterRelease c .readNext record true = s.goOnReading c := by
  unfold State.afterRelease
  rw [if_pos rfl, if_neg (by simp [h])]

theorem State.afterRelease_directory (record : PhysAddr) (h : (s.chain c).state = .reading) :
    s.afterRelease c .directory record true = s.readDirectory c := by
  unfold State.afterRelease
  rw [if_pos rfl, if_neg (by simp [h])]

theorem State.afterRelease_aborting (n : ReleaseNext) (record : PhysAddr) (h : (s.chain c).state = .aborting) :
    s.afterRelease c n record true = s.finishAbort c := by
  unfold State.afterRelease
  rw [if_pos rfl, if_pos h]

/-! ## The wake claim (01 R16) -/

/-- The claim of a parked chain on its wake flag. -/
def Chain.wakeClaim (x : Chain) : Waiter := { flag := x.latched.wakeFlag, wanted := true, consuming := true, kind := .wake }

theorem State.offerWake_waits (h : s.flags.getLsbD (s.chain c).latched.wakeFlag = false) :
    s.offerWake c = { s with waiters := s.waiters.set c (some (s.chain c).wakeClaim) } := by
  have hregister : FlagFile.register s.level c (s.chain c).wakeClaim s.flagFile =
      ({ s.flagFile with waiters := s.waiters.set c (some (s.chain c).wakeClaim) }, []) :=
    FlagFile.register_waits (Bool.eq_false_iff.mp h)
  change s.flagArrival (FlagFile.register s.level c (s.chain c).wakeClaim) [] = _
  rw [State.flagArrival_of_none s (congrArg Prod.snd hregister), hregister]
  rfl

/-- The flag is consumed, and the anchor read again. -/
theorem State.offerWake_wakes (h : s.flags.getLsbD (s.chain c).latched.wakeFlag = true)
    (hw : ∀ d w, s.waiter d = some w → w.flag ≠ (s.chain c).latched.wakeFlag) :
    s.offerWake c = State.reReadAnchor
      { s with flags := s.flags &&& ~~~BitVec.twoPow 32 (s.chain c).latched.wakeFlag } c := by
  have hchange : s.flagFile.change s.level (s.chain c).latched.wakeFlag false =
      (s.flagFile.put (s.chain c).latched.wakeFlag false, []) := FlagFile.change_unwaited hw
  have hregister : FlagFile.register s.level c (s.chain c).wakeClaim s.flagFile =
      (s.flagFile.put (s.chain c).latched.wakeFlag false, [.wake c]) := by
    refine (FlagFile.register_of_satisfied s.level c (by exact h)).trans ?_
    change ((s.flagFile.change s.level (s.chain c).latched.wakeFlag false).1,
      Followup.wake c :: (s.flagFile.change s.level (s.chain c).latched.wakeFlag false).2) = _
    rw [hchange]
  exact (State.flagArrival_of_one hregister).trans rfl

/-- The read of an anchor's link. -/
def State.anchorReRead (s : State) (c : ChainId) : Anchor → Access
  | .record r => readAccess .anchorReRead c r 8
  | .directory => readAccess .headReRead c (s.directoryAddress c) 8

theorem State.reReadAnchor_of_anchor {anchor : Anchor} (h : (s.chain c).anchor = some anchor) :
    s.reReadAnchor c = { s with
      chains := s.chains.set c { s.chain c with state := .reading }
      accesses := s.accesses ++ [s.anchorReRead c anchor] } := by
  cases anchor with
  | record r => exact State.reReadAnchor_record h
  | directory => exact State.reReadAnchor_directory h

/-- The wake of a chain whose flag is set as it parks. -/
theorem State.offerWake_reReads {anchor : Anchor} (h : s.flags.getLsbD (s.chain c).latched.wakeFlag = true)
    (hw : ∀ d w, s.waiter d = some w → w.flag ≠ (s.chain c).latched.wakeFlag) (ha : (s.chain c).anchor = some anchor) :
    s.offerWake c = { s with
      flags := s.flags &&& ~~~BitVec.twoPow 32 (s.chain c).latched.wakeFlag
      chains := s.chains.set c { s.chain c with state := .reading }
      accesses := s.accesses ++ [s.anchorReRead c anchor] } :=
  (State.offerWake_wakes h hw).trans (State.reReadAnchor_of_anchor ha)

/-! ## Arrivals with no waiter -/

/-- With no waiter, the operations of an arrival serve nobody and register nobody. -/
theorem FlagFile.applyAll_of_no_waiter {level : ChainId → Nat} {ff : FlagFile}
    (h : ∀ d : ChainId, ff.waiters[d] = none) (ops : List (FlagId × FlagOp)) :
    (ff.applyAll level ops).2 = [] ∧ (ff.applyAll level ops).1.waiters = ff.waiters := by
  induction ops generalizing ff with
  | nil => exact ⟨rfl, rfl⟩
  | cons x rest ih =>
    obtain ⟨f, op⟩ := x
    obtain ⟨v, hv⟩ : ∃ v, ff.apply level f op = (ff.put f v, []) :=
      ⟨_, (FlagFile.apply_eq_change level f op ff).trans (FlagFile.change_unwaited fun d w hd => by
        rw [h d] at hd
        cases hd)⟩
    obtain ⟨hserved, hwaiters⟩ := ih (ff := ff.put f v) h
    unfold FlagFile.applyAll
    rw [hv]
    exact ⟨hserved, hwaiters⟩

/-- An arrival that serves nobody, with one thing beside it. -/
theorem State.flagArrival_beside {op : FlagFile → FlagFile × List Followup} (h : (op s.flagFile).2 = []) (x : Followup) :
    s.flagArrival op [x] = (s.withFlagFile (op s.flagFile).1).runFollowup x := by
  unfold State.flagArrival
  simp only [h, List.nil_append, State.settle_singleton]
  rfl

/-- The end of a retire where nobody waits: the flags, then the drop of the job context. -/
theorem State.endRetire_of_no_waiter (hj : s.job c = some j) (hm : s.pendingMark = none)
    (ht : s.tableGate.has c = false) (hr : s.replGate.has c = false) (hw : ∀ d, s.waiter d = none) (o : OutcomeState) :
    s.endRetire c o = State.afterRetire { s with
      flags := (FlagFile.applyAll s.level (retireOps j (j.code.getD .ok) (s.chain c).latched.faultFlag) s.flagFile).1.flags
      jobs := s.jobs.set c none } c o j.haltsChain := by
  obtain ⟨hserved, hwaiters⟩ := FlagFile.applyAll_of_no_waiter (level := s.level) (ff := s.flagFile) hw
    (retireOps j (j.code.getD .ok) (s.chain c).latched.faultFlag)
  have harrival := State.flagArrival_beside hserved (.drop c)
  have hdrop (ff : FlagFile) : (s.withFlagFile ff).dropJob c = (s.withFlagFile ff).setJob c none :=
    State.dropJob_of_placeless (.inr ⟨hm, ht, hr⟩)
  unfold State.endRetire
  rw [hj]
  dsimp only
  rw [harrival, State.runFollowup, hdrop, State.withFlagFile, hwaiters]
  rfl

/-! ## After a retire (01 R14, R15, R22, R26) -/

section
variable {r : PhysAddr}

/-- The chain with no record in hand any more. -/
def State.emptyHand (s : State) (c : ChainId) : State := s.updChain c fun x => { x with inHand := none }

theorem State.chain_emptyHand (s : State) (c : ChainId) : (s.emptyHand c).chain c = { s.chain c with inHand := none } :=
  State.chain_updChain_self ..

theorem State.emptyHand_chains (s : State) (c : ChainId) :
    (s.emptyHand c).chains = s.chains.set c { s.chain c with inHand := none } := rfl

theorem State.afterRetire_aborting (hr : (s.chain c).inHand = some r) (h : (s.chain c).state = .aborting)
    (o : OutcomeState) (halts : Bool) : s.afterRetire c o halts =
      if o = .doneHeld then (s.emptyHand c).issueRelease c r .abortEnd else (s.emptyHand c).finishAbort c := by
  have hstate : ((s.emptyHand c).chain c).state = .aborting := (congrArg Chain.state (s.chain_emptyHand c)).trans h
  unfold State.afterRetire
  rw [hr]
  exact if_pos hstate

theorem State.afterRetire_running (hr : (s.chain c).inHand = some r) (h : (s.chain c).state ≠ .aborting)
    (o : OutcomeState) : s.afterRetire c o false =
      if o = .doneFree then (s.emptyHand c).goOnReading c else (s.emptyHand c).goOnParking c (.record r) false := by
  have hstate : ((s.emptyHand c).chain c).state ≠ .aborting := fun hs =>
    h ((congrArg Chain.state (s.chain_emptyHand c)).symm.trans hs)
  unfold State.afterRetire
  rw [hr]
  exact (if_neg hstate).trans (if_neg (by decide))

theorem State.afterRetire_aborting_held (hr : (s.chain c).inHand = some r) (h : (s.chain c).state = .aborting)
    (halts : Bool) : s.afterRetire c .doneHeld halts = { s with
      chains := s.chains.set c { s.chain c with inHand := none, anchor := none }
      accesses := s.accesses ++ [writeAccess (.releaseWrite .abortEnd r) c (r + 8) [0x03]] } := by
  rw [State.afterRetire_aborting hr h, if_pos rfl, State.issueRelease_eq, State.chain_emptyHand, State.emptyHand_chains,
    Vector.set_set]
  rfl

theorem State.afterRetire_aborting_free (hr : (s.chain c).inHand = some r) (h : (s.chain c).state = .aborting)
    (halts : Bool) : s.afterRetire c .doneFree halts = { s with
      chains := s.chains.set c { s.chain c with inHand := none }
      accesses := s.accesses ++ [statusAccess s c .abortEnd .idle 0] } := by
  rw [State.afterRetire_aborting hr h, if_neg (by decide), State.finishAbort_eq, statusAccess, State.chain_emptyHand]
  rfl

theorem State.afterRetire_reads {a : PhysAddr} (hr : (s.chain c).inHand = some r) (h : (s.chain c).state ≠ .aborting)
    (hm : (s.chain c).pauseMark = false) (hn : (s.chain c).next = some a) : s.afterRetire c .doneFree false = { s with
      chains := s.chains.set c { s.chain c with state := .reading, inHand := some a, anchor := none, next := none }
      accesses := s.accesses ++ [readAccess .headerRead c a 32] } := by
  rw [State.afterRetire_running hr h, if_pos rfl, State.goOnReading_of_next (r := a)]
  · rw [State.chain_emptyHand, State.emptyHand_chains, Vector.set_set]
    rfl
  · rw [State.chain_emptyHand, hm]
  · rw [State.chain_emptyHand, hn]

theorem State.afterRetire_pauses_reading (hr : (s.chain c).inHand = some r) (h : (s.chain c).state ≠ .aborting)
    (hm : (s.chain c).pauseMark = true) : s.afterRetire c .doneFree false = { s with
      chains := s.chains.set c { s.chain c with
        state := .paused, resume := some .readNext, pauseMark := false, inHand := none, anchor := none } } := by
  rw [State.afterRetire_running hr h, if_pos rfl, State.goOnReading_of_mark]
  · rw [State.chain_emptyHand, State.emptyHand_chains, Vector.set_set]
    rfl
  · rw [State.chain_emptyHand, hm]

theorem State.afterRetire_pauses_parking (hr : (s.chain c).inHand = some r) (h : (s.chain c).state ≠ .aborting)
    (hm : (s.chain c).pauseMark = true) : s.afterRetire c .doneHeld false = { s with
      chains := s.chains.set c { s.chain c with
        state := .paused, resume := some .park, pauseMark := false, inHand := none, anchor := some (.record r) } } := by
  rw [State.afterRetire_running hr h, if_neg (by decide), State.goOnParking_of_mark]
  · rw [State.chain_emptyHand, State.emptyHand_chains, Vector.set_set]
    rfl
  · rw [State.chain_emptyHand, hm]

/-- The chain context of a chain that parks on a record. -/
def Chain.parkedOn (r : PhysAddr) (x : Chain) : Chain :=
  { x with state := .parked, inHand := none, anchor := some (.record r) }

theorem State.afterRetire_parks (hr : (s.chain c).inHand = some r) (h : (s.chain c).state ≠ .aborting)
    (hm : (s.chain c).pauseMark = false) : s.afterRetire c .doneHeld false =
      (s.updChain c (Chain.parkedOn r)).offerWake c := by
  rw [State.afterRetire_running hr h, if_neg (by decide), State.goOnParking_of_no_mark]
  · unfold State.park State.emptyHand
    dsimp only
    rw [if_neg (by decide), State.updChain_twice]
    rfl
  · rw [State.chain_emptyHand, hm]

end

/-! ## The status write -/

theorem exec_statusWrite_acknowledged {n : Nat} {a : Access} {before later : List Access} {next : StatusNext}
    (hs : s.softReset = false) (h : s.hasOutstanding (Access.isStatusFor c) n a before later)
    (hk : a.kind = .statusWrite next) : exec (.statusWrite c n .acknowledged) s = .next (State.afterStatusWrite { s with
      accesses := before.map (Access.without (a.cells.map (·.1))) ++ later
      memory := Memory.writeAll s.memory a.cells } c next) := by
  refine congrArg Host.Outcome.next ((State.onWrite_outstanding h .acknowledged _ rfl hs).trans ?_)
  rw [hk]
  rfl

/-- A failed status write is reported, and the chain goes on all the same. -/
theorem exec_statusWrite_error {n : Nat} {a : Access} {before later : List Access} {next : StatusNext}
    (hs : s.softReset = false) (h : s.hasOutstanding (Access.isStatusFor c) n a before later)
    (hk : a.kind = .statusWrite next) (landed : List Nat) : exec (.statusWrite c n (.error landed)) s =
      .next (State.afterStatusWrite { s with
        accesses := before.map (Access.without ((a.cells.filter fun x => landed.contains x.1).map (·.1))) ++ later
        memory := Memory.writeAll s.memory (a.cells.filter fun x => landed.contains x.1)
        errors := s.errors.report .statusWrite c } c next) := by
  refine congrArg Host.Outcome.next ((State.onWrite_outstanding h (.error landed) _ rfl hs).trans ?_)
  rw [hk, landedCells_error_of_status hk]
  rfl

/-- The accesses that stay hold no status write of an entry into PARKED. -/
theorem State.awaitsParkStatus_of_none {before later : List Access} (gone : List Nat)
    (h : ∀ x ∈ before ++ later, x.isParkStatusFor c = false)
    (hacc : s.accesses = before.map (Access.without gone) ++ later) : s.awaitsParkStatus c = false := by
  unfold State.awaitsParkStatus
  rw [hacc, List.any_eq_false]
  intro x hx
  obtain hx | hx := List.mem_append.mp hx
  · obtain ⟨y, hy, rfl⟩ := List.mem_map.mp hx
    simp [h y (List.mem_append_left _ hy)]
  · simp [h x (List.mem_append_right _ hx)]

theorem State.resumePark_of_not_awaiting {a : Anchor} (ha : (s.chain c).anchor = some a)
    (hw : s.awaitsParkStatus c = false) : s.resumePark c = s.park c a true := by
  unfold State.resumePark
  rw [ha]
  exact if_neg (Bool.eq_false_iff.mp hw)

end

/-- Settles O32. -/
theorem outcomeWriteCountsAndWritesStatus : Obligations.OutcomeWriteCountsAndWritesStatus := by
  unfold Obligations.OutcomeWriteCountsAndWritesStatus
  refine ⟨fun c j record o byAbort a before after s hs hout hk hj hr hranges => ⟨?acknowledged, fun landed => ?failed⟩,
    fun c o s h => if_pos h, fun x afterFree => ⟨fun a hf hn => ?next, fun h => ⟨fun a ha => ?hand, fun a hh ha => ?anchor,
      fun hh ha => ?none⟩⟩⟩
  case acknowledged =>
    rw [exec_outcomeWrite_acknowledged hs hout hk, State.afterOutcomeWrite_acknowledged (by exact hj)]
    rfl
  case failed =>
    have hbreak : State.afterOutcomeWrite { s with accesses := before ++ after } c o byAbort false =
        State.breakChain { s with accesses := before ++ after } c .outcomeWrite (s.chain c).handAddress := rfl
    rw [exec_outcomeWrite_error hs hout hk hranges, hbreak, Chain.handAddress_of_inHand hr]
  case next =>
    unfold Chain.currentAddress
    rw [hf, if_pos rfl, hn]
  all_goals
    have hafter : (if afterFree then x.next else none) = none := by
      obtain h | h := h
      · rw [h, if_neg (by decide)]
      · rw [h, ite_self]
    unfold Chain.currentAddress
    rw [hafter]
  case hand => rw [ha]
  case anchor => rw [hh, ha]
  case none => obtain ha | ha := ha <;> rw [hh, ha]

/-- Settles O34. -/
theorem releaseWriteGoesOnToCallingStep : Obligations.ReleaseWriteGoesOnToCallingStep := by
  unfold Obligations.ReleaseWriteGoesOnToCallingStep
  intro c record n a before after s hs hout ha
  have hexec := exec_releaseWrite_acknowledged hs hout ha
  refine ⟨fun r hst hn hnext hm => ?reads, fun hst hn hm => ?pauses, fun hst hn => ?directory, fun hst => ?aborting,
    fun landed => exec_releaseWrite_error hs hout ha landed⟩
  case reads =>
    subst hn
    rw [hexec, State.afterRelease_readNext _ (by exact hst), State.goOnReading_of_next (by exact hm) (by exact hnext)]
    rfl
  case pauses =>
    subst hn
    rw [hexec, State.afterRelease_readNext _ (by exact hst), State.goOnReading_of_mark (by exact hm)]
    rfl
  case directory =>
    subst hn
    rw [hexec, State.afterRelease_directory _ (by exact hst)]
    rfl
  case aborting =>
    rw [hexec, State.afterRelease_aborting _ _ (by exact hst)]
    rfl

/-- Settles O35: each purpose by the operation that follows it. -/
theorem statusWriteGoesOnByItsPurpose : Obligations.StatusWriteGoesOnByItsPurpose := by
  unfold Obligations.StatusWriteGoesOnByItsPurpose
  refine ⟨fun c n anchor a before after s hs hout hk hanchor => ?parked, fun c n landed a before after s hs hout => ?failed,
    ?purposes, ?retired⟩
  case parked =>
    have hexec := exec_statusWrite_acknowledged hs hout hk
    refine ⟨hexec, fun hflag => ?waits, fun hflag hw => ?wakes, fun hflag => ?waitsReported⟩
    case waits => exact hexec.trans (congrArg _ (State.offerWake_waits hflag))
    case wakes =>
      refine hexec.trans (congrArg Host.Outcome.next ?_)
      refine (State.offerWake_reReads (by exact hflag) (by exact hw) (by exact hanchor)).trans ?_
      cases anchor <;> rfl
    case waitsReported =>
      refine (exec_statusWrite_error hs hout hk []).trans (congrArg Host.Outcome.next ?_)
      refine (State.offerWake_waits (by exact hflag)).trans ?_
      have hnone : (a.cells.filter fun x => ([] : List Nat).contains x.1) = [] := by simp
      rw [hnone, List.map_nil, map_without_nil]
      rfl
  case failed =>
    obtain ⟨next, hk⟩ := Access.kind_of_isStatusFor hout.2.1
    have hout' : State.hasOutstanding { s with
        errors := s.errors.report .statusWrite c
        accesses := before ++ { a with cells := a.cells.filter fun x => landed.contains x.1 } :: after }
        (Access.isStatusFor c) n { a with cells := a.cells.filter fun x => landed.contains x.1 } before after :=
      ⟨rfl, hout.2.1, hout.2.2⟩
    exact (exec_statusWrite_error hs hout hk landed).trans
      (exec_statusWrite_acknowledged (by exact hs) hout' (by exact hk)).symm
  case purposes =>
    intro c n next a before after s hs hout hk hpark t
    have hexec : exec (.statusWrite c n .acknowledged) s = .next (t.afterStatusWrite c next) :=
      exec_statusWrite_acknowledged hs hout hk
    have hawait : t.awaitsParkStatus c = false := State.awaitsParkStatus_of_none _ hpark rfl
    refine ⟨fun hn => ?nothing, fun anchor hn ha => ?parkAgain, fun r hn ha => ?release, fun hn ha => ?idle,
      fun hn => ?abortEnd, fun hn => ?noFlag, fun f hn hw => ?flagSet, fun f hn => ?flag, fun j o hn hj => ?retire⟩
    all_goals subst hn
    case nothing => exact hexec
    case parkAgain =>
      refine hexec.trans (congrArg _ ((State.resumePark_of_not_awaiting (s := t) ha hawait).trans ?_))
      rw [State.park_writing, ← ha]
      rfl
    case release => exact hexec.trans (congrArg _ (State.abortAnchor_record hawait ha))
    case idle => exact hexec.trans (congrArg _ (State.abortAnchor_directory hawait ha))
    case abortEnd => exact hexec
    case noFlag => exact hexec
    case flagSet => exact hexec.trans (congrArg _ (State.flagArrival_set_unwaited (s := t) hw))
    case flag => exact hexec
    case retire =>
      have hend : t.endRetire c o = (t.flagArrival (FlagFile.applyAll s.level
          (retireOps j (j.code.getD .ok) (s.chain c).latched.faultFlag)) [.drop c]).afterRetire c o j.haltsChain := by
        have hj' : t.job c = some j := hj
        unfold State.endRetire
        rw [hj']
        rfl
      exact hexec.trans (congrArg _ hend)
  case retired =>
    intro c n j o record a before after s hs hout hk hj hr hm ht hrg hw t
    have hexec : exec (.statusWrite c n .acknowledged) s = .next (t.afterRetire c o j.haltsChain) :=
      (exec_statusWrite_acknowledged hs hout hk).trans (congrArg _ (State.endRetire_of_no_waiter (by exact hj) (by exact hm)
        (by exact ht) (by exact hrg) (by exact hw) o))
    refine ⟨fun next ha ho hh hp hn => ?reads, fun ha ho hh hp => ?pausesReading, fun ha ho hh hp => ?pausesParking,
      fun ha ho => ?releases, fun ha ho => ?idle, fun ha hh => ?halted, fun ha ho hh hp hf => ?wakes,
      fun ha ho hh hp hf => ?parks⟩
    case reads =>
      subst ho
      rw [hexec, hh, State.afterRetire_reads (s := t) hr ha hp hn]
      rfl
    case pausesReading =>
      subst ho
      rw [hexec, hh, State.afterRetire_pauses_reading (s := t) hr ha hp]
      rfl
    case pausesParking =>
      subst ho
      rw [hexec, hh, State.afterRetire_pauses_parking (s := t) hr ha hp]
      rfl
    case releases =>
      subst ho
      rw [hexec, State.afterRetire_aborting_held (s := t) hr ha]
      rfl
    case idle =>
      subst ho
      rw [hexec, State.afterRetire_aborting_free (s := t) hr ha]
      rfl
    case halted =>
      rw [hexec, hh, State.afterRetire_of_halts o (s := t) ha hr]
      rfl
    case wakes =>
      subst ho
      have hchain : (t.updChain c (Chain.parkedOn record)).chain c = (s.chain c).parkedOn record :=
        State.chain_updChain_self ..
      rw [hexec, hh, State.afterRetire_parks (s := t) hr ha hp, State.offerWake_reReads (anchor := .record record)]
      · rw [hchain, State.updChain_chains, Vector.set_set]
        rfl
      · rw [hchain]
        exact hf
      · intro d w hd
        cases (hw d).symm.trans hd
      · rw [hchain]
        rfl
    case parks =>
      subst ho
      have hchain : (t.updChain c (Chain.parkedOn record)).chain c = (s.chain c).parkedOn record :=
        State.chain_updChain_self ..
      rw [hexec, hh, State.afterRetire_parks (s := t) hr ha hp, State.offerWake_waits]
      · rw [hchain]
        rfl
      · rw [hchain]
        exact hf

end Sys2Proof.Machine
end

section
/-! PROOFS. The guard step and admission (01 R7, R8, 03 R58 to R63). -/

namespace Sys2Proof.Machine

open Sys2Proof.Statements

/-! ## The guard step (01 R7, 02 R34, R39, R40) -/

section
variable {s : State} {c : ChainId} {j : Job} {g : Guard}

/-- The waiter of a guard. -/
def Guard.waiter (g : Guard) : Waiter := { flag := g.flag, wanted := g.wanted, consuming := g.consume, kind := .guard }

theorem State.guardStep_of_passed (hj : s.job c = some j) (h : j.guard = none ∨ j.guardPassed = true) :
    s.guardStep c = s.admitJob c := by
  by_cases hg : j.guard = none
  · exact State.guardStep_of_no_guard hj hg
  · have hp := h.resolve_left hg
    obtain ⟨g, hg⟩ := Option.ne_none_iff_exists'.mp hg
    unfold State.guardStep
    rw [hj]
    dsimp only
    rw [hg]
    exact if_pos hp

theorem State.guardStep_wait (hj : s.job c = some j) (hg : j.guard = some g) (hp : j.guardPassed = false)
    (hm : g.mode = .wait) : s.guardStep c = s.flagArrival (FlagFile.register s.level c g.waiter) [] := by
  unfold State.guardStep
  rw [hj]
  dsimp only
  rw [hg]
  dsimp only
  rw [if_neg (Bool.eq_false_iff.mp hp), hm]
  rfl

theorem State.guardStep_skip (hj : s.job c = some j) (hg : j.guard = some g) (hp : j.guardPassed = false)
    (hm : g.mode = .skip) : s.guardStep c =
      if s.flags.getLsbD g.flag = g.wanted then
        if g.consume then s.flagArrival (FlagFile.change s.level g.flag (!g.wanted)) [.passed c]
        else s.runFollowup (.passed c)
      else s.endUnadmitted c .skipped := by
  unfold State.guardStep
  rw [hj]
  dsimp only
  rw [hg]
  dsimp only
  rw [if_neg (Bool.eq_false_iff.mp hp), hm]

/-- A guard that its flag satisfies and that does not consume is passed. -/
theorem State.guardStep_satisfied (hj : s.job c = some j) (hg : j.guard = some g) (hp : j.guardPassed = false)
    (hf : s.flags.getLsbD g.flag = g.wanted) (hc : g.consume = false) : s.guardStep c = s.runFollowup (.passed c) := by
  cases hm : g.mode with
  | wait =>
    have hregister : FlagFile.register s.level c g.waiter s.flagFile = (s.flagFile, [.passed c]) := by
      refine (FlagFile.register_of_satisfied s.level c (by exact hf)).trans ?_
      rw [if_neg (by simp [Guard.waiter, hc])]
      rfl
    rw [State.guardStep_wait hj hg hp hm, State.flagArrival_of_one hregister]
    rfl
  | skip => rw [State.guardStep_skip hj hg hp hm, if_pos hf, if_neg (by simp [hc])]

/-- One that consumes takes the flag back first. -/
theorem State.guardStep_consumes (hj : s.job c = some j) (hg : j.guard = some g) (hp : j.guardPassed = false)
    (hf : s.flags.getLsbD g.flag = g.wanted) (hc : g.consume = true) (hw : ∀ d w, s.waiter d = some w → w.flag ≠ g.flag) :
    s.guardStep c = (s.withFlagFile (s.flagFile.put g.flag (!g.wanted))).runFollowup (.passed c) := by
  have hchange : s.flagFile.change s.level g.flag (!g.wanted) = (s.flagFile.put g.flag (!g.wanted), []) :=
    FlagFile.change_unwaited hw
  cases hm : g.mode with
  | wait =>
    have hregister : FlagFile.register s.level c g.waiter s.flagFile =
        (s.flagFile.put g.flag (!g.wanted), [.passed c]) := by
      refine (FlagFile.register_of_satisfied s.level c (by exact hf)).trans ?_
      rw [if_pos (by exact hc)]
      change ((s.flagFile.change s.level g.flag (!g.wanted)).1,
        Followup.passed c :: (s.flagFile.change s.level g.flag (!g.wanted)).2) = _
      rw [hchange]
    rw [State.guardStep_wait hj hg hp hm, State.flagArrival_of_one hregister]
  | skip =>
    rw [State.guardStep_skip hj hg hp hm, if_pos hf, if_pos hc, State.flagArrival_beside (congrArg Prod.snd hchange),
      hchange]

/-- A WAIT guard that its flag does not satisfy is registered. -/
theorem State.guardStep_waits (hj : s.job c = some j) (hg : j.guard = some g) (hp : j.guardPassed = false)
    (hm : g.mode = .wait) (hf : s.flags.getLsbD g.flag ≠ g.wanted) :
    s.guardStep c = { s with waiters := s.waiters.set c (some g.waiter) } := by
  have hregister : FlagFile.register s.level c g.waiter s.flagFile =
      ({ s.flagFile with waiters := s.waiters.set c (some g.waiter) }, []) := FlagFile.register_waits hf
  rw [State.guardStep_wait hj hg hp hm, State.flagArrival_of_none s (congrArg Prod.snd hregister), hregister]
  rfl

end

/-! ## Admission by its steps (01 R8) -/

section
variable {s u : State} {c : ChainId} {j k : Job}

/-- What a granted claim changes: a gate. -/
theorem State.claim_setJob (s : State) (c : ChainId) (o : Option Job) (g : GateClaim) :
    (s.setJob c o).claim c g = (s.claim c g).map fun u => u.setJob c o := by
  have hite (p : Prop) [Decidable p] (u : State) : (if p then some (u.setJob c o) else none) =
      (if p then some u else none).map fun u => u.setJob c o := by
    split <;> rfl
  cases g with
  | none => rfl
  | table =>
    exact hite (s.tableGate.hasUser = false ∧ s.tableGate.holder = none)
      { s with tableGate := s.tableGate.grantTable c }
  | lookup =>
    exact hite (s.tableGate.holder = none ∧ s.tableGate.waitingFor .table = [])
      { s with tableGate := s.tableGate.grantLookup c }
  | replacement => exact hite (s.replGate.holder = none) { s with replGate := s.replGate.grant c }

theorem State.claim_chains {g : GateClaim} (h : s.claim c g = some u) : u.chains = s.chains ∧ u.jobs = s.jobs := by
  cases g <;> dsimp only [State.claim] at h
  · obtain rfl := Option.some.inj h
    exact ⟨rfl, rfl⟩
  all_goals
    obtain ⟨-, hu⟩ := Option.ite_none_right_eq_some.mp h
    obtain rfl := Option.some.inj hu
    exact ⟨rfl, rfl⟩

/-- The chain ACTIVE with its job in RUNNING (01 R8 step 4). -/
def State.running (s : State) (c : ChainId) (k : Job) : State := { s with
  chains := s.chains.set c { s.chain c with state := .active }
  jobs := s.jobs.set c (some k.admit_) }

theorem State.setJob_running (s : State) (c : ChainId) (k : Job) :
    ((s.setJob c (some k)).updChain c fun x => { x with state := .active }).setJob c (some k.admit_) = s.running c k :=
  State.setJob_setJob (s.updChain c fun x => { x with state := .active }) c (some k) (some k.admit_)

theorem State.enterRunning_signal (h : k.body = .signal) :
    (s.setJob c (some k)).enterRunning c = (s.running c k).finishWork c := by
  unfold State.enterRunning
  rw [State.job_setJob_self]
  dsimp only
  rw [h, State.setJob_running]

theorem State.enterRunning_table {b : TableBody} (h : k.body = .table b) :
    (s.setJob c (some k)).enterRunning c = (s.running c k).tableResolve c := by
  unfold State.enterRunning
  rw [State.job_setJob_self]
  dsimp only
  rw [h, State.setJob_running]

theorem State.enterRunning_other (h : k.body ≠ .signal) (h' : ∀ b, k.body ≠ .table b) :
    (s.setJob c (some k)).enterRunning c = s.running c k := by
  unfold State.enterRunning
  rw [State.job_setJob_self]
  dsimp only
  rw [State.setJob_running]
  split
  · next hb => exact absurd hb h
  · next b hb => exact absurd hb (h' b)
  · rfl

theorem State.admitJob_forbidden (hj : s.job c = some j) (hp : (s.chain c).latched.privilege = .data)
    (hk : j.dataMayRun = false) : s.admitJob c = s.endUnadmitted c .notPermitted := by
  unfold State.admitJob
  rw [hj]
  exact if_pos ⟨hp, hk⟩

theorem State.admitJob_permitted (hj : s.job c = some j)
    (hp : (s.chain c).latched.privilege = .config ∨ j.dataMayRun = true) :
    s.admitJob c = match s.admissionChecks j with
      | .error code => s.endUnadmitted c code
      | .ok k =>
        let t := s.setJob c (some k)
        if t.gateGranted c k.gateClaim then t.enterRunning c
        else match t.claim c k.gateClaim with
          | some u => u.enterRunning c
          | none => t.waitAtGate c k.gateClaim := by
  have hallowed : ¬ ((s.chain c).latched.privilege = .data ∧ j.dataMayRun = false) := by
    rintro ⟨hd, hk⟩
    obtain hp | hp := hp
    · cases hd.symm.trans hp
    · cases hk.symm.trans hp
  unfold State.admitJob
  rw [hj]
  exact (if_neg hallowed).trans rfl

/-- A claim that its gate has granted, or grants at once: the job runs. -/
theorem State.admitJob_runs (hj : s.job c = some j) (hp : (s.chain c).latched.privilege = .config ∨ j.dataMayRun = true)
    (hk : s.admissionChecks j = .ok k) (hu : (s.gateGranted c k.gateClaim = true ∧ u = s) ∨
      (s.gateGranted c k.gateClaim = false ∧ s.claim c k.gateClaim = some u)) :
    s.admitJob c = (u.setJob c (some k)).enterRunning c := by
  have hgranted : (s.setJob c (some k)).gateGranted c k.gateClaim = s.gateGranted c k.gateClaim := by
    cases k.gateClaim <;> rfl
  rw [State.admitJob_permitted hj hp, hk]
  dsimp only
  rw [hgranted]
  obtain ⟨hg, rfl⟩ | ⟨hg, hu⟩ := hu
  · rw [if_pos hg]
  · rw [if_neg (Bool.eq_false_iff.mp hg), State.claim_setJob, hu]
    rfl

/-- Any other waits. -/
theorem State.admitJob_waits (hj : s.job c = some j) (hp : (s.chain c).latched.privilege = .config ∨ j.dataMayRun = true)
    (hk : s.admissionChecks j = .ok k) (hg : s.gateGranted c k.gateClaim = false) (hu : s.claim c k.gateClaim = none) :
    s.admitJob c = (s.setJob c (some k)).waitAtGate c k.gateClaim := by
  have hgranted : (s.setJob c (some k)).gateGranted c k.gateClaim = s.gateGranted c k.gateClaim := by
    cases k.gateClaim <;> rfl
  rw [State.admitJob_permitted hj hp, hk]
  dsimp only
  rw [hgranted, if_neg (Bool.eq_false_iff.mp hg), State.claim_setJob, hu]
  rfl

/-- The record held at the gate that its job claims. -/
theorem State.waitAtGate_setJob {g : GateClaim} (hg : g ≠ .none) : (s.setJob c (some k)).waitAtGate c g = { s with
    chains := s.chains.set c { s.chain c with state := .waiting }
    jobs := s.jobs.set c (some { k with phase := .admitting, source := none, dest := none, coeff := none })
    tableGate := if g = .replacement then s.tableGate else { s.tableGate with
      waiting := s.tableGate.waiting.set c (some (if g = .table then .table else .lookup)) }
    replGate := if g = .replacement then { s.replGate with waiting := s.replGate.waiting.set c true } else s.replGate } := by
  have hjob : ((s.setJob c (some k)).updChain c fun x => { x with state := .waiting }).job c = some k :=
    State.job_setJob_self ..
  have hheld : (((s.setJob c (some k)).updChain c fun x => { x with state := .waiting }).updJob c fun j =>
      { j with phase := .admitting, source := none, dest := none, coeff := none }) = { s with
        chains := s.chains.set c { s.chain c with state := .waiting }
        jobs := s.jobs.set c (some { k with phase := .admitting, source := none, dest := none, coeff := none }) } := by
    rw [State.updJob_of_job hjob]
    exact State.setJob_setJob (s.updChain c fun x => { x with state := .waiting }) c (some k) _
  unfold State.waitAtGate
  rw [hheld]
  cases g with
  | none => exact absurd rfl hg
  | table => rfl
  | lookup => rfl
  | replacement => rfl

end

/-! ## The checks of CONVERT and COPY (03 R58 to R63) -/

/-- The transform byte by its value. -/
theorem decodeTransform_cases (n : Nat) : (n ∉ [1, 2, 3] ∧ decodeTransform n = none) ∨
    (n = 1 ∧ decodeTransform n = some .pass) ∨ (n = 2 ∧ decodeTransform n = some .lookup) ∨
    (n = 3 ∧ decodeTransform n = some .chroma) := by
  unfold decodeTransform
  split <;> simp_all

theorem decodeWiden_isSome (n : Nat) : (decodeWiden n).isSome = true ↔ n ∈ [1, 2, 3] := by
  unfold decodeWiden
  split <;> simp_all

section
variable (t : TransformBody)

theorem TransformBody.transform_eq_iff (n : Nat) (hn : n < 256) :
    t.transform = BitVec.ofNat 8 n ↔ t.transform.toNat = n := by
  rw [← BitVec.toNat_inj, BitVec.toNat_ofNat, Nat.mod_eq_of_lt hn]

theorem TransformBody.kind_eq_lookup_iff : t.kind = .lookup ↔ t.transform = 2 := by
  rw [show (2 : Byte) = BitVec.ofNat 8 2 from rfl, t.transform_eq_iff 2 (by decide)]
  unfold TransformBody.kind
  obtain ⟨hn, h⟩ | ⟨hn, h⟩ | ⟨hn, h⟩ | ⟨hn, h⟩ := decodeTransform_cases t.transform.toNat <;> rw [h] <;> simp_all

theorem TransformBody.kind_eq_chroma_iff : t.kind = .chroma ↔ t.transform = 3 := by
  rw [show (3 : Byte) = BitVec.ofNat 8 3 from rfl, t.transform_eq_iff 3 (by decide)]
  unfold TransformBody.kind
  obtain ⟨hn, h⟩ | ⟨hn, h⟩ | ⟨hn, h⟩ | ⟨hn, h⟩ := decodeTransform_cases t.transform.toNat <;> rw [h] <;> simp_all

/-- 03 R61: the encodings first, then the ranges. -/
theorem transformFault_eq : transformFault t =
    if t.transform.toNat ∉ [1, 2, 3] ∨ t.widen.toNat ∉ [1, 2, 3] then some .shape
    else if (t.transform = 2 ∧ (t.indexWidth = 0 ∨ 10 < t.indexWidth.toNat)) ∨ (t.transform = 3 ∧ 3 < t.coeffSet.toNat) then
      some .range
    else none := by
  have hindex : t.indexWidth = 0 ↔ t.indexWidth.toNat = 0 := by rw [← BitVec.toNat_inj]; rfl
  have hlookup := t.kind_eq_lookup_iff
  have hchroma := t.kind_eq_chroma_iff
  unfold TransformBody.kind at hlookup hchroma
  unfold transformFault
  cases hw : decodeWiden t.widen.toNat with
  | none =>
    have hwiden : t.widen.toNat ∉ [1, 2, 3] := fun h => by
      have hsome := (decodeWiden_isSome _).mpr h
      simp [hw] at hsome
    rw [if_pos (.inr hwiden)]
    cases decodeTransform t.transform.toNat <;> rfl
  | some policy =>
    have hwiden : t.widen.toNat ∈ [1, 2, 3] := (decodeWiden_isSome _).mp (by simp [hw])
    cases ht : decodeTransform t.transform.toNat with
    | none =>
      have htransform : t.transform.toNat ∉ [1, 2, 3] := by
        obtain ⟨hn, h⟩ | ⟨hn, h⟩ | ⟨hn, h⟩ | ⟨hn, h⟩ := decodeTransform_cases t.transform.toNat <;> simp_all
      rw [if_pos (.inl htransform)]
    | some transform =>
      have htransform : t.transform.toNat ∈ [1, 2, 3] := by
        obtain ⟨hn, h⟩ | ⟨hn, h⟩ | ⟨hn, h⟩ | ⟨hn, h⟩ := decodeTransform_cases t.transform.toNat <;> simp_all
      rw [ht, Option.getD_some] at hlookup hchroma
      rw [if_neg (by simp [htransform, hwiden])]
      dsimp only
      cases transform with
      | pass =>
        refine (if_neg ?_).symm
        rintro (⟨h, -⟩ | ⟨h, -⟩)
        · cases hlookup.mpr h
        · cases hchroma.mpr h
      | lookup =>
        have hrange : ¬ (1 ≤ t.indexWidth.toNat ∧ t.indexWidth.toNat ≤ 10) ↔
            t.indexWidth.toNat = 0 ∨ 10 < t.indexWidth.toNat := by omega
        simp only [← hlookup, ← hchroma, hindex, hrange]
        simp
      | chroma =>
        simp only [← hlookup, ← hchroma, hindex]
        simp

theorem ite_or_then {α : Type} (p q : Prop) [Decidable p] [Decidable q] (x y : α) :
    (if p ∨ q then x else y) = if p then x else if q then x else y := by
  by_cases hp : p
  · rw [if_pos (.inl hp), if_pos hp]
  · simp only [hp, false_or, if_false]

/-- 03 R62. -/
theorem convertShapeFault_eq (source dest : Surface) : convertShapeFault t.kind source dest =
    if dest.laneWidth ∉ [8, 16, 32] ∨ ¬ (source.sampleKind = .paired ↔ t.transform = 3) ∨
      dest.lanes ≠ source.layout.pixels * (if t.transform = 3 then 3 else 1) then some .shape
    else none := by
  have hvalues : t.kind.valuesPerPixel = if t.transform = 3 then 3 else 1 := by
    simp only [← t.kind_eq_chroma_iff]
    cases t.kind <;> rfl
  have hsample : source.sampleKind ≠ (if t.kind = .chroma then .paired else .plain) ↔
      ¬ (source.sampleKind = .paired ↔ t.transform = 3) := by
    rw [← t.kind_eq_chroma_iff]
    cases source.sampleKind <;> cases t.kind <;> decide
  have hlanes : ¬ (dest.laneWidth = 8 ∨ dest.laneWidth = 16 ∨ dest.laneWidth = 32) ↔ dest.laneWidth ∉ [8, 16, 32] := by
    simp
  unfold convertShapeFault
  simp only [hsample, hlanes, hvalues, ite_or_then]

theorem Surface.layout_pixels (x : Surface) : x.layout.pixels = (match x.tapMap with
    | some m => m.pixels
    | none => x.lanes) := by
  unfold Surface.layout
  cases x.tapMap <;> rfl

/-- 03 R59: the coefficient set that a CHROMA job takes. -/
theorem finOf_map_getElem {α : Type} {n : Nat} (v : Vector α n) (i : Nat) : (finOf n i).map (fun k => v[k]) = v[i]? := by
  unfold finOf
  split <;> simp_all

end

section
variable {s : State} {j : Job} {b : LineBody}

theorem finOf_val {n : Nat} (i : Fin n) : finOf n i.val = some i := dif_pos i.isLt

theorem finOf_of_le {n v : Nat} (h : n ≤ v) : finOf n v = none := dif_neg (Nat.not_lt.mpr h)

/-- 03 R58 steps 1 to 3: a slot that is not there, or not loaded. -/
theorem slotSnapshots_of_outside {surfaces : Vector (Option Surface) 16}
    (h : 16 ≤ b.sourceSlot.toNat ∨ 16 ≤ b.destSlot.toNat) : slotSnapshots surfaces b = none := by
  unfold slotSnapshots
  obtain h | h := h
  · rw [finOf_of_le h]
  · rw [finOf_of_le h]
    cases finOf 16 b.sourceSlot.toNat <;> rfl

theorem slotSnapshots_of_unloaded {surfaces : Vector (Option Surface) 16} {i k : Fin 16}
    (hi : b.sourceSlot.toNat = i.val) (hk : b.destSlot.toNat = k.val) (h : surfaces[i] = none ∨ surfaces[k] = none) :
    slotSnapshots surfaces b = none := by
  unfold slotSnapshots
  rw [hi, hk, finOf_val, finOf_val]
  dsimp only
  obtain h | h := h
  · rw [h]
  · rw [h]
    cases surfaces[i] <;> rfl

theorem slotSnapshots_of_loaded {surfaces : Vector (Option Surface) 16} {i k : Fin 16} {source dest : Surface}
    (hi : b.sourceSlot.toNat = i.val) (hk : b.destSlot.toNat = k.val) (hs : surfaces[i] = some source)
    (hd : surfaces[k] = some dest) : slotSnapshots surfaces b = some (source, dest) := by
  unfold slotSnapshots
  rw [hi, hk, finOf_val, finOf_val]
  dsimp only
  rw [hs, hd]

/-- A line job whose slots have no snapshots. -/
theorem State.admissionChecks_noSurface (hb : (∃ t, j.body = .convert b t) ∨ j.body = .copy b)
    (h : slotSnapshots s.surfaces b = none) : s.admissionChecks j = .error .noSurface := by
  unfold State.admissionChecks
  obtain ⟨t, hb⟩ | hb := hb
  · rw [hb]
    dsimp only
    rw [convertChecks, h]
  · rw [hb]
    dsimp only
    rw [copyChecks, h]

/-- The fault of the checks of a CONVERT job. -/
def convertFault (b : LineBody) (t : TransformBody) (source dest : Surface) : Option Code :=
  firstFault (transformFault t) (firstFault (rangeFault b source dest) (convertShapeFault t.kind source dest))

theorem State.admissionChecks_convert_fault {t : TransformBody} {source dest : Surface} {code : Code}
    (hb : j.body = .convert b t) (h : slotSnapshots s.surfaces b = some (source, dest))
    (hf : convertFault b t source dest = some code) : s.admissionChecks j = .error code := by
  unfold convertFault at hf
  unfold State.admissionChecks
  rw [hb]
  dsimp only
  rw [convertChecks, h]
  dsimp only
  rw [hf]

theorem State.admissionChecks_convert_ok {t : TransformBody} {source dest : Surface}
    (hb : j.body = .convert b t) (h : slotSnapshots s.surfaces b = some (source, dest))
    (hf : convertFault b t source dest = none) : s.admissionChecks j = .ok { j with
      source := some source, dest := some dest
      coeff := if t.transform = 3 then s.coeffs[t.coeffSet.toNat]? else none } := by
  have hcoeff : (if t.kind = .chroma then (finOf 4 t.coeffSet.toNat).map (fun i => s.coeffs[i]) else none) =
      if t.transform = 3 then s.coeffs[t.coeffSet.toNat]? else none := by
    simp only [t.kind_eq_chroma_iff, finOf_map_getElem]
  unfold convertFault at hf
  unfold State.admissionChecks
  rw [hb]
  dsimp only
  rw [convertChecks, h]
  dsimp only
  rw [hf, hcoeff]

theorem State.admissionChecks_copy_fault {source dest : Surface} {code : Code} (hb : j.body = .copy b)
    (h : slotSnapshots s.surfaces b = some (source, dest))
    (hf : firstFault (rangeFault b source dest) (copyShapeFault source dest) = some code) :
    s.admissionChecks j = .error code := by
  unfold State.admissionChecks
  rw [hb]
  dsimp only
  rw [copyChecks, h]
  dsimp only
  rw [hf]

theorem State.admissionChecks_copy_ok {source dest : Surface} (hb : j.body = .copy b)
    (h : slotSnapshots s.surfaces b = some (source, dest))
    (hf : firstFault (rangeFault b source dest) (copyShapeFault source dest) = none) :
    s.admissionChecks j = .ok { j with source := some source, dest := some dest } := by
  unfold State.admissionChecks
  rw [hb]
  dsimp only
  rw [copyChecks, h]
  dsimp only
  rw [hf]

theorem rangeFault_eq (b : LineBody) (source dest : Surface) : rangeFault b source dest =
    if b.lineCount = 0 ∨ source.lineCount < b.sourceFirst.toNat + b.lineCount.toNat ∨
      dest.lineCount < b.destFirst.toNat + b.lineCount.toNat then some .range else none := by
  have hzero : b.lineCount.toNat = 0 ↔ b.lineCount = 0 := by rw [← BitVec.toNat_inj]; rfl
  unfold rangeFault
  simp only [hzero]

end

/-- Settles O27: the guard by its mode and its flag, admission by its checks and its claim. -/
theorem guardStepAndAdmission : Obligations.GuardStepAndAdmission := by
  unfold Obligations.GuardStepAndAdmission
  refine ⟨fun c j g s hj hg hp => ?guards, fun c j s hj h => State.guardStep_of_passed hj h, fun c j s hj => ?admission,
    fun j => ?kinds, fun c s => ?gates, fun j b s hb => ?slots, ?lines, fun j s => ?others⟩
  case guards =>
    refine ⟨fun hm hf => State.guardStep_waits hj hg hp hm hf, fun hm hf => ?skips, fun hf hc => ?satisfied,
      fun hf hc hw => ?consumes, fun hm => State.guardStep_wait hj hg hp hm, fun hm hf hc => ?taken⟩
    case skips => rw [State.guardStep_skip hj hg hp hm, if_neg hf]
    case satisfied => rw [State.guardStep_satisfied hj hg hp hf hc, State.runFollowup_passed hj]
    case consumes =>
      rw [State.guardStep_consumes hj hg hp hf hc hw, State.runFollowup_passed (by exact hj)]
      cases g.wanted <;> rfl
    case taken => rw [State.guardStep_skip hj hg hp hm, if_pos hf, if_pos hc]
  case admission =>
    refine ⟨State.admitJob_forbidden hj, fun hp => ⟨fun code hk => ?fault, fun k hk => ⟨?runs, fun hg hu => ?waits⟩⟩⟩
    case fault => rw [State.admitJob_permitted hj hp, hk]
    case runs =>
      intro u v hu hv
      have hadmit := State.admitJob_runs hj hp hk hu
      have hchains : u.chains = s.chains ∧ u.jobs = s.jobs := by
        obtain ⟨-, rfl⟩ | ⟨-, hu⟩ := hu
        · exact ⟨rfl, rfl⟩
        · exact State.claim_chains hu
      have hrunning : v = u.running c k := by
        have hchain : u.chain c = s.chain c := congrArg (fun v : Vector Chain 4 => v[c]) hchains.1
        rw [hv, State.running, hchain, hchains.1, hchains.2]
        rfl
      refine ⟨fun hb => ?signal, fun b hb => ?table, fun hb hb' => ?other⟩
      case signal => rw [hadmit, hrunning, State.enterRunning_signal hb]
      case table => rw [hadmit, hrunning, State.enterRunning_table hb]
      case other => rw [hadmit, hrunning, State.enterRunning_other hb hb']
    case waits =>
      have hclaim : k.gateClaim ≠ .none := fun h => by
        rw [h] at hg
        cases hg
      rw [State.admitJob_waits hj hp hk hg hu, State.waitAtGate_setJob hclaim]
  case kinds =>
    refine ⟨?dataKinds, fun b hb => ?table, fun b hb => ?map, fun b t hb => ?convert, fun h => ?none⟩
    case dataKinds => simp [Job.dataMayRun, or_assoc]
    case convert =>
      unfold Job.gateClaim
      rw [hb]
      simp only [t.kind_eq_lookup_iff]
    all_goals unfold Job.gateClaim
    case table => rw [hb]
    case map => rw [hb]
    case none => obtain ⟨b, hb⟩ | ⟨b, hb⟩ | ⟨b, hb⟩ | hb := h <;> rw [hb]
  case gates => exact ⟨rfl, beq_iff_eq, rfl, beq_iff_eq, rfl⟩
  case slots =>
    exact ⟨fun h => State.admissionChecks_noSurface hb (slotSnapshots_of_outside h),
      fun i k hi hk h => State.admissionChecks_noSurface hb (slotSnapshots_of_unloaded hi hk h)⟩
  case lines =>
    intro j b i k source dest s hi hk hsource hdest
    have hslots := slotSnapshots_of_loaded hi hk hsource hdest
    refine ⟨fun t hb => ?convert, fun hb => ?copy⟩
    case convert =>
      by_cases hencoding : t.transform.toNat ∉ [1, 2, 3] ∨ t.widen.toNat ∉ [1, 2, 3]
      · refine (State.admissionChecks_convert_fault hb hslots ?_).trans (if_pos hencoding).symm
        rw [convertFault, transformFault_eq, if_pos hencoding, firstFault]
      refine Eq.trans ?_ (if_neg hencoding).symm
      by_cases hparameters : (t.transform = 2 ∧ (t.indexWidth = 0 ∨ 10 < t.indexWidth.toNat)) ∨
          (t.transform = 3 ∧ 3 < t.coeffSet.toNat)
      · refine (State.admissionChecks_convert_fault hb hslots ?_).trans (if_pos hparameters).symm
        rw [convertFault, transformFault_eq, if_neg hencoding, if_pos hparameters, firstFault]
      refine Eq.trans ?_ (if_neg hparameters).symm
      by_cases hrange : b.lineCount = 0 ∨ source.lineCount < b.sourceFirst.toNat + b.lineCount.toNat ∨
          dest.lineCount < b.destFirst.toNat + b.lineCount.toNat
      · refine (State.admissionChecks_convert_fault hb hslots ?_).trans (if_pos hrange).symm
        rw [convertFault, transformFault_eq, if_neg hencoding, if_neg hparameters, rangeFault_eq, if_pos hrange, firstFault,
          firstFault]
      refine Eq.trans ?_ (if_neg hrange).symm
      have hfault : convertFault b t source dest = convertShapeFault t.kind source dest := by
        rw [convertFault, transformFault_eq, if_neg hencoding, if_neg hparameters, rangeFault_eq, if_neg hrange, firstFault,
          firstFault]
      rw [convertShapeFault_eq, Surface.layout_pixels] at hfault
      by_cases hshape : dest.laneWidth ∉ [8, 16, 32] ∨ ¬ (source.sampleKind = .paired ↔ t.transform = 3) ∨
          dest.lanes ≠ (match source.tapMap with
            | some m => m.pixels
            | none => source.lanes) * (if t.transform = 3 then 3 else 1)
      · exact (State.admissionChecks_convert_fault hb hslots (hfault.trans (if_pos hshape))).trans (if_pos hshape).symm
      · exact (State.admissionChecks_convert_ok hb hslots (hfault.trans (if_neg hshape))).trans (if_neg hshape).symm
    case copy =>
      by_cases hrange : b.lineCount = 0 ∨ source.lineCount < b.sourceFirst.toNat + b.lineCount.toNat ∨
          dest.lineCount < b.destFirst.toNat + b.lineCount.toNat
      · refine (State.admissionChecks_copy_fault hb hslots ?_).trans (if_pos hrange).symm
        rw [rangeFault_eq, if_pos hrange, firstFault]
      refine Eq.trans ?_ (if_neg hrange).symm
      have hfault : firstFault (rangeFault b source dest) (copyShapeFault source dest) = copyShapeFault source dest := by
        rw [rangeFault_eq, if_neg hrange, firstFault]
      by_cases hshape : source.payload ≠ dest.payload
      · exact (State.admissionChecks_copy_fault hb hslots (hfault.trans (if_pos hshape))).trans (if_pos hshape).symm
      · exact (State.admissionChecks_copy_ok hb hslots (hfault.trans (if_neg hshape))).trans (if_neg hshape).symm
  case others =>
    refine ⟨fun b hb => ?table, fun b hb => ?map, fun h => ?bare⟩
    all_goals unfold State.admissionChecks
    case table =>
      have hzero : b.count = 0 ↔ b.count.toNat = 0 := by rw [← BitVec.toNat_inj]; rfl
      rw [hb]
      dsimp only
      unfold tableFault
      simp only [hzero]
      by_cases hbad : 1023 < b.first.toNat ∨ b.count.toNat = 0 ∨ 1024 < b.count.toNat ∨
          1024 < b.first.toNat + b.count.toNat
      · rw [if_pos hbad, if_pos hbad]
      · rw [if_neg hbad, if_neg hbad]
    case map => rw [hb]
    case bare => obtain ⟨b, hb⟩ | ⟨b, hb⟩ | hb := h <;> rw [hb]

end Sys2Proof.Machine
end

section
/-! PROOFS. Byte formats: the fields of what is read and of what is written (11), and line trailers (07). -/

namespace Sys2Proof.Machine

open Sys2Proof.Statements

/-! ## Fields of a byte string -/

@[simp] theorem length_leBytes (n v : Nat) : (leBytes n v).length = n := by
  induction n generalizing v with
  | zero => rfl
  | succ n ih => simp [leBytes, ih]

/-- A field of the bytes from an offset on. -/
theorem fieldAt_drop (bytes : List Byte) (d offset n : Nat) : fieldAt (bytes.drop d) offset n = fieldAt bytes (d + offset) n := by
  unfold fieldAt
  rw [List.drop_drop]

/-- A field inside the first bytes. -/
theorem fieldAt_take (bytes : List Byte) {t offset n : Nat} (h : offset + n ≤ t) :
    fieldAt (bytes.take t) offset n = fieldAt bytes offset n := by
  unfold fieldAt
  rw [List.drop_take, List.take_take, Nat.min_eq_left (by omega)]

theorem testBit_fieldAt (bytes : List Byte) (offset n k : Nat) : (fieldAt bytes offset n).testBit k =
    (decide (k < 8 * n) && ((bytes[offset + k / 8]?).getD 0).getLsbD (k % 8)) := by
  unfold fieldAt
  rw [testBit_leNat, List.getElem?_take, List.getElem?_drop]
  by_cases h : k < 8 * n
  · rw [if_pos (by omega), decide_eq_true h, Bool.true_and]
  · rw [if_neg (by omega), decide_eq_false h]
    simp

theorem fieldAt_lt (bytes : List Byte) (offset n : Nat) : fieldAt bytes offset n < 2 ^ (8 * n) := by
  refine Nat.lt_pow_two_of_testBit _ fun k hk => ?_
  rw [testBit_fieldAt, decide_eq_false (by omega), Bool.false_and]

/-- A number written in `n` bytes after others. -/
theorem fieldAt_leBytes (before after : List Byte) (n v : Nat) :
    fieldAt (before ++ (leBytes n v ++ after)) before.length n = v % 2 ^ (8 * n) := by
  unfold fieldAt
  rw [List.drop_left, List.take_left' (length_leBytes n v)]
  simpa [leNat] using leNat_leBytes_append n v []

/-! ## What the part writes (11 Tables 11-3, 11-5) -/

/-- Numbers written one after another, each as its width in bytes and its value. -/
def packBytes (fields : List (Nat × Nat)) : List Byte := fields.flatMap fun f => leBytes f.1 f.2

theorem length_packBytes (fields : List (Nat × Nat)) : (packBytes fields).length = (fields.map Prod.fst).sum := by
  unfold packBytes
  rw [List.length_flatMap]
  simp

/-- Each number stands where the widths before it say. -/
theorem fieldAt_packBytes (before after : List (Nat × Nat)) (n v : Nat) :
    fieldAt (packBytes (before ++ (n, v) :: after)) (before.map Prod.fst).sum n = v % 2 ^ (8 * n) := by
  rw [← length_packBytes before]
  unfold packBytes
  rw [List.flatMap_append, List.flatMap_cons]
  exact fieldAt_leBytes _ _ n v

theorem outcomeBytes_eq (o : OutcomeState) (code : Code) (r : ResultFlags) (n : Nat) : outcomeBytes o code r n =
    packBytes [(1, o.value), (1, code.value), (1, r.value), (1, 0), (4, n)] := by
  simp [outcomeBytes, packBytes]

theorem statusBytes_eq (x : ChainState) (e : BreakReason) (code : Code) (count : BitVec 32) (address : Nat)
    (tag : BitVec 16) : statusBytes x e code count address tag =
      packBytes [(1, x.code), (1, e.code), (1, code.value), (1, 0), (4, count.toNat), (8, address), (2, tag.toNat), (14, 0)] := by
  simp [statusBytes, packBytes]

theorem OutcomeState.value_lt (o : OutcomeState) : o.value < 256 := by cases o <;> decide

theorem Code.value_lt (code : Code) : code.value < 256 := by cases code <;> decide

theorem ChainState.code_lt (x : ChainState) : x.code < 256 := by cases x <;> decide

theorem BreakReason.code_lt (e : BreakReason) : e.code < 256 := by cases e <;> decide

theorem ResultFlags.value_lt (r : ResultFlags) : r.value < 256 := by
  have hbit : ∀ b : Bool, b.toNat ≤ 1 := Bool.toNat_le
  have h0 := hbit r.zero
  have h1 := hbit r.neg
  have h2 := hbit r.sat
  have h3 := hbit r.stray
  have h4 := hbit r.check
  unfold ResultFlags.value
  omega

/-- Settles O30. -/
theorem writtenBytesFollowTheFormats : Obligations.WrittenBytesFollowTheFormats := by
  unfold Obligations.WrittenBytesFollowTheFormats
  refine ⟨fun o code r n hn => ?outcome, fun x e code count address tag ha => ?status, rfl, rfl, rfl, rfl, rfl, rfl, rfl⟩
  case outcome =>
    rw [outcomeBytes_eq]
    refine ⟨length_packBytes _, (fieldAt_packBytes [] _ 1 o.value).trans ?_,
      (fieldAt_packBytes [(1, o.value)] _ 1 code.value).trans ?_,
      (fieldAt_packBytes [(1, o.value), (1, code.value)] _ 1 r.value).trans ?_,
      fieldAt_packBytes [(1, o.value), (1, code.value), (1, r.value)] _ 1 0,
      (fieldAt_packBytes [(1, o.value), (1, code.value), (1, r.value), (1, 0)] _ 4 n).trans (Nat.mod_eq_of_lt hn)⟩
    · exact Nat.mod_eq_of_lt o.value_lt
    · exact Nat.mod_eq_of_lt code.value_lt
    · exact Nat.mod_eq_of_lt r.value_lt
  case status =>
    rw [statusBytes_eq]
    refine ⟨length_packBytes _, (fieldAt_packBytes [] _ 1 x.code).trans (Nat.mod_eq_of_lt x.code_lt),
      (fieldAt_packBytes [(1, x.code)] _ 1 e.code).trans (Nat.mod_eq_of_lt e.code_lt),
      (fieldAt_packBytes [(1, x.code), (1, e.code)] _ 1 code.value).trans (Nat.mod_eq_of_lt code.value_lt),
      fieldAt_packBytes [(1, x.code), (1, e.code), (1, code.value)] _ 1 0,
      (fieldAt_packBytes [(1, x.code), (1, e.code), (1, code.value), (1, 0)] _ 4 count.toNat).trans
        (Nat.mod_eq_of_lt count.isLt),
      (fieldAt_packBytes [(1, x.code), (1, e.code), (1, code.value), (1, 0), (4, count.toNat)] _ 8 address).trans
        (Nat.mod_eq_of_lt (by omega)),
      (fieldAt_packBytes [(1, x.code), (1, e.code), (1, code.value), (1, 0), (4, count.toNat), (8, address)] _ 2
        tag.toNat).trans (Nat.mod_eq_of_lt tag.isLt),
      fieldAt_packBytes [(1, x.code), (1, e.code), (1, code.value), (1, 0), (4, count.toNat), (8, address), (2, tag.toNat)]
        _ 14 0⟩

/-! ## Trailers (07) -/

/-- 07 R130: payload, pad bytes and the CRC. -/
theorem destFootprint_crc (dest : Surface) (payload : List Byte) :
    destFootprint dest (some { crc := 0xFFFFFFFF#32, taken := 0 }) payload =
      payload ++ (List.replicate (dest.trailerOffset - dest.payload) 0 ++ leBytes 4 (crcOf payload).toNat) :=
  List.append_assoc ..

/-- Settles O54: the destination footprint by its three parts. -/
theorem trailersOfDestinationLines : Obligations.TrailersOfDestinationLines := by
  unfold Obligations.TrailersOfDestinationLines
  refine ⟨by decide +kernel, rfl, fun _ => rfl, fun _ => rfl, fun r bytes b => List.foldl_append .., fun r b => rfl,
    fun dest payload => rfl, fun dest payload hlen hoffset => ?_⟩
  have hpad : dest.payload ≤ dest.trailerOffset := by omega
  intro made
  have hmade : made = payload ++ (List.replicate (dest.trailerOffset - dest.payload) 0 ++
      leBytes 4 (crcOf payload).toNat) := destFootprint_crc dest payload
  have hpayload : made.take dest.payload = payload := by rw [hmade, ← hlen, List.take_left]
  have hfield : fieldAt made dest.trailerOffset 4 = (crcOf payload).toNat := by
    have hat := fieldAt_leBytes (payload ++ List.replicate (dest.trailerOffset - dest.payload) 0) [] 4
      (crcOf payload).toNat
    rw [List.append_nil, List.append_assoc, ← hmade, List.length_append, List.length_replicate, hlen,
      Nat.add_sub_cancel' hpad] at hat
    exact hat.trans (Nat.mod_eq_of_lt (crcOf payload).isLt)
  refine ⟨?length, hpayload, fun k hk hk' => ?pad, hfield, ?checked⟩
  case length =>
    rw [hmade, List.length_append, List.length_append, List.length_replicate, length_leBytes, hlen]
    omega
  case pad =>
    rw [hmade, List.getElem?_append_right (by omega), List.getElem?_append_left (by rw [List.length_replicate]; omega),
      List.getElem?_replicate_of_lt (by omega)]
  case checked =>
    unfold FetchCheck.isMatch FetchCheck.arrived
    rw [hpayload, hfield, BitVec.ofNat_toNat, BitVec.setWidth_eq]
    exact beq_self_eq_true _

end Sys2Proof.Machine
end

section
/-! PROOFS. What the part reads from memory, by the formats of chapter 11. -/

namespace Sys2Proof.Machine

open Sys2Proof.Statements

/-! ## Links (01 R2) -/

theorem extractLsb'_eq_zero_iff {w : Nat} (v : BitVec w) (start len : Nat) :
    v.extractLsb' start len = 0 ↔ v.toNat / 2 ^ start % 2 ^ len = 0 := by
  rw [← BitVec.toNat_inj, BitVec.extractLsb'_toNat, Nat.shiftRight_eq_div_pow]
  rfl

theorem linkValue_bad {v : Addr64} (h : v.toNat ≥ 2 ^ 40 ∨ v.toNat % 32 ≠ 0) : linkValue v = .bad := by
  have hv := v.isLt
  refine if_pos ?_
  rw [ne_eq, ne_eq, extractLsb'_eq_zero_iff, extractLsb'_eq_zero_iff]
  omega

theorem linkValue_good {v : Addr64} (hlow : v.toNat < 2 ^ 40) (halign : v.toNat % 32 = 0) :
    linkValue v = if v = 0 then .zero else .to (v.extractLsb' 0 40) := by
  refine if_neg ?_
  rw [ne_eq, ne_eq, extractLsb'_eq_zero_iff, extractLsb'_eq_zero_iff]
  omega

/-! ## The directory entry (11 Table 11-2) -/

theorem finOf_eq_some_iff {n v : Nat} {i : Fin n} : finOf n v = some i ↔ v = i.val := by
  constructor
  · intro h
    unfold finOf at h
    split at h
    · obtain rfl := Option.some.inj h
      rfl
    · cases h
  · rintro rfl
    exact finOf_val i

theorem decodeFaultFlag_eq_some_iff {v : Nat} {f : Option FlagId} : decodeFaultFlag v = some f ↔ v = (match f with
    | some f => f.val
    | none => 0xFF) := by
  unfold decodeFaultFlag
  by_cases h : v = 0xFF
  · rw [if_pos h]
    cases f with
    | none => simp [h]
    | some f =>
      have hf := f.isLt
      simp
      omega
  · rw [if_neg h]
    cases f with
    | none => simp [h]
    | some f => simp [finOf_eq_some_iff]

theorem decodePrivilege_eq_some_iff {v : Nat} {p : Privilege} : decodePrivilege v = some p ↔ v = (match p with
    | .config => 1
    | .data => 2) := by
  unfold decodePrivilege
  split <;> cases p <;> simp_all

theorem decodeLatched_eq_some_iff (bytes : List Byte) (p : Latched) : decodeLatched bytes = some p ↔
    finOf 4 (fieldAt bytes 8 1) = some p.priority ∧ finOf 16 (fieldAt bytes 9 1) = some p.context ∧
    finOf 32 (fieldAt bytes 10 1) = some p.wakeFlag ∧ decodeFaultFlag (fieldAt bytes 11 1) = some p.faultFlag ∧
    decodePrivilege (fieldAt bytes 12 1) = some p.privilege := by
  obtain ⟨priority, context, wakeFlag, faultFlag, privilege⟩ := p
  unfold decodeLatched
  cases finOf 4 (fieldAt bytes 8 1) <;> cases finOf 16 (fieldAt bytes 9 1) <;> cases finOf 32 (fieldAt bytes 10 1) <;>
    cases decodeFaultFlag (fieldAt bytes 11 1) <;> cases decodePrivilege (fieldAt bytes 12 1) <;> simp

/-! ## The record header (11 Table 11-5) -/

/-- The number of a kind. -/
def Kind.number : Kind → Nat
  | .convert => 1
  | .copy => 2
  | .surface => 3
  | .map => 4
  | .table => 5
  | .coeff => 6
  | .signal => 7

theorem decodeKind_eq_some_iff {v : Nat} {k : Kind} : decodeKind v = some k ↔ v = k.number := by
  unfold decodeKind
  split <;> cases k <;> simp_all [Kind.number]

theorem decodeKind_isSome_iff (v : Nat) : (decodeKind v).isSome = true ↔ 1 ≤ v ∧ v ≤ 7 := by
  rw [Option.isSome_iff_exists]
  constructor
  · rintro ⟨k, hk⟩
    rw [decodeKind_eq_some_iff.mp hk]
    cases k <;> decide
  · intro h
    obtain ⟨k, hk⟩ : ∃ k : Kind, v = k.number := by
      obtain ⟨h1, h7⟩ := h
      obtain rfl | rfl | rfl | rfl | rfl | rfl | rfl : v = 1 ∨ v = 2 ∨ v = 3 ∨ v = 4 ∨ v = 5 ∨ v = 6 ∨ v = 7 := by omega
      · exact ⟨.convert, rfl⟩
      · exact ⟨.copy, rfl⟩
      · exact ⟨.surface, rfl⟩
      · exact ⟨.map, rfl⟩
      · exact ⟨.table, rfl⟩
      · exact ⟨.coeff, rfl⟩
      · exact ⟨.signal, rfl⟩
    exact ⟨k, decodeKind_eq_some_iff.mpr hk⟩

theorem byteAt_getLsbD (bytes : List Byte) (offset : Nat) {k : Nat} (hk : k < 8) :
    (byteAt bytes offset).getLsbD k = (fieldAt bytes offset 1).testBit k := by
  rw [byteAt, BitVec.getLsbD_ofNat, decide_eq_true hk, Bool.true_and]

/-! ## Guard and post actions (11 R186) -/

theorem decodeBit_eq_some_iff {v : Nat} {b : Bool} : decodeBit v = some b ↔ v ∈ [0, 1] ∧ b = (v == 1) := by
  unfold decodeBit
  split <;> cases b <;> simp_all

theorem decodeMode_eq_some_iff {v : Nat} {m : GuardMode} :
    decodeMode v = some m ↔ v ∈ [1, 2] ∧ m = if v = 1 then .wait else .skip := by
  unfold decodeMode
  split <;> cases m <;> simp_all

theorem decodeFlagOp_eq_some_iff {v : Nat} {op : FlagOp} : decodeFlagOp v = some op ↔
    v ∈ [1, 2, 3] ∧ op = if v = 1 then .set else if v = 2 then .clear else .toggle := by
  unfold decodeFlagOp
  split <;> cases op <;> simp_all

theorem decodeCondition_eq_some_iff {v : Nat} {x : Condition} : decodeCondition v = some x ↔
    v ∈ [1, 2, 3, 4, 5, 6, 7, 8, 9] ∧
      x = (([.always, .always, .ok, .fault, .skip, .zero, .neg, .sat, .stray, .check] : List Condition)[v]?).getD .always := by
  unfold decodeCondition
  split <;> cases x <;> simp_all

/-- The guard whose 8 bytes begin at an offset. -/
def guardAt (bytes : List Byte) (offset : Nat) : Guard where
  flag := Fin.ofNat 32 (fieldAt bytes offset 1)
  wanted := fieldAt bytes (offset + 1) 1 == 1
  mode := if fieldAt bytes (offset + 2) 1 = 1 then .wait else .skip
  consume := fieldAt bytes (offset + 3) 1 == 1

/-- Its encodings are defined. -/
def GuardDefined (bytes : List Byte) (offset : Nat) : Prop :=
  fieldAt bytes (offset + 1) 1 ∈ [0, 1] ∧ fieldAt bytes (offset + 2) 1 ∈ [1, 2] ∧ fieldAt bytes (offset + 3) 1 ∈ [0, 1]

theorem decodeGuard_eq_some_iff (bytes : List Byte) (offset : Nat) (g : Guard) :
    decodeGuard ((bytes.drop offset).take 8) = some g ↔ GuardDefined bytes offset ∧ g = guardAt bytes offset := by
  have hfield (k : Nat) (hk : k + 1 ≤ 8) : fieldAt ((bytes.drop offset).take 8) k 1 = fieldAt bytes (offset + k) 1 := by
    rw [fieldAt_take _ hk, fieldAt_drop]
  have hsome : decodeGuard ((bytes.drop offset).take 8) = some g ↔
      decodeBit (fieldAt bytes (offset + 1) 1) = some g.wanted ∧ decodeMode (fieldAt bytes (offset + 2) 1) = some g.mode ∧
      decodeBit (fieldAt bytes (offset + 3) 1) = some g.consume ∧ g.flag = Fin.ofNat 32 (fieldAt bytes offset 1) := by
    obtain ⟨flag, wanted, mode, consume⟩ := g
    unfold decodeGuard flagField
    rw [hfield 0 (by decide), hfield 1 (by decide), hfield 2 (by decide), hfield 3 (by decide)]
    cases decodeBit (fieldAt bytes (offset + 1) 1) <;> cases decodeMode (fieldAt bytes (offset + 2) 1) <;>
      cases decodeBit (fieldAt bytes (offset + 3) 1) <;> simp
    exact ⟨fun ⟨hf, hw, hm, hc⟩ => ⟨hw, hm, hc, hf.symm⟩, fun ⟨hw, hm, hc, hf⟩ => ⟨hf.symm, hw, hm, hc⟩⟩
  rw [hsome, decodeBit_eq_some_iff, decodeMode_eq_some_iff, decodeBit_eq_some_iff]
  obtain ⟨flag, wanted, mode, consume⟩ := g
  unfold GuardDefined guardAt
  simp only [Guard.mk.injEq]
  exact ⟨fun ⟨⟨dw, hw⟩, ⟨dm, hm⟩, ⟨dc, hc⟩, hf⟩ => ⟨⟨dw, dm, dc⟩, hf, hw, hm, hc⟩,
    fun ⟨⟨dw, dm, dc⟩, hf, hw, hm, hc⟩ => ⟨⟨dw, hw⟩, ⟨dm, hm⟩, ⟨dc, hc⟩, hf⟩⟩

/-- The post action whose 8 bytes begin at an offset. -/
def actionAt (bytes : List Byte) (offset : Nat) : PostAction where
  flag := Fin.ofNat 32 (fieldAt bytes offset 1)
  op := if fieldAt bytes (offset + 1) 1 = 1 then .set else if fieldAt bytes (offset + 1) 1 = 2 then .clear else .toggle
  condition := ([.always, .always, .ok, .fault, .skip, .zero, .neg, .sat, .stray,
    .check][fieldAt bytes (offset + 2) 1]?).getD .always

/-- Its encodings are defined. -/
def ActionDefined (bytes : List Byte) (offset : Nat) : Prop :=
  fieldAt bytes (offset + 1) 1 ∈ [1, 2, 3] ∧ fieldAt bytes (offset + 2) 1 ∈ [1, 2, 3, 4, 5, 6, 7, 8, 9]

theorem decodeAction_eq_some_iff (bytes : List Byte) (offset : Nat) (x : PostAction) :
    decodeAction ((bytes.drop offset).take 8) = some x ↔ ActionDefined bytes offset ∧ x = actionAt bytes offset := by
  have hfield (k : Nat) (hk : k + 1 ≤ 8) : fieldAt ((bytes.drop offset).take 8) k 1 = fieldAt bytes (offset + k) 1 := by
    rw [fieldAt_take _ hk, fieldAt_drop]
  have hsome : decodeAction ((bytes.drop offset).take 8) = some x ↔
      decodeFlagOp (fieldAt bytes (offset + 1) 1) = some x.op ∧
      decodeCondition (fieldAt bytes (offset + 2) 1) = some x.condition ∧
      x.flag = Fin.ofNat 32 (fieldAt bytes offset 1) := by
    obtain ⟨flag, op, condition⟩ := x
    unfold decodeAction flagField
    rw [hfield 0 (by decide), hfield 1 (by decide), hfield 2 (by decide)]
    cases decodeFlagOp (fieldAt bytes (offset + 1) 1) <;> cases decodeCondition (fieldAt bytes (offset + 2) 1) <;> simp
    exact ⟨fun ⟨hf, ho, hc⟩ => ⟨ho, hc, hf.symm⟩, fun ⟨ho, hc, hf⟩ => ⟨hf.symm, ho, hc⟩⟩
  rw [hsome, decodeFlagOp_eq_some_iff, decodeCondition_eq_some_iff]
  obtain ⟨flag, op, condition⟩ := x
  unfold ActionDefined actionAt
  simp only [PostAction.mk.injEq]
  exact ⟨fun ⟨⟨dop, hop⟩, ⟨dc, hc⟩, hf⟩ => ⟨⟨dop, dc⟩, hf, hop, hc⟩,
    fun ⟨⟨dop, dc⟩, hf, hop, hc⟩ => ⟨⟨dop, hop⟩, ⟨dc, hc⟩, hf⟩⟩

theorem actionAt_drop (bytes : List Byte) (d offset : Nat) : actionAt (bytes.drop d) offset = actionAt bytes (d + offset) := by
  simp only [actionAt, fieldAt_drop, Nat.add_assoc]

theorem ActionDefined_drop (bytes : List Byte) (d offset : Nat) :
    ActionDefined (bytes.drop d) offset ↔ ActionDefined bytes (d + offset) := by
  simp only [ActionDefined, fieldAt_drop, Nat.add_assoc]

/-- A list of post actions, 8 bytes each. -/
theorem decodeActions_eq_some_iff (n : Nat) (bytes : List Byte) (l : List PostAction) :
    decodeActions n bytes = some l ↔
      (∀ i < n, ActionDefined bytes (8 * i)) ∧ l = (List.range n).map fun i => actionAt bytes (8 * i) := by
  induction n generalizing bytes l with
  | zero => simp [decodeActions, eq_comm]
  | succ n ih =>
    have hcons : decodeActions (n + 1) bytes = some l ↔ ∃ a rest, decodeAction (bytes.take 8) = some a ∧
        decodeActions n (bytes.drop 8) = some rest ∧ l = a :: rest := by
      rw [decodeActions]
      cases decodeAction (bytes.take 8) <;> cases decodeActions n (bytes.drop 8) <;> simp [eq_comm]
    have hfirst (a : PostAction) : decodeAction (bytes.take 8) = some a ↔
        ActionDefined bytes 0 ∧ a = actionAt bytes 0 := decodeAction_eq_some_iff bytes 0 a
    rw [hcons]
    simp only [hfirst, ih, actionAt_drop, ActionDefined_drop]
    have hshift (i : Nat) : 8 * (i + 1) = 8 + 8 * i := by omega
    rw [List.range_succ_eq_map, List.map_cons, List.map_map, Nat.forall_lt_succ_left]
    simp only [hshift, Function.comp_def, Nat.succ_eq_add_one, Nat.mul_zero]
    constructor
    · rintro ⟨a, rest, ⟨hd, rfl⟩, ⟨hds, rfl⟩, rfl⟩
      exact ⟨⟨hd, hds⟩, rfl⟩
    · rintro ⟨⟨hd, hds⟩, rfl⟩
      exact ⟨_, _, ⟨hd, rfl⟩, ⟨hds, rfl⟩, rfl⟩

/-! ## The second part of a record -/

section
variable (j : Job) (bytes : List Byte)

/-- The size of the guard of a record. -/
def Job.guardBytes : Nat := if j.guardPresent then 8 else 0

/-- The offset of post action `i` in the second part. -/
def Job.actionOffset (i : Nat) : Nat := j.bodyBytes + (j.guardBytes + 8 * i)

/-- The second part has defined encodings. -/
def Job.SecondPartDefined : Prop :=
  (j.guardPresent = true → GuardDefined bytes j.bodyBytes) ∧ ∀ i < j.actionCount, ActionDefined bytes (j.actionOffset i)

/-- The job with a second part. -/
def Job.withBody (kind : Kind) : Job :=
  { j with
    body := decodeBody kind bytes
    guard := if j.guardPresent then some (guardAt bytes j.bodyBytes) else none
    actions := (List.range j.actionCount).map fun i => actionAt bytes (j.actionOffset i) }

theorem guardPart_eq_some_iff (g : Option Guard) :
    (if j.guardPresent then (decodeGuard ((bytes.drop j.bodyBytes).take 8)).map some else some none) = some g ↔
      (j.guardPresent = true → GuardDefined bytes j.bodyBytes) ∧
        g = if j.guardPresent then some (guardAt bytes j.bodyBytes) else none := by
  cases j.guardPresent with
  | false => simp [eq_comm]
  | true =>
    rw [if_pos rfl, if_pos rfl, Option.map_eq_some_iff]
    simp only [decodeGuard_eq_some_iff]
    constructor
    · rintro ⟨a, ⟨hd, rfl⟩, rfl⟩
      exact ⟨fun _ => hd, rfl⟩
    · rintro ⟨hd, rfl⟩
      exact ⟨_, ⟨hd trivial, rfl⟩, rfl⟩

theorem actionPart_eq_some_iff (l : List PostAction) :
    decodeActions j.actionCount (if j.guardPresent then (bytes.drop j.bodyBytes).drop 8 else bytes.drop j.bodyBytes) =
      some l ↔ (∀ i < j.actionCount, ActionDefined bytes (j.actionOffset i)) ∧
        l = (List.range j.actionCount).map fun i => actionAt bytes (j.actionOffset i) := by
  have hdrop : (if j.guardPresent then (bytes.drop j.bodyBytes).drop 8 else bytes.drop j.bodyBytes) =
      bytes.drop (j.bodyBytes + j.guardBytes) := by
    unfold Job.guardBytes
    cases j.guardPresent with
    | false => rfl
    | true => exact List.drop_drop
  rw [hdrop, decodeActions_eq_some_iff]
  simp only [actionAt_drop, ActionDefined_drop, Job.actionOffset, Nat.add_assoc]

theorem withSecondPart_eq_some_iff (k : Job) : j.withSecondPart bytes = some k ↔
    ∃ kind, j.kind = some kind ∧ j.SecondPartDefined bytes ∧ k = j.withBody bytes kind := by
  have hsome : j.withSecondPart bytes = some k ↔ ∃ kind guard actions, j.kind = some kind ∧
      (if j.guardPresent then (decodeGuard ((bytes.drop j.bodyBytes).take 8)).map some else some none) = some guard ∧
      decodeActions j.actionCount (if j.guardPresent then (bytes.drop j.bodyBytes).drop 8 else bytes.drop j.bodyBytes) =
        some actions ∧ k = { j with body := decodeBody kind bytes, guard, actions } := by
    unfold Job.withSecondPart
    dsimp only
    generalize (if j.guardPresent then (decodeGuard ((bytes.drop j.bodyBytes).take 8)).map some else some none) = guard
    generalize decodeActions j.actionCount
      (if j.guardPresent then (bytes.drop j.bodyBytes).drop 8 else bytes.drop j.bodyBytes) = actions
    cases hk : j.kind <;> cases guard <;> cases actions <;> simp [eq_comm]
  rw [hsome]
  simp only [guardPart_eq_some_iff, actionPart_eq_some_iff]
  unfold Job.SecondPartDefined Job.withBody
  constructor
  · rintro ⟨kind, guard, actions, hk, ⟨hg, rfl⟩, ⟨ha, rfl⟩, rfl⟩
    exact ⟨kind, hk, ⟨hg, ha⟩, rfl⟩
  · rintro ⟨kind, hk, ⟨hg, ha⟩, rfl⟩
    exact ⟨kind, _, _, hk, ⟨hg, rfl⟩, ⟨ha, rfl⟩, rfl⟩

theorem withSecondPart_isSome_iff :
    (j.withSecondPart bytes).isSome = true ↔ j.kind ≠ none ∧ j.SecondPartDefined bytes := by
  rw [Option.isSome_iff_exists, Option.ne_none_iff_exists']
  simp only [withSecondPart_eq_some_iff]
  constructor
  · rintro ⟨k, kind, hk, hd, -⟩
    exact ⟨⟨kind, hk⟩, hd⟩
  · rintro ⟨⟨kind, hk⟩, hd⟩
    exact ⟨_, kind, hk, hd, rfl⟩

end

/-- Settles O22: each field by the equation of its decoder. -/
theorem readBytesFollowTheFormats : Obligations.ReadBytesFollowTheFormats := by
  unfold Obligations.ReadBytesFollowTheFormats
  refine ⟨testBit_fieldAt, fun bytes => Nat.mod_eq_of_lt (fieldAt_lt bytes 0 8),
    fun v => ⟨linkValue_bad, ?zero, fun hv hlow halign => ?good⟩, fun bytes p => ?latched, fun bytes => ⟨beq_iff_eq, ?sound⟩,
    fun record bytes => ⟨fun kind => ?kind, ?header, rfl⟩, fun j => ?body, fun j bytes => ⟨?defined, fun k hk => ?parts⟩⟩
  case zero =>
    rintro rfl
    rfl
  case good =>
    refine ⟨_, (linkValue_good hlow halign).trans (if_neg hv), ?_⟩
    rw [BitVec.extractLsb'_toNat, Nat.shiftRight_zero, Nat.mod_eq_of_lt hlow]
  case latched =>
    exact (decodeLatched_eq_some_iff bytes p).trans (and_congr finOf_eq_some_iff (and_congr finOf_eq_some_iff
      (and_congr finOf_eq_some_iff (and_congr decodeFaultFlag_eq_some_iff decodePrivilege_eq_some_iff))))
  case sound =>
    unfold headerIsSound
    rw [Bool.and_eq_true, decodeKind_isSome_iff, decide_eq_true_iff, and_assoc]
  case kind =>
    refine decodeKind_eq_some_iff.trans ?_
    cases kind <;> exact Iff.rfl
  case header =>
    have hbit {k : Nat} (hk : k < 8) := byteAt_getLsbD bytes 19 hk
    rw [← hbit (by decide), ← hbit (by decide), ← hbit (by decide)]
    rfl
  case body =>
    unfold Job.bodyBytes
    cases j.kind with
    | none => rfl
    | some kind => cases kind <;> rfl
  case defined =>
    refine (withSecondPart_isSome_iff j bytes).trans ?_
    simp only [Job.SecondPartDefined, GuardDefined, ActionDefined, Job.actionOffset, Job.guardBytes, Nat.add_assoc]
  case parts =>
    obtain ⟨kind, hkind, -, rfl⟩ := (withSecondPart_eq_some_iff j bytes k).mp hk
    refine ⟨rfl, rfl, ?actions, fun h => ?_, fun h => ?_, fun h => ?_, fun h => ?_, fun h => ?_, fun h => ?_, fun h => ?_⟩
    case actions =>
      simp only [Job.withBody, actionAt, Job.actionOffset, Job.guardBytes, Nat.add_assoc]
    all_goals
      obtain rfl := Option.some.inj (hkind.symm.trans h)
      rfl

end Sys2Proof.Machine
end

section
/-! PROOFS. The line arbiter and fetch grants (04 R68 to R72). -/

namespace Sys2Proof.Machine

open Sys2Proof.Statements

/-! ## The chain of highest priority -/

/-- The chain that is chosen comes first: by its level, then by its number. -/
theorem bestChain_le {level : ChainId → Nat} {cs : List ChainId} {c : ChainId} (hs : cs.Pairwise (· < ·))
    (h : bestChain level cs = some c) {d : ChainId} (hd : d ∈ cs) (hne : d ≠ c) :
    level c < level d ∨ (level c = level d ∧ c < d) := by
  induction cs generalizing c with
  | nil => cases hd
  | cons x rest ih =>
    obtain ⟨hx, hrest⟩ := List.pairwise_cons.mp hs
    rw [bestChain] at h
    cases hb : bestChain level rest with
    | none =>
      rw [hb] at h
      obtain rfl := Option.some.inj h
      rw [bestChain_eq_none hb, List.mem_singleton] at hd
      exact absurd hd hne
    | some e =>
      rw [hb] at h
      dsimp only at h
      have he := hx e (mem_bestChain hb)
      by_cases hlt : level e < level x
      · rw [if_pos hlt] at h
        obtain rfl := Option.some.inj h
        obtain rfl | hd := List.mem_cons.mp hd
        · exact .inl hlt
        · exact ih hrest hb hd hne
      · rw [if_neg hlt] at h
        obtain rfl := Option.some.inj h
        have hd := (List.mem_cons.mp hd).resolve_left hne
        by_cases hde : d = e
        · subst hde
          exact (Nat.lt_or_eq_of_le (Nat.le_of_not_lt hlt)).imp_right fun h => ⟨h, he⟩
        · have hle : level e ≤ level d := (ih hrest hb hd hde).elim Nat.le_of_lt fun h => Nat.le_of_eq h.1
          exact (Nat.lt_or_eq_of_le (Nat.le_trans (Nat.le_of_not_lt hlt) hle)).imp_right fun h => ⟨h, hx d hd⟩

theorem bestChain_eq_some_iff {level : ChainId → Nat} {cs : List ChainId} {c : ChainId} (hs : cs.Pairwise (· < ·)) :
    bestChain level cs = some c ↔
      c ∈ cs ∧ ∀ d ∈ cs, d ≠ c → level c < level d ∨ (level c = level d ∧ c < d) :=
  ⟨fun h => ⟨mem_bestChain h, fun _ hd hne => bestChain_le hs h hd hne⟩, fun h => bestChain_eq_some hs h.1 h.2⟩

theorem bestChain_nil_iff {level : ChainId → Nat} {cs : List ChainId} : bestChain level cs = none ↔ cs = [] :=
  ⟨bestChain_eq_none, fun h => by rw [h]; rfl⟩

section
variable {s : State} {c : ChainId} {j : Job}

/-! ## The arbiter (04 R68, R72) -/

theorem Job.lineCount_of_body {lb : LineBody} (h : j.lineBody = some lb) : j.lineCount = lb.lineCount.toNat := by
  unfold Job.lineCount
  rw [h]

theorem Job.lineCount_of_no_body (h : j.lineBody = none) : j.lineCount = 0 := by
  unfold Job.lineCount
  rw [h]

theorem Job.lineBody_eq_some_iff (lb : LineBody) :
    j.lineBody = some lb ↔ (∃ t, j.body = .convert lb t) ∨ j.body = .copy lb := by
  unfold Job.lineBody
  cases j.body <;> simp

theorem State.eligible_iff (s : State) (c : ChainId) : s.eligible c = true ↔ (s.chain c).state = .active ∧
    ∃ j, s.job c = some j ∧ j.phase = .running ∧ j.nextLine < j.lineCount ∧ j.held = false := by
  unfold State.eligible
  cases s.job c with
  | none => simp
  | some j =>
    simp only [Bool.and_eq_true, beq_iff_eq, decide_eq_true_eq, Bool.not_eq_true', Option.some.injEq]
    constructor
    · rintro ⟨⟨⟨hp, hl⟩, hst⟩, hh⟩
      exact ⟨hst, j, rfl, hp, hl, hh⟩
    · rintro ⟨hst, _, rfl, hp, hl, hh⟩
      exact ⟨⟨⟨hp, hl⟩, hst⟩, hh⟩

/-- The chains that the arbiter chooses from: those passed over 8 times, if any. -/
def State.contenders (s : State) : List ChainId :=
  if (allChains.filter s.eligible).filter (fun c => s.passOver[c] == 8) = [] then allChains.filter s.eligible
  else (allChains.filter s.eligible).filter fun c => s.passOver[c] == 8

theorem State.contenders_increasing (s : State) : s.contenders.Pairwise (· < ·) := by
  unfold State.contenders
  split
  · exact allChains_filter_increasing _
  · exact List.Pairwise.filter _ (allChains_filter_increasing _)

theorem State.mem_contenders : c ∈ s.contenders ↔
    s.eligible c = true ∧ (s.passOver[c] = 8 ∨ ∀ d, s.eligible d = true → s.passOver[d] ≠ 8) := by
  have hempty : (allChains.filter s.eligible).filter (fun c => s.passOver[c] == 8) = [] ↔
      ∀ d, s.eligible d = true → s.passOver[d] ≠ 8 := by
    simp only [List.filter_eq_nil_iff, List.mem_filter, mem_allChains, true_and, beq_iff_eq, ne_eq]
  unfold State.contenders
  by_cases h : ∀ d, s.eligible d = true → s.passOver[d] ≠ 8
  · rw [if_pos (hempty.mpr h), List.mem_filter]
    exact ⟨fun hc => ⟨hc.2, .inr h⟩, fun hc => ⟨mem_allChains c, hc.1⟩⟩
  · rw [if_neg (fun he => h (hempty.mp he)), List.mem_filter, List.mem_filter, beq_iff_eq]
    exact ⟨fun hc => ⟨hc.1.2, .inl hc.2⟩, fun hc => ⟨⟨mem_allChains c, hc.1⟩, hc.2.resolve_right h⟩⟩

theorem State.chooseChain_eq_some_iff (s : State) (c : ChainId) : s.chooseChain = some c ↔
    s.eligible c = true ∧ ∀ d, s.eligible d = true → d ≠ c →
      (s.passOver[c] = 8 ∧ s.passOver[d] ≠ 8) ∨ ((s.passOver[c] = 8 ↔ s.passOver[d] = 8) ∧
        (s.level c < s.level d ∨ (s.level c = s.level d ∧ c < d))) := by
  have hchoose : s.chooseChain = bestChain s.level s.contenders := rfl
  rw [hchoose, bestChain_eq_some_iff s.contenders_increasing]
  simp only [State.mem_contenders]
  constructor
  · rintro ⟨⟨hc, h8⟩, hbest⟩
    refine ⟨hc, fun d hd hne => ?_⟩
    by_cases hc8 : s.passOver[c] = 8
    · by_cases hd8 : s.passOver[d] = 8
      · exact .inr ⟨iff_of_true hc8 hd8, hbest d ⟨hd, .inl hd8⟩ hne⟩
      · exact .inl ⟨hc8, hd8⟩
    · have hnone := h8.resolve_left hc8
      exact .inr ⟨iff_of_false hc8 (hnone d hd), hbest d ⟨hd, .inr hnone⟩ hne⟩
  · rintro ⟨hc, hbest⟩
    have h8 : s.passOver[c] = 8 ∨ ∀ d, s.eligible d = true → s.passOver[d] ≠ 8 := by
      by_cases hc8 : s.passOver[c] = 8
      · exact .inl hc8
      · refine .inr fun d hd hd8 => ?_
        obtain ⟨h, -⟩ | ⟨h, -⟩ := hbest d hd (fun e => hc8 (e ▸ hd8))
        · exact hc8 h
        · exact hc8 (h.mpr hd8)
    refine ⟨⟨hc, h8⟩, fun d ⟨hd, hd8⟩ hne => ?_⟩
    obtain ⟨hc8, hnd8⟩ | ⟨-, hlevel⟩ := hbest d hd hne
    · obtain hd8 | hall := hd8
      · exact absurd hd8 hnd8
      · exact absurd hc8 (hall c hc)
    · exact hlevel

theorem State.chooseChain_eq_none (h : ∀ d, s.eligible d = false) : s.chooseChain = none := by
  cases hc : s.chooseChain with
  | none => rfl
  | some c => exact absurd (State.mem_of_chooseChain hc) (by simp [h c])

/-! ## The free input buffer (04 R70) -/

/-- The first of two buffers that is free. -/
theorem find_buffer_eq_zero (p : Fin 2 → Bool) : [0, 1].find? p = some 0 ↔ p 0 = true := by
  cases h : p 0 <;> cases h' : p 1 <;> simp [h, h']

theorem find_buffer_eq_one (p : Fin 2 → Bool) : [0, 1].find? p = some 1 ↔ p 0 = false ∧ p 1 = true := by
  cases h : p 0 <;> cases h' : p 1 <;> simp [h, h']

/-! ## The rounds of a decision -/

theorem exec_fetchGrantDecision (hs : s.softReset = false) : exec .fetchGrantDecision s = .next (s.grantDecision 5) :=
  congrArg Host.Outcome.next (if_neg (Bool.eq_false_iff.mp hs))

theorem State.grantDecision_of_nothing (h : s.freeInput = none ∨ ∀ d, s.eligible d = false) (fuel : Nat) :
    s.grantDecision fuel = s := by
  cases fuel with
  | zero => rfl
  | succ fuel =>
    unfold State.grantDecision
    obtain h | h := h
    · rw [h]
    · rw [State.chooseChain_eq_none h]
      cases s.freeInput <;> rfl

/-- No more than four chains are eligible. -/
theorem State.eligibleCount_le_four (s : State) : s.eligibleCount ≤ 4 := List.countP_le_length

/-- A round that finds nothing to grant leaves the rest of the decision to the state it makes. -/
theorem exec_fetchGrantDecision_again {t : State} (hs : s.softReset = false) (ht : t.softReset = false)
    (h : s.grantDecision 5 = t.grantDecision 4) : exec .fetchGrantDecision s = exec .fetchGrantDecision t := by
  rw [exec_fetchGrantDecision hs, exec_fetchGrantDecision ht, h, State.grantDecision_fuel 4 t t.eligibleCount_le_four]

section
variable {b : Fin 2} {lb : LineBody} {source dest : Surface}

/-- One round with a free buffer and a chosen chain. -/
theorem State.grantDecision_round (hb : s.freeInput = some b) (hc : s.chooseChain = some c) (hj : s.job c = some j)
    (hlb : j.lineBody = some lb) (hsource : j.source = some source) (hdest : j.dest = some dest) (fuel : Nat) :
    (∀ fetch store used, s.resolveNext c j lb source dest = .resolved fetch store used →
      s.grantDecision (fuel + 1) = s.grant c j lb source b fetch store used) ∧
    (s.resolveNext c j lb source dest = .held →
      s.grantDecision (fuel + 1) = State.grantDecision fuel (s.setJob c (some { j with held := true }))) ∧
    (∀ code, s.resolveNext c j lb source dest = .fault code →
      s.grantDecision (fuel + 1) = State.grantDecision fuel ((s.lineFault c j.nextLine code).checkDrained c)) := by
  refine ⟨fun fetch store used h => ?_, fun h => ?_, fun code h => ?_⟩
  all_goals
    rw [State.grantDecision, hb, hc]
    dsimp only
    rw [hj]
    dsimp only
    rw [hlb, hsource, hdest]
    dsimp only
    rw [h]

end

/-- A chain found held is eligible no more. -/
theorem State.eligible_setJob_held (j : Job) : (s.setJob c (some { j with held := true })).eligible c = false := by
  unfold State.eligible
  rw [State.job_setJob_self]
  simp

/-- One whose line faulted neither. -/
theorem State.eligible_lineFault (hj : s.job c = some j) (m : Nat) (code : Code) :
    ((s.lineFault c m code).checkDrained c).eligible c = false := by
  obtain ⟨k, hk, hp⟩ := State.lineFault_stops m code hj
  obtain ⟨k', hk', -, -, -, -, hp'⟩ := (State.checkDrained_lines hk).job
  unfold State.eligible
  rw [hk']
  simp [hp' hp]

end

/-- Settles O37. -/
theorem arbiterChoosesByPassOverAndPriority : Obligations.ArbiterChoosesByPassOverAndPriority := by
  unfold Obligations.ArbiterChoosesByPassOverAndPriority
  refine ⟨fun s c => rfl, fun j lb => ⟨Job.lineCount_of_body, Job.lineCount_of_no_body⟩, State.eligible_iff,
    State.chooseChain_eq_some_iff, fun s c d => ?counts,
    fun s => ⟨find_buffer_eq_zero _, find_buffer_eq_one _, State.inputFree_iff⟩, fun s h => ?nothing⟩
  case counts =>
    have hcount : (s.passOverAfter c)[d] = if d = c then 0 else if s.eligible d then
        (if s.passOver[d] < 8 then s.passOver[d] + 1 else s.passOver[d]) else s.passOver[d] := by
      simp [State.passOverAfter]
    refine ⟨by simp [State.passOverAfter], fun hne he hle => ?eligible, fun hne he => ?other⟩
    case eligible =>
      rw [hcount, if_neg hne, if_pos he]
      split
      · omega
      · omega
    case other => rw [hcount, if_neg hne, if_neg (Bool.eq_false_iff.mp he)]
  case nothing =>
    refine congrArg Host.Outcome.next ?_
    split
    · rfl
    · exact State.grantDecision_of_nothing h 5

/-- Settles O36: one round of the decision, and the fuel that is left. -/
theorem fetchGrantIssuesNextLine : Obligations.FetchGrantIssuesNextLine := by
  unfold Obligations.FetchGrantIssuesNextLine
  refine ⟨fun c j lb source dest s => rfl, fun j lb => Job.lineBody_eq_some_iff lb,
    fun b c j lb source dest s hs hb hc hj hlb hsource hdest => ?_⟩
  obtain ⟨hresolved, hheld, hfault⟩ := State.grantDecision_round hb hc hj hlb hsource hdest 4
  have hreset (code : Code) : ((s.lineFault c j.nextLine code).checkDrained c).softReset = false :=
    ((State.lineFault_keeps s c j.nextLine code).trans (State.checkDrained_keeps _ c)).softReset.trans hs
  refine ⟨fun fetch store used h => ?resolved, fun h => exec_fetchGrantDecision_again hs hs (hheld h),
    fun code h => exec_fetchGrantDecision_again hs (hreset code) (hfault code h), fun h hd => ?heldAlone,
    fun code h hd => ?faultAlone⟩
  case resolved =>
    rw [exec_fetchGrantDecision hs, hresolved fetch store used h, State.grant, Job.lineCount_of_body hlb]
    rfl
  case heldAlone =>
    have hnone (d : ChainId) : (s.setJob c (some { j with held := true })).eligible d = false := by
      by_cases hdc : d = c
      · rw [hdc]
        exact State.eligible_setJob_held j
      · rw [State.eligible_others (State.setJob_others s c _) hdc, hd d hdc]
    rw [exec_fetchGrantDecision hs, hheld h, State.grantDecision_of_nothing (.inr hnone)]
    rfl
  case faultAlone =>
    have hnone (d : ChainId) : ((s.lineFault c j.nextLine code).checkDrained c).eligible d = false := by
      by_cases hdc : d = c
      · rw [hdc]
        exact State.eligible_lineFault hj _ _
      · rw [State.eligible_others ((State.lineFault_others s c _ code).trans (State.checkDrained_others _ c)) hdc, hd d hdc]
    rw [exec_fetchGrantDecision hs, hfault code h, State.grantDecision_of_nothing (.inr hnone)]

end Sys2Proof.Machine
end

section
/-! PROOFS. The events of the Line Engine (04 R74 to R82): fetches, conversions and stores. -/

namespace Sys2Proof.Machine

open Sys2Proof.Statements

section
variable {s : State} {c : ChainId} {j : Job} {l : LineRecord} {b : Fin 2}

/-! ## A line leaves flight (04 R80) -/

theorem ofFn_cleared (v : Vector (List Byte) 2) {p : Fin 2 → Bool} (hp : ∀ i, p i = (some b == some i)) :
    Vector.ofFn (fun i : Fin 2 => if p i then [] else v[i]) = v.set b [] :=
  Vector.ext fun i hi => by simp [hp, Vector.getElem_set, Fin.ext_iff]

theorem ofFn_kept (v : Vector (List Byte) 2) {p : Fin 2 → Bool} (hp : ∀ i, p i = false) :
    Vector.ofFn (fun i : Fin 2 => if p i then [] else v[i]) = v :=
  Vector.ext fun i hi => by simp [hp]

/-- A line that holds an input buffer alone. -/
theorem State.leaveFlight_of_input (hi : l.inputBuffer = some b) (ho : l.outputBuffer = none) : s.leaveFlight l = { s with
    lines := s.lines.filter fun k => !k.isLine l.chain l.jobLine, inBuf := s.inBuf.set b [] } := by
  have hin : freedInputs [l] s.inBuf = s.inBuf.set b [] := ofFn_cleared s.inBuf fun i => by simp [hi]
  have hout : Vector.ofFn (fun i : Fin 2 => if l.outputBuffer == some i then [] else s.outBuf[i]) = s.outBuf :=
    ofFn_kept s.outBuf fun i => by rw [ho]; rfl
  unfold State.leaveFlight
  rw [hin, hout]

/-- A line that holds an output buffer alone. -/
theorem State.leaveFlight_of_output (hi : l.inputBuffer = none) (ho : l.outputBuffer = some b) : s.leaveFlight l = { s with
    lines := s.lines.filter fun k => !k.isLine l.chain l.jobLine, outBuf := s.outBuf.set b [] } := by
  have hin : freedInputs [l] s.inBuf = s.inBuf := ofFn_kept s.inBuf fun i => by simp [hi]
  have hout : Vector.ofFn (fun i : Fin 2 => if l.outputBuffer == some i then [] else s.outBuf[i]) = s.outBuf.set b [] :=
    ofFn_cleared s.outBuf fun i => by rw [ho]
  unfold State.leaveFlight
  rw [hin, hout]

theorem LineRecord.isLine_iff {k : LineRecord} {m : Nat} : k.isLine c m = true ↔ k.chain = c ∧ k.jobLine = m := by
  simp [LineRecord.isLine]

/-! ## Fetch complete (04 R74, R82, 07 R126 to R128) -/

theorem exec_fetchComplete {a : Access} {before later : List Access} {answer : ReadAnswer} (hs : s.softReset = false)
    (h : s.hasOutstanding (Access.isFetchInto b) 0 a before later) (hl : answer.hasLength a.bytes = true) :
    exec (.fetchComplete b answer) s = .next (State.afterFetch { s with accesses := before ++ later } b answer) :=
  congrArg Host.Outcome.next (State.onRead_outstanding h answer _ hl hs)

section
variable (hfind : s.lines.find? (fun k => k.inputBuffer == some b && k.stage == .fetching) = some l)
include hfind

theorem State.afterFetch_discarded (hd : l.discard = true) (answer : ReadAnswer) :
    s.afterFetch b answer = ((s.endFetchCheck b).leaveFlight l).checkDrained l.chain := by
  unfold State.afterFetch
  rw [hfind]
  exact if_pos hd

theorem State.afterFetch_error (hd : l.discard = false) :
    s.afterFetch b .error = (s.endFetchCheck b).faultLine l .busRead := by
  unfold State.afterFetch
  rw [hfind]
  dsimp only
  rw [if_neg (Bool.eq_false_iff.mp hd)]

theorem State.afterFetch_data (hd : l.discard = false) (hj : s.job l.chain = some j) (bytes : List Byte) :
    s.afterFetch b (.data bytes) = s.fetchArrived l j b bytes := by
  unfold State.afterFetch
  rw [hfind]
  dsimp only
  rw [if_neg (Bool.eq_false_iff.mp hd), hj]

theorem inputBuffer_of_find : l.inputBuffer = some b := by
  have h := List.find?_some hfind
  simp only [Bool.and_eq_true, beq_iff_eq] at h
  exact h.1

end

/-- The source check of a footprint (07 R126). -/
theorem trailerMismatch_iff {source : Surface} (hsource : j.source = some source) (bytes : List Byte) :
    trailerMismatch s.fetchChecks[b] j.source bytes = true ↔ mismatches s b source bytes := by
  unfold mismatches trailerMismatch
  rw [hsource]
  cases s.fetchChecks[b] with
  | none => simp
  | some check => simp [FetchCheck.isMatch, FetchCheck.arrived]

theorem State.fetchArrived_matching {source : Surface} {bytes : List Byte} (hsource : j.source = some source)
    (hm : ¬ mismatches s b source bytes) : s.fetchArrived l j b bytes = (s.endFetchCheck b).enterFetched l b bytes :=
  if_neg fun h => hm ((trailerMismatch_iff hsource bytes).mp h)

theorem State.fetchArrived_reported {source : Surface} {bytes : List Byte} (hsource : j.source = some source)
    (hm : mismatches s b source bytes) (hc : j.check = .report) : s.fetchArrived l j b bytes =
      ((s.endFetchCheck b).setJob l.chain (some j.setCheck)).enterFetched l b bytes :=
  (if_pos ((trailerMismatch_iff hsource bytes).mpr hm)).trans (if_neg (by simp [hc]))

theorem State.fetchArrived_stopped {source : Surface} {bytes : List Byte} (hsource : j.source = some source)
    (hm : mismatches s b source bytes) (hc : j.check = .stop) : s.fetchArrived l j b bytes =
      ((s.endFetchCheck b).setJob l.chain (some j.setCheck)).faultLine l .checkFail :=
  (if_pos ((trailerMismatch_iff hsource bytes).mpr hm)).trans (if_pos hc)

/-! ## Conversion start (04 R75, R76) -/

theorem exec_conversionStart (hs : s.softReset = false) : exec .conversionStart s = .next s.conversionStarts :=
  congrArg Host.Outcome.next (if_neg (Bool.eq_false_iff.mp hs))

theorem State.candidate_iff (l : LineRecord) (s : State) : s.candidate l = true ↔ l.stage = .fetched ∧ l.discard = false ∧
    ∀ k ∈ s.lines, k.chain = l.chain → k.jobLine + 1 = l.jobLine → k.stage = .storing := by
  unfold State.candidate
  simp only [Bool.and_eq_true, beq_iff_eq, Bool.not_eq_true', List.all_eq_true, Bool.or_eq_true, Bool.and_eq_false_iff,
    beq_eq_false_iff_ne, ne_eq, and_assoc]
  refine and_congr_right fun _ => and_congr_right fun _ => forall₂_congr fun k _ => ?_
  rw [or_assoc, ← Decidable.imp_iff_not_or, ← Decidable.imp_iff_not_or]

theorem State.hasCandidate_iff : s.hasCandidate c = true ↔ ∃ l ∈ s.lines, l.chain = c ∧ s.candidate l = true := by
  simp [State.hasCandidate]

theorem State.chooseCandidate_best (h : s.chooseCandidate = some l) : l ∈ s.lines ∧ s.candidate l = true ∧
    ∀ k ∈ s.lines, s.candidate k = true → k.chain ≠ l.chain →
      s.level l.chain < s.level k.chain ∨ (s.level l.chain = s.level k.chain ∧ l.chain < k.chain) := by
  unfold State.chooseCandidate at h
  split at h
  · next d hd =>
    have hfound := List.find?_some h
    simp only [Bool.and_eq_true, beq_iff_eq] at hfound
    obtain ⟨rfl, hcand⟩ := hfound
    refine ⟨List.mem_of_find?_eq_some h, hcand, fun k hk hkc hne => ?_⟩
    have hmem : k.chain ∈ allChains.filter s.hasCandidate :=
      List.mem_filter.mpr ⟨mem_allChains _, State.hasCandidate_iff.mpr ⟨k, hk, rfl, hkc⟩⟩
    exact bestChain_le (allChains_filter_increasing _) hd hmem hne
  · cases h

theorem State.chooseCandidate_none (h : ∀ l ∈ s.lines, s.candidate l = false) : s.chooseCandidate = none := by
  cases hc : s.chooseCandidate with
  | none => rfl
  | some l =>
    obtain ⟨hl, hcand, -⟩ := State.chooseCandidate_best hc
    exact absurd hcand (by simp [h l hl])

theorem State.outputFree_iff (b : Fin 2) : s.outputFree b = true ↔ ∀ l ∈ s.lines, l.outputBuffer ≠ some b := by
  simp [State.outputFree]

theorem State.conversionStarts_of_candidate {source dest : Surface} (hm : s.conversion = none)
    (hb : s.freeOutput = some b) (hl : s.chooseCandidate = some l) (hj : s.job l.chain = some j)
    (hsource : j.source = some source) (hdest : j.dest = some dest) :
    s.conversionStarts = s.startConversion l j source dest b := by
  unfold State.conversionStarts
  rw [hm, hb, hl]
  dsimp only
  rw [hj]
  dsimp only
  rw [hsource, hdest]

theorem State.conversionStarts_of_nothing (h : s.conversion ≠ none ∨ s.freeOutput = none ∨ s.chooseCandidate = none) :
    s.conversionStarts = s := by
  unfold State.conversionStarts
  split
  · next hm hb hl =>
    obtain h | h | h := h
    · exact absurd hm h
    · cases hb.symm.trans h
    · cases hl.symm.trans h
  · rfl

/-! ## Conversion complete (04 R77, R78) -/

theorem exec_conversionComplete (hs : s.softReset = false) : exec .conversionComplete s = .next s.conversionCompletes :=
  congrArg Host.Outcome.next (if_neg (Bool.eq_false_iff.mp hs))

theorem State.conversionCompletes_of_mark {m : Nat} {source dest : Surface} {inB outB : Fin 2}
    (hm : s.conversion = some { chain := c, jobLine := m }) (hl : s.lines.find? (LineRecord.isLine c m) = some l)
    (hj : s.job c = some j) (hin : l.inputBuffer = some inB) (hout : l.outputBuffer = some outB)
    (hsource : j.source = some source) (hdest : j.dest = some dest) :
    s.conversionCompletes = s.finishConversion l j source dest inB outB := by
  unfold State.conversionCompletes
  rw [hm]
  dsimp only
  rw [hl, hj]
  dsimp only
  rw [hin, hout, hsource, hdest]

theorem Job.transformBody_eq_some_iff (t : TransformBody) : j.transformBody = some t ↔ ∃ lb, j.body = .convert lb t := by
  unfold Job.transformBody
  cases j.body <;> simp

theorem State.lineOutput_convert {lb : LineBody} {t : TransformBody} (hb : j.body = .convert lb t) (source dest : Surface)
    (y : Nat) (buffer : List Byte) : s.lineOutput j source dest y buffer =
      convertLine (conversionOf s j t source dest) (s.image.getD (.empty source.layout.pixels)) (s.lineMarks.getD .start) y
        buffer := by
  unfold State.lineOutput
  rw [(Job.transformBody_eq_some_iff t).mpr ⟨lb, hb⟩]

theorem State.lineOutput_copy {lb : LineBody} (hb : j.body = .copy lb) (source dest : Surface) (y : Nat)
    (buffer : List Byte) : s.lineOutput j source dest y buffer = copyLine source (s.copyZero.getD true) buffer := by
  have hnone : j.transformBody = none := by
    unfold Job.transformBody
    rw [hb]
  unfold State.lineOutput
  rw [hnone]

end

/-- Settles O38. -/
theorem fetchCompleteByAnswer : Obligations.FetchCompleteByAnswer := by
  unfold Obligations.FetchCompleteByAnswer
  intro b l j source a before after s hs hout hfind hob hj hsource gone checked
  have hib := inputBuffer_of_find hfind
  have hgone : (State.endFetchCheck { s with accesses := before ++ after } b).leaveFlight l = gone :=
    State.leaveFlight_of_input hib hob
  have hdata (bytes : List Byte) (hd : l.discard = false) (hlen : bytes.length = a.bytes) :
      exec (.fetchComplete b (.data bytes)) s =
        .next (State.fetchArrived { s with accesses := before ++ after } l j b bytes) :=
    (exec_fetchComplete (answer := .data bytes) hs hout (beq_iff_eq.mpr hlen)).trans
      (congrArg Host.Outcome.next (State.afterFetch_data (by exact hfind) hd (by exact hj) bytes))
  refine ⟨fun bytes hd hlen hm => ?fetched, fun bytes hd hlen hm hc => ?reported, fun bytes hd hlen hm hc => ?stopped,
    fun hd => ?failed, fun answer hd hlen => ?discarded⟩
  case fetched => rw [hdata bytes hd hlen, State.fetchArrived_matching hsource (by exact hm)]; rfl
  case reported => rw [hdata bytes hd hlen, State.fetchArrived_reported hsource (by exact hm) hc]; rfl
  case stopped =>
    have hleft : ((State.endFetchCheck { s with accesses := before ++ after } b).setJob l.chain
        (some j.setCheck)).leaveFlight l = { gone with jobs := checked } := State.leaveFlight_of_input hib hob
    rw [hdata bytes hd hlen, State.fetchArrived_stopped hsource (by exact hm) hc, State.faultLine, hleft]
  case failed =>
    rw [exec_fetchComplete hs hout rfl, State.afterFetch_error (by exact hfind) hd, State.faultLine, hgone]
  case discarded =>
    rw [exec_fetchComplete hs hout hlen, State.afterFetch_discarded (by exact hfind) hd, hgone]

/-- Settles O39. -/
theorem conversionStartTakesCandidate : Obligations.ConversionStartTakesCandidate := by
  unfold Obligations.ConversionStartTakesCandidate
  refine ⟨fun b l j source dest s hs hm hb hl hj hsource hdest => ?starts, fun l s h => State.chooseCandidate_best h,
    fun s => ⟨find_buffer_eq_zero _, find_buffer_eq_one _, State.outputFree_iff⟩, State.candidate_iff, fun s h => ?nothing⟩
  case starts =>
    rw [exec_conversionStart hs, State.conversionStarts_of_candidate hm hb hl hj hsource hdest]
    rfl
  case nothing =>
    refine congrArg Host.Outcome.next ?_
    split
    · rfl
    · exact State.conversionStarts_of_nothing (h.imp_right (Or.imp_right State.chooseCandidate_none))

/-- Settles O40. -/
theorem conversionCompleteIssuesStore : Obligations.ConversionCompleteIssuesStore := by
  unfold Obligations.ConversionCompleteIssuesStore
  refine ⟨fun c m l j source dest inB outB s hs hm hl hj hin hout hsource hdest => ?completes,
    fun n ranges bytes => ⟨storeCells_addresses n ranges bytes, storeCells_of_nodup n bytes,
      fun x => mem_cellsOf_of_mem_storeCells, fun x hx y hy => storeCells_eq_of_address hx hy⟩,
    fun j t => Job.transformBody_eq_some_iff t, fun s j t source dest => ?conversion, fun r => ⟨fun m hm => ?map, fun hm => ?flat⟩,
    fun j lb t source dest y buffer image s hb himage hmarks => ?convert,
    fun j lb source dest y buffer s hb hzero => ?copy⟩
  case completes =>
    obtain ⟨hchain, hline⟩ := LineRecord.isLine_iff.mp (List.find?_some hl)
    rw [exec_conversionComplete hs, State.conversionCompletes_of_mark hm hl hj hin hout hsource hdest]
    subst hchain
    subst hline
    rfl
  case conversion =>
    refine ⟨fun h => ?_, fun h => ?_, fun h => ?_, fun h => ?_, fun h => ?_, fun h => ?_, rfl, rfl, rfl, rfl, fun k hk => ?_, rfl⟩
    case refine_7 => exact congrArg (·.getD .atReset) hk
    all_goals
      unfold conversionOf TransformBody.kind
      rw [h]
      rfl
  case map => exact congrArg (·.getD (identityMap r.lanes)) hm
  case flat => exact congrArg (·.getD (identityMap r.lanes)) hm
  case convert =>
    rw [State.lineOutput_convert hb, himage, hmarks]
    rfl
  case copy =>
    rw [State.lineOutput_copy hb, hzero]
    rfl

section
variable {s : State} {c : ChainId} {j : Job} {l : LineRecord} {b : Fin 2}

/-! ## The answer of a store (04 R79, R80) -/

theorem exec_storeAnswered_acknowledged {a : Access} {before later : List Access} (hs : s.softReset = false)
    (h : s.hasOutstanding (Access.isStoreFrom b) 0 a before later) :
    exec (.storeAnswered b .acknowledged) s = .next (State.afterStore { s with
      accesses := before.map (Access.without (a.cells.map (·.1))) ++ later
      memory := Memory.writeAll s.memory a.cells } b true) :=
  congrArg Host.Outcome.next (State.onWrite_outstanding h .acknowledged _ rfl hs)

/-- A failed store lands the bytes that its answer names. -/
theorem exec_storeAnswered_error {a : Access} {before later : List Access} (hs : s.softReset = false)
    (h : s.hasOutstanding (Access.isStoreFrom b) 0 a before later) (landed : List Nat) :
    exec (.storeAnswered b (.error landed)) s = .next (State.afterStore { s with
      accesses := before.map (Access.without ((a.cells.filter fun x => landed.contains x.1).map (·.1))) ++ later
      memory := Memory.writeAll s.memory (a.cells.filter fun x => landed.contains x.1) } b false) := by
  have hkind : a.kind = .lineStore b := beq_iff_eq.mp h.2.1
  have hcells : landedCells (.error landed) a = a.cells.filter fun x => landed.contains x.1 := by
    refine landedCells_error_of_none ?_ landed
    unfold Access.stateByte
    rw [hkind]
  refine congrArg Host.Outcome.next ((State.onWrite_outstanding h (.error landed) _ rfl hs).trans ?_)
  rw [hcells]
  rfl

theorem outputBuffer_of_find (hfind : s.lines.find? (fun k => k.outputBuffer == some b && k.stage == .storing) = some l) :
    l.outputBuffer = some b := by
  have h := List.find?_some hfind
  simp only [Bool.and_eq_true, beq_iff_eq] at h
  exact h.1

theorem State.afterStore_of_find (hfind : s.lines.find? (fun k => k.outputBuffer == some b && k.stage == .storing) = some l)
    (ok : Bool) : s.afterStore b ok = if ok then s.lineStored l else s.faultLine l .busWrite := by
  unfold State.afterStore
  rw [hfind]

/-- The state in which a line has been stored and has left flight. -/
def State.withStored (s : State) (l : LineRecord) (b : Fin 2) (j : Job) : State := { s with
  jobs := s.jobs.set l.chain (some { j with stored := j.stored.recordStored l.jobLine l.allZero })
  lines := s.lines.filter fun k => !k.isLine l.chain l.jobLine
  outBuf := s.outBuf.set b [] }

theorem State.lineStored_of_job (hi : l.inputBuffer = none) (ho : l.outputBuffer = some b) (hj : s.job l.chain = some j) :
    s.lineStored l = (s.withStored l b j).checkDrained l.chain := by
  unfold State.lineStored
  rw [State.leaveFlight_of_output hi ho, State.updJob_of_job (by exact hj)]
  rfl

theorem State.job_withStored (s : State) (l : LineRecord) (b : Fin 2) (j : Job) : (s.withStored l b j).job l.chain =
    some { j with stored := j.stored.recordStored l.jobLine l.allZero } := State.job_setJob_self s _ _

/-- Whether a line of the job is left in flight. -/
theorem State.hasLines_withStored : (s.withStored l b j).hasLines l.chain = true ↔
    ∃ k ∈ s.lines, k.chain = l.chain ∧ k.jobLine ≠ l.jobLine := by
  rw [State.hasLines_iff]
  constructor
  · rintro ⟨k, hk, hc⟩
    obtain ⟨hk, hleft⟩ := List.mem_filter.mp hk
    refine ⟨k, hk, hc, fun hm => ?_⟩
    rw [LineRecord.isLine_iff.mpr ⟨hc, hm⟩] at hleft
    cases hleft
  · rintro ⟨k, hk, hc, hm⟩
    have hleft : k.isLine l.chain l.jobLine = false := Bool.eq_false_iff.mpr fun h => hm (LineRecord.isLine_iff.mp h).2
    exact ⟨k, List.mem_filter.mpr ⟨hk, by rw [hleft]; rfl⟩, hc⟩

/-! ## A line fault, written out (04 R81, R82) -/

theorem State.discarded_some (s : State) (c : ChainId) (m : Nat) : s.discarded c (some m) = s.lines.filter fun l =>
    l.chain == c && (l.stage == .fetching || l.stage == .fetched) && !l.discard && decide (m < l.jobLine) := rfl

theorem Job.recordFault_eq (j : Job) (code : Code) : j.recordFault code = { j with
    firstFault := if j.firstFault = none ∧ j.abortRequested = false then some code else j.firstFault } := by
  unfold Job.recordFault
  by_cases h : j.firstFault = none ∧ j.abortRequested = false
  · rw [if_pos h, if_pos (by simp [h.1, h.2])]
  · rw [if_neg h, if_neg (by simpa using h)]

theorem Job.stopGrants_eq (j : Job) : j.stopGrants = { j with
    phase := if j.phase = .running then .draining else j.phase } := by
  unfold Job.stopGrants
  split
  · rfl
  · rfl

theorem State.lineFault_of_job (hj : s.job c = some j) (m : Nat) (code : Code) : s.lineFault c m code = { s with
    jobs := s.jobs.set c (some { j with
      firstFault := if j.firstFault = none ∧ j.abortRequested = false then some code else j.firstFault
      phase := if j.phase = .running then .draining else j.phase
      stored := (s.discarded c (some m)).foldl (fun r l => r.recordFailed l.jobLine) (j.stored.recordFailed m) })
    lines := s.lines.filterMap fun l =>
      if l ∈ s.discarded c (some m) then (if l.stage = .fetching then some { l with discard := true } else none) else some l
    inBuf := Vector.ofFn fun b =>
      if (s.discarded c (some m)).any fun l => l.stage == .fetched && l.inputBuffer == some b then [] else s.inBuf[b] } := by
  have hjob : ((s.recordFault c code).updJob c fun j => { j.stopGrants with stored := j.stored.recordFailed m }) =
      s.setJob c (some { (j.recordFault code).stopGrants with
        stored := (j.recordFault code).stored.recordFailed m }) := by
    rw [State.recordFault, State.updJob_of_job hj, State.updJob_of_job (State.job_setJob_self _ _ _), State.setJob_setJob]
  have hfreed : freedInputs ((s.discarded c (some m)).filter fun l => l.stage == .fetched) s.inBuf =
      Vector.ofFn fun b => if (s.discarded c (some m)).any fun l => l.stage == .fetched && l.inputBuffer == some b then []
        else s.inBuf[b] := by
    unfold freedInputs
    simp only [List.any_filter]
  have hlines : (s.lines.filterMap fun l => if (s.discarded c (some m)).contains l then
      (if l.stage = .fetching then some { l with discard := true } else none) else some l) =
      s.lines.filterMap fun l => if l ∈ s.discarded c (some m) then
        (if l.stage = .fetching then some { l with discard := true } else none) else some l := by
    simp only [List.contains_iff_mem]
  unfold State.lineFault
  rw [hjob]
  unfold State.discardLines
  dsimp only
  rw [State.updJob_of_job (State.job_setJob_self _ _ _), State.setJob_setJob, ← hfreed, ← hlines, Job.recordFault_eq,
    Job.stopGrants_eq]
  rfl

/-! ## The bytes of a write -/

theorem Memory.read_write_self (m : List Host.Cell) (a : Nat) (b : Byte) : Memory.read (Memory.write m a b) a = some b := by
  induction m with
  | nil => simp [Memory.write, Memory.read]
  | cons x rest ih =>
    obtain ⟨x, v⟩ := x
    rw [Memory.write]
    split
    · exact if_pos rfl
    · split
      · exact if_pos rfl
      · next hne => exact (if_neg hne).trans ih

/-- The last byte written to an address stands there. -/
theorem Memory.read_writeAll (m cells : List Host.Cell) (a : Nat) : Memory.read (Memory.writeAll m cells) a =
    match (cells.filter fun x => x.1 == a).getLast? with
    | some x => some x.2
    | none => Memory.read m a := by
  induction cells generalizing m with
  | nil => rfl
  | cons x rest ih =>
    have hfirst : Memory.writeAll m (x :: rest) = Memory.writeAll (Memory.write m x.1 x.2) rest := rfl
    rw [hfirst, ih]
    by_cases hx : x.1 = a
    · subst hx
      have hkeep : (x.1 == x.1) = true := beq_self_eq_true _
      rw [List.filter_cons_of_pos (by exact hkeep), List.getLast?_cons, Memory.read_write_self]
      cases (rest.filter fun y => y.1 == x.1).getLast? with
      | none => rfl
      | some y => rfl
    · rw [List.filter_cons_of_neg (by simpa using hx), Memory.read_write_of_ne _ _ _ _ (Ne.symm hx)]

theorem append_zip {α β : Type} (l k : List α) (bytes : List β) :
    (l ++ k).zip bytes = l.zip bytes ++ k.zip (bytes.drop l.length) := by
  induction l generalizing bytes with
  | nil => rfl
  | cons x rest ih =>
    cases bytes with
    | nil => simp
    | cons b bytes => simp [ih]

theorem cellsOf_cons (r : PhysRange) (rest : List PhysRange) (bytes : List Byte) : cellsOf (r :: rest) bytes =
    ((List.range r.bytes).zip bytes).map (fun x => (r.start.toNat + x.1, x.2)) ++ cellsOf rest (bytes.drop r.bytes) := by
  unfold cellsOf rangeAddresses
  rw [List.flatMap_cons, append_zip, List.length_map, List.length_range, List.zip_map_left]
  rfl

end

/-- Settles O41. -/
theorem storeAnsweredRecordsLine : Obligations.StoreAnsweredRecordsLine := by
  unfold Obligations.StoreAnsweredRecordsLine
  refine ⟨fun start n rest bytes => ⟨?none, ?cells⟩, fun memory cells address => ?read,
    fun b l j a before after s hs hout hfind hi hj => ?stores, fun c m code j s hj => ⟨State.lineFault_of_job hj m code, ?drained⟩⟩
  case none => rfl
  case cells => exact cellsOf_cons { start, bytes := n } rest bytes
  case read => exact Memory.read_writeAll memory cells address
  case stores =>
    have ho := outputBuffer_of_find hfind
    have hstored : exec (.storeAnswered b .acknowledged) s = .next (State.checkDrained (State.withStored { s with
        accesses := before.map (Access.without (a.cells.map (·.1))) ++ after
        memory := Memory.writeAll s.memory a.cells } l b j) l.chain) := by
      rw [exec_storeAnswered_acknowledged hs hout, State.afterStore_of_find (by exact hfind), if_pos rfl,
        State.lineStored_of_job hi ho (by exact hj)]
    refine ⟨fun h => ?runsOn, fun hp he h => ?ends, fun landed => ?failed⟩
    case runsOn =>
      rw [hstored, State.checkDrained_eq (State.job_withStored _ l b j), if_neg]
      · rfl
      · rintro ⟨hp, he, hl⟩
        obtain h | h | h := h
        · exact h hp
        · exact absurd (h.symm.trans he) (by decide)
        · exact absurd (hl.symm.trans (State.hasLines_withStored.mpr h)) (by decide)
    case ends =>
      rw [hstored, State.checkDrained_eq (State.job_withStored _ l b j), if_pos]
      · rfl
      · refine ⟨hp, he, Bool.eq_false_iff.mpr fun hl => ?_⟩
        obtain ⟨k, hk, hc, hm⟩ := State.hasLines_withStored.mp hl
        exact hm (h k hk hc)
    case failed =>
      rw [exec_storeAnswered_error hs hout, State.afterStore_of_find (by exact hfind), if_neg (by decide), State.faultLine,
        State.leaveFlight_of_output hi ho]
  case drained =>
    have hnone : s.hasLines c = false ↔ ∀ l ∈ s.lines, l.chain ≠ c := by
      rw [Bool.eq_false_iff, ne_eq, State.hasLines_iff]
      simp
    rw [State.checkDrained_eq hj]
    simp only [hnone]

end Sys2Proof.Machine
end

section
/-! PROOFS. The lines-stored record of a job (04 R69). -/

namespace Sys2Proof.Machine

open Sys2Proof.Statements

/-! ## The front joins what stands above it -/

/-- What the front has become when no line stands at it any more: `r'` is `r` with the lines above joined. -/
structure LinesStored.Joined (r r' : LinesStored) : Prop where
  le : r.prefixLen ≤ r'.prefixLen
  between : ∀ k, r.prefixLen ≤ k → k < r'.prefixLen → ∃ z, (k, z) ∈ r.above
  next : ∀ z, (r'.prefixLen, z) ∉ r.above
  zero : r'.zeroSoFar = true ↔
    r.zeroSoFar = true ∧ ∀ k z, r.prefixLen ≤ k → k < r'.prefixLen → (k, z) ∈ r.above → z = true
  above : ∀ k z, (k, z) ∈ r'.above ↔ (k, z) ∈ r.above ∧ r'.prefixLen < k
  failed : r'.failed = r.failed
  closed : r'.closed = r.closed

/-- With no line standing at the front it stays. -/
theorem LinesStored.Joined.refl {r : LinesStored} (hge : ∀ k z, (k, z) ∈ r.above → r.prefixLen ≤ k)
    (hnext : ∀ z, (r.prefixLen, z) ∉ r.above) : r.Joined r where
  le := Nat.le_refl _
  between := fun k hk hk' => absurd hk (by omega)
  next := hnext
  zero := ⟨fun h => ⟨h, fun k z hk hk' => absurd hk (by omega)⟩, fun h => h.1⟩
  above := fun k z => ⟨fun h => ⟨h, Nat.lt_of_le_of_ne (hge k z h) fun e => hnext z (e ▸ h)⟩, fun h => h.1⟩
  failed := rfl
  closed := rfl

/-- The record with the line at the front joined. -/
def LinesStored.joinOne (z : Bool) (r : LinesStored) : LinesStored := { r with
  prefixLen := r.prefixLen + 1
  above := r.above.filter fun a => a.1 != r.prefixLen
  zeroSoFar := r.zeroSoFar && z }

theorem LinesStored.mem_joinOne {r : LinesStored} {z z' : Bool} {k : Nat} :
    (k, z') ∈ (r.joinOne z).above ↔ (k, z') ∈ r.above ∧ k ≠ r.prefixLen := by
  simp [LinesStored.joinOne]

theorem LinesStored.Joined.of_joinOne {r r' : LinesStored} {z : Bool} (hz : (r.prefixLen, z) ∈ r.above)
    (huniq : ∀ k z z', (k, z) ∈ r.above → (k, z') ∈ r.above → z = z') (h : (r.joinOne z).Joined r') : r.Joined r' := by
  have hlt : r.prefixLen < r'.prefixLen := h.le
  refine ⟨Nat.le_of_lt hlt, fun k hk hk' => ?between, fun z' hz' => ?next, h.zero.trans ⟨fun ⟨hzero, hall⟩ => ?zero, fun h0 => ?zero'⟩,
    fun k z' => (h.above k z').trans ?above, h.failed, h.closed⟩
  case between =>
    obtain rfl | hk := Nat.eq_or_lt_of_le hk
    · exact ⟨z, hz⟩
    · obtain ⟨z', hz'⟩ := h.between k hk hk'
      exact ⟨z', (LinesStored.mem_joinOne.mp hz').1⟩
  case next => exact h.next z' (LinesStored.mem_joinOne.mpr ⟨hz', by omega⟩)
  case zero =>
    obtain ⟨hr, hz1⟩ := Bool.and_eq_true_iff.mp hzero
    refine ⟨hr, fun k z' hk hk' hmem => ?_⟩
    obtain rfl | hk := Nat.eq_or_lt_of_le hk
    · exact (huniq _ _ _ hmem hz).trans hz1
    · exact hall k z' hk hk' (LinesStored.mem_joinOne.mpr ⟨hmem, by omega⟩)
  case zero' =>
    obtain ⟨hr, hall⟩ := h0
    refine ⟨Bool.and_eq_true_iff.mpr ⟨hr, hall _ z (Nat.le_refl _) hlt hz⟩, fun k z' hk hk' hmem => ?_⟩
    exact hall k z' (Nat.le_of_lt hk) hk' (LinesStored.mem_joinOne.mp hmem).1
  case above =>
    rw [LinesStored.mem_joinOne]
    exact ⟨fun ⟨hm, hk⟩ => ⟨hm.1, hk⟩, fun ⟨hm, hk⟩ => ⟨⟨hm, by omega⟩, hk⟩⟩

/-- As many rounds as there are lines above are enough. -/
theorem LinesStored.joinAbove_joined (fuel : Nat) (r : LinesStored) (hlen : r.above.length ≤ fuel)
    (hge : ∀ k z, (k, z) ∈ r.above → r.prefixLen ≤ k)
    (huniq : ∀ k z z', (k, z) ∈ r.above → (k, z') ∈ r.above → z = z') : r.Joined (joinAbove fuel r) := by
  induction fuel generalizing r with
  | zero =>
    have hnil : r.above = [] := List.length_eq_zero_iff.mp (Nat.le_zero.mp hlen)
    exact .refl hge fun z => by simp [hnil]
  | succ fuel ih =>
    cases hfind : r.above.find? fun a => a.1 == r.prefixLen with
    | none =>
      have hsame : joinAbove (fuel + 1) r = r := by rw [joinAbove, hfind]
      rw [hsame]
      refine .refl hge fun z hz => ?_
      simpa using List.find?_eq_none.mp hfind _ hz
    | some a =>
      obtain ⟨m, z⟩ := a
      have hm : m = r.prefixLen := by simpa using List.find?_some hfind
      subst hm
      have hz : (r.prefixLen, z) ∈ r.above := List.mem_of_find?_eq_some hfind
      have hjoin : joinAbove (fuel + 1) r = joinAbove fuel (r.joinOne z) := by
        rw [joinAbove, hfind]
        rfl
      rw [hjoin]
      refine .of_joinOne hz huniq (ih (r.joinOne z) ?length ?least ?unique)
      case length =>
        have hlt : (r.joinOne z).above.length < r.above.length :=
          List.length_filter_lt_length_iff_exists.mpr ⟨_, hz, by simp⟩
        omega
      case least =>
        intro k z' hk
        obtain ⟨hk, hne⟩ := LinesStored.mem_joinOne.mp hk
        exact Nat.lt_of_le_of_ne (hge k z' hk) (Ne.symm hne)
      case unique =>
        exact fun k z z' hz hz' => huniq k z z' (LinesStored.mem_joinOne.mp hz).1 (LinesStored.mem_joinOne.mp hz').1

/-! ## What the record tells of the events so far -/

/-- The record of a job whose lines have met these events. -/
structure LinesStored.Tells (events : List (Nat × Option Bool)) (r : LinesStored) : Prop where
  stored : ∀ k < r.prefixLen, ∃ z, (k, some z) ∈ events
  next : ∀ z, (r.prefixLen, some z) ∉ events
  zero : r.zeroSoFar = true ↔ ∀ k < r.prefixLen, (k, some true) ∈ events
  closed : r.closed = true ↔ (r.prefixLen, none) ∈ events
  failed : ∀ k, r.prefixLen < k → (k ∈ r.failed ↔ (k, none) ∈ events)
  above : r.closed = false → ∀ k z, (k, z) ∈ r.above ↔ r.prefixLen < k ∧ (k, some z) ∈ events

theorem LinesStored.tells_empty : LinesStored.empty.Tells [] where
  stored := fun k hk => absurd hk (Nat.not_lt_zero k)
  next := fun z => List.not_mem_nil
  zero := ⟨fun _ k hk => absurd hk (Nat.not_lt_zero k), fun _ => rfl⟩
  closed := ⟨fun h => absurd h (by decide), fun h => absurd h List.not_mem_nil⟩
  failed := fun k _ => ⟨fun h => absurd h List.not_mem_nil, fun h => absurd h List.not_mem_nil⟩
  above := fun _ k z => ⟨fun h => absurd h List.not_mem_nil, fun h => absurd h.2 List.not_mem_nil⟩

section
variable {events : List (Nat × Option Bool)} {r : LinesStored} {m : Nat}

/-- An event of another line, or of another outcome, was there before. -/
theorem mem_concat_iff {k : Nat} {x y : Option Bool} (h : k ≠ m ∨ x ≠ y) :
    (k, x) ∈ events ++ [(m, y)] ↔ (k, x) ∈ events := by
  rw [List.mem_append, List.mem_singleton, Prod.mk.injEq]
  exact ⟨fun h' => h'.resolve_right fun e => h.elim (· e.1) (· e.2), .inl⟩

theorem mem_concat_self {y : Option Bool} : (m, y) ∈ events ++ [(m, y)] := by simp

/-- A line not heard of before stands at the front or above it. -/
theorem LinesStored.Tells.le_of_new (h : r.Tells events) (hnew : ∀ x, (m, x) ∉ events) : r.prefixLen ≤ m := by
  refine Nat.le_of_not_lt fun hlt => ?_
  obtain ⟨z, hz⟩ := h.stored m hlt
  exact hnew _ hz

theorem LinesStored.Tells.recordFailed (h : r.Tells events) (hnew : ∀ x, (m, x) ∉ events) :
    (r.recordFailed m).Tells (events ++ [(m, none)]) := by
  have hstored (k : Nat) (z : Bool) : (k, some z) ∈ events ++ [(m, none)] ↔ (k, some z) ∈ events :=
    mem_concat_iff (.inr nofun)
  unfold LinesStored.recordFailed
  obtain heq | hlt := Nat.eq_or_lt_of_le (h.le_of_new hnew)
  · rw [if_pos heq.symm]
    subst heq
    change LinesStored.Tells _ { r with closed := true, above := [] }
    refine ⟨fun k hk => ?_, fun z => ?_, ?_, ⟨fun _ => mem_concat_self, fun _ => rfl⟩, fun k hk => ?_, fun hc => nomatch hc⟩
    · simpa only [hstored] using h.stored k hk
    · simpa only [hstored] using h.next z
    · simpa only [hstored] using h.zero
    · rw [mem_concat_iff (.inl (Nat.ne_of_gt hk))]
      exact h.failed k hk
  · rw [if_neg (Nat.ne_of_gt hlt), if_pos hlt]
    refine ⟨fun k hk => ?_, fun z => ?_, ?_, ?_, fun k hk => ?_, fun hc k z => ?_⟩
    · simpa only [hstored] using h.stored k hk
    · simpa only [hstored] using h.next z
    · simpa only [hstored] using h.zero
    · rw [mem_concat_iff (.inl (Nat.ne_of_lt hlt))]
      exact h.closed
    · by_cases hkm : k = m
      · subst hkm
        exact iff_of_true List.mem_cons_self mem_concat_self
      · rw [mem_concat_iff (.inl hkm), List.mem_cons, ← h.failed k hk]
        exact ⟨fun h' => h'.resolve_left hkm, .inr⟩
    · rw [hstored]
      exact h.above hc k z

/-- A stored line above the front waits there, and on a closed record counts no more. -/
theorem LinesStored.Tells.recordStored_above (h : r.Tells events) (hlt : r.prefixLen < m) (z : Bool) :
    (r.recordStored m z).Tells (events ++ [(m, some z)]) := by
  have hfailed (k : Nat) : (k, none) ∈ events ++ [(m, some z)] ↔ (k, none) ∈ events := mem_concat_iff (.inr nofun)
  have hbelow (k : Nat) (hk : k ≤ r.prefixLen) (x : Option Bool) : (k, x) ∈ events ++ [(m, some z)] ↔ (k, x) ∈ events :=
    mem_concat_iff (.inl (by omega))
  have hzero : r.zeroSoFar = true ↔ ∀ k < r.prefixLen, (k, some true) ∈ events ++ [(m, some z)] :=
    h.zero.trans (forall₂_congr fun k hk => (hbelow k (Nat.le_of_lt hk) _).symm)
  have hstored : ∀ k < r.prefixLen, ∃ z', (k, some z') ∈ events ++ [(m, some z)] := fun k hk => by
    simpa only [hbelow k (Nat.le_of_lt hk)] using h.stored k hk
  have hnext : ∀ z', (r.prefixLen, some z') ∉ events ++ [(m, some z)] := fun z' => by
    simpa only [hbelow _ (Nat.le_refl _)] using h.next z'
  unfold LinesStored.recordStored
  cases hc : r.closed with
  | true =>
    rw [if_pos rfl]
    refine ⟨hstored, hnext, hzero, ?_, fun k hk => ?_, fun hc' => ?_⟩
    · rw [hfailed]
      exact h.closed
    · rw [hfailed]
      exact h.failed k hk
    · exact absurd (hc'.symm.trans hc) (by decide)
  | false =>
    rw [if_neg (by decide), if_neg (Nat.ne_of_gt hlt), if_pos hlt]
    have hopen := h.closed
    rw [hc] at hopen
    refine ⟨hstored, hnext, hzero, ?_, fun k hk => ?_, fun _ k z' => ?_⟩
    · rw [hfailed]
      exact hopen
    · rw [hfailed]
      exact h.failed k hk
    · rw [List.mem_cons, Prod.mk.injEq, h.above hc, List.mem_append, List.mem_singleton, Prod.mk.injEq, Option.some.injEq]
      constructor
      · rintro (⟨rfl, rfl⟩ | ⟨hk, hmem⟩)
        · exact ⟨hlt, .inr ⟨rfl, rfl⟩⟩
        · exact ⟨hk, .inl hmem⟩
      · rintro ⟨hk, hmem | heq⟩
        · exact .inr ⟨hk, hmem⟩
        · exact .inl heq

/-- A line stored at the front moves it over every line that stands there. -/
theorem LinesStored.Tells.recordStored_prefix (h : r.Tells events) (hnew : ∀ x, (r.prefixLen, x) ∉ events)
    (huniq : ∀ k z z', (k, some z) ∈ events → (k, some z') ∈ events → z = z') (z : Bool) :
    (r.recordStored r.prefixLen z).Tells (events ++ [(r.prefixLen, some z)]) := by
  have hc : r.closed = false := Bool.eq_false_iff.mpr fun hc => hnew _ (h.closed.mp hc)
  have habove := h.above hc
  have hjoined : LinesStored.Joined { r with prefixLen := r.prefixLen + 1, zeroSoFar := r.zeroSoFar && z }
      (LinesStored.joinAbove r.above.length { r with prefixLen := r.prefixLen + 1, zeroSoFar := r.zeroSoFar && z }) :=
    LinesStored.joinAbove_joined _ _ (Nat.le_refl _) (fun k z' hk => ((habove k z').mp hk).1)
      fun k z z' hz hz' => huniq k z z' ((habove k z).mp hz).2 ((habove k z').mp hz').2
  unfold LinesStored.recordStored
  rw [if_neg (by simp [hc]), if_pos rfl]
  generalize LinesStored.joinAbove r.above.length { r with prefixLen := r.prefixLen + 1, zeroSoFar := r.zeroSoFar && z } = r'
    at hjoined ⊢
  have hlt : r.prefixLen < r'.prefixLen := hjoined.le
  have hold (k : Nat) (hk : k ≠ r.prefixLen) (x : Option Bool) :
      (k, x) ∈ events ++ [(r.prefixLen, some z)] ↔ (k, x) ∈ events := mem_concat_iff (.inl hk)
  have hstored : ∀ k < r'.prefixLen, ∃ z', (k, some z') ∈ events ++ [(r.prefixLen, some z)] := by
    intro k hk
    obtain hk' | rfl | hk' := Nat.lt_trichotomy k r.prefixLen
    · obtain ⟨z', hz'⟩ := h.stored k hk'
      exact ⟨z', List.mem_append_left _ hz'⟩
    · exact ⟨z, mem_concat_self⟩
    · obtain ⟨z', hz'⟩ := hjoined.between k hk' hk
      exact ⟨z', List.mem_append_left _ ((habove k z').mp hz').2⟩
  have hnext : ∀ z', (r'.prefixLen, some z') ∉ events ++ [(r.prefixLen, some z)] := by
    intro z' hz'
    rw [hold _ (Nat.ne_of_gt hlt)] at hz'
    exact hjoined.next z' ((habove _ z').mpr ⟨hlt, hz'⟩)
  have hzero : r'.zeroSoFar = true ↔ ∀ k < r'.prefixLen, (k, some true) ∈ events ++ [(r.prefixLen, some z)] := by
    refine hjoined.zero.trans ⟨fun ⟨hrz, hall⟩ k hk => ?_, fun hall => ⟨?_, fun k z' hk hk' hmem => ?_⟩⟩
    · obtain ⟨hr, rfl⟩ := Bool.and_eq_true_iff.mp hrz
      obtain hk' | rfl | hk' := Nat.lt_trichotomy k r.prefixLen
      · exact List.mem_append_left _ (h.zero.mp hr k hk')
      · exact mem_concat_self
      · obtain ⟨z', hz'⟩ := hjoined.between k hk' hk
        obtain rfl := hall k z' hk' hk hz'
        exact List.mem_append_left _ ((habove k _).mp hz').2
    · refine Bool.and_eq_true_iff.mpr ⟨h.zero.mpr fun k hk => ?_, ?_⟩
      · exact (hold k (Nat.ne_of_lt hk) _).mp (hall k (Nat.lt_trans hk hlt))
      · obtain hmem | hmem := List.mem_append.mp (hall _ hlt)
        · exact absurd hmem (hnew _)
        · exact (Option.some.inj (Prod.mk.inj (List.mem_singleton.mp hmem)).2).symm
    · exact huniq k z' true ((habove k z').mp hmem).2 ((hold k (Nat.ne_of_gt hk) _).mp (hall k hk'))
  have hfailed : ∀ k, r'.prefixLen ≤ k → (k ∈ r'.failed ↔ (k, none) ∈ events ++ [(r.prefixLen, some z)]) := by
    intro k hk
    rw [hjoined.failed, hold k (by omega)]
    exact h.failed k (by omega)
  unfold LinesStored.closeAtFailed
  by_cases hat : r'.prefixLen ∈ r'.failed
  · rw [if_pos (List.contains_iff_mem.mpr hat)]
    exact ⟨hstored, hnext, hzero, iff_of_true rfl ((hfailed _ (Nat.le_refl _)).mp hat),
      fun k hk => hfailed k (Nat.le_of_lt hk), fun hc' => nomatch hc'⟩
  · rw [if_neg (fun hc' => hat (List.contains_iff_mem.mp hc'))]
    refine ⟨hstored, hnext, hzero, iff_of_false ?_ fun hmem => hat ((hfailed _ (Nat.le_refl _)).mpr hmem),
      fun k hk => hfailed k (Nat.le_of_lt hk), fun _ k z' => ?_⟩
    · rw [hjoined.closed]
      simp [hc]
    · rw [hjoined.above]
      constructor
      · rintro ⟨hmem, hk⟩
        exact ⟨hk, List.mem_append_left _ ((habove k z').mp hmem).2⟩
      · rintro ⟨hk, hmem⟩
        exact ⟨(habove k z').mpr ⟨Nat.lt_trans hlt hk, (hold k (by omega) _).mp hmem⟩, hk⟩

/-- A line is heard of once. -/
theorem eq_of_nodup_keys (hnodup : (events.map (·.1)).Nodup) {x y : Option Bool} (hx : (m, x) ∈ events)
    (hy : (m, y) ∈ events) : x = y := by
  induction events with
  | nil => cases hx
  | cons event rest ih =>
    obtain ⟨hnew, hrest⟩ := List.nodup_cons.mp hnodup
    obtain hfirst | hlater := List.mem_cons.mp hx
    · obtain hfirst' | hlater' := List.mem_cons.mp hy
      · exact (Prod.mk.inj (hfirst.trans hfirst'.symm)).2
      · exact absurd (List.mem_map.mpr ⟨_, hlater', show m = event.1 from congrArg Prod.fst hfirst⟩) hnew
    · obtain hfirst' | hlater' := List.mem_cons.mp hy
      · exact absurd (List.mem_map.mpr ⟨_, hlater, show m = event.1 from congrArg Prod.fst hfirst'⟩) hnew
      · exact ih hrest hlater hlater'

/-- One more event. -/
theorem LinesStored.Tells.hearsOf (h : r.Tells events) {event : Nat × Option Bool}
    (hnodup : ((events ++ [event]).map (·.1)).Nodup) : (hearsOf r event).Tells (events ++ [event]) := by
  obtain ⟨m, x⟩ := event
  rw [List.map_append, List.nodup_append] at hnodup
  obtain ⟨hold, -, hdisjoint⟩ := hnodup
  have hnew (x : Option Bool) : (m, x) ∉ events := fun hmem =>
    hdisjoint m (List.mem_map.mpr ⟨_, hmem, rfl⟩) m List.mem_cons_self rfl
  cases x with
  | none => exact h.recordFailed hnew
  | some z =>
    change (r.recordStored m z).Tells _
    obtain heq | hlt := Nat.eq_or_lt_of_le (h.le_of_new hnew)
    · subst heq
      refine h.recordStored_prefix hnew (fun k z z' hz hz' => ?_) z
      exact Option.some.inj (eq_of_nodup_keys hold hz hz')
    · exact h.recordStored_above hlt z

end

/-- The events after those that the record tells of already. -/
theorem LinesStored.Tells.foldl {r : LinesStored} {seen : List (Nat × Option Bool)} (h : r.Tells seen)
    (events : List (Nat × Option Bool)) (hnodup : ((seen ++ events).map (·.1)).Nodup) :
    (events.foldl Statements.hearsOf r).Tells (seen ++ events) := by
  induction events generalizing r seen with
  | nil =>
    rw [List.append_nil]
    exact h
  | cons event rest ih =>
    rw [List.append_cons] at hnodup ⊢
    refine ih (h.hearsOf ?_) hnodup
    rw [List.map_append] at hnodup
    exact (List.nodup_append.mp hnodup).1

theorem LinesStored.tells_foldl (events : List (Nat × Option Bool)) (hnodup : (events.map (·.1)).Nodup) :
    (events.foldl Statements.hearsOf .empty).Tells events :=
  LinesStored.tells_empty.foldl events hnodup

/-- Settles O42: the record tells of every run of events. -/
theorem linesStoredPrefixCountsStoredLines : Obligations.LinesStoredPrefixCountsStoredLines := by
  unfold Obligations.LinesStoredPrefixCountsStoredLines
  intro events hnodup
  have h := LinesStored.tells_foldl events hnodup
  refine ⟨fun n => ⟨fun hn k hk => h.stored k (by omega), fun hall => ?_⟩, h.zero, h.closed, fun m => ?_⟩
  · refine Nat.le_of_not_lt fun hlt => ?_
    obtain ⟨z, hz⟩ := hall _ hlt
    exact h.next z hz
  · have hmem (k : Nat) : k ∈ ((events.foldl Statements.hearsOf .empty).failed.filter fun m =>
        decide ((events.foldl Statements.hearsOf .empty).prefixLen < m)) ↔
        (k, none) ∈ events ∧ (events.foldl Statements.hearsOf .empty).prefixLen < k := by
      rw [List.mem_filter, decide_eq_true_iff]
      exact and_congr_left fun hk => h.failed k hk
    unfold LinesStored.lowestFailed
    rw [List.min?_eq_some_iff]
    simp only [hmem]
    exact ⟨fun ⟨⟨hm, hk⟩, hall⟩ => ⟨hm, hk, fun k hk hlt => hall k ⟨hk, hlt⟩⟩,
      fun ⟨hm, hk, hall⟩ => ⟨⟨hm, hk⟩, fun k hk => hall k hk.1 hk.2⟩⟩

end Sys2Proof.Machine
end

section
/-! PROOFS. The work of SURFACE, COEFF and MAP jobs (03 R51 to R56, 06 R122, 08 R146 to R151). -/

namespace Sys2Proof.Machine

open Sys2Proof.Statements

section
variable {s : State} {c : ChainId} {j : Job}

/-! ## The job at work -/

theorem State.workingJob_of_job (hs : s.softReset = false) (hj : s.job c = some j) (hp : j.phase = .running)
    (he : j.ended = false) : s.workingJob c = some j := by
  unfold State.workingJob
  rw [hs, hj, if_neg Bool.false_ne_true]
  exact if_pos (by simp [Job.working, hp, he])

theorem Job.recordFault_first (hf : j.firstFault = none) (ha : j.abortRequested = false) (code : Code) :
    j.recordFault code = { j with firstFault := some code } :=
  if_pos (by simp [hf, ha])

theorem State.recordFault_of_job (hj : s.job c = some j) (code : Code) :
    s.recordFault c code = s.setJob c (some (j.recordFault code)) :=
  State.updJob_of_job hj _

/-- The first fault of a job, as the statements write it. -/
theorem State.recordFault_first (hj : s.job c = some j) (hf : j.firstFault = none) (ha : j.abortRequested = false)
    (code : Code) : s.recordFault c code = s.setJob c (some { j with firstFault := some code }) := by
  rw [State.recordFault_of_job hj, Job.recordFault_first hf ha]

theorem exec_surfaceWork (hs : s.softReset = false) (hj : s.job c = some j) (hp : j.phase = .running)
    (he : j.ended = false) {b : SurfaceBody} (hb : j.body = .surface b) :
    exec (.surfaceWork c) s = .next (s.doSurface c b) := by
  change execSurfaceWork c s = _
  unfold execSurfaceWork
  rw [State.workingJob_of_job hs hj hp he]
  dsimp only
  rw [hb]

theorem exec_coeffWork (hs : s.softReset = false) (hj : s.job c = some j) (hp : j.phase = .running)
    (he : j.ended = false) {b : CoeffBody} (hb : j.body = .coeff b) :
    exec (.coeffWork c) s = .next (s.doCoeff c b) := by
  change execCoeffWork c s = _
  unfold execCoeffWork
  rw [State.workingJob_of_job hs hj hp he]
  dsimp only
  rw [hb]

theorem exec_mapWork (hs : s.softReset = false) (hn : s.pendingMark = none) (hj : s.job c = some j)
    (hp : j.phase = .running) (he : j.ended = false) {b : MapBody} (hb : j.body = .map b) {slot : EntryId}
    {new : Option MapEntry} (h : mapEffect b = some (slot, new)) :
    exec (.mapWork c) s = .next (s.doMap c slot new) := by
  change execMapWork c s = _
  unfold execMapWork
  rw [State.workingJob_of_job hs hj hp he, hn]
  dsimp only
  rw [hb]
  dsimp only
  rw [h]

end

/-! ## SURFACE (03 R52) -/

section
variable {b : SurfaceBody}

theorem surfaceEffect_load {slot : Fin 16} {r : Surface} (ho : b.operation = 1) (hs : b.slot.toNat = slot.val)
    (hr : checkSurface b = some r) : surfaceEffect b = some (slot, some r) := by
  unfold surfaceEffect
  rw [ho, hs, hr, finOf_val]
  rfl

theorem surfaceEffect_clear {slot : Fin 16} (ho : b.operation = 2) (hs : b.slot.toNat = slot.val) :
    surfaceEffect b = some (slot, none) := by
  unfold surfaceEffect
  rw [ho, hs, finOf_val]
  rfl

theorem surfaceEffect_none (h : (b.operation ≠ 1 ∧ b.operation ≠ 2) ∨ 16 ≤ b.slot.toNat ∨
    (b.operation = 1 ∧ checkSurface b = none)) : surfaceEffect b = none := by
  unfold surfaceEffect
  split
  case h_1 heq =>
    have ho : b.operation = 1 := BitVec.eq_of_toNat_eq heq
    obtain h | h | h := h
    · exact absurd ho h.1
    · rw [finOf_of_le h]
    · rw [h.2]
      cases finOf 16 b.slot.toNat <;> rfl
  case h_2 heq =>
    have ho : b.operation = 2 := BitVec.eq_of_toNat_eq heq
    obtain h | h | h := h
    · exact absurd ho h.2
    · rw [finOf_of_le h, Option.map_none]
    · exact absurd (ho.symm.trans h.1) (by decide)
  case h_3 => rfl

end

/-- Settles O43: what the body asks for, by its operation and slot, is what the work does. -/
theorem surfaceWorkLoadsOrClearsSlot : Obligations.SurfaceWorkLoadsOrClearsSlot := by
  unfold Obligations.SurfaceWorkLoadsOrClearsSlot
  intro c j b s hs hj hp he hb
  rw [exec_surfaceWork hs hj hp he hb, State.doSurface]
  refine ⟨fun slot r ho hl hr => ?load, fun slot ho hl => ?clear, fun h hf ha => ?fault⟩
  case load => rw [surfaceEffect_load ho hl hr]
  case clear => rw [surfaceEffect_clear ho hl]
  case fault =>
    rw [surfaceEffect_none h]
    dsimp only
    rw [State.recordFault_first hj hf ha]
    rfl

/-! ## COEFF (06 R122) -/

section
variable {b : CoeffBody}

theorem decodeOrder_of_le {v : Nat} (h : v ≤ 1) : decodeOrder v = some (if v = 0 then .rgb else .bgr) := by
  obtain rfl | rfl : v = 0 ∨ v = 1 := by omega
  · rfl
  · rfl

theorem decodeOrder_of_gt {v : Nat} (h : 2 ≤ v) : decodeOrder v = none := by
  unfold decodeOrder
  split
  · omega
  · omega
  · rfl

theorem coeffEffect_in_range {set : Fin 4} (hs : b.set.toNat = set.val) (ho : b.order.toNat ≤ 1)
    (hk : b.k1.toNat ≤ 4095 ∧ b.k2.toNat ≤ 4095 ∧ b.k3.toNat ≤ 4095 ∧ b.k4.toNat ≤ 4095) :
    coeffEffect b = some (set, {
      k1 := b.k1.toNat, k2 := b.k2.toNat, k3 := b.k3.toNat, k4 := b.k4.toNat
      order := if b.order = 0 then .rgb else .bgr }) := by
  have hz : b.order.toNat = 0 ↔ b.order = 0 := BitVec.toNat_inj (y := 0#8)
  unfold coeffEffect
  rw [hs, finOf_val, decodeOrder_of_le ho]
  dsimp only
  rw [if_pos hk]
  simp only [hz]

theorem coeffEffect_out_of_range (h : 4 ≤ b.set.toNat ∨ 2 ≤ b.order.toNat ∨ 4096 ≤ b.k1.toNat ∨ 4096 ≤ b.k2.toNat ∨
    4096 ≤ b.k3.toNat ∨ 4096 ≤ b.k4.toNat) : coeffEffect b = none := by
  unfold coeffEffect
  obtain h | h | h := h
  · rw [finOf_of_le h]
  · rw [decodeOrder_of_gt h]
    cases finOf 4 b.set.toNat <;> rfl
  · have hk : ¬ (b.k1.toNat ≤ 4095 ∧ b.k2.toNat ≤ 4095 ∧ b.k3.toNat ≤ 4095 ∧ b.k4.toNat ≤ 4095) := by omega
    cases finOf 4 b.set.toNat with
    | none => rfl
    | some set =>
      cases decodeOrder b.order.toNat with
      | none => rfl
      | some order => exact if_neg hk

end

/-- Settles O45: the body in range gives the set, and any field out of it gives nothing. -/
theorem coeffWorkReplacesSet : Obligations.CoeffWorkReplacesSet := by
  unfold Obligations.CoeffWorkReplacesSet
  intro c j b s hs hj hp he hb
  rw [exec_coeffWork hs hj hp he hb, State.doCoeff]
  refine ⟨fun set hl ho hk => ?inside, fun h hf ha => ?outside⟩
  case inside => rw [coeffEffect_in_range hl ho hk]
  case outside =>
    rw [coeffEffect_out_of_range h]
    dsimp only
    rw [State.recordFault_first hj hf ha]
    rfl

/-! ## Pages and their addresses (00 section 0.6.3, 08 R139) -/

/-- Bits 63 to 47 alike: the address is in the lower or in the upper half. -/
theorem wellFormed48_iff (a : Addr64) :
    wellFormed48 a = true ↔ a.toNat < 2 ^ 47 ∨ 2 ^ 64 - 2 ^ 47 ≤ a.toNat := by
  have ha := a.isLt
  have hones : a.extractLsb' 47 17 = BitVec.allOnes 17 ↔ a.toNat / 2 ^ 47 % 2 ^ 17 = 2 ^ 17 - 1 := by
    rw [← BitVec.toNat_inj, BitVec.extractLsb'_toNat, Nat.shiftRight_eq_div_pow, BitVec.toNat_allOnes]
  unfold wellFormed48
  rw [Bool.or_eq_true, beq_iff_eq, beq_iff_eq, hones, extractLsb'_eq_zero_iff]
  omega

/-- The bytes of a page, by its number (08 Table 8-2). -/
theorem decodePageSize_eq_some_iff {v : Nat} {z : PageSize} :
    decodePageSize v = some z ↔ [2 ^ 12, 2 ^ 16, 2 ^ 21, 2 ^ 30][v]? = some z.bytes := by
  unfold decodePageSize
  split
  · cases z <;> simp [PageSize.bytes]
  · cases z <;> simp [PageSize.bytes]
  · cases z <;> simp [PageSize.bytes]
  · cases z <;> simp [PageSize.bytes]
  · have : 4 ≤ v := by
      refine Nat.le_of_not_lt fun hlt => ?_
      obtain rfl | rfl | rfl | rfl : v = 0 ∨ v = 1 ∨ v = 2 ∨ v = 3 := by omega
      all_goals contradiction
    rw [List.getElem?_eq_none (by simpa using this)]
    simp

theorem PageSize.bytes_dvd (z : PageSize) : z.bytes ∣ 2 ^ 47 := by
  cases z <;> decide

/-- An aligned page, both ends of it well formed, lies in one half. -/
theorem page_wellFormed_iff (z : PageSize) (a : Addr64) (h : a.toNat % z.bytes = 0) :
    (wellFormed48 a = true ∧ wellFormed48 (a + BitVec.ofNat 64 (z.bytes - 1)) = true) ↔
      a.toNat + z.bytes ≤ 2 ^ 47 ∨ 2 ^ 64 - 2 ^ 47 ≤ a.toNat := by
  have ha := a.isLt
  rw [wellFormed48_iff, wellFormed48_iff, BitVec.toNat_add, BitVec.toNat_ofNat]
  cases z <;> simp only [PageSize.bytes] at h ⊢ <;> omega

/-! ## The entry that a LOAD body gives (08 R146) -/

section
variable {b : MapBody} {e : MapEntry}

theorem checkMapEntry_eq_some_iff : checkMapEntry b = some e ↔
    (b.context.toNat = e.context.val ∧ (b.shared.toNat ∈ [0, 1] ∧ e.shared = (b.shared.toNat == 1)) ∧
      [2 ^ 12, 2 ^ 16, 2 ^ 21, 2 ^ 30][b.size.toNat]? = some e.size.bytes ∧
      (b.readRight.toNat ∈ [0, 1] ∧ e.readRight = (b.readRight.toNat == 1)) ∧
      (b.writeRight.toNat ∈ [0, 1] ∧ e.writeRight = (b.writeRight.toNat == 1))) ∧
    (b.effectiveBase.toNat % e.size.bytes = 0 ∧
      (b.effectiveBase.toNat + e.size.bytes ≤ 2 ^ 47 ∨ 2 ^ 64 - 2 ^ 47 ≤ b.effectiveBase.toNat) ∧
      b.physicalBase.toNat % e.size.bytes = 0 ∧ b.physicalBase.toNat < 2 ^ 40) ∧
    e.effectiveBase = b.effectiveBase ∧ e.physicalBase = b.physicalBase.extractLsb' 0 40 := by
  rw [← decodeBit_eq_some_iff, ← decodeBit_eq_some_iff, ← decodeBit_eq_some_iff, ← decodePageSize_eq_some_iff,
    ← finOf_eq_some_iff]
  unfold checkMapEntry
  constructor
  · intro h
    split at h
    case h_2 => cases h
    case h_1 context shared size readRight writeRight hc hs hz hr hw =>
      split at h
      case isFalse => cases h
      case isTrue hok =>
        obtain ⟨halign, hlow, hhigh, hpa, hpl⟩ := hok
        obtain rfl := Option.some.inj h
        exact ⟨⟨hc, hs, hz, hr, hw⟩, ⟨halign, (page_wellFormed_iff size _ halign).mp ⟨hlow, hhigh⟩, hpa, hpl⟩, rfl, rfl⟩
  · rintro ⟨⟨hc, hs, hz, hr, hw⟩, ⟨halign, hhalf, hpa, hpl⟩, heb, hpb⟩
    obtain ⟨hlow, hhigh⟩ := (page_wellFormed_iff e.size _ halign).mpr hhalf
    rw [hc, hs, hz, hr, hw]
    dsimp only
    rw [if_pos ⟨halign, hlow, hhigh, hpa, hpl⟩, ← heb, ← hpb]

theorem checkMapEntry_isSome_iff : (checkMapEntry b).isSome = true ↔
    b.context.toNat ≤ 15 ∧ b.shared.toNat ≤ 1 ∧ b.readRight.toNat ≤ 1 ∧ b.writeRight.toNat ≤ 1 ∧
    ∃ size ∈ [2 ^ 12, 2 ^ 16, 2 ^ 21, 2 ^ 30], [2 ^ 12, 2 ^ 16, 2 ^ 21, 2 ^ 30][b.size.toNat]? = some size ∧
      b.effectiveBase.toNat % size = 0 ∧
      (b.effectiveBase.toNat + size ≤ 2 ^ 47 ∨ 2 ^ 64 - 2 ^ 47 ≤ b.effectiveBase.toNat) ∧
      b.physicalBase.toNat % size = 0 ∧ b.physicalBase.toNat < 2 ^ 40 := by
  have bit : ∀ v : Nat, v ∈ [0, 1] ↔ v ≤ 1 := fun v => by simp; omega
  rw [Option.isSome_iff_exists]
  constructor
  · rintro ⟨e, he⟩
    obtain ⟨⟨hc, hs, hz, hr, hw⟩, hpage, -⟩ := checkMapEntry_eq_some_iff.mp he
    exact ⟨by omega, (bit _).mp hs.1, (bit _).mp hr.1, (bit _).mp hw.1, _, List.mem_of_getElem? hz, hz, hpage⟩
  · rintro ⟨hc, hs, hr, hw, size, hmem, hz, hpage⟩
    obtain ⟨z, rfl⟩ : ∃ z : PageSize, size = z.bytes := by
      simp only [List.mem_cons, List.not_mem_nil, or_false] at hmem
      obtain rfl | rfl | rfl | rfl := hmem
      · exact ⟨.size4K, rfl⟩
      · exact ⟨.size64K, rfl⟩
      · exact ⟨.size2M, rfl⟩
      · exact ⟨.size1G, rfl⟩
    exact ⟨{ context := ⟨b.context.toNat, by omega⟩, shared := b.shared.toNat == 1, size := z,
             effectiveBase := b.effectiveBase, physicalBase := b.physicalBase.extractLsb' 0 40,
             readRight := b.readRight.toNat == 1, writeRight := b.writeRight.toNat == 1 },
      checkMapEntry_eq_some_iff.mpr ⟨⟨rfl, ⟨(bit _).mpr hs, rfl⟩, hz, ⟨(bit _).mpr hr, rfl⟩, ⟨(bit _).mpr hw, rfl⟩⟩,
        hpage, rfl, rfl⟩⟩

theorem byte_eq_one_iff (v : Byte) : (v.toNat == 1) = true ↔ v = 1 := by
  rw [beq_iff_eq]
  exact BitVec.toNat_inj (y := 1#8)

theorem checkMapEntry_fields (h : checkMapEntry b = some e) :
    e.context.val = b.context.toNat ∧ (e.shared = true ↔ b.shared = 1) ∧
    [2 ^ 12, 2 ^ 16, 2 ^ 21, 2 ^ 30][b.size.toNat]? = some e.size.bytes ∧ e.effectiveBase = b.effectiveBase ∧
    e.physicalBase.toNat = b.physicalBase.toNat ∧ (e.readRight = true ↔ b.readRight = 1) ∧
    (e.writeRight = true ↔ b.writeRight = 1) := by
  obtain ⟨⟨hc, ⟨-, hs⟩, hz, ⟨-, hr⟩, -, hw⟩, ⟨-, -, -, hpl⟩, heb, hpb⟩ := checkMapEntry_eq_some_iff.mp h
  rw [hs, hr, hw, hpb, byte_eq_one_iff, byte_eq_one_iff, byte_eq_one_iff]
  refine ⟨hc.symm, Iff.rfl, hz, heb, ?_, Iff.rfl, Iff.rfl⟩
  rw [BitVec.extractLsb'_toNat, Nat.shiftRight_zero, Nat.mod_eq_of_lt hpl]

theorem decodeMapOp_eq_some_iff (v : Byte) (op : MapOp) : decodeMapOp v.toNat = some op ↔
    v = (match op with
      | .load => 1
      | .invalidate => 2) := by
  rw [← BitVec.toNat_inj]
  unfold decodeMapOp
  split <;> cases op <;> simp_all

theorem mapEffect_load_iff (slot : EntryId) : mapEffect b = some (slot, some e) ↔
    b.operation = 1 ∧ b.slot.toNat = slot.val ∧ checkMapEntry b = some e := by
  rw [← decodeMapOp_eq_some_iff b.operation .load, ← finOf_eq_some_iff]
  unfold mapEffect
  split
  case h_1 slot' hop hslot =>
    rw [hop, hslot, Option.map_eq_some_iff, Option.some.injEq]
    constructor
    · rintro ⟨o, ho, heq⟩
      obtain ⟨hs, hentry⟩ := Prod.mk.inj heq
      obtain rfl := Option.some.inj hentry
      exact ⟨rfl, congrArg some hs, ho⟩
    · rintro ⟨-, hs, he⟩
      obtain rfl := Option.some.inj hs
      exact ⟨e, he, rfl⟩
  case h_2 hop hslot => simp [hop]
  case h_3 hload hinv =>
    exact ⟨nofun, fun h => absurd h.2.1 (hload _ h.1)⟩

theorem mapEffect_invalidate_iff (slot : EntryId) :
    mapEffect b = some (slot, none) ↔ b.operation = 2 ∧ b.slot.toNat = slot.val := by
  rw [← decodeMapOp_eq_some_iff b.operation .invalidate, ← finOf_eq_some_iff]
  unfold mapEffect
  split
  case h_1 hop hslot => simp [hop]
  case h_2 hop hslot => simp [hop, hslot]
  case h_3 hload hinv =>
    exact ⟨nofun, fun h => absurd h.2 (hinv _ h.1)⟩

theorem mapEffect_eq_none_iff : mapEffect b = none ↔ (b.operation ≠ 1 ∧ b.operation ≠ 2) ∨ 32 ≤ b.slot.toNat ∨
    (b.operation = 1 ∧ checkMapEntry b = none) := by
  have hload : decodeMapOp b.operation.toNat = some .load ↔ b.operation = 1 := decodeMapOp_eq_some_iff _ .load
  have hinv : decodeMapOp b.operation.toNat = some .invalidate ↔ b.operation = 2 := decodeMapOp_eq_some_iff _ .invalidate
  have hslot : 32 ≤ b.slot.toNat ↔ finOf 32 b.slot.toNat = none :=
    ⟨finOf_of_le, fun h => Nat.le_of_not_lt fun hlt => by rw [show b.slot.toNat = (Fin.mk _ hlt).val from rfl, finOf_val] at h; cases h⟩
  rw [hslot, ne_eq, ne_eq, ← hload, ← hinv]
  unfold mapEffect
  cases decodeMapOp b.operation.toNat with
  | none => simp
  | some op =>
    cases finOf 32 b.slot.toNat with
    | none => cases op <;> simp
    | some slot => cases op <;> simp

end

/-! ## A MAP operation carried out (08 R149 to R151) -/

/-- 08 R150: the new contents of a slot share an address with another valid entry in some context. -/
def Overlaps (entries : Vector (Option MapEntry) 32) (slot : EntryId) (new : Option MapEntry) : Prop :=
  ∃ e m o context x, new = some e ∧ m ≠ slot ∧ entries[m] = some o ∧ o.matches context x = true ∧
    e.matches context x = true

theorem overlapsTable_iff (entries : Vector (Option MapEntry) 32) (slot : EntryId) (e : MapEntry) :
    overlapsTable entries slot e = true ↔ Overlaps entries slot (some e) := by
  unfold overlapsTable Overlaps
  rw [List.any_eq_true]
  constructor
  · rintro ⟨m, -, hm⟩
    rw [Bool.and_eq_true, bne_iff_ne] at hm
    obtain ⟨hne, hm⟩ := hm
    cases ho : entries[m] with
    | none =>
      rw [ho] at hm
      cases hm
    | some o =>
      rw [ho] at hm
      obtain ⟨context, x, hx, hy⟩ := (e.conflicts_iff o).mp hm
      exact ⟨e, m, o, context, x, rfl, hne, ho, hx, hy⟩
  · rintro ⟨e', m, o, context, x, he, hne, ho, hx, hy⟩
    obtain rfl := Option.some.inj he
    refine ⟨m, List.mem_finRange m, ?_⟩
    rw [ho]
    exact Bool.and_eq_true_iff.mpr ⟨bne_iff_ne.mpr hne, (MapEntry.conflicts_iff _ o).mpr ⟨context, x, hx, hy⟩⟩

theorem mapCarriedOut_of_overlaps {entries : Vector (Option MapEntry) 32} {slot : EntryId} {new : Option MapEntry}
    (h : Overlaps entries slot new) : mapCarriedOut entries slot new = none := by
  obtain ⟨e, m, o, context, x, rfl, hrest⟩ := h
  exact if_pos ((overlapsTable_iff _ _ _).mpr ⟨e, m, o, context, x, rfl, hrest⟩)

theorem mapCarriedOut_of_not_overlaps {entries : Vector (Option MapEntry) 32} {slot : EntryId} {new : Option MapEntry}
    (h : ¬ Overlaps entries slot new) : mapCarriedOut entries slot new = some (entries.set slot new) := by
  cases new with
  | none => rfl
  | some e => exact if_neg fun ht => h ((overlapsTable_iff _ _ _).mp ht)

section
variable {s : State} {c : ChainId} {slot : EntryId} {new : Option MapEntry}

theorem State.carryOutMap_of_overlaps (h : Overlaps s.entries slot new) :
    s.carryOutMap c slot new = s.recordFault c .badEntry := by
  unfold State.carryOutMap
  rw [mapCarriedOut_of_overlaps h]

theorem State.carryOutMap_of_not_overlaps (h : ¬ Overlaps s.entries slot new) :
    s.carryOutMap c slot new = { s with entries := s.entries.set slot new } := by
  unfold State.carryOutMap
  rw [mapCarriedOut_of_not_overlaps h]

theorem State.pinned_iff (m : EntryId) : s.pinned m = true ↔ s.entries[m] ≠ none ∧ 0 < s.pinCount m := by
  unfold State.pinned
  rw [Bool.and_eq_true, decide_eq_true_eq, Option.isSome_iff_ne_none]

theorem State.doMap_of_pinned (h : s.entries[slot] ≠ none ∧ 0 < s.pinCount slot) :
    s.doMap c slot new = { s with pendingMark := some slot } :=
  if_pos ((State.pinned_iff slot).mpr h)

theorem State.doMap_of_unpinned (h : s.entries[slot] = none ∨ s.pinCount slot = 0) :
    s.doMap c slot new = (s.carryOutMap c slot new).finishWork c :=
  if_neg fun hp => by
    obtain ⟨hv, hn⟩ := (State.pinned_iff slot).mp hp
    exact h.elim hv (Nat.ne_of_gt hn)

end

/-- Settles O46: an unpinned slot is carried out and ended, a pinned one marked; the checks of the body field by field. -/
theorem mapWorkChangesOrMarksEntry : Obligations.MapWorkChangesOrMarksEntry := by
  unfold Obligations.MapWorkChangesOrMarksEntry
  refine ⟨fun c j b slot new s hs hn hj hp he hb h => ?work, fun b => checkMapEntry_isSome_iff,
    fun b e => checkMapEntry_fields,
    fun b => ⟨fun slot e => mapEffect_load_iff slot, fun slot => mapEffect_invalidate_iff slot, mapEffect_eq_none_iff⟩⟩
  rw [exec_mapWork hs hn hj hp he hb h]
  refine ⟨fun hu ho => ?changed, fun hu ho hf ha => ?overlapping, fun hpin => congrArg Host.Outcome.next (State.doMap_of_pinned hpin)⟩
  case changed =>
    have hno : ¬ Overlaps s.entries slot new := fun ⟨e, m, o, context, x, hnew, hne, hm, hx⟩ =>
      ho e hnew m o hne hm context x hx
    rw [State.doMap_of_unpinned hu, State.carryOutMap_of_not_overlaps hno]
  case overlapping =>
    rw [State.doMap_of_unpinned hu, State.carryOutMap_of_overlaps ho, State.recordFault_first hj hf ha]
    rfl

end Sys2Proof.Machine
end

section
/-! PROOFS. The checks of a surface LOAD (03 R53 to R56). -/

namespace Sys2Proof.Machine

open Sys2Proof.Statements

/-! ## The one-bit fields (11 Table 11-10) -/

theorem byte_eq_one_toNat (v : Byte) : v = 1 ↔ v.toNat = 1 := (BitVec.toNat_inj (y := 1#8)).symm

/-- A byte that says one of two things. -/
theorem decodeBit_map_eq_some_iff {α : Type} (v : Byte) (no yes x : α) :
    (decodeBit v.toNat).map (fun b => if b then yes else no) = some x ↔ v.toNat ≤ 1 ∧ x = if v = 1 then yes else no := by
  simp only [byte_eq_one_toNat]
  unfold decodeBit
  split
  case h_1 h => simp [h, eq_comm]
  case h_2 h => simp [h, eq_comm]
  case h_3 h0 h1 =>
    exact ⟨nofun, fun h => absurd h.1 (Nat.not_le.mpr (Nat.one_lt_iff_ne_zero_and_ne_one.mpr ⟨h0, h1⟩))⟩

theorem decodeTrailer_eq_some_iff (v : Byte) (t : Trailer) :
    decodeTrailer v.toNat = some t ↔ v.toNat ≤ 1 ∧ t = if v = 1 then .crc else .none :=
  have h : ∀ n, decodeTrailer n = (decodeBit n).map fun b => if b then .crc else .none
    | 0 => rfl
    | 1 => rfl
    | _ + 2 => rfl
  (h _).symm ▸ decodeBit_map_eq_some_iff v _ _ t

theorem decodeSampleKind_eq_some_iff (v : Byte) (k : SampleKind) :
    decodeSampleKind v.toNat = some k ↔ v.toNat ≤ 1 ∧ k = if v = 1 then .paired else .plain :=
  have h : ∀ n, decodeSampleKind n = (decodeBit n).map fun b => if b then .paired else .plain
    | 0 => rfl
    | 1 => rfl
    | _ + 2 => rfl
  (h _).symm ▸ decodeBit_map_eq_some_iff v _ _ k

theorem decodeChromaOrder_eq_some_iff (v : Byte) (o : ChromaOrder) :
    decodeChromaOrder v.toNat = some o ↔ v.toNat ≤ 1 ∧ o = if v = 1 then .vFirst else .uFirst :=
  have h : ∀ n, decodeChromaOrder n = (decodeBit n).map fun b => if b then .vFirst else .uFirst
    | 0 => rfl
    | 1 => rfl
    | _ + 2 => rfl
  (h _).symm ▸ decodeBit_map_eq_some_iff v _ _ o

theorem decodeDirection_eq_some_iff (v : Byte) (d : Direction) :
    decodeDirection v.toNat = some d ↔ v.toNat ≤ 1 ∧ d = if v = 1 then .descend else .ascend :=
  have h : ∀ n, decodeDirection n = (decodeBit n).map fun b => if b then .descend else .ascend
    | 0 => rfl
    | 1 => rfl
    | _ + 2 => rfl
  (h _).symm ▸ decodeBit_map_eq_some_iff v _ _ d

theorem laneWidthDefined_iff (w : Nat) : laneWidthDefined w = true ↔ w ∈ [8, 10, 12, 14, 16, 24, 32] := by
  simp [laneWidthDefined, or_assoc]

/-! ## The tap map (03 R55) -/

/-- 03 R55: the fields of a tap entry are in range. -/
def TapBody.Defined (t : TapBody) : Prop :=
  t.origin.toNat ≤ 16383 ∧ 1 ≤ t.step.toNat ∧ t.step.toNat ≤ 8 ∧ t.direction.toNat ≤ 1

/-- The tap of an entry that is in range. -/
def TapBody.tap (t : TapBody) : Tap where
  origin := t.origin.toNat
  step := t.step.toNat
  direction := if t.direction = 1 then .descend else .ascend

theorem checkTap_eq_some_iff (t : TapBody) (tap : Tap) : checkTap t = some tap ↔ t.Defined ∧ tap = t.tap := by
  unfold checkTap TapBody.Defined
  cases hd : decodeDirection t.direction.toNat with
  | none =>
    refine ⟨nofun, fun ⟨⟨_, _, _, h⟩, _⟩ => ?_⟩
    have := (decodeDirection_eq_some_iff _ _).mpr ⟨h, rfl⟩
    rw [hd] at this
    cases this
  | some direction =>
    obtain ⟨hle, rfl⟩ := (decodeDirection_eq_some_iff _ _).mp hd
    dsimp only
    by_cases h : t.origin.toNat ≤ 16383 ∧ 1 ≤ t.step.toNat ∧ t.step.toNat ≤ 8
    · obtain ⟨ho, hs, hs'⟩ := h
      rw [if_pos ⟨ho, hs, hs'⟩]
      exact ⟨fun h => ⟨⟨ho, hs, hs', hle⟩, (Option.some.inj h).symm⟩, fun h => congrArg some h.2.symm⟩
    · rw [if_neg h]
      exact ⟨nofun, fun ⟨⟨ho, hs, hs', _⟩, _⟩ => absurd ⟨ho, hs, hs'⟩ h⟩

theorem checkTaps_eq_some_iff (l : List TapBody) (taps : List Tap) :
    checkTaps l = some taps ↔ (∀ t ∈ l, t.Defined) ∧ taps = l.map TapBody.tap := by
  induction l generalizing taps with
  | nil => simp [checkTaps, eq_comm]
  | cons t rest ih =>
    rw [List.forall_mem_cons, List.map_cons, checkTaps]
    split
    case h_1 tap more ht hm =>
      obtain ⟨htap, rfl⟩ := (checkTap_eq_some_iff _ _).mp ht
      obtain ⟨hmore, rfl⟩ := (ih _).mp hm
      exact ⟨fun h => ⟨⟨htap, hmore⟩, (Option.some.inj h).symm⟩, fun h => congrArg some h.2.symm⟩
    case h_2 hno =>
      exact ⟨nofun, fun ⟨⟨ht, hm⟩, _⟩ => absurd ((ih _).mpr ⟨hm, rfl⟩) (hno _ _ ((checkTap_eq_some_iff _ _).mpr ⟨ht, rfl⟩))⟩

section
variable {b : SurfaceBody}

/-- 03 R55: the tap map of the body is in range. -/
def TapMapDefined (b : SurfaceBody) : Prop :=
  1 ≤ b.tapCount.toNat ∧ b.tapCount.toNat ≤ 8 ∧ b.tapCount.toNat ≤ b.lanes.toNat ∧
  b.rotation.toNat < b.tapCount.toNat ∧ 1 ≤ b.pixels.toNat ∧ b.pixels.toNat ≤ 16384 ∧
  ∀ t ∈ b.taps.take b.tapCount.toNat, t.Defined

/-- The tap map of a body whose tap map is in range. -/
def tapMapOf (b : SurfaceBody) : TapMap where
  rotation := b.rotation.toNat
  pixels := b.pixels.toNat
  taps := (b.taps.take b.tapCount.toNat).map TapBody.tap

theorem checkTapMap_eq_some_iff (m : TapMap) : checkTapMap b = some m ↔ TapMapDefined b ∧ m = tapMapOf b := by
  unfold checkTapMap TapMapDefined
  dsimp only
  split
  case isTrue h =>
    obtain ⟨h1, h8, hl, hr, hp, hp'⟩ := h
    rw [Option.map_eq_some_iff]
    constructor
    · rintro ⟨taps, ht, rfl⟩
      obtain ⟨htaps, rfl⟩ := (checkTaps_eq_some_iff _ _).mp ht
      exact ⟨⟨h1, h8, hl, hr, hp, hp', htaps⟩, rfl⟩
    · rintro ⟨⟨-, -, -, -, -, -, ht⟩, rfl⟩
      exact ⟨_, (checkTaps_eq_some_iff _ _).mpr ⟨ht, rfl⟩, rfl⟩
  case isFalse h =>
    exact ⟨nofun, fun ⟨⟨h1, h8, hl, hr, hp, hp', _⟩, _⟩ => absurd ⟨h1, h8, hl, hr, hp, hp'⟩ h⟩

theorem checkTapField_eq_some_iff (m : Option TapMap) : checkTapField b = some m ↔
    b.tapMapPresent.toNat ≤ 1 ∧ (b.tapMapPresent = 1 → TapMapDefined b) ∧
      m = if b.tapMapPresent = 1 then some (tapMapOf b) else none := by
  simp only [byte_eq_one_toNat]
  unfold checkTapField
  split
  case h_1 h => simp [h, eq_comm]
  case h_2 h =>
    simp only [h, Option.map_eq_some_iff, checkTapMap_eq_some_iff, Nat.le_refl, true_and, forall_const, if_true]
    exact ⟨fun ⟨_, ⟨hd, he⟩, hm⟩ => ⟨hd, by rw [← hm, he]⟩, fun ⟨hd, hm⟩ => ⟨_, ⟨hd, rfl⟩, hm.symm⟩⟩
  case h_3 h0 h1 =>
    exact ⟨nofun, fun h => absurd h.1 (Nat.not_le.mpr (Nat.one_lt_iff_ne_zero_and_ne_one.mpr ⟨h0, h1⟩))⟩

/-! ## The surface record (03 R53, R54) -/

/-- The payload of the body's lanes. -/
def payloadOf (b : SurfaceBody) : Nat := payloadBytes b.lanes.toNat b.laneWidth.toNat

/-- The trailer that the body asks for. -/
def trailerOf (b : SurfaceBody) : Trailer := if b.trailer = 1 then .crc else .none

/-- 03 R53 to R55: the body passes every check of a LOAD. -/
structure SurfaceDefined (b : SurfaceBody) : Prop where
  trailer : b.trailer.toNat ≤ 1
  sampleKind : b.sampleKind.toNat ≤ 1
  chromaOrder : b.chromaOrder.toNat ≤ 1
  present : b.tapMapPresent.toNat ≤ 1
  tapMap : b.tapMapPresent = 1 → TapMapDefined b
  fields : b.slot.toNat ≤ 15 ∧ wellFormed48 b.base ∧ 1 ≤ b.pitch.toNat ∧ b.pitch.toNat ≤ 16777216
    ∧ 1 ≤ b.lineCount.toNat ∧ laneWidthDefined b.laneWidth.toNat ∧ 1 ≤ b.lanes.toNat ∧ b.lanes.toNat ≤ 16384
    ∧ b.tableBase.toNat ≤ 15 ∧ payloadOf b ≤ 16384 ∧ footprintOf (trailerOf b) (payloadOf b) ≤ b.pitch.toNat
    ∧ ((if b.sampleKind = 1 then .paired else .plain) = SampleKind.paired →
        b.laneWidth.toNat = 16 ∨ b.laneWidth.toNat = 24)

/-- The record of a body that passes every check. -/
def surfaceOf (b : SurfaceBody) : Surface where
  base := b.base
  pitch := b.pitch.toNat
  lineCount := b.lineCount.toNat
  laneWidth := b.laneWidth.toNat
  lanes := b.lanes.toNat
  trailer := trailerOf b
  sampleKind := if b.sampleKind = 1 then .paired else .plain
  chromaOrder := if b.chromaOrder = 1 then .vFirst else .uFirst
  tableBase := b.tableBase.toNat
  tapMap := if b.tapMapPresent = 1 then some (tapMapOf b) else none
  payload := payloadOf b
  trailerOffset := trailerOffsetOf (payloadOf b)
  footprint := footprintOf (trailerOf b) (payloadOf b)

theorem checkSurface_eq_some_iff (r : Surface) : checkSurface b = some r ↔ SurfaceDefined b ∧ r = surfaceOf b := by
  unfold checkSurface
  split
  case h_1 trailer kind order tapMap ht hk ho hm =>
    obtain ⟨htrailer, rfl⟩ := (decodeTrailer_eq_some_iff _ _).mp ht
    obtain ⟨hkind, rfl⟩ := (decodeSampleKind_eq_some_iff _ _).mp hk
    obtain ⟨horder, rfl⟩ := (decodeChromaOrder_eq_some_iff _ _).mp ho
    obtain ⟨hpresent, hmap, rfl⟩ := (checkTapField_eq_some_iff _).mp hm
    dsimp only
    exact Option.ite_none_right_eq_some.trans
      ⟨fun ⟨h, hr⟩ => ⟨⟨htrailer, hkind, horder, hpresent, hmap, h⟩, (Option.some.inj hr).symm⟩,
        fun ⟨hd, hr⟩ => ⟨hd.fields, congrArg some hr.symm⟩⟩
  case h_2 hno =>
    exact ⟨nofun, fun ⟨hd, _⟩ => (hno _ _ _ _ ((decodeTrailer_eq_some_iff _ _).mpr ⟨hd.trailer, rfl⟩)
      ((decodeSampleKind_eq_some_iff _ _).mpr ⟨hd.sampleKind, rfl⟩)
      ((decodeChromaOrder_eq_some_iff _ _).mpr ⟨hd.chromaOrder, rfl⟩)
      ((checkTapField_eq_some_iff _).mpr ⟨hd.present, hd.tapMap, rfl⟩)).elim⟩

theorem footprintOf_trailerOf (n : Nat) :
    footprintOf (trailerOf b) n = if b.trailer = 1 then trailerOffsetOf n + 4 else n := by
  unfold trailerOf
  split <;> rfl

theorem surfaceDefined_iff : SurfaceDefined b ↔
    b.slot.toNat ≤ 15 ∧ (b.base.toNat < 2 ^ 47 ∨ 2 ^ 64 - 2 ^ 47 ≤ b.base.toNat) ∧
    1 ≤ b.pitch.toNat ∧ b.pitch.toNat ≤ 16777216 ∧ 1 ≤ b.lineCount.toNat ∧
    b.laneWidth.toNat ∈ [8, 10, 12, 14, 16, 24, 32] ∧ 1 ≤ b.lanes.toNat ∧ b.lanes.toNat ≤ 16384 ∧
    b.trailer.toNat ≤ 1 ∧ b.sampleKind.toNat ≤ 1 ∧ b.chromaOrder.toNat ≤ 1 ∧ b.tableBase.toNat ≤ 15 ∧
    b.tapMapPresent.toNat ≤ 1 ∧ (b.sampleKind = 1 → b.laneWidth = 16 ∨ b.laneWidth = 24) ∧
    payloadOf b ≤ 16384 ∧
    (if b.trailer = 1 then trailerOffsetOf (payloadOf b) + 4 else payloadOf b) ≤ b.pitch.toNat ∧
    (b.tapMapPresent = 1 → TapMapDefined b) := by
  have hkind : ((if b.sampleKind = 1 then SampleKind.paired else .plain) = .paired →
      b.laneWidth.toNat = 16 ∨ b.laneWidth.toNat = 24) ↔ (b.sampleKind = 1 → b.laneWidth = 16 ∨ b.laneWidth = 24) := by
    rw [show b.laneWidth.toNat = 16 ↔ b.laneWidth = 16 from BitVec.toNat_inj (y := 16#8),
      show b.laneWidth.toNat = 24 ↔ b.laneWidth = 24 from BitVec.toNat_inj (y := 24#8)]
    simp
  rw [← wellFormed48_iff, ← laneWidthDefined_iff, ← footprintOf_trailerOf, ← hkind]
  constructor
  · rintro ⟨ht, hk, ho, hp, hm, hs, hb, hpl, hpu, hl, hw, hn, hn', htb, hpay, hf, hsk⟩
    exact ⟨hs, hb, hpl, hpu, hl, hw, hn, hn', ht, hk, ho, htb, hp, hsk, hpay, hf, hm⟩
  · rintro ⟨hs, hb, hpl, hpu, hl, hw, hn, hn', ht, hk, ho, htb, hp, hsk, hpay, hf, hm⟩
    exact ⟨ht, hk, ho, hp, hm, hs, hb, hpl, hpu, hl, hw, hn, hn', htb, hpay, hf, hsk⟩

theorem checkSurface_isSome_iff : (checkSurface b).isSome = true ↔ SurfaceDefined b := by
  rw [Option.isSome_iff_exists]
  exact ⟨fun ⟨r, hr⟩ => ((checkSurface_eq_some_iff r).mp hr).1, fun h => ⟨_, (checkSurface_eq_some_iff _).mpr ⟨h, rfl⟩⟩⟩

theorem TapBody.decide_descend (t : TapBody) : decide (t.tap.direction = .descend) = decide (t.direction = 1) := by
  simp [TapBody.tap]

theorem tapMapOf_taps : (tapMapOf b).taps.map (fun t => decide (t.direction = .descend)) =
    (b.taps.take b.tapCount.toNat).map (fun t => decide (t.direction = 1)) := by
  unfold tapMapOf
  rw [List.map_map]
  exact List.map_congr_left fun t _ => t.decide_descend

end

/-- Settles O44: a body passes exactly when its fields are in range, and gives the record of its fields. -/
theorem surfaceLoadChecks : Obligations.SurfaceLoadChecks := by
  unfold Obligations.SurfaceLoadChecks
  refine ⟨fun b => checkSurface_isSome_iff.trans surfaceDefined_iff, fun b r h => ?_⟩
  obtain ⟨-, rfl⟩ := (checkSurface_eq_some_iff r).mp h
  refine ⟨rfl, rfl, rfl, rfl, rfl, by simp [surfaceOf, trailerOf], by simp [surfaceOf], by simp [surfaceOf], rfl, rfl, rfl,
    footprintOf_trailerOf _, by simp [surfaceOf], fun m hm => ?_⟩
  obtain ⟨-, hm⟩ := Option.ite_none_right_eq_some.mp hm
  obtain rfl := Option.some.inj hm
  exact ⟨rfl, rfl, List.map_map, tapMapOf_taps⟩

end Sys2Proof.Machine
end

section
/-! PROOFS. Pending replacements and the two gates (06 R118 to R121, 08 R145 to R153). -/

namespace Sys2Proof.Machine

open Sys2Proof.Statements

/-! ## Who waits at a gate -/

section
variable {g : TableGate} {r : ReplGate}

theorem TableGate.hasUser_eq_false_iff : g.hasUser = false ↔ ∀ d : ChainId, g.users[d] = false := by
  simp [TableGate.hasUser, mem_allChains]

theorem TableGate.hasUser_iff : g.hasUser = true ↔ ∃ d : ChainId, g.users[d] = true := by
  simp [TableGate.hasUser, mem_allChains]

theorem TableGate.mem_waitingFor {k : TableClaim} {d : ChainId} : d ∈ g.waitingFor k ↔ g.waiting[d] = some k := by
  simp [TableGate.waitingFor, mem_allChains]

theorem TableGate.waitingFor_eq_nil_iff {k : TableClaim} :
    g.waitingFor k = [] ↔ ∀ d : ChainId, g.waiting[d] ≠ some k := by
  rw [List.eq_nil_iff_forall_not_mem]
  exact forall_congr' fun d => not_congr TableGate.mem_waitingFor

theorem TableGate.has_iff {c : ChainId} :
    g.has c = true ↔ g.users[c] = true ∨ g.holder = some c ∨ g.waiting[c] ≠ none := by
  simp [TableGate.has, or_assoc, Option.isSome_iff_ne_none]

theorem ReplGate.has_iff {c : ChainId} : r.has c = true ↔ r.holder = some c ∨ r.waiting[c] = true := by
  simp [ReplGate.has]

theorem ReplGate.mem_waitingClaims {d : ChainId} : d ∈ r.waitingClaims ↔ r.waiting[d] = true := by
  simp [ReplGate.waitingClaims, mem_allChains]

theorem ReplGate.waitingClaims_eq_nil_iff : r.waitingClaims = [] ↔ ∀ d : ChainId, r.waiting[d] = false := by
  rw [List.eq_nil_iff_forall_not_mem]
  exact forall_congr' fun d => (not_congr ReplGate.mem_waitingClaims).trans (Bool.not_eq_true _).to_iff

/-- The waiting chain that comes first is the one the table gate takes. -/
theorem TableGate.bestChain_waitingFor {level : ChainId → Nat} {k : TableClaim} {c : ChainId} (hc : g.waiting[c] = some k)
    (hbest : ∀ d : ChainId, g.waiting[d] = some k → d ≠ c → level c < level d ∨ (level c = level d ∧ c < d)) :
    bestChain level (g.waitingFor k) = some c :=
  (bestChain_eq_some_iff (allChains_filter_increasing _)).mpr
    ⟨TableGate.mem_waitingFor.mpr hc, fun d hd => hbest d (TableGate.mem_waitingFor.mp hd)⟩

theorem ReplGate.bestChain_waitingClaims {level : ChainId → Nat} {c : ChainId} (hc : r.waiting[c] = true)
    (hbest : ∀ d : ChainId, r.waiting[d] = true → d ≠ c → level c < level d ∨ (level c = level d ∧ c < d)) :
    bestChain level r.waitingClaims = some c :=
  (bestChain_eq_some_iff (allChains_filter_increasing _)).mpr
    ⟨ReplGate.mem_waitingClaims.mpr hc, fun d hd => hbest d (ReplGate.mem_waitingClaims.mp hd)⟩

theorem TableGate.bestChain_waitingFor_none {level : ChainId → Nat} {k : TableClaim} :
    bestChain level (g.waitingFor k) = none ↔ ∀ d : ChainId, g.waiting[d] ≠ some k :=
  bestChain_nil_iff.trans TableGate.waitingFor_eq_nil_iff

/-! ## Every LOOKUP claim granted together (06 R120 step 2) -/

theorem TableGate.grantLookups_holder (cs : List ChainId) (g : TableGate) :
    (cs.foldl TableGate.grantLookup g).holder = g.holder := by
  induction cs generalizing g with
  | nil => rfl
  | cons c rest ih => exact (ih (g.grantLookup c)).trans rfl

theorem TableGate.grantLookups_users (cs : List ChainId) (g : TableGate) (d : ChainId) :
    (cs.foldl TableGate.grantLookup g).users[d] = (g.users[d] || decide (d ∈ cs)) := by
  induction cs generalizing g with
  | nil => simp
  | cons c rest ih =>
    rw [List.foldl_cons, ih]
    by_cases hd : c = d
    · subst hd
      simp [TableGate.grantLookup]
    · simp [TableGate.grantLookup, Fin.getElem_fin, Fin.val_ne_of_ne hd, Ne.symm hd]

theorem TableGate.grantLookups_waiting (cs : List ChainId) (g : TableGate) (d : ChainId) :
    (cs.foldl TableGate.grantLookup g).waiting[d] = if d ∈ cs then none else g.waiting[d] := by
  induction cs generalizing g with
  | nil => simp
  | cons c rest ih =>
    rw [List.foldl_cons, ih]
    by_cases hd : c = d
    · subst hd
      simp [TableGate.grantLookup]
    · simp [TableGate.grantLookup, Fin.getElem_fin, Fin.val_ne_of_ne hd, Ne.symm hd]

theorem TableClaim.eq_lookup_of_ne {o : Option TableClaim} (h : o ≠ some .table) (hn : o ≠ some .lookup) : o = none := by
  cases o with
  | none => rfl
  | some k =>
    cases k with
    | table => exact absurd rfl h
    | lookup => exact absurd rfl hn

/-- With no TABLE claim waiting, none waits when all the LOOKUP claims have been granted. -/
theorem TableGate.grantLookups_eq (h : ∀ d : ChainId, g.waiting[d] ≠ some .table) :
    (g.waitingFor .lookup).foldl TableGate.grantLookup g = { g with
      users := Vector.ofFn fun d => g.users[d] || g.waiting[d] == some .lookup
      waiting := Vector.replicate 4 none } := by
  have husers : ((g.waitingFor .lookup).foldl TableGate.grantLookup g).users =
      Vector.ofFn fun d => g.users[d] || g.waiting[d] == some .lookup := by
    refine Vector.ext fun i hi => ?_
    rw [Vector.getElem_ofFn]
    refine (TableGate.grantLookups_users _ g ⟨i, hi⟩).trans (congrArg _ ?_)
    rw [Bool.eq_iff_iff, decide_eq_true_iff, TableGate.mem_waitingFor, beq_iff_eq]
  have hwaiting : ((g.waitingFor .lookup).foldl TableGate.grantLookup g).waiting = Vector.replicate 4 none := by
    refine Vector.ext fun i hi => ?_
    rw [Vector.getElem_replicate]
    refine (TableGate.grantLookups_waiting _ g ⟨i, hi⟩).trans ?_
    by_cases hl : (⟨i, hi⟩ : ChainId) ∈ g.waitingFor .lookup
    · exact if_pos hl
    · rw [if_neg hl]
      exact TableClaim.eq_lookup_of_ne (h ⟨i, hi⟩) fun hd => hl (TableGate.mem_waitingFor.mpr hd)
  rw [← husers, ← hwaiting, ← TableGate.grantLookups_holder (g.waitingFor .lookup) g]

end

section
variable {s : State} {c : ChainId}

/-! ## What a gate serves -/

theorem State.serveTableGate_of_held (h : s.tableGate.holder ≠ none) : s.serveTableGate = s := if_neg h

theorem State.serveTableGate_of_claim (h : s.tableGate.holder = none)
    (hc : bestChain s.level (s.tableGate.waitingFor .table) = some c) : s.serveTableGate =
      if s.tableGate.hasUser then s else State.admitJob { s with tableGate := s.tableGate.grantTable c } c := by
  unfold State.serveTableGate
  rw [if_pos h, hc]

theorem State.serveTableGate_of_users (hw : ∃ d : ChainId, s.tableGate.waiting[d] = some .table)
    (hu : ∃ d : ChainId, s.tableGate.users[d] = true) : s.serveTableGate = s := by
  by_cases h : s.tableGate.holder = none
  · cases hb : bestChain s.level (s.tableGate.waitingFor .table) with
    | none =>
      obtain ⟨d, hd⟩ := hw
      exact absurd hd (TableGate.bestChain_waitingFor_none.mp hb d)
    | some c => rw [State.serveTableGate_of_claim h hb, if_pos (TableGate.hasUser_iff.mpr hu)]
  · exact State.serveTableGate_of_held h

theorem State.serveTableGate_of_lookups (h : s.tableGate.holder = none)
    (hw : ∀ d : ChainId, s.tableGate.waiting[d] ≠ some .table) : s.serveTableGate =
      (allChains.filter fun d => s.tableGate.waiting[d] = some .lookup).foldl State.admitJob
        { s with tableGate := { s.tableGate with
          users := Vector.ofFn fun d => s.tableGate.users[d] || s.tableGate.waiting[d] == some .lookup
          waiting := Vector.replicate 4 none } } := by
  have hlist : s.tableGate.waitingFor .lookup = allChains.filter fun d => s.tableGate.waiting[d] = some .lookup :=
    List.filter_congr fun d _ => by rw [Bool.eq_iff_iff, decide_eq_true_iff, beq_iff_eq]
  unfold State.serveTableGate
  rw [if_pos h, TableGate.bestChain_waitingFor_none.mpr hw]
  dsimp only
  unfold State.grantLookups
  dsimp only
  rw [TableGate.grantLookups_eq hw, hlist]

theorem State.serveReplGate_of_nothing
    (h : s.replGate.holder ≠ none ∨ ∀ d : ChainId, s.replGate.waiting[d] = false) : s.serveReplGate = s := by
  unfold State.serveReplGate
  by_cases hh : s.replGate.holder = none
  · rw [if_pos hh, bestChain_nil_iff.mpr (ReplGate.waitingClaims_eq_nil_iff.mpr (h.resolve_left (not_not_intro hh)))]
  · exact if_neg hh

theorem State.serveReplGate_of_claim (h : s.replGate.holder = none)
    (hc : bestChain s.level s.replGate.waitingClaims = some c) :
    s.serveReplGate = State.admitJob { s with replGate := s.replGate.grant c } c := by
  unfold State.serveReplGate
  rw [if_pos h, hc]

/-! ## A pending replacement (08 R152, R153) -/

theorem State.pinCount_pos_iff (m : EntryId) :
    0 < s.pinCount m ↔ ∃ c j, s.job c = some j ∧ j.pins.getLsbD m = true := by
  unfold State.pinCount
  rw [List.length_pos_iff_exists_mem]
  refine exists_congr fun c => ?_
  rw [List.mem_filter]
  cases s.job c with
  | none => simp
  | some j => simp [mem_allChains]

theorem State.afterPinRelease_of_pinned {m : EntryId} (hm : s.pendingMark = some m) (h : 0 < s.pinCount m) :
    s.afterPinRelease = s := by
  unfold State.afterPinRelease
  rw [hm]
  exact if_neg (Nat.ne_of_gt h)

theorem State.afterPinRelease_of_unpinned {m : EntryId} (hm : s.pendingMark = some m) (h : s.pinCount m = 0) :
    s.afterPinRelease = s.completeReplacement := by
  unfold State.afterPinRelease
  rw [hm]
  exact if_pos h

theorem State.completeReplacement_of_holder {j : Job} {b : MapBody} {slot : EntryId} {new : Option MapEntry}
    (hh : s.replGate.holder = some c) (hj : s.job c = some j) (hb : j.body = .map b)
    (he : mapEffect b = some (slot, new)) : s.completeReplacement = (heldTables s).foldl State.tableResolve
      ((State.clearHeld { s.carryOutMap c slot new with pendingMark := none }).finishWork c) := by
  unfold State.completeReplacement
  rw [hh]
  dsimp only
  rw [hj]
  dsimp only
  rw [hb]
  dsimp only
  rw [he]
  rfl

/-- 08 R145, R135: the pins first, then the table gate, then the replacement gate (log 25). -/
theorem State.dropJob_of_job {j : Job} (hj : s.job c = some j) : s.dropJob c =
    State.leaveReplGate (State.leaveTableGate (State.afterPinRelease { s with jobs := s.jobs.set c none }) c) c := by
  unfold State.dropJob
  rw [hj]
  rfl

end

/-- Settles O47: the pin sets, the completion, the drop, and the grants and the service of the gates, each by its rule. -/
theorem pendingReplacementAndGates : Obligations.PendingReplacementAndGates := by
  unfold Obligations.PendingReplacementAndGates
  refine ⟨fun m s => State.pinCount_pos_iff m, fun m s => State.afterPinRelease_of_pinned,
    fun m slot c j b new s hm hp hh hj hb he => ?complete,
    fun c j s hj => ⟨State.dropJob_of_job hj, fun hm ht hr => State.dropJob_of_placeless (.inr ⟨hm, ht, hr⟩)⟩,
    fun c s => ⟨?table, ?lookup, rfl⟩, fun c s => ⟨?leaveTable, ?leaveRepl⟩, fun s => ⟨State.serveTableGate_of_held,
      State.serveTableGate_of_users, fun c hh hu hc hbest => ?serveTable, State.serveTableGate_of_lookups,
      State.serveReplGate_of_nothing, fun c hh hc hbest => State.serveReplGate_of_claim hh (ReplGate.bestChain_waitingClaims hc hbest)⟩⟩
  case complete =>
    rw [State.afterPinRelease_of_unpinned hm hp, State.completeReplacement_of_holder hh hj hb he]
    refine ⟨fun ho => ?apart, fun ho => ?overlapping⟩
    case apart =>
      rw [State.carryOutMap_of_not_overlaps ho]
      rfl
    case overlapping =>
      rw [State.carryOutMap_of_overlaps ho, State.recordFault_of_job hj, Job.recordFault_eq]
      rfl
  case table => exact ite_congr (propext (and_congr_left fun _ => TableGate.hasUser_eq_false_iff)) (fun _ => rfl) fun _ => rfl
  case lookup => exact ite_congr (propext (and_congr_right fun _ => TableGate.waitingFor_eq_nil_iff)) (fun _ => rfl) fun _ => rfl
  case leaveTable => exact ite_congr (propext TableGate.has_iff) (fun _ => rfl) fun _ => rfl
  case leaveRepl => exact ite_congr (propext ReplGate.has_iff) (fun _ => rfl) fun _ => rfl
  case serveTable =>
    rw [State.serveTableGate_of_claim hh (TableGate.bestChain_waitingFor hc hbest),
      TableGate.hasUser_eq_false_iff.mpr hu]
    rfl

end Sys2Proof.Machine
end

section
/-! PROOFS. The reads of a table load (06 R115, R116). -/

namespace Sys2Proof.Machine

open Sys2Proof.Statements

/-! ## The source after an answer -/

section
variable {load : TableLoad} {offset length : Nat} {answer : ReadAnswer}

theorem length_answeredBytes (h : answer.hasLength length = true) : (answeredBytes length answer).length = length := by
  cases answer with
  | error => exact List.length_replicate
  | data bytes => exact List.length_map _ |>.trans (beq_iff_eq.mp h)

theorem getElem?_answeredBytes {i : Nat} (hi : i < length) : (answeredBytes length answer)[i]? =
    match answer with
      | .error => some .failed
      | .data bytes => (bytes[i]?).map .arrived := by
  cases answer with
  | error => exact List.getElem?_replicate_of_lt hi
  | data bytes => exact List.getElem?_map

theorem TableLoad.length_answer (hin : offset + length ≤ load.source.length) (h : answer.hasLength length = true) :
    (load.answer offset length answer).source.length = load.source.length := by
  have := length_answeredBytes h
  simp only [TableLoad.answer, List.length_append, List.length_take, List.length_drop, this]
  omega

theorem TableLoad.getElem?_answer (hin : offset + length ≤ load.source.length) (h : answer.hasLength length = true)
    (k : Nat) : (load.answer offset length answer).source[k]? =
      if offset ≤ k ∧ k < offset + length then (answeredBytes length answer)[k - offset]? else load.source[k]? := by
  have hlen := length_answeredBytes h
  have htake : (load.source.take offset).length = offset := List.length_take_of_le (by omega)
  unfold TableLoad.answer
  by_cases hlow : k < offset
  · rw [List.append_assoc, List.getElem?_append_left (by omega), List.getElem?_take_of_lt hlow, if_neg (by omega)]
  · by_cases hmid : k < offset + length
    · rw [List.append_assoc, List.getElem?_append_right (by omega), List.getElem?_append_left (by omega), htake,
        if_pos ⟨by omega, hmid⟩]
    · rw [List.getElem?_append_right (by simp only [List.length_append]; omega), List.getElem?_drop,
        if_neg (by omega)]
      congr 1
      simp only [List.length_append]
      omega

end

/-! ## The entries that a load writes -/

/-- Entries of a load written to the table in increasing order, from the first one not written before. -/
structure TableLoad.Writes (first : Nat) (load load' : TableLoad) (lut lut' : Vector (BitVec 16) 1024) : Prop where
  le : load.entriesLoaded ≤ load'.entriesLoaded
  same : load' = { load with entriesLoaded := load'.entriesLoaded }
  written : ∀ e, load.entriesLoaded ≤ e → e < load'.entriesLoaded →
    ∃ v, load.entryAt e = some v ∧ ∀ i : Fin 1024, i.val = first + e → lut'[i] = v
  others : ∀ i : Fin 1024, i.val < first + load.entriesLoaded ∨ first + load'.entriesLoaded ≤ i.val → lut'[i] = lut[i]

section
variable {first : Nat} {load load' : TableLoad} {lut lut' : Vector (BitVec 16) 1024}

theorem TableLoad.Writes.refl : load.Writes first load lut lut where
  le := Nat.le_refl _
  same := rfl
  written := fun _ hle hlt => absurd hlt (Nat.not_lt.mpr hle)
  others := fun _ _ => rfl

/-- One more entry at the front. -/
theorem TableLoad.Writes.cons {v : BitVec 16} (hv : load.entryAt load.entriesLoaded = some v)
    (h : TableLoad.Writes first { load with entriesLoaded := load.entriesLoaded + 1 } load'
      (lut.setIfInBounds (first + load.entriesLoaded) v) lut') : load.Writes first load' lut lut' := by
  obtain ⟨hle, hsame, hwritten, hothers⟩ := h
  dsimp only at hle hsame hwritten hothers
  refine ⟨by omega, hsame, fun e he he' => ?written, fun i hi => ?others⟩
  case written =>
    obtain rfl | hlt := Nat.eq_or_lt_of_le he
    · refine ⟨v, hv, fun i hi => ?_⟩
      rw [hothers i (.inl (by omega)), Fin.getElem_fin, Vector.getElem_setIfInBounds, if_pos hi.symm]
    · exact hwritten e hlt he'
  case others =>
    rw [hothers i (by omega), Fin.getElem_fin, Vector.getElem_setIfInBounds, if_neg (by omega), Fin.getElem_fin]

theorem loadEntries_writes (first fuel : Nat) (load : TableLoad) (lut : Vector (BitVec 16) 1024) :
    load.Writes first (loadEntries first fuel load lut).1 lut (loadEntries first fuel load lut).2 := by
  induction fuel generalizing load lut with
  | zero => exact .refl
  | succ fuel ih =>
    rw [loadEntries]
    cases hv : load.entryAt load.entriesLoaded with
    | none => exact .refl
    | some v => exact .cons hv (ih _ _)

/-- A load stops at its fuel or at an entry that is not there. -/
theorem loadEntries_stops (first fuel : Nat) (load : TableLoad) (lut : Vector (BitVec 16) 1024)
    (h : (loadEntries first fuel load lut).1.entriesLoaded < load.entriesLoaded + fuel) :
    load.entryAt (loadEntries first fuel load lut).1.entriesLoaded = none := by
  induction fuel generalizing load lut with
  | zero => exact absurd h (Nat.lt_irrefl _)
  | succ fuel ih =>
    rw [loadEntries] at h ⊢
    cases hv : load.entryAt load.entriesLoaded with
    | none => exact hv
    | some v =>
      rw [hv] at h
      dsimp only at h ⊢
      exact ih { load with entriesLoaded := load.entriesLoaded + 1 } _ (by dsimp only; omega)

theorem TableLoad.entryAt_some {e : Nat} {v : BitVec 16} (h : load.entryAt e = some v) : ∃ low high : Byte,
    load.source[2 * e]? = some (.arrived low) ∧ load.source[2 * e + 1]? = some (.arrived high) ∧ v = high ++ low := by
  unfold TableLoad.entryAt at h
  split at h
  case h_1 low high hlow hhigh => exact ⟨low, high, hlow, hhigh, (Option.some.inj h).symm⟩
  case h_2 => cases h

theorem TableLoad.entryAt_none {e : Nat} (h : load.entryAt e = none) :
    (¬ ∃ low, load.source[2 * e]? = some (.arrived low)) ∨ ¬ ∃ high, load.source[2 * e + 1]? = some (.arrived high) := by
  rw [← Classical.not_and_iff_not_or_not]
  rintro ⟨⟨low, hlow⟩, high, hhigh⟩
  unfold TableLoad.entryAt at h
  rw [hlow, hhigh] at h
  cases h

/-- Two bytes little-endian. -/
theorem toNat_append_bytes (high low : Byte) : (high ++ low).toNat = low.toNat + 256 * high.toNat := by
  rw [BitVec.toNat_append, ← Nat.shiftLeft_add_eq_or_of_lt low.isLt, Nat.shiftLeft_eq]
  omega

end

/-! ## The answer of a table read, and the resolution -/

section
variable {s : State} {c : ChainId} {j : Job} {b : TableBody} {load : TableLoad} {offset length : Nat} {answer : ReadAnswer}

/-- The entries loaded after an answer, and the table. -/
def TableLoad.loaded (load : TableLoad) (b : TableBody) (offset length : Nat) (answer : ReadAnswer)
    (lut : Vector (BitVec 16) 1024) : TableLoad × Vector (BitVec 16) 1024 :=
  loadEntries b.first.toNat b.count.toNat (load.answer offset length answer) lut

theorem TableLoad.source_loaded (lut : Vector (BitVec 16) 1024) :
    (load.loaded b offset length answer lut).1.source = (load.answer offset length answer).source := by
  unfold TableLoad.loaded
  rw [(loadEntries_writes _ _ _ lut).same]

/-- The job with its load, its first fault that of a failed read. -/
def Job.withAnswer (j : Job) (load : TableLoad) (answer : ReadAnswer) : Job := { j with
  load := some load
  firstFault := if answer = .error ∧ j.firstFault = none ∧ j.abortRequested = false then some .busRead else j.firstFault }

theorem Job.withAnswer_eq (load : TableLoad) : (if answer = .error then
    Job.recordFault .busRead { j with load := some load } else { j with load := some load }) = j.withAnswer load answer := by
  unfold Job.withAnswer
  by_cases h : answer = .error
  · simp only [h, if_true, true_and]
    exact Job.recordFault_eq _ _
  · simp only [h, if_false, false_and]

theorem State.tableAnswered_eq : s.tableAnswered c j b load offset length answer =
    if (load.loaded b offset length answer s.lut).1.complete then
      (State.setJob { s with lut := (load.loaded b offset length answer s.lut).2 } c
        (some (j.withAnswer (load.loaded b offset length answer s.lut).1 answer))).endTableRead.finishWork c
    else State.setJob { s with lut := (load.loaded b offset length answer s.lut).2 } c
      (some (j.withAnswer (load.loaded b offset length answer s.lut).1 answer)) := by
  rw [← Job.withAnswer_eq]
  rfl

/-- 06 R115: what the answer of a table resolution does. -/
def State.tableResolved (s : State) (c : ChainId) (j : Job) (b : TableBody) : Resolution → State
  | .resolved ranges _ used =>
    (s.setJob c (some { j with
      pins := j.pins ||| used
      load := some { ranges, source := List.replicate (b.count.toNat * 2) .unanswered, entriesLoaded := 0 } })).issue
      { kind := .tableRead, chain := c, line := none, ranges, cells := [] }
  | .held => s.setJob c (some { j with held := true })
  | .fault code => (s.recordFault c code).finishWork c

theorem State.tableResolve_of_table (hj : s.job c = some j) (hb : j.body = .table b) :
    s.tableResolve c = s.tableResolved c j b (s.resolveTable c j b) := by
  unfold State.tableResolve
  rw [hj]
  dsimp only
  split
  case h_1 b' hb' =>
    obtain rfl := Body.table.inj (hb.symm.trans hb')
    cases s.resolveTable c j b with
    | resolved ranges store used => rfl
    | held => rfl
    | fault code => rfl
  case h_2 hno => exact absurd hb (hno b)

end

/-- Settles O48: the answer in the source, the entries that it lets be written, and the resolution by its answer. -/
theorem tableReadsLoadEntriesInOrder : Obligations.TableReadsLoadEntriesInOrder := by
  unfold Obligations.TableReadsLoadEntriesInOrder
  refine ⟨fun offset length answer j b load a before after s hs hout hj hb hload h1 hin hlen hun => ?answered,
    fun load offset length answer hin hlen => ⟨rfl, TableLoad.length_answer hin hlen, fun k => ?source⟩,
    fun first count load lut => ?entries, fun c j b s hj hb => ?resolution⟩
  case answered =>
    have hexec : exec (.tableReadAnswered offset length answer) s =
        .next (s.tableAnswered a.chain j b load offset length answer) := by
      rw [exec_tableReadAnswered_outstanding hout,
        State.afterTableRead_awaited hj hb hload (TableLoad.awaits_of_unanswered h1 hin hun) hlen,
        if_neg (Bool.eq_false_iff.mp hs)]
    have hcomplete : (load.loaded b offset length answer s.lut).1.complete = true ↔
        ∀ x ∈ (load.answer offset length answer).source, x ≠ .unanswered := by
      rw [TableLoad.complete_iff, TableLoad.source_loaded]
    rw [State.tableAnswered_eq] at hexec
    refine ⟨fun ⟨x, hx, hxu⟩ => ?waits, fun hall => ?ends⟩
    case waits =>
      exact hexec.trans (congrArg Host.Outcome.next (if_neg fun hc => hcomplete.mp hc x hx hxu))
    case ends =>
      refine hexec.trans (congrArg Host.Outcome.next ((if_pos (hcomplete.mpr hall)).trans ?_))
      exact congrArg (State.finishWork · a.chain) (State.endTableRead_outstanding (by exact hout))
  case source =>
    rw [TableLoad.getElem?_answer hin hlen]
    by_cases hk : offset ≤ k ∧ k < offset + length
    · rw [if_pos hk, if_pos hk]
      exact getElem?_answeredBytes (by omega)
    · rw [if_neg hk, if_neg hk]
  case entries =>
    obtain ⟨hle, hsame, hwritten, hothers⟩ := loadEntries_writes first count load lut
    refine ⟨hle, hsame, fun e he he' => ?_, hothers, fun h => TableLoad.entryAt_none (loadEntries_stops _ _ _ _ h)⟩
    obtain ⟨v, hv, hlut⟩ := hwritten e he he'
    obtain ⟨low, high, hlow, hhigh, rfl⟩ := TableLoad.entryAt_some hv
    exact ⟨low, high, hlow, hhigh, fun i hi => (congrArg BitVec.toNat (hlut i hi)).trans (toNat_append_bytes high low)⟩
  case resolution =>
    rw [State.tableResolve_of_table hj hb]
    refine ⟨fun fetch store used hr => ?_, fun hr => ?_, fun code hr hf ha => ?_⟩
    · rw [hr]
      rfl
    · rw [hr]
      rfl
    · rw [hr, State.tableResolved, State.recordFault_first hj hf ha]
      rfl

end Sys2Proof.Machine
end

section
/-! PROOFS. Address forms, the walk of a footprint, and protection (08 R135 to R143). -/

namespace Sys2Proof.Machine

open Sys2Proof.Statements

/-! ## The address form (08 R136, R137) -/

theorem inOneHalf_iff (bits first : Nat) {length : Nat} (h : 1 ≤ length) :
    inOneHalf bits first (first + length - 1) = true ↔
      first + length ≤ 2 ^ (bits - 1) ∨ (2 ^ 64 - 2 ^ (bits - 1) ≤ first ∧ first + length ≤ 2 ^ 64) := by
  unfold inOneHalf
  rw [Bool.or_eq_true, Bool.and_eq_true, decide_eq_true_iff, decide_eq_true_iff, decide_eq_true_iff]
  refine or_congr ?_ (and_congr_right' ?_)
  · omega
  · omega

section
variable {r : Resolver} {first length : Nat}

theorem Resolver.footprint_plain (h : inOneHalf 40 first (first + length - 1) = true) :
    r.footprint false first length = .ranges [({ start := BitVec.ofNat 40 first, bytes := length }, none)] := by
  unfold Resolver.footprint
  dsimp only
  rw [if_neg Bool.false_ne_true, if_pos h]

theorem Resolver.footprint_plain_outside (h : ¬ inOneHalf 40 first (first + length - 1) = true) :
    r.footprint false first length = .fault .address := by
  unfold Resolver.footprint
  dsimp only
  rw [if_neg Bool.false_ne_true, if_neg h]

theorem Resolver.footprint_walk (h : inOneHalf 48 first (first + length - 1) = true) :
    r.footprint true first length = r.walk length first (first + length - 1) := by
  unfold Resolver.footprint
  dsimp only
  rw [if_pos rfl, if_pos h]

theorem Resolver.footprint_outside (h : ¬ inOneHalf 48 first (first + length - 1) = true) :
    r.footprint true first length = .fault .address := by
  unfold Resolver.footprint
  dsimp only
  rw [if_pos rfl, if_neg h]

end

/-! ## One entry of the walk (08 R140 to R143) -/

theorem matchEntry_none {entries : Vector (Option MapEntry) 32} {context : Fin 16} {x : Nat}
    (h : ∀ (m : EntryId) (e : MapEntry), entries[m] = some e → e.matches context x = false) :
    matchEntry entries context x = none := by
  unfold matchEntry
  rw [List.findSome?_eq_none_iff]
  intro m _
  split
  · next e he => exact if_neg (Bool.eq_false_iff.mp (h m e he))
  · rfl

/-- The bytes of a footprint that its first page covers. -/
def MapEntry.covered (e : MapEntry) (first length : Nat) : Nat :=
  min length (e.effectiveBase.toNat + e.size.bytes - first)

/-- The range of a footprint in its first page. -/
def MapEntry.range (e : MapEntry) (m : EntryId) (first length : Nat) : PhysRange × Option EntryId :=
  ({ start := e.physical first, bytes := e.covered first length }, some m)

/-- A range before what the rest of the footprint resolves to. -/
def FootprintAnswer.cons (range : PhysRange × Option EntryId) : FootprintAnswer → FootprintAnswer
  | .ranges more => .ranges (range :: more)
  | .held => .held
  | .fault code => .fault code

theorem FootprintAnswer.cons_eq_ranges {range : PhysRange × Option EntryId} {a : FootprintAnswer}
    {found : List (PhysRange × Option EntryId)} (h : a.cons range = .ranges found) :
    ∃ more, a = .ranges more ∧ found = range :: more := by
  cases a with
  | ranges more => exact ⟨more, rfl, (FootprintAnswer.ranges.inj h).symm⟩
  | held => cases h
  | fault code => cases h

section
variable {r : Resolver} {m : EntryId} {e : MapEntry} {first length : Nat}

theorem MapEntry.covered_pos (h1 : 1 ≤ length) (h : e.matches r.context first = true) : 1 ≤ e.covered first length := by
  have hx := (e.matches_iff _ _).mp h
  unfold MapEntry.covered
  omega

theorem Resolver.holds_iff : r.holds m = true ↔ r.pendingMark = some m ∧ r.pins.getLsbD m = false := by
  simp [Resolver.holds]

theorem Resolver.not_holds_iff : r.holds m = false ↔ r.pendingMark ≠ some m ∨ r.pins.getLsbD m = true := by
  rw [← Bool.not_eq_true, Resolver.holds_iff, Classical.not_and_iff_not_or_not, Bool.not_eq_false]

theorem Resolver.permits_eq : r.permits e = if r.write then e.writeRight else e.readRight := rfl

theorem Resolver.walk_end (r : Resolver) (fuel last : Nat) : r.walk fuel (last + 1) last = .ranges [] := by
  cases fuel with
  | zero => rfl
  | succ fuel => exact if_pos (Nat.lt_succ_self last)

theorem Resolver.walk_miss (h1 : 1 ≤ length) (hm : matchEntry r.entries r.context first = none) :
    r.walk length first (first + length - 1) = .fault .miss := by
  obtain ⟨n, rfl⟩ := Nat.exists_eq_add_of_le' h1
  rw [Resolver.walk, if_neg (by omega), hm]

theorem Resolver.walk_held (h1 : 1 ≤ length) (hm : matchEntry r.entries r.context first = some (m, e))
    (hh : r.holds m = true) : r.walk length first (first + length - 1) = .held := by
  obtain ⟨n, rfl⟩ := Nat.exists_eq_add_of_le' h1
  rw [Resolver.walk, if_neg (by omega), hm]
  exact if_pos hh

theorem Resolver.walk_denied (h1 : 1 ≤ length) (hm : matchEntry r.entries r.context first = some (m, e))
    (hh : r.holds m = false) (hp : r.permits e = false) :
    r.walk length first (first + length - 1) = .fault r.denied := by
  obtain ⟨n, rfl⟩ := Nat.exists_eq_add_of_le' h1
  rw [Resolver.walk, if_neg (by omega), hm]
  exact (if_neg (Bool.eq_false_iff.mp hh)).trans (if_neg (Bool.eq_false_iff.mp hp))

/-- A permitted range goes up to the end of its page, and the walk goes on after it. -/
theorem Resolver.walk_permitted (h1 : 1 ≤ length) (hm : matchEntry r.entries r.context first = some (m, e))
    (hh : r.holds m = false) (hp : r.permits e = true) : r.walk length first (first + length - 1) =
      (r.walk (length - e.covered first length) (first + e.covered first length) (first + length - 1)).cons
        (e.range m first length) := by
  have hx := (e.matches_iff _ _).mp (matchEntry_some hm).2
  have hl : e.pageLast = e.effectiveBase.toNat + e.size.bytes - 1 := rfl
  have hn : e.covered first length = min length (e.effectiveBase.toNat + e.size.bytes - first) := rfl
  have hstop : min (first + length - 1) e.pageLast + 1 = first + e.covered first length := by omega
  have hrange : e.range m first length =
      ({ start := e.physical first, bytes := first + e.covered first length - first }, some m) := by
    rw [Nat.add_sub_cancel_left]
    rfl
  rw [← r.walk_more_fuel (fuel := length - e.covered first length) (n := length - 1) (by omega) (by omega), hrange]
  obtain ⟨n, rfl⟩ := Nat.exists_eq_add_of_le' h1
  rw [Resolver.walk, if_neg (by omega), hm]
  dsimp only
  rw [if_neg (Bool.eq_false_iff.mp hh), if_pos hp, hstop, Nat.add_sub_cancel]
  cases r.walk n (first + e.covered first (n + 1)) (first + (n + 1) - 1) with
  | ranges more => rfl
  | held => rfl
  | fault code => rfl

end

/-! ## Line and table resolutions (08 R135, R143) -/

section
variable {s : State} {c : ChainId} {j : Job} {p n q k : Nat}

theorem State.resolveLine_of_fetch_fault {code : Code} (h : (s.resolver c j false).footprint s.ten p n = .fault code) :
    s.resolveLine c j p n q k = .fault code := by
  unfold State.resolveLine
  rw [h]

theorem State.resolveLine_of_fetch_held (h : (s.resolver c j false).footprint s.ten p n = .held) :
    s.resolveLine c j p n q k = .held := by
  unfold State.resolveLine
  rw [h]

/-- The answer of a line resolution whose fetch footprint is resolved, by its store footprint. -/
def FootprintAnswer.afterFetch (fetch : List (PhysRange × Option EntryId)) : FootprintAnswer → Resolution
  | .ranges store => .resolved (fetch.map (·.1)) (store.map (·.1)) (entriesUsed (fetch ++ store))
  | .held => .held
  | .fault code => .fault code

theorem State.resolveLine_of_fetch {fetch : List (PhysRange × Option EntryId)}
    (h : (s.resolver c j false).footprint s.ten p n = .ranges fetch) :
    s.resolveLine c j p n q k = ((s.resolver c j true).footprint s.ten q k).afterFetch fetch := by
  unfold State.resolveLine
  rw [h]
  dsimp only
  cases (s.resolver c j true).footprint s.ten q k with
  | ranges store => rfl
  | held => rfl
  | fault code => rfl

/-- The answer of a table resolution, by its footprint. -/
def FootprintAnswer.table : FootprintAnswer → Resolution
  | .ranges found => .resolved (found.map (·.1)) [] (entriesUsed found)
  | .held => .held
  | .fault code => .fault code

theorem State.resolveTable_eq (b : TableBody) : s.resolveTable c j b =
    ((s.resolver c j false).footprint s.ten b.source.toNat (b.count.toNat * 2)).table := by
  unfold State.resolveTable
  cases (s.resolver c j false).footprint s.ten b.source.toNat (b.count.toNat * 2) with
  | ranges found => rfl
  | held => rfl
  | fault code => rfl

end

/-- Settles O49: the address form first, then the entry that the first byte matches, and the rest of the footprint as a
footprint of its own. -/
theorem addressFormsAndOrderOfChecks : Obligations.AddressFormsAndOrderOfChecks := by
  unfold Obligations.AddressFormsAndOrderOfChecks
  refine ⟨fun r first length h1 => ⟨?plain, ?plainOutside, ?outside, ?inside⟩, fun entries context x m e => matchEntry_some,
    MapEntry.matches_iff, rfl, fun c j p n q k code s => State.resolveLine_of_fetch_fault,
    fun c j p n q k s => State.resolveLine_of_fetch_held, fun c j p n q k fetch s h => ?line, fun c j b s => ?table,
    fun r y => rfl⟩
  case plain => exact fun h => Resolver.footprint_plain ((inOneHalf_iff 40 first h1).mpr h)
  case plainOutside => exact fun h => Resolver.footprint_plain_outside fun hin => h ((inOneHalf_iff 40 first h1).mp hin)
  case outside => exact fun h => Resolver.footprint_outside fun hin => h ((inOneHalf_iff 48 first h1).mp hin)
  case inside =>
    intro hin
    rw [Resolver.footprint_walk ((inOneHalf_iff 48 first h1).mpr hin)]
    refine ⟨fun hno => Resolver.walk_miss h1 (matchEntry_none hno), fun m e hm => ⟨fun hpend hpin =>
      Resolver.walk_held h1 hm (Resolver.holds_iff.mpr ⟨hpend, hpin⟩), fun hh hw hr => ?read, fun hh hw hr => ?write,
      fun hh hp => ?permitted⟩⟩
    case read =>
      rw [Resolver.walk_denied h1 hm (Resolver.not_holds_iff.mpr hh) (by rw [Resolver.permits_eq, hw]; exact hr),
        Resolver.denied, hw]
      rfl
    case write =>
      rw [Resolver.walk_denied h1 hm (Resolver.not_holds_iff.mpr hh) (by rw [Resolver.permits_eq, hw]; exact hr),
        Resolver.denied, hw]
      rfl
    case permitted =>
      rw [Resolver.walk_permitted h1 hm (Resolver.not_holds_iff.mpr hh) hp]
      refine ⟨MapEntry.covered_pos h1 (matchEntry_some hm).2, fun hn => ?whole, fun hn => ?goesOn⟩
      case whole =>
        have hall : e.covered first length = length := hn
        rw [hall, Nat.sub_self]
        rfl
      case goesOn =>
        have hlt : e.covered first length < length := hn
        have hrest : first + length - 1 = first + e.covered first length + (length - e.covered first length) - 1 := by omega
        have hhalf : inOneHalf 48 (first + e.covered first length)
            (first + e.covered first length + (length - e.covered first length) - 1) = true :=
          (inOneHalf_iff 48 _ (by omega)).mpr (by omega)
        rw [hrest, ← Resolver.footprint_walk hhalf]
        change FootprintAnswer.cons _ (r.footprint true (first + e.covered first length) (length - e.covered first length)) =
          match r.footprint true (first + e.covered first length) (length - e.covered first length) with
            | .ranges more => .ranges (e.range m first length :: more)
            | .held => .held
            | .fault code => .fault code
        cases r.footprint true (first + e.covered first length) (length - e.covered first length) with
        | ranges more => rfl
        | held => rfl
        | fault code => rfl
  case line =>
    rw [State.resolveLine_of_fetch h]
    exact ⟨fun code => congrArg _, congrArg _, fun store => congrArg _⟩
  case table =>
    rw [State.resolveTable_eq]
    exact ⟨fun code => congrArg _, congrArg _, fun found => congrArg _⟩

/-! ## The entries of a resolved footprint -/

/-- A set of entries with that of a range. -/
def useEntry (acc : BitVec 32) (p : PhysRange × Option EntryId) : BitVec 32 :=
  match p.2 with
  | some m => acc ||| BitVec.twoPow 32 m
  | none => acc

theorem entriesUsed_eq (found : List (PhysRange × Option EntryId)) : entriesUsed found = found.foldl useEntry 0 := rfl

theorem getLsbD_useEntry (acc : BitVec 32) (p : PhysRange × Option EntryId) (m : EntryId) :
    (useEntry acc p).getLsbD m = true ↔ acc.getLsbD m = true ∨ p.2 = some m := by
  unfold useEntry
  cases p.2 with
  | none => simp
  | some n => simp [Fin.ext_iff, @eq_comm _ m.val]

theorem getLsbD_foldl_useEntry (found : List (PhysRange × Option EntryId)) (acc : BitVec 32) (m : EntryId) :
    (found.foldl useEntry acc).getLsbD m = true ↔ acc.getLsbD m = true ∨ ∃ p ∈ found, p.2 = some m := by
  induction found generalizing acc with
  | nil => simp
  | cons p rest ih =>
    rw [List.foldl_cons, ih, getLsbD_useEntry, or_assoc]
    simp only [List.mem_cons, exists_eq_or_imp]

theorem entriesUsed_iff (found : List (PhysRange × Option EntryId)) (m : EntryId) :
    (entriesUsed found).getLsbD m = true ↔ ∃ p ∈ found, p.2 = some m := by
  rw [entriesUsed_eq, getLsbD_foldl_useEntry]
  simp

/-- The byte at offset `k` of a footprint resolved to `found` goes through the entry `m`, to its physical page. -/
structure Resolver.Reaches (r : Resolver) (found : List (PhysRange × Option EntryId)) (first k : Nat) (m : EntryId)
    (e : MapEntry) : Prop where
  valid : r.entries[m] = some e
  matched : e.matches r.context (first + k) = true
  permitted : r.permits e = true
  notHeld : r.holds m = false
  used : ∃ p ∈ found, p.2 = some m
  placed : e.physicalBase.toNat + e.size.bytes ≤ 2 ^ 40 →
    (rangeAddresses (found.map (·.1)))[k]? = some (e.physicalBase.toNat + (first + k - e.effectiveBase.toNat))

section
variable {r : Resolver} {m : EntryId} {e : MapEntry} {first length k : Nat} {more : List (PhysRange × Option EntryId)}

theorem rangeAddresses_cons (p : PhysRange) (rest : List PhysRange) :
    rangeAddresses (p :: rest) = (List.range p.bytes).map (p.start.toNat + ·) ++ rangeAddresses rest :=
  List.flatMap_cons

/-- An address of the page has its place in the physical page. -/
theorem MapEntry.toNat_physical {x : Nat} (hx : x < e.effectiveBase.toNat + e.size.bytes)
    (h : e.physicalBase.toNat + e.size.bytes ≤ 2 ^ 40) (hle : e.effectiveBase.toNat ≤ x) :
    (e.physical x).toNat = e.physicalBase.toNat + (x - e.effectiveBase.toNat) := by
  unfold MapEntry.physical
  rw [BitVec.toNat_add, BitVec.toNat_ofNat, Nat.mod_eq_of_lt (a := x - _) (by omega), Nat.mod_eq_of_lt (by omega)]

/-- A byte of the first page. -/
theorem Resolver.Reaches.here (hm : matchEntry r.entries r.context first = some (m, e)) (hh : r.holds m = false)
    (hp : r.permits e = true) (hk : k < e.covered first length) :
    r.Reaches (e.range m first length :: more) first k m e := by
  obtain ⟨hvalid, hmatch⟩ := matchEntry_some hm
  obtain ⟨hctx, hle, hlt⟩ := (e.matches_iff _ _).mp hmatch
  have hcov : e.covered first length = min length (e.effectiveBase.toNat + e.size.bytes - first) := rfl
  refine ⟨hvalid, (e.matches_iff _ _).mpr ⟨hctx, by omega, by omega⟩, hp, hh, ⟨_, List.mem_cons_self, rfl⟩, fun hfit => ?_⟩
  have hstart := MapEntry.toNat_physical hlt hfit hle
  rw [List.map_cons, rangeAddresses_cons, List.getElem?_append_left (by simpa [MapEntry.range] using hk),
    List.getElem?_map, List.getElem?_range (by simpa [MapEntry.range] using hk), Option.map_some]
  simp only [MapEntry.range, hstart, Option.some.injEq]
  omega

/-- A byte after the first page. -/
theorem Resolver.Reaches.later {n : EntryId} {o : MapEntry} (hk : o.covered first length ≤ k)
    (h : r.Reaches more (first + o.covered first length) (k - o.covered first length) m e) :
    r.Reaches (o.range n first length :: more) first k m e := by
  have hadd : first + o.covered first length + (k - o.covered first length) = first + k := by omega
  obtain ⟨hvalid, hmatch, hp, hh, ⟨p, hpm, hpe⟩, hplaced⟩ := h
  rw [hadd] at hmatch hplaced
  refine ⟨hvalid, hmatch, hp, hh, ⟨p, List.mem_cons_of_mem _ hpm, hpe⟩, fun hfit => ?_⟩
  rw [List.map_cons, rangeAddresses_cons, List.getElem?_append_right (by simpa [MapEntry.range] using hk)]
  simpa [MapEntry.range] using hplaced hfit

end

/-- Every byte of a footprint that the walk resolves goes through an entry. -/
theorem Resolver.walk_reaches (r : Resolver) (length first : Nat) (found : List (PhysRange × Option EntryId))
    (h : r.walk length first (first + length - 1) = .ranges found) :
    (found.map fun p => p.1.bytes).sum = length ∧ ∀ k < length, ∃ m e, r.Reaches found first k m e := by
  induction length using Nat.strongRecOn generalizing first found with
  | ind length ih =>
    obtain rfl | h1 := Nat.eq_zero_or_pos length
    · obtain rfl := FootprintAnswer.ranges.inj h
      exact ⟨rfl, fun k hk => absurd hk (Nat.not_lt_zero k)⟩
    cases hm : matchEntry r.entries r.context first with
    | none =>
      rw [Resolver.walk_miss h1 hm] at h
      cases h
    | some found' =>
      obtain ⟨m, e⟩ := found'
      cases hh : r.holds m with
      | true =>
        rw [Resolver.walk_held h1 hm hh] at h
        cases h
      | false =>
        cases hp : r.permits e with
        | false =>
          rw [Resolver.walk_denied h1 hm hh hp] at h
          cases h
        | true =>
          have hpos := MapEntry.covered_pos h1 (matchEntry_some hm).2
          have hle : e.covered first length ≤ length := Nat.min_le_left ..
          rw [Resolver.walk_permitted h1 hm hh hp] at h
          obtain ⟨more, hmore, rfl⟩ := FootprintAnswer.cons_eq_ranges h
          have hlast : first + length - 1 = first + e.covered first length + (length - e.covered first length) - 1 := by omega
          rw [hlast] at hmore
          obtain ⟨hsum, hrest⟩ := ih _ (by omega) _ _ hmore
          refine ⟨?_, fun k hk => ?_⟩
          · rw [List.map_cons, List.sum_cons, hsum]
            exact Nat.add_sub_cancel' hle
          · by_cases hfirst : k < e.covered first length
            · exact ⟨m, e, .here hm hh hp hfirst⟩
            · obtain ⟨m', e', hreach⟩ := hrest (k - e.covered first length) (by omega)
              exact ⟨m', e', .later (Nat.le_of_not_lt hfirst) hreach⟩

/-- A footprint that resolves with TEN 1 is one that the walk resolves. -/
theorem Resolver.footprint_ranges {r : Resolver} {first length : Nat} {found : List (PhysRange × Option EntryId)}
    (h : r.footprint true first length = .ranges found) : r.walk length first (first + length - 1) = .ranges found := by
  by_cases hin : inOneHalf 48 first (first + length - 1) = true
  · exact (Resolver.footprint_walk hin).symm.trans h
  · rw [Resolver.footprint_outside hin] at h
    cases h

theorem FootprintAnswer.afterFetch_resolved {f : List (PhysRange × Option EntryId)} {a : FootprintAnswer}
    {fetch store : List PhysRange} {used : BitVec 32} (h : a.afterFetch f = .resolved fetch store used) : ∃ g,
    a = .ranges g ∧ fetch = f.map (·.1) ∧ store = g.map (·.1) ∧ used = entriesUsed (f ++ g) := by
  cases a with
  | ranges g =>
    obtain ⟨hf, hs, hu⟩ := Resolution.resolved.inj h
    exact ⟨g, rfl, hf.symm, hs.symm, hu.symm⟩
  | held => cases h
  | fault code => cases h

theorem FootprintAnswer.table_resolved {a : FootprintAnswer} {ranges store : List PhysRange} {used : BitVec 32}
    (h : a.table = .resolved ranges store used) :
    ∃ f, a = .ranges f ∧ ranges = f.map (·.1) ∧ store = [] ∧ used = entriesUsed f := by
  cases a with
  | ranges f =>
    obtain ⟨hf, hs, hu⟩ := Resolution.resolved.inj h
    exact ⟨f, rfl, hf.symm, hs.symm, hu.symm⟩
  | held => cases h
  | fault code => cases h

/-- Settles O50: the resolutions by their footprints, and each byte of a footprint by the walk. -/
theorem footprintThroughPermittingEntries : Obligations.FootprintThroughPermittingEntries := by
  unfold Obligations.FootprintThroughPermittingEntries
  refine ⟨fun c j write s => rfl, entriesUsed_iff, fun c j p n q k fetch store used s h => ?line,
    fun c j b ranges store used s h => FootprintAnswer.table_resolved ((State.resolveTable_eq b).symm.trans h),
    fun r first length found h1 h => ?footprint⟩
  case line =>
    cases hf : (s.resolver c j false).footprint s.ten p n with
    | ranges f =>
      rw [State.resolveLine_of_fetch hf] at h
      obtain ⟨g, hg, hrest⟩ := FootprintAnswer.afterFetch_resolved h
      exact ⟨f, g, rfl, hg, hrest⟩
    | held =>
      rw [State.resolveLine_of_fetch_held hf] at h
      cases h
    | fault code =>
      rw [State.resolveLine_of_fetch_fault hf] at h
      cases h
  case footprint =>
    obtain ⟨hsum, hbytes⟩ := Resolver.walk_reaches r length first found (Resolver.footprint_ranges h)
    refine ⟨hsum, fun k hk => ?_⟩
    obtain ⟨m, e, hreach⟩ := hbytes k hk
    exact ⟨m, e, hreach.valid, hreach.matched, ((e.matches_iff _ _).mp hreach.matched).1, hreach.permitted,
      fun hpend => (Resolver.not_holds_iff.mp hreach.notHeld).resolve_left (not_not_intro hpend), hreach.used,
      (entriesUsed_iff found m).mpr hreach.used, hreach.placed⟩

end Sys2Proof.Machine
end
